-- ==== Sys2Proof/Word.lean ====
section
/-! DEFINITION. The word types of the Dakmet 4160: what the manual itself treats as bits. -/

namespace Sys2Proof

/-- A 32-bit word: the unit of every host-visible structure (R184). -/
abbrev Word := BitVec 32

/-- One byte of the exchange window (R67). -/
abbrev Byte := BitVec 8

/-- A set of zones, bit n standing for zone n (R184). -/
abbrev ZoneSet := BitVec 4

/-- A set of delivery tags, bit n standing for tag n (R184). -/
abbrev TagSet := BitVec 8

/-- One of the four simulcast zones. -/
abbrev Zone := Fin 4

/-- One of the eight transmitter links T0 to T7, receiver links V0 to V7 or report pages 0 to 7. -/
abbrev Index8 := Fin 8

/-- The 24 data bits of an air block (R12). -/
abbrev BlockData := BitVec 24

end Sys2Proof
end

