-- ==== Sys2Proof/Config.lean ====
section
/-! DEFINITION. What the part fixes (sizes and places the manual states), the model's unit of time, and the free
values: opaque constants without a body, one for each value or order the manual leaves open. -/

namespace Sys2Proof.Config

/-- The first offset of the posting board in the exchange window (R67). -/
def boardBase : Nat := 0x1000

/-- The first offset of the report pages (R67). -/
def pagesBase : Nat := 0x21000

/-- The first unused offset of the exchange window (R67). -/
def usedEnd : Nat := 0x29000

/-- The size of the exchange window, 1 MB (R67). -/
def windowSize : Nat := 0x100000

/-- The size of the register block in bytes (R188). -/
def registerBlock : Nat := 32

/-- The number of words the host write buffer holds (R69). -/
def bufferSize : Nat := 16

/-- The number of message records (R99). -/
def records : Nat := 16384

/-- The number of subscriber records (R61). -/
def subscribers : Nat := 65536

/-- The record positions of one report page (R169). -/
def pageRecords : Nat := 63

/-- The most entries the reverse queue holds (R153). -/
def reverseSize : Nat := 256

/-- The most occupied records of one subscriber (R33). -/
def openLimit : Nat := 16

/-- The most records of one subscriber PLACED, ON AIR or AWAITING ACK at once (R120). -/
def flightLimit : Nat := 4

/-- The most pages of one zone section (R116). -/
def sectionPages : Nat := 24

/-- The most payload blocks of one zone section (R116). -/
def sectionBlocks : Nat := 118

/-- The blocks of one frame (R12). -/
def frameBlocks : Nat := 120

/-- Times of arrival are counted in microseconds from the timebase's start at power-on, so that second boundary k falls at k
seconds: DESIGN CHOICE, log entry 5. -/
def second : Nat := 1000000

/-- 0.9 s: a pulse earlier than this after the window opened is early (R7). -/
def windowOpensAt : Nat := 900000

/-- 1.1 s: the window has expired after this (R7). -/
def windowEndsAt : Nat := 1100000

/-- FREE VALUE. The frame serial after 2^32 - 1: the manual states no wrap behaviour (Conventions; DESIGN CHOICE, log entry 9). -/
opaque serialPastLimit : Nat → BitVec 32

/-- FREE VALUE. The clear run of a TRIPPED link after 255: the manual gives the range 0 to 255 and no rule for the
CLEAR observation that would pass it (R140 against the table of section 8.1; DESIGN CHOICE, log entry 10). -/
opaque clearRunPastLimit : Nat → BitVec 8

/-- FREE VALUE. Which of several pieces of work that reach the report writer at one second boundary is taken next
(R134, R173 and R175 say that either of two may be first; DESIGN CHOICE, log entry 11). -/
opaque pick : Nat → Nat

/-- FREE VALUE. Whether, where one step both lets a due page close and lets a waiting request be granted, the close is
taken first (R170, R173; DESIGN CHOICE, log entry 12). -/
opaque closeFirst : Nat → Bool

/-- FREE VALUE. Whether, at a frame mark, the builder takes its prediction before the link controllers take the mark
(R117, R128, R136; DESIGN CHOICE, log entry 13). -/
opaque predictFirst : Nat → Bool

end Sys2Proof.Config
end

