-- ==== Sys2Proof/Syntax.lean ====
section
/-! DEFINITION. The commands of the block: one constructor per row of spec/opcode_table.json, in the table's order. -/

namespace Sys2Proof

/-- The seven mirrors of the exchange header (R77); the office clock takes two words. -/
inductive Mirror where
  | answeredCount
  | queueLength
  | freeRecords
  | frameSerial
  | officeClock
  | lastPageIndex
  | lastPageSequence
  deriving DecidableEq, Repr

/-- The six non-urgent clients of the store arbiter, in the order of the rotation (R79). -/
inductive Client where
  | hostWindow
  | intake
  | frameBuilder
  | tracker
  | rollWalk
  | reportWriter
  deriving DecidableEq, Repr

/-- Which non-urgent clients request a burst at the moment the arbiter judges a grant (R79). -/
structure Requests where
  hostWindow : Bool
  intake : Bool
  frameBuilder : Bool
  tracker : Bool
  rollWalk : Bool
  reportWriter : Bool
  deriving DecidableEq, Repr

/-- The 24 bytes of the profile memory (R190). -/
abbrev Profile := Vector Byte 24

/-- A command: one row of the table of operations and events. Operands are what comes from outside the 4160 with the
event (an address, a value, a time of arrival, a received message, a link number); a command that is a posting's order
takes its parameters from the posting the intake unit holds, as R84 states. -/
inductive Instr where
  | powerOnReset
  | loadingComplete (profile : Option Profile)
  | loadingAccessRetry
  | engineReset (data : Word) (enables : BitVec 4)
  | secondBoundary
  | frameMark
  | holdoverLimitExpiry
  | referencePulse (time : Nat)
  | windowExpiry
  | referenceRecordAppend
  | hostWindowRead (offset : Nat)
  | hostWindowWrite (offset : Nat) (data : Word) (enables : BitVec 4)
  | slotBodyWrite
  | slotPost
  | slotWithdraw
  | slotReturn
  | reportPageReturn
  | droppedWrite
  | mirrorWrite (mirror : Mirror)
  | storeBurstGrant (encoder : Bool) (requests : Requests)
  | clearAnswers (data : Word) (enables : BitVec 4)
  | clearPageClosed (data : Word) (enables : BitVec 4)
  | clearFence (data : Word) (enables : BitVec 4)
  | clearLink (data : Word) (enables : BitVec 4)
  | clearReference (data : Word) (enables : BitVec 4)
  | clearEngine (data : Word) (enables : BitVec 4)
  | eventEnableWrite (data : Word) (enables : BitVec 4)
  | registerWriteIgnored (offset : Nat) (data : Word) (enables : BitVec 4)
  | postingTake
  | message
  | provision
  | amend
  | bar
  | unbar
  | retire
  | querySubscriber
  | credit
  | setPlan
  | periodClose
  | cancel
  | queryMessage
  | release
  | clockSet
  | setOffice
  | setClass
  | setLink
  | setReceiver
  | airStart
  | airStop
  | linkEnable
  | linkDisable
  | keyOff
  | keyRestore
  | linkRestore
  | queryLink
  | queryReceiver
  | unknownOrder
  | buildCandidate
  | lateBuildAppend
  | skipFrame (link : Index8)
  | cleanRunComplete (link : Index8)
  | linkStatusMessage (link : Index8) (alarms : Byte) (power : Bool) (position : Nat)
  | linkReportAppend
  | linkStatusOffer (link : Index8)
  | returnMessage (receiver : Index8) (bits : BitVec 40)
  | settleEntry
  | returnMessageItem
  | deadlineItem
  | expirySweepStart
  | sweepVisit
  | sweepClose
  | airStopClose
  | rollWalkVisit
  | pageAgeDue
  deriving DecidableEq, Repr

end Sys2Proof
end

