-- ==== Sys2Proof/WellFormed.lean ====
section
/-! DEFINITION. Which commands are well formed: the ranges the manual gives for the operands that are plain numbers. -/

namespace Sys2Proof

/-- Whether an offset of the exchange window names a whole word of it (R67, R184). -/
def windowOffsetOk (offset : Nat) : Bool :=
  offset % 4 == 0 && decide (offset < Config.windowSize)

/-- Whether a register offset is one whose writes are ignored: ENGINE STATE, FENCE RECORD, or 14h to 1Fh (R183, R188). -/
def ignoredOffsetOk (offset : Nat) : Bool :=
  offset == 0x00 || offset == 0x10 || offset == 0x14 || offset == 0x18 || offset == 0x1c

/-- The checks a command passes before it stands for an event of the block. Every command whose operands are bounded
by their types passes. -/
def Instr.wellFormed : Instr → Bool
  | .powerOnReset => true
  | .loadingComplete _ => true
  | .loadingAccessRetry => true
  | .engineReset _ _ => true
  | .secondBoundary => true
  | .frameMark => true
  | .holdoverLimitExpiry => true
  | .referencePulse _ => true
  | .windowExpiry => true
  | .referenceRecordAppend => true
  | .hostWindowRead offset => windowOffsetOk offset
  | .hostWindowWrite offset _ _ => windowOffsetOk offset
  | .slotBodyWrite => true
  | .slotPost => true
  | .slotWithdraw => true
  | .slotReturn => true
  | .reportPageReturn => true
  | .droppedWrite => true
  | .mirrorWrite _ => true
  | .storeBurstGrant _ _ => true
  | .clearAnswers _ _ => true
  | .clearPageClosed _ _ => true
  | .clearFence _ _ => true
  | .clearLink _ _ => true
  | .clearReference _ _ => true
  | .clearEngine _ _ => true
  | .eventEnableWrite _ _ => true
  | .registerWriteIgnored offset _ _ => ignoredOffsetOk offset
  | .postingTake => true
  | .message => true
  | .provision => true
  | .amend => true
  | .bar => true
  | .unbar => true
  | .retire => true
  | .querySubscriber => true
  | .credit => true
  | .setPlan => true
  | .periodClose => true
  | .cancel => true
  | .queryMessage => true
  | .release => true
  | .clockSet => true
  | .setOffice => true
  | .setClass => true
  | .setLink => true
  | .setReceiver => true
  | .airStart => true
  | .airStop => true
  | .linkEnable => true
  | .linkDisable => true
  | .keyOff => true
  | .keyRestore => true
  | .linkRestore => true
  | .queryLink => true
  | .queryReceiver => true
  | .unknownOrder => true
  | .buildCandidate => true
  | .lateBuildAppend => true
  | .skipFrame _ => true
  | .cleanRunComplete _ => true
  | .linkStatusMessage _ _ _ position => decide (position ≤ Config.frameBlocks)
  | .linkReportAppend => true
  | .linkStatusOffer _ => true
  | .returnMessage _ _ => true
  | .settleEntry => true
  | .returnMessageItem => true
  | .deadlineItem => true
  | .expirySweepStart => true
  | .sweepVisit => true
  | .sweepClose => true
  | .airStopClose => true
  | .rollWalkVisit => true
  | .pageAgeDue => true

end Sys2Proof
end

