-- ==== Sys2Proof/Machine/State.lean ====
section
/-! DEFINITION. The state of the 4160 as plain data, the reasons a step can stop, and the state after power-on reset. -/

namespace Sys2Proof.Machine

/-- Sparse data by key: entries with strictly rising keys, none equal to what an unlisted key holds. -/
abbrev Table (α : Type) := List (Nat × α)

/-! ## Names the manual gives to states -/

/-- The engine state (R177 to R179; codes R184). -/
inductive EngineState where
  | loading | setup | starting | running | stopping
  deriving DecidableEq, Repr

/-- The restart cause shown in ENGINE STATE (R183). -/
inductive RestartCause where
  | none | power | engine
  deriving DecidableEq, Repr

/-- The reference monitor's state (R6). -/
inductive MonitorState where
  | absent | locking | locked | holdover | lost
  deriving DecidableEq, Repr

/-- The state of a posting slot in the slot map (R70). -/
inductive SlotState where
  | free | posted | taken | answered
  deriving DecidableEq, Repr

/-- The state of a report page (R168). -/
inductive PageState where
  | empty | filling | filled
  deriving DecidableEq, Repr

/-- The state of a subscriber record (R22). -/
inductive SubscriberState where
  | vacant | active | barred
  deriving DecidableEq, Repr

/-- The state of a message record (R99). -/
inductive MessageState where
  | free | waiting | placed | onAir | awaitingAck | held
  deriving DecidableEq, Repr

/-- The kind of a message (R85). -/
inductive MessageKind where
  | tone | numeric | alpha
  deriving DecidableEq, Repr

/-- The outcome of a close (section 6.4). -/
inductive CloseOutcome where
  | delivered | sent | undelivered | expired | cancelled
  deriving DecidableEq, Repr

/-- The service state of a transmitter link (section 8.1). -/
inductive LinkState where
  | off | standby | keyed | tripped | latched | override
  deriving DecidableEq, Repr

/-- The skip setting of a transmitter link (R131). -/
inductive Skip where
  | none | oneIn5 | oneIn6 | oneIn7
  deriving DecidableEq, Repr

/-- One frame's judgement of a transmitter link (R138). -/
inductive Observation where
  | clear | alarm | silent
  deriving DecidableEq, Repr

/-- The kind of a dropped host write (R76). -/
inductive FenceKind where
  | outside | readOnly | slotOwned | state | report
  deriving DecidableEq, Repr

/-- The producers of report records that obtain reservations (R170). -/
inductive Producer where
  | intake | rollWalk | tracker | messageStore | linkUnit | monitor | builder
  deriving DecidableEq, Repr

/-! ## Engine control (chapter 11) -/

/-- The office settings (R180). -/
structure Office where
  code : Fin 64
  holdoverLimit : Nat
  missLatchLimit : Nat
  locationConfirm : Nat
  freshnessLimit : Nat
  flushInterval : Nat
  offPeakStart : Nat
  offPeakEnd : Nat
  weightHostWindow : Nat
  weightIntake : Nat
  weightFrameBuilder : Nat
  weightTracker : Nat
  weightRollWalk : Nat
  weightReportWriter : Nat
  deriving DecidableEq, Repr

/-- The default office settings with a given office code (R180). -/
def Office.defaults (code : Fin 64) : Office where
  code := code
  holdoverLimit := 8
  missLatchLimit := 4
  locationConfirm := 2
  freshnessLimit := 15
  flushInterval := 2
  offPeakStart := 0
  offPeakEnd := 0
  weightHostWindow := 2
  weightIntake := 4
  weightFrameBuilder := 4
  weightTracker := 4
  weightRollWalk := 1
  weightReportWriter := 2

/-- A service class (R181). -/
structure ServiceClass where
  twoWay : Bool
  alphaAllowed : Bool
  repeatCount : Nat
  retryLimit : Nat
  ackWindow : Nat
  backoffCap : Nat
  lifetime : Nat
  deriving DecidableEq, Repr

/-- The default service class (R181). -/
def ServiceClass.defaults : ServiceClass where
  twoWay := false
  alphaAllowed := true
  repeatCount := 1
  retryLimit := 3
  ackWindow := 4
  backoffCap := 4
  lifetime := 15

/-- Engine control: the engine state, the restart cause, the settings, and what the profile gave (R177, R180 to R182). -/
structure Engine where
  state : EngineState
  cause : RestartCause
  profileDefaulted : Bool
  subsystemVendor : BitVec 16
  subsystemId : BitVec 16
  office : Office
  classes : Vector ServiceClass 8
  deriving DecidableEq, Repr

/-! ## Air timing unit (chapter 1) -/

/-- A pending REFERENCE report (R11): the first unreported transition, its serial and clock, and later transitions. -/
structure ReferenceReport where
  enterLost : Bool
  serial : Nat
  second : Nat
  day : Nat
  later : Nat
  deriving DecidableEq, Repr

/-- The reference monitor (section 1.2). The window is closed, or open since the arrival of a pulse. `uncounted` says that
the entry into HOLDOVER fell on the second boundary that comes next, which is then not counted (R10). -/
structure Monitor where
  state : MonitorState
  window : Option Nat
  good : Nat
  holdover : Nat
  report : Option ReferenceReport
  uncounted : Bool
  deriving DecidableEq, Repr

/-- The air timing unit: the second boundaries passed since power-on, frame serial, pair phase, office clock, reference
monitor (R1, R2, R5, R6). `firstNext` says that the next second boundary is first of a pair. -/
structure Air where
  seconds : Nat
  serial : Nat
  firstNext : Bool
  day : Nat
  second : Nat
  monitor : Monitor
  deriving DecidableEq, Repr

/-! ## Account unit and subscriber table (chapters 2 and 3) -/

/-- A rate plan (section 3.1). -/
structure RatePlan where
  base : Nat
  perBlock : Nat
  urgentPercent : Nat
  allowance : Nat
  t1 : Nat
  t2 : Nat
  d1 : Nat
  d2 : Nat
  offPeakPercent : Nat
  cap : Nat
  warningLevel : Int
  recoveryMargin : Nat
  refundable : Bool
  deriving DecidableEq, Repr

/-- The power-on rate plan (R36). -/
def RatePlan.powerOn : RatePlan where
  base := 0
  perBlock := 0
  urgentPercent := 100
  allowance := 0
  t1 := 0
  t2 := 0
  d1 := 0
  d2 := 0
  offPeakPercent := 0
  cap := 0
  warningLevel := 0
  recoveryMargin := 0
  refundable := false

/-- The period counters of a subscriber record (R56). -/
structure Counters where
  messages : Nat
  textBlocks : Nat
  charges : Nat
  refunds : Nat
  credits : Int
  deriving DecidableEq, Repr

/-- The billing group of a subscriber record (section 2.1). -/
structure Billing where
  state : SubscriberState
  serviceClass : Fin 8
  plan : Fin 16
  slot : Fin 32
  homeZones : ZoneSet
  notifyMoves : Bool
  balance : Int
  creditLimit : Nat
  lowBalance : Bool
  period : Nat
  counters : Counters
  deriving DecidableEq, Repr

/-- The store group of a subscriber record (R33). -/
structure StoreGroup where
  openCount : Nat
  tags : TagSet
  deriving DecidableEq, Repr

/-- The reach group of a subscriber record (R34). -/
structure Reach where
  missCount : Nat
  unreachable : Bool
  heardZone : Option Zone
  heardCycle : Nat
  candidateZone : Option Zone
  candidateCount : Nat
  deriving DecidableEq, Repr

/-- A subscriber record: three groups with three owners (R19). -/
structure Subscriber where
  billing : Billing
  store : StoreGroup
  reach : Reach
  deriving DecidableEq, Repr

/-- Zero period counters. -/
def Counters.zero : Counters := ⟨0, 0, 0, 0, 0⟩

/-- The store group after either reset (R20). -/
def StoreGroup.reset : StoreGroup := ⟨0, 0⟩

/-- The reach group after either reset (R20). -/
def Reach.reset : Reach := ⟨0, false, none, 0, none, 0⟩

/-- The billing group after power-on reset (R20). -/
def Billing.powerOn : Billing := ⟨.vacant, 0, 0, 0, 0, false, 0, 0, false, 0, Counters.zero⟩

/-- A subscriber record after power-on reset: what an unlisted subscriber number holds (R20). -/
def Subscriber.powerOn : Subscriber := ⟨Billing.powerOn, StoreGroup.reset, Reach.reset⟩

/-- The roll walk (R59). Whether it holds a reservation is kept by the report writer. -/
structure RollWalk where
  inFlight : Bool
  next : Nat
  count : Nat
  deriving DecidableEq, Repr

/-- The account unit: the subscriber table, the sixteen plans, the office period and the roll walk. -/
structure Account where
  subscribers : Table Subscriber
  plans : Vector RatePlan 16
  period : Nat
  walk : RollWalk
  deriving DecidableEq, Repr

/-! ## Message store (chapter 6) -/

/-- A message record (section 6.1). The length L is the number of text bytes, and T follows from kind and L (R40). -/
structure MessageRecord where
  state : MessageState
  generation : BitVec 8
  subscriber : Nat
  kind : MessageKind
  urgent : Bool
  text : List Byte
  sequence : Word
  hostTag : Word
  charge : Nat
  refundable : Bool
  tag : Option (Fin 8)
  attempts : Nat
  eligible : Nat
  expiry : Nat
  placedSerial : Option Nat
  placedZones : ZoneSet
  airedZones : ZoneSet
  deadline : Option Nat
  cancelPending : Bool
  ackedPending : Bool
  deriving DecidableEq, Repr

/-- A message record after power-on reset: what an unlisted record index holds (R99). -/
def MessageRecord.powerOn : MessageRecord :=
  ⟨.free, 0, 0, .tone, false, [], 0, 0, 0, false, none, 0, 0, 0, none, 0, 0, none, false, false⟩

/-- The order key of a message: urgent flag and admission sequence (R101). -/
structure OrderKey where
  urgent : Bool
  sequence : Word
  deriving DecidableEq, Repr

/-- The expiry sweep (R108). `waiting` holds the generation of the record at `next` for which the sweep has asked a
reservation. -/
structure Sweep where
  inFlight : Bool
  next : Nat
  bound : Nat
  restart : Bool
  waiting : Option (BitVec 8)
  deriving DecidableEq, Repr

/-- The sweep after either reset (R108). -/
def Sweep.reset : Sweep := ⟨false, 0, 0, false, none⟩

/-- The message store: records, the count of FREE records, the admission sequence, the 32 frame lists, the expiry sweep,
and the records held for an air-stop close, lowest first (R101, R106, R108, R109). -/
structure MessageStore where
  records : Table MessageRecord
  freeCount : Nat
  sequence : Word
  lists : Vector (List Nat) 32
  sweep : Sweep
  airStop : List Nat
  deriving DecidableEq, Repr

/-! ## Frame builder (chapter 7) -/

/-- A page entry of a zone section: the record, its generation, and the B data words of the page (R116, R146). -/
structure PageEntry where
  record : Nat
  generation : BitVec 8
  words : List BlockData
  deriving DecidableEq, Repr

/-- A zone section: an ordered list of page entries. Its page count and payload block count follow from it (R116). -/
abbrev Section := List PageEntry

/-- A frame page: one section per zone (R116). -/
abbrev FramePage := Vector Section 4

/-- A candidate taken from the frame list: its handle, and its target zones once it has passed checks 1 to 5 and its place
request is sent (R118, R123). -/
structure Candidate where
  record : Nat
  generation : BitVec 8
  targets : Option ZoneSet
  deriving DecidableEq, Repr

/-- The build in hand: its serial, the key of the last record examined, the predicted lit zones, and the candidate between
its reading and the end of its checks or its place step (R114, R118, R128). -/
structure Build where
  serial : Nat
  position : Option OrderKey
  lit : ZoneSet
  candidate : Option Candidate
  deriving DecidableEq, Repr

/-- A pending LATE BUILD report (R125). -/
structure LateReport where
  serial : Nat
  list : Nat
  left : Nat
  pages0 : Nat
  pages1 : Nat
  pages2 : Nat
  pages3 : Nat
  later : Nat
  deriving DecidableEq, Repr

/-- The frame builder (R114, R116). -/
structure Builder where
  inHand : Option Build
  due : Option Nat
  late : Option LateReport
  pages : Vector FramePage 4
  deriving DecidableEq, Repr

/-! ## Link unit and encoder (chapter 8) -/

/-- The settings of a transmitter link (R131). -/
structure LinkSettings where
  zone : Option Zone
  skip : Skip
  blankingCount : Nat
  tripCount : Nat
  recoveryFrames : Nat
  latchLimit : Nat
  cadence : Nat
  deriving DecidableEq, Repr

/-- A link's settings after power-on reset, the zone apart (R131). -/
def LinkSettings.powerOn (zone : Option Zone) : LinkSettings := ⟨zone, .none, 2, 3, 8, 4, 4⟩

/-- The capture of a trip (R140). -/
structure Capture where
  serial : Nat
  position : Nat
  kind : Observation
  alarms : Byte
  deriving DecidableEq, Repr

/-- A pending trip report (R143). -/
structure TripReport where
  capture : Capture
  latched : Bool
  latchCounter : Nat
  created : Nat
  later : Nat
  deriving DecidableEq, Repr

/-- A pending recovery report (R143). -/
structure RecoveryReport where
  serial : Nat
  position : Nat
  later : Nat
  deriving DecidableEq, Repr

/-- A transmitter link controller: its settings and every item of section 8.1's table. -/
structure Link where
  settings : LinkSettings
  state : LinkState
  keyOffPending : Bool
  keyed : Bool
  carried : Bool
  skipCounter : Nat
  blanking : Nat
  statusTaken : Bool
  lastObservation : Option Observation
  alert : Bool
  faultRun : Nat
  clearRun : Nat
  latchCounter : Nat
  cleanRun : Nat
  capture : Option Capture
  trip : Option TripReport
  recovery : Option RecoveryReport
  divider : Nat
  clearCount : Nat
  alarmCount : Nat
  silentCount : Nat
  blankedCount : Nat
  dropped : Nat
  deriving DecidableEq, Repr

/-- A controller after either reset, with given settings (R130). -/
def Link.reset (settings : LinkSettings) : Link where
  settings := settings
  state := .off
  keyOffPending := false
  keyed := false
  carried := false
  skipCounter := 0
  blanking := 0
  statusTaken := false
  lastObservation := none
  alert := false
  faultRun := 0
  clearRun := 0
  latchCounter := 0
  cleanRun := 0
  capture := none
  trip := none
  recovery := none
  divider := 0
  clearCount := 0
  alarmCount := 0
  silentCount := 0
  blankedCount := 0
  dropped := 0

/-- The frame in progress at the encoder: its serial, the entry list of its airing report, and the four zone frames of
120 codewords (R145, R146). -/
structure Frame where
  serial : Nat
  entries : List (Nat × BitVec 8)
  zoneFrames : Vector (List Word) 4
  deriving DecidableEq, Repr

/-! ## Delivery tracker (chapter 9) -/

/-- A receiver link: two settings and five counters (R150). -/
structure Receiver where
  zone : Zone
  enabled : Bool
  accepted : Nat
  badCheck : Nat
  disabled : Nat
  foreign : Nat
  queueFull : Nat
  deriving DecidableEq, Repr

/-- A receiver link after power-on reset, with its zone from the profile (R150). -/
def Receiver.powerOn (zone : Zone) : Receiver := ⟨zone, false, 0, 0, 0, 0, 0⟩

/-- An entry of the reverse queue (R152). -/
structure ReverseEntry where
  link : Index8
  zone : Zone
  isAck : Bool
  address : Nat
  tag : Fin 8
  arrival : Nat
  deriving DecidableEq, Repr

/-- An entry of the deadline list (R162). -/
structure DeadlineEntry where
  record : Nat
  generation : BitVec 8
  serial : Nat
  deriving DecidableEq, Repr

/-- An entry of the settle list (R157). -/
structure SettleEntry where
  record : Nat
  generation : BitVec 8
  serial : Nat
  zones : ZoneSet
  deriving DecidableEq, Repr

/-- The delivery tracker. Whether it holds or has asked for a reservation is kept by the report writer (R155). -/
structure Tracker where
  receivers : Vector Receiver 8
  reverse : List ReverseEntry
  deadlines : List DeadlineEntry
  settle : List SettleEntry
  deriving DecidableEq, Repr

/-! ## Store arbiter (section 4.7) -/

/-- Whose burst the DRAM port carries. -/
inductive Port where
  | idle
  | encoder
  | client (c : Client)
  deriving DecidableEq, Repr

/-- The store arbiter: the present holder of the rotation, its run count, and the burst in progress (R78, R79). -/
structure Arbiter where
  holder : Client
  run : Nat
  port : Port
  deriving DecidableEq, Repr

/-! ## The exchange: window guard, intake unit, report writer, registers -/

/-- The fence record when it is not clear (R76). `seen` is the code of the state seen, where the kind has one. -/
structure Fence where
  kind : FenceKind
  offset : Nat
  seen : Option Word
  later : Nat
  deriving DecidableEq, Repr

/-- One word of the host write buffer (R69). -/
structure BufferedWrite where
  offset : Nat
  data : Word
  enables : BitVec 4
  deriving DecidableEq, Repr

/-- A delayed read of the exchange window in progress at the bus interface (R68): its word offset, how many host writes were
accepted after it, and the word its burst fetched, if it has been granted. One at a time: DESIGN CHOICE, log entry 4. -/
structure DelayedRead where
  offset : Nat
  after : Nat
  data : Option Word
  deriving DecidableEq, Repr

/-- The groups of a subscriber record that a QUERY SUBSCRIBER in hand has copied so far: the billing group, then the store
group (R31). -/
structure QueryCopy where
  billing : Billing
  store : Option StoreGroup
  deriving DecidableEq, Repr

/-- The answer codes (R184). -/
inductive AnswerCode where
  | accepted | adjusted | deferred | unknownSubscriber | inUse | barred | serviceMismatch | malformed | subscriberFull
  | storeFull | insufficientCredit | noSuchMessage | closing | openMessages | notInSetup | notRunning | rollBusy
  | unknownOrder
  deriving DecidableEq, Repr

/-- What rating computes: T, raw, u, d, op, whether the allowance applied, and the charge. -/
structure Rating where
  blocks : Nat
  raw : Nat
  surcharged : Nat
  discount : Nat
  offPeak : Nat
  free : Bool
  charge : Nat
  deriving DecidableEq, Repr

/-- What the intake unit carries from check 3 to the commit. -/
structure Draft where
  subscriber : Nat
  kind : MessageKind
  urgent : Bool
  text : List Byte
  hostTag : Word
  replaced : Nat
  deriving DecidableEq, Repr

/-- A change of the low-balance flag that still has its BALANCE ALERT to come: the direction, and the warning level, recovery
margin and plan of the judgement (R49, R50). -/
structure Alert where
  raised : Bool
  warningLevel : Int
  recoveryMargin : Nat
  plan : Fin 16
  deriving DecidableEq, Repr

/-- What the account unit returns of a message it has charged, with what its ADMIT and BALANCE ALERT will carry: the rating,
the period number, the balance after, the plan's refundable flag, and the change of the flag (R48). -/
structure Charged where
  rating : Rating
  period : Nat
  balance : Int
  refundable : Bool
  alert : Option Alert
  deriving DecidableEq, Repr

/-- What the message store returns of a commit: the record occupied, its generation, and the state entered (R89). -/
structure Entered where
  record : Nat
  generation : BitVec 8
  state : MessageState
  deriving DecidableEq, Repr

/-- How far the owners have taken the posting in hand, with what they have answered: nothing yet; the groups a QUERY
SUBSCRIBER has copied (R31); a message past checks 1 to 7 (R87), charged (R88), and committed (R89); and an answer that is
decided and not yet written (R95). -/
inductive Progress where
  | begun
  | copied (copy : QueryCopy)
  | checked (draft : Draft)
  | charged (draft : Draft) (charge : Charged)
  | committed (draft : Draft) (charge : Charged) (entry : Entered)
  | decided (code : AnswerCode) (data : List Word)
  deriving DecidableEq, Repr

/-- The intake unit (section 5.1). A posting is the 63 words of the slot body as read at the take (R84). -/
inductive IntakeState where
  | idle
  | roomWait
  | taking
  | working (slot : Nat) (posting : List Word)
  | answering (slot : Nat)
  deriving DecidableEq, Repr

/-- The six event bits, as EVENT SUMMARY and EVENT ENABLE hold them (R183). -/
structure EventBits where
  answers : Bool
  pageClosed : Bool
  fence : Bool
  link : Bool
  reference : Bool
  engine : Bool
  deriving DecidableEq, Repr

/-- All six bits clear. -/
def EventBits.clear : EventBits := ⟨false, false, false, false, false, false⟩

/-- The report writer (R168): the page states; record count, age count and due mark of the FILLING page; the next page;
the page sequence counter; the index and sequence of the page closed last; the waiting requests in the order made; and
the positions each producer still holds, whose sum is the reserved total. -/
structure Writer where
  pages : Vector PageState 8
  count : Nat
  age : Nat
  due : Bool
  next : Index8
  sequence : Word
  lastIndex : Index8
  lastSequence : Word
  waiting : List Producer
  held : List (Producer × Nat)
  deriving DecidableEq, Repr

/-- The report writer after either reset (R168). -/
def Writer.reset : Writer where
  pages := Vector.replicate 8 .empty
  count := 0
  age := 0
  due := false
  next := 0
  sequence := 1
  lastIndex := 0
  lastSequence := 0
  waiting := []
  held := []

/-- What the bus interface answers to the last PCI access: nothing yet, retry, a write accepted, or a word of data.
The MODEL's own field: the reply the host sees on the bus (DESIGN CHOICE, log entry 4). -/
inductive BusReply where
  | none
  | retry
  | done
  | data (w : Word)
  deriving DecidableEq, Repr

/-- Everything behind the two host windows: the bytes of the exchange window, the window guard (slot map, posting queue,
answered count, fence record, write buffer, mirror notices), the two event registers, the intake unit, the report writer,
the bus reply, the delayed read in progress, and how far the posting in hand has come. The state words of slots and report
pages are not among the bytes: they read as the slot map and the page states (R70, R75). `choices` is the MODEL's own counter of the free values used so far (DESIGN CHOICE, log entry 11). -/
structure Exchange where
  mem : List Host.Cell
  slots : Table SlotState
  queue : List Nat
  answered : Nat
  fence : Option Fence
  buffer : List BufferedWrite
  notices : List Mirror
  summary : EventBits
  enable : EventBits
  intake : IntakeState
  writer : Writer
  bus : BusReply
  read : Option DelayedRead
  progress : Progress
  choices : Nat
  deriving DecidableEq, Repr

/-! ## The whole machine -/

/-- The state of the 4160, and the queue of the commands that are waiting, first in, first out. -/
structure State where
  pending : List Instr
  engine : Engine
  air : Air
  account : Account
  store : MessageStore
  builder : Builder
  links : Vector Link 8
  frame : Option Frame
  tracker : Tracker
  arbiter : Arbiter
  ex : Exchange
  deriving DecidableEq, Repr

/-- Why the block stops with a fault. -/
inductive Fault where
  /-- A host access at an offset the exchange window or the register block does not have. Raised by HOST_WINDOW_READ,
  HOST_WINDOW_WRITE and REGISTER_WRITE_IGNORED. Safe: the access reaches no part of the 4160 (R67, R188). -/
  | outsideWindow (offset : Nat)
  deriving DecidableEq, Repr

/-- Why a command has no meaning. -/
inductive Refusal where
  /-- No arm of exec has been written for the command. Raised by exec alone. Safe: nothing is claimed of it. -/
  | notModelled (mnemonic : String)
  deriving DecidableEq, Repr

/-! ## Reset -/

/-- The default zone of transmitter link and receiver link n: n div 2 (R177). -/
def defaultZone (n : Index8) : Zone := ⟨n.val / 2, by omega⟩

/-- The reference monitor after power-on reset (R6). -/
def Monitor.powerOn : Monitor := ⟨.absent, none, 0, 0, none, false⟩

/-- The air timing unit after power-on reset (R1, R2, R5, R6). -/
def Air.powerOn : Air := ⟨0, 0, true, 0, 0, Monitor.powerOn⟩

/-- Engine control when power-on reset puts the engine in LOADING. The settings it holds until the load writes them are
the default set: DESIGN CHOICE, log entry 2. -/
def Engine.powerOn : Engine where
  state := .loading
  cause := .power
  profileDefaulted := false
  subsystemVendor := 0
  subsystemId := 0
  office := Office.defaults 0
  classes := Vector.replicate 8 ServiceClass.defaults

/-- The account unit after power-on reset (R20, R36, R59). -/
def Account.powerOn : Account := ⟨[], Vector.replicate 16 RatePlan.powerOn, 0, ⟨false, 0, 0⟩⟩

/-- The message store after power-on reset (R99, R101, R106, R108). -/
def MessageStore.powerOn : MessageStore := ⟨[], Config.records, 0, Vector.replicate 32 [], Sweep.reset, []⟩

/-- The builder after either reset: no build, no report, every section empty (R114, R127). -/
def Builder.reset : Builder := ⟨none, none, none, Vector.replicate 4 (Vector.replicate 4 [])⟩

/-- The tracker after power-on reset, the receiver zones as in the default map until the load writes them (R150, R166). -/
def Tracker.powerOn : Tracker := ⟨Vector.ofFn fun n => Receiver.powerOn (defaultZone n), [], [], []⟩

/-- The arbiter after power-on reset: the report writer holds with run count 0 (R79). The port idles: DESIGN CHOICE, log
entry 2. -/
def Arbiter.reset : Arbiter := ⟨.reportWriter, 0, .idle⟩

/-- The bytes of the exchange window after power-on reset: the free message records mirror holds 16384, which is 4000h,
at offset 008h (R77); every other byte reads as an unlisted address does. -/
def memoryPowerOn : List Host.Cell := [(9, 0x40)]

/-- The exchange after power-on reset (R69, R70, R72, R74, R76, R77, R81, R168, R177). -/
def Exchange.powerOn : Exchange where
  mem := memoryPowerOn
  slots := []
  queue := []
  answered := 0
  fence := none
  buffer := []
  notices := []
  summary := EventBits.clear
  enable := EventBits.clear
  intake := .idle
  writer := Writer.reset
  bus := .none
  read := none
  progress := .begun
  choices := 0

/-- The machine right after power-on reset: LOADING, restart cause POWER, every block at its power-on values (R177). -/
def State.reset : State where
  pending := []
  engine := Engine.powerOn
  air := Air.powerOn
  account := Account.powerOn
  store := MessageStore.powerOn
  builder := Builder.reset
  links := Vector.ofFn fun n => Link.reset (LinkSettings.powerOn (some (defaultZone n)))
  frame := none
  tracker := Tracker.powerOn
  arbiter := Arbiter.reset
  ex := Exchange.powerOn

end Sys2Proof.Machine
end

