-- ==== Sys2Proof/Machine/Ops.lean ====
section
/-! DEFINITION. Named operations over the sparse tables, the bytes of the exchange window, sets and counters, and the
accessors of State every family uses. -/

namespace Sys2Proof.Machine

/-! ## Sparse tables -/

variable {α : Type}

/-- What the table holds at key `a`: the listed value, or `d` where the key is not listed. -/
def Table.get (d : α) : Table α → Nat → α
  | [], _ => d
  | (k, v) :: rest, a => if a = k then v else Table.get d rest a

/-- The table with key `a` holding `v`. A key that comes to hold what an unlisted key holds leaves the list. -/
def Table.set [DecidableEq α] (d : α) (a : Nat) (v : α) : Table α → Table α
  | [] => if v = d then [] else [(a, v)]
  | (k, w) :: rest =>
    if a < k then (if v = d then (k, w) :: rest else (a, v) :: (k, w) :: rest)
    else if a = k then (if v = d then rest else (a, v) :: rest)
    else (k, w) :: Table.set d a v rest

/-- The table with `f` applied to every listed value; values that become the unlisted one leave the list. -/
def Table.mapValues [DecidableEq α] (d : α) (f : Nat → α → α) : Table α → Table α
  | [] => []
  | (k, v) :: rest =>
    if f k v = d then Table.mapValues d f rest else (k, f k v) :: Table.mapValues d f rest

/-- Whether the keys rise strictly from `low` on and no listed value is the unlisted one. -/
def Table.wfFrom [DecidableEq α] (d : α) (low : Nat) : Table α → Bool
  | [] => true
  | (k, v) :: rest => decide (low ≤ k) && decide (v ≠ d) && Table.wfFrom d (k + 1) rest

/-- The canonical form of a sparse table: strictly rising keys and no listed value equal to the unlisted one. -/
def Table.wf [DecidableEq α] (d : α) (t : Table α) : Bool := Table.wfFrom d 0 t

/-- How many listed values satisfy `p`. -/
def Table.countWhere (p : α → Bool) (t : Table α) : Nat := (t.filter fun e => p e.2).length

/-- The keys, in rising order, whose listed values satisfy `p`. -/
def Table.keysWhere (p : Nat → α → Bool) (t : Table α) : List Nat := (t.filter fun e => p e.1 e.2).map (·.1)

/-! ## The bytes of the exchange window -/

/-- What a byte that nothing has written reads as: 00h. DESIGN CHOICE where the manual calls the content undefined
(R70), log entry 3. -/
def blankByte : Byte := 0

/-- One byte of the exchange window's memory. -/
def Memory.read (m : List Host.Cell) (a : Nat) : Byte := Table.get blankByte m a

/-- The memory with one byte written. -/
def Memory.write (m : List Host.Cell) (a : Nat) (b : Byte) : List Host.Cell := Table.set blankByte a b m

/-- The canonical form of the memory. -/
def Memory.wf (m : List Host.Cell) : Bool := Table.wf blankByte m

/-- A 32-bit word in little-endian byte order (R184). -/
def Memory.readWord (m : List Host.Cell) (a : Nat) : Word :=
  Memory.read m (a + 3) ++ Memory.read m (a + 2) ++ Memory.read m (a + 1) ++ Memory.read m a

/-- Byte `i` of a word, byte 0 the least significant (R184). -/
def byteOf (w : Word) (i : Nat) : Byte := w.extractLsb' (8 * i) 8

/-- The bytes of a word that `enables` selects, written at a word-aligned offset (R69, R184). -/
def Memory.writeEnabled (m : List Host.Cell) (a : Nat) (w : Word) (enables : BitVec 4) : List Host.Cell :=
  let put (m : List Host.Cell) (i : Nat) : List Host.Cell :=
    if enables.getLsbD i then Memory.write m (a + i) (byteOf w i) else m
  put (put (put (put m 0) 1) 2) 3

/-- A whole word written in little-endian byte order (R184). -/
def Memory.writeWord (m : List Host.Cell) (a : Nat) (w : Word) : List Host.Cell :=
  Memory.writeEnabled m a w 0xF

/-- Words written at rising word offsets from `a`. -/
def Memory.writeWords (m : List Host.Cell) (a : Nat) : List Word → List Host.Cell
  | [] => m
  | w :: rest => Memory.writeWords (Memory.writeWord m a w) (a + 4) rest

/-- `n` words read at rising word offsets from `a`. -/
def Memory.readWords (m : List Host.Cell) : (a n : Nat) → List Word
  | _, 0 => []
  | a, n + 1 => Memory.readWord m a :: Memory.readWords m (a + 4) n

/-! ## Counters, sets, lists -/

/-- A counter raised by `n` that stops at `limit`. -/
def saturate (limit c n : Nat) : Nat := min limit (c + n)

/-- A value replaced by the nearest end of a range. -/
def clamp (low high v : Nat) : Nat := max low (min high v)

/-- The least and greatest signed 32-bit values. -/
def intMin : Int := -2147483648

/-- The greatest signed 32-bit value. -/
def intMax : Int := 2147483647

/-- A sum clamped into the signed 32-bit range. -/
def clampInt (v : Int) : Int := max intMin (min intMax v)

/-- The set that holds just zone `z`. -/
def zoneBit (z : Zone) : ZoneSet := 1 <<< z.val

/-- The set that holds just tag `t`. -/
def tagBit (t : Fin 8) : TagSet := 1 <<< t.val

/-- The lowest tag not in the set, if there is one (R102, R105). -/
def lowestTag (tags : TagSet) : Option (Fin 8) := (List.finRange 8).find? fun t => !tags.getLsbD t.val

/-- The cycle number of a frame serial (Introduction). -/
def cycleOf (serial : Nat) : Nat := serial / 32

/-- The frame number of a frame serial (Introduction). -/
def frameOf (serial : Nat) : Fin 32 := Fin.ofNat 32 serial

/-- Whether key `a` comes before key `b`: urgent first, then the smaller sequence (R101). -/
def OrderKey.before (a b : OrderKey) : Bool :=
  if a.urgent = b.urgent then decide (a.sequence < b.sequence) else a.urgent

/-- An index inserted before the first entry whose key comes after its own (R106). -/
def insertByKey (key : Nat → OrderKey) (i : Nat) : List Nat → List Nat
  | [] => [i]
  | j :: rest => if (key i).before (key j) then i :: j :: rest else j :: insertByKey key i rest

/-- An index inserted into a strictly rising list. -/
def insertRising (i : Nat) : List Nat → List Nat
  | [] => [i]
  | j :: rest => if i < j then i :: j :: rest else if i = j then j :: rest else j :: insertRising i rest

/-- A deadline entry inserted by deadline serial, then by record index (R162). -/
def insertDeadline (e : DeadlineEntry) : List DeadlineEntry → List DeadlineEntry
  | [] => [e]
  | f :: rest =>
    if e.serial < f.serial ∨ (e.serial = f.serial ∧ e.record < f.record) then e :: f :: rest
    else f :: insertDeadline e rest

/-- The elements in an order taken from the free value `Config.pick`: the next one is any of those left (DESIGN CHOICE,
log entry 11). -/
def arrange {β : Type} (c : Nat) : Nat → List β → List β
  | 0, xs => xs
  | _ + 1, [] => []
  | _ + 1, [x] => [x]
  | n + 1, x :: xs =>
    let k := Config.pick c % (xs.length + 1)
    (x :: xs).getD k x :: arrange (c + 1) n ((x :: xs).eraseIdx k)

/-! ## Accessors of State -/

/-- The record of a subscriber number (R19). -/
def State.sub (s : State) (n : Nat) : Subscriber := Table.get Subscriber.powerOn s.account.subscribers n

/-- The state with a subscriber record replaced. -/
def State.setSub (s : State) (n : Nat) (u : Subscriber) : State :=
  { s with account.subscribers := Table.set Subscriber.powerOn n u s.account.subscribers }

/-- The state with a billing group replaced: a request to the account unit (R19). -/
def State.setBilling (s : State) (n : Nat) (b : Billing) : State := s.setSub n { s.sub n with billing := b }

/-- The state with a store group replaced: a request to the message store (R19). -/
def State.setStoreGroup (s : State) (n : Nat) (g : StoreGroup) : State := s.setSub n { s.sub n with store := g }

/-- The state with a reach group replaced: a request to the delivery tracker (R19). -/
def State.setReach (s : State) (n : Nat) (r : Reach) : State := s.setSub n { s.sub n with reach := r }

/-- A message record by its index (R99). -/
def State.msg (s : State) (i : Nat) : MessageRecord := Table.get MessageRecord.powerOn s.store.records i

/-- The state with a message record replaced. -/
def State.setMsg (s : State) (i : Nat) (r : MessageRecord) : State :=
  { s with store.records := Table.set MessageRecord.powerOn i r s.store.records }

/-- A transmitter link controller (section 8.1). -/
def State.link (s : State) (l : Index8) : Link := s.links.get l

/-- The state with a link controller replaced. -/
def State.setLink (s : State) (l : Index8) (c : Link) : State := { s with links := s.links.set l.val c l.isLt }

/-- A receiver link (R150). -/
def State.receiver (s : State) (l : Index8) : Receiver := s.tracker.receivers.get l

/-- The state with a receiver link replaced. -/
def State.setReceiver (s : State) (l : Index8) (r : Receiver) : State :=
  { s with tracker.receivers := s.tracker.receivers.set l.val r l.isLt }

/-- A subscriber's service class as it stands (R181). -/
def State.classOf (s : State) (n : Nat) : ServiceClass := s.engine.classes.get (s.sub n).billing.serviceClass

/-- A subscriber's rate plan as it stands (R38). -/
def State.planOf (s : State) (n : Nat) : RatePlan := s.account.plans.get (s.sub n).billing.plan

/-- The current cycle: the cycle number of the present frame serial (R5). -/
def State.cycle (s : State) : Nat := cycleOf s.air.serial

/-- A subscriber's radio address: office code × 65536 + subscriber number (R21). -/
def State.radioAddress (s : State) (n : Nat) : Nat := s.engine.office.code.val * 65536 + n

/-- The order key of a record (R101). -/
def MessageRecord.key (r : MessageRecord) : OrderKey := ⟨r.urgent, r.sequence⟩

/-- The lowest-numbered FREE record at or above `i`, among the next `n` (R89). -/
def State.freeFrom (s : State) : (i n : Nat) → Option Nat
  | _, 0 => none
  | i, n + 1 => if (s.msg i).state = .free then some i else s.freeFrom (i + 1) n

/-- The lowest-numbered FREE message record (R89, R101). -/
def State.lowestFree (s : State) : Option Nat := s.freeFrom 0 Config.records

/-- A notice to the window guard that the value behind a mirror has changed; a second notice before the first is
written changes nothing, since the guard writes the latest value (R77). -/
def Exchange.notice (x : Exchange) (m : Mirror) : Exchange :=
  { x with notices := if m ∈ x.notices then x.notices else x.notices ++ [m] }

/-- The state with a mirror notice given (R77). -/
def State.notice (s : State) (m : Mirror) : State := { s with ex := s.ex.notice m }

end Sys2Proof.Machine
end

