-- ==== Sys2Proof/Machine/Codes.lean ====
section
/-! DEFINITION. The codes of R184, the answer codes, and the words of the report records (R187). -/

namespace Sys2Proof.Machine

/-- A natural number as a word. -/
def word (n : Nat) : Word := BitVec.ofNat 32 n

/-- A signed quantity as a two's complement word (R184). -/
def wordInt (i : Int) : Word := BitVec.ofInt 32 i

/-- A flag: 1 for set and 0 for clear (R184). -/
def wordFlag (b : Bool) : Word := if b then 1 else 0

/-- A field that is absent or none (R184). -/
def wordNone : Word := 0xFF

/-- An absent frame serial, or an absent capture field (R184, R186). -/
def wordAbsent : Word := 0xFFFFFFFF

/-- A zone or none (R184). -/
def wordZone : Option Zone → Word
  | some z => word z.val
  | none => wordNone

/-- A zone set in bits 3:0 (R184). -/
def wordZones (z : ZoneSet) : Word := z.setWidth 32

/-- A tag set in bits 7:0 (R184). -/
def wordTags (t : TagSet) : Word := t.setWidth 32

/-- A frame serial that may be absent (R184). -/
def wordSerial : Option Nat → Word
  | some n => word n
  | none => wordAbsent

/-- Slot state codes (R184). -/
def SlotState.code : SlotState → Word
  | .free => 0 | .posted => 1 | .taken => 2 | .answered => 3

/-- Report page state codes (R184). -/
def PageState.code : PageState → Word
  | .empty => 0 | .filling => 1 | .filled => 2

/-- Engine state codes (R184). -/
def EngineState.code : EngineState → Word
  | .loading => 0 | .setup => 1 | .starting => 2 | .running => 3 | .stopping => 4

/-- Restart cause codes (R188). -/
def RestartCause.code : RestartCause → Word
  | .none => 0 | .power => 1 | .engine => 2

/-- Reference monitor state codes (R184). -/
def MonitorState.code : MonitorState → Word
  | .absent => 0 | .locking => 1 | .locked => 2 | .holdover => 3 | .lost => 4

/-- Subscriber state codes (R184). -/
def SubscriberState.code : SubscriberState → Word
  | .vacant => 0 | .active => 1 | .barred => 2

/-- Message state codes (R184). -/
def MessageState.code : MessageState → Word
  | .free => 0 | .waiting => 1 | .placed => 2 | .onAir => 3 | .awaitingAck => 4 | .held => 5

/-- Message kind codes (R184). -/
def MessageKind.code : MessageKind → Word
  | .tone => 0 | .numeric => 1 | .alpha => 2

/-- Outcome codes (R184). -/
def CloseOutcome.code : CloseOutcome → Word
  | .delivered => 1 | .sent => 2 | .undelivered => 3 | .expired => 4 | .cancelled => 5

/-- Link state codes (R184). -/
def LinkState.code : LinkState → Word
  | .off => 0 | .standby => 1 | .keyed => 2 | .tripped => 3 | .latched => 4 | .override => 5

/-- Skip codes (R184). -/
def Skip.code : Skip → Word
  | .none => 0 | .oneIn5 => 5 | .oneIn6 => 6 | .oneIn7 => 7

/-- Observation codes (R184). -/
def Observation.code : Observation → Word
  | .clear => 0 | .alarm => 1 | .silent => 2

/-- The last observation, or none (R184). -/
def wordObservation : Option Observation → Word
  | some o => o.code
  | none => wordNone

/-- Fence kind codes (R188). -/
def FenceKind.code : FenceKind → Word
  | .outside => 1 | .readOnly => 2 | .slotOwned => 3 | .state => 4 | .report => 5

/-- The values of the answer codes (R184). -/
def AnswerCode.code : AnswerCode → Word
  | .accepted => 0
  | .adjusted => 1
  | .deferred => 2
  | .unknownSubscriber => 0x10
  | .inUse => 0x11
  | .barred => 0x12
  | .serviceMismatch => 0x13
  | .malformed => 0x14
  | .subscriberFull => 0x15
  | .storeFull => 0x16
  | .insufficientCredit => 0x17
  | .noSuchMessage => 0x18
  | .closing => 0x19
  | .openMessages => 0x1A
  | .notInSetup => 0x1B
  | .notRunning => 0x1C
  | .rollBusy => 0x1D
  | .unknownOrder => 0x1E

/-- The source of a PERIOD SUMMARY (R57). -/
inductive SummarySource where
  | walk | intake | final
  deriving DecidableEq, Repr

/-- Summary source codes (R184). -/
def SummarySource.code : SummarySource → Word
  | .walk => 0 | .intake => 1 | .final => 2

/-- The kind of a balance event (R49, R50). -/
inductive BalanceEvent where
  | admission | credit | refund
  deriving DecidableEq, Repr

/-- Balance event codes (R184). -/
def BalanceEvent.code : BalanceEvent → Word
  | .admission => 0 | .credit => 1 | .refund => 2

/-- The cause of a page close (R174). -/
inductive CloseCause where
  | count | age
  deriving DecidableEq, Repr

/-- Page close cause codes (R184). -/
def CloseCause.code : CloseCause → Word
  | .count => 0 | .age => 1

/-- A message handle: generation in bits 21:14, index in bits 13:0 (R100). -/
def handleWord (generation : BitVec 8) (index : Nat) : Word := word (generation.toNat * 16384 + index)

/-! ## Report records (R187)

A record is the list of its words: the kind code in word 0, then the fields in the order tabled. -/

/-- A report record: the code of its kind and its field words. -/
abbrev Record := List Word

/-- The sixteen words written at a record position: unused words are zero (R187). -/
def Record.padded (r : Record) : List Word := (r ++ List.replicate 16 0).take 16

/-- BALANCE ALERT (R50, R187). -/
def recordBalanceAlert (subscriber : Nat) (raised : Bool) (balance level : Int) (margin : Nat) (plan : Fin 16)
    (event : BalanceEvent) : Record :=
  [0x04, word subscriber, wordFlag raised, wordInt balance, wordInt level, word margin, word plan.val, event.code]

/-- PERIOD SUMMARY (R57, R187). -/
def recordPeriodSummary (subscriber : Nat) (b : Billing) (source : SummarySource) : Record :=
  [0x05, word subscriber, word b.period, word b.counters.messages, word b.counters.textBlocks,
    word b.counters.charges, word b.counters.refunds, wordInt b.counters.credits, wordInt b.balance,
    wordFlag b.lowBalance, word b.plan.val, source.code]

/-- PERIOD CLOSED (R63, R187). -/
def recordPeriodClosed (closed opened count : Nat) : Record := [0x06, word closed, word opened, word count]

/-- OUTCOME (R107, R187). -/
def recordOutcome (index : Nat) (r : MessageRecord) (outcome : CloseOutcome) (serial : Nat) : Record :=
  [0x07, handleWord r.generation index, r.hostTag, word r.subscriber, outcome.code, word r.attempts, word serial,
    wordZones r.airedZones]

/-- REFUND (R54, R187). -/
def recordRefund (index : Nat) (r : MessageRecord) (outcome : CloseOutcome) (balance : Int) (period : Nat) : Record :=
  [0x02, handleWord r.generation index, r.hostTag, word r.subscriber, outcome.code, word r.charge, wordInt balance,
    word period]

/-- CREDIT (R52, R187). -/
def recordCredit (subscriber period : Nat) (requested applied balance : Int) : Record :=
  [0x03, word subscriber, word period, wordInt requested, wordInt applied, wordInt balance]

/-- UNMATCHED ACK (R159, R187). -/
def recordUnmatchedAck (e : ReverseEntry) (state : SubscriberState) : Record :=
  [0x08, word e.link.val, word e.zone.val, word e.address, word e.tag.val, word e.arrival, state.code]

/-- SUBSCRIBER HELD (R163, R187). -/
def recordHeld (subscriber misses held serial : Nat) : Record :=
  [0x09, word subscriber, word misses, word held, word serial]

/-- SUBSCRIBER RELEASED, cause RETURN 0 (R165, R187). -/
def recordReleased (subscriber released arrival : Nat) : Record :=
  [0x0A, word subscriber, 0, word released, word arrival]

/-- MOVED (R161, R187). -/
def recordMoved (subscriber : Nat) (old new : Option Zone) (link : Index8) (arrival : Nat) : Record :=
  [0x0B, word subscriber, wordZone old, wordZone new, word link.val, word arrival]

/-- LINK STATUS (R144, R187). -/
def recordLinkStatus (l : Index8) (c : Link) (serial : Nat) : Record :=
  [0x0C, word l.val, wordZone c.settings.zone, word serial, c.state.code, wordFlag c.keyOffPending, wordFlag c.alert,
    wordObservation c.lastObservation, word c.clearCount, word c.alarmCount, word c.silentCount, word c.blankedCount,
    word c.latchCounter, word c.dropped]

/-- LINK TRIP or LINK LATCHED (R143, R187). -/
def recordTrip (l : Index8) (c : Link) (t : TripReport) : Record :=
  [if t.latched then 0x0E else 0x0D, word l.val, wordZone c.settings.zone, word t.capture.serial,
    word t.capture.position, t.capture.kind.code, t.capture.alarms.setWidth 32, word t.latchCounter, word t.later,
    c.state.code]

/-- LINK RECOVERED (R143, R187). -/
def recordRecovered (l : Index8) (c : Link) (r : RecoveryReport) : Record :=
  [0x0F, word l.val, word r.serial, word r.position, word r.later, c.state.code]

/-- REFERENCE (R11, R187). -/
def recordReference (r : ReferenceReport) (state : MonitorState) : Record :=
  [0x10, wordFlag r.enterLost, word r.serial, word r.second, word r.day, word r.later, state.code]

/-- LATE BUILD (R125, R187). -/
def recordLateBuild (r : LateReport) : Record :=
  [0x11, word r.serial, word r.list, word r.left, word r.pages0, word r.pages1, word r.pages2, word r.pages3,
    word r.later]

end Sys2Proof.Machine
end

