-- ==== Sys2Proof/Machine/Flags.lean ====
section
/-! DEFINITION. The event bits, the interrupt line, the register block as the host reads it (R183, R188), and the
low-balance flag (R49). -/

namespace Sys2Proof.Machine

/-- The six event bits as a register's bits 5:0 (R188). -/
def EventBits.toWord (e : EventBits) : Word :=
  wordFlag e.answers ||| wordFlag e.pageClosed <<< 1 ||| wordFlag e.fence <<< 2 ||| wordFlag e.link <<< 3 |||
    wordFlag e.reference <<< 4 ||| wordFlag e.engine <<< 5

/-- The event bits of a written word's bits 5:0 (R188). -/
def EventBits.ofWord (w : Word) : EventBits where
  answers := w.getLsbD 0
  pageClosed := w.getLsbD 1
  fence := w.getLsbD 2
  link := w.getLsbD 3
  reference := w.getLsbD 4
  engine := w.getLsbD 5

/-- The word a register write takes effect with: the bits of bytes not enabled take the effect of a written 0 (R188). -/
def maskEnabled (data : Word) (enables : BitVec 4) : Word :=
  let keep (i : Nat) : Word := if enables.getLsbD i then 0xFF <<< (8 * i) else 0
  data &&& (keep 0 ||| keep 1 ||| keep 2 ||| keep 3)

/-- Whether a register write writes 1 to bit `bit` (R183, R188). -/
def writesOne (data : Word) (enables : BitVec 4) (bit : Nat) : Bool := (maskEnabled data enables).getLsbD bit

/-- EVENT ENABLE after a write: the bits of an enabled byte 0 are written, and a byte not enabled changes nothing
(R183, R188). -/
def EventBits.written (e : EventBits) (data : Word) (enables : BitVec 4) : EventBits :=
  if enables.getLsbD 0 then EventBits.ofWord data else e

/-- The interrupt line: asserted while at least one bit is set in both registers (R183). -/
def State.interruptLine (s : State) : Bool :=
  (s.ex.summary.answers && s.ex.enable.answers) || (s.ex.summary.pageClosed && s.ex.enable.pageClosed) ||
  (s.ex.summary.fence && s.ex.enable.fence) || (s.ex.summary.link && s.ex.enable.link) ||
  (s.ex.summary.reference && s.ex.enable.reference) || (s.ex.summary.engine && s.ex.enable.engine)

/-- ENGINE STATE as it reads (R183, R188). -/
def State.engineStateWord (s : State) : Word :=
  s.engine.state.code ||| s.air.monitor.state.code <<< 4 ||| s.engine.cause.code <<< 8 |||
    wordFlag s.engine.profileDefaulted <<< 12

/-- FENCE RECORD as it reads; a clear record reads as 0 (R76, R188). Bits 5:4 read as 0 where the state seen is not valid:
DESIGN CHOICE, log entry 30. -/
def State.fenceRecordWord (s : State) : Word :=
  match s.ex.fence with
  | none => 0
  | some f =>
    f.kind.code ||| wordFlag f.seen.isSome <<< 3 ||| (f.seen.getD 0) <<< 4 |||
      (word (f.offset / 4 % 0x40000)) <<< 6 ||| (word f.later) <<< 24

/-- The register at a word offset of the register block as it reads (R182, R183, R188). -/
def State.registerWord (s : State) (offset : Nat) : Word :=
  if offset = 0x00 then s.engineStateWord
  else if offset = 0x04 then s.ex.summary.toWord
  else if offset = 0x08 then s.ex.enable.toWord
  else if offset = 0x10 then s.fenceRecordWord
  else 0

/-- The PCI subsystem identifiers the configuration header presents: vendor and subsystem (R183). -/
def State.subsystemIds (s : State) : BitVec 16 × BitVec 16 := (s.engine.subsystemVendor, s.engine.subsystemId)

/-- The low-balance flag after a balance event that leaves balance `b` (R49). -/
def lowBalanceAfter (plan : RatePlan) (flag : Bool) (b : Int) : Bool :=
  if flag then decide (b < plan.warningLevel + plan.recoveryMargin) else decide (b < plan.warningLevel)

/-- The event bits of EVENT SUMMARY set by their owners (R183). -/
def State.setEngineBit (s : State) : State := { s with ex.summary.engine := true }

/-- The LINK bit set by the link unit (R140, R142). -/
def State.setLinkBit (s : State) : State := { s with ex.summary.link := true }

/-- The REFERENCE bit set by the air timing unit (R11). -/
def State.setReferenceBit (s : State) : State := { s with ex.summary.reference := true }

end Sys2Proof.Machine
end

