-- ==== Sys2Proof/Machine/Operands.lean ====
section
/-! DEFINITION. The operand forms: the parameter words of a posting (R184, R186), offsets of the exchange window (R67),
and the profile (R190). -/

namespace Sys2Proof.Machine

/-! ## Posting slots -/

/-- The window offset of slot `n` (R67). -/
def slotBase (n : Nat) : Nat := Config.boardBase + n * 0x100

/-- The number of words of a slot body (R67). -/
def bodyWords : Nat := 63

/-- A posting as read: the 63 words of the slot body from slot offset 04h (R84). -/
abbrev Posting := List Word

/-- The posting code (R186). -/
def Posting.code (p : Posting) : Word := p.getD 0 0

/-- Parameter word Pk (R186). -/
def Posting.param (p : Posting) (k : Nat) : Word := p.getD k 0

/-- The subscriber number of P1 bits 15:0 (R186). -/
def Posting.subscriber (p : Posting) : Nat := (p.param 1).toNat % 65536

/-- The link or receiver number of P1 bits 2:0 (R186). -/
def Posting.link (p : Posting) : Index8 := Fin.ofNat 8 (p.param 1).toNat

/-- Text byte `i` of a message posting: slot offset 1Ch + i, which is body word 6 + i div 4 (R186). -/
def Posting.textByte (p : Posting) (i : Nat) : Byte := byteOf (p.getD (6 + i / 4) 0) (i % 4)

/-- The first `n` text bytes of a message posting. -/
def Posting.text (p : Posting) (n : Nat) : List Byte := (List.range n).map p.textByte

/-- The "unchanged" marker of AMEND (R186). -/
def unchangedMarker : Word := 0xFFFFFFFF

/-- Whether a handle word has any of bits 31:22 set (R92). -/
def handleMalformed (w : Word) : Bool := decide (w.toNat ≥ 0x400000)

/-- The record index of a handle: bits 13:0 (R100). -/
def handleIndex (w : Word) : Nat := w.toNat % 16384

/-- The generation of a handle: bits 21:14 (R100). -/
def handleGeneration (w : Word) : BitVec 8 := w.extractLsb' 14 8

/-- The message kind of a kind code (R184). -/
def kindOf (w : Word) : Option MessageKind :=
  if w = 0 then some .tone else if w = 1 then some .numeric else if w = 2 then some .alpha else none

/-- The posting codes of R186. -/
def postingCodes : List Nat :=
  [0x01, 0x10, 0x11, 0x12, 0x13, 0x14, 0x15, 0x16, 0x17, 0x20, 0x21, 0x30, 0x31, 0x40, 0x41, 0x42, 0x43, 0x50, 0x51,
    0x52, 0x60, 0x61, 0x62, 0x63, 0x64, 0x65, 0x66]

/-! ## Offsets of the exchange window -/

/-- The part of the exchange window a word offset lies in (R67, R71, R75, R76). -/
inductive Region where
  | header
  | slotState (slot : Nat)
  | slotBody (slot : Nat)
  | pageState (page : Index8)
  | pageBody (page : Index8)
  | unused
  deriving DecidableEq, Repr

/-- The region of a word offset (R67). -/
def regionOf (offset : Nat) : Region :=
  if offset < Config.boardBase then .header
  else if offset < Config.pagesBase then
    let slot := (offset - Config.boardBase) / 0x100
    if (offset - Config.boardBase) % 0x100 = 0 then .slotState slot else .slotBody slot
  else if offset < Config.usedEnd then
    let page : Index8 := Fin.ofNat 8 ((offset - Config.pagesBase) / 0x1000)
    if (offset - Config.pagesBase) % 0x1000 = 0 then .pageState page else .pageBody page
  else .unused

/-- The offset of the whole word an access touches: a PCI access is a 32-bit word with byte enables (R69, R184). -/
def wordOffset (offset : Nat) : Nat := offset / 4 * 4

/-- The window offset of report page `p` (R67, R187). -/
def pageBase (p : Index8) : Nat := Config.pagesBase + p.val * 0x1000

/-- The window offset of record position `r` of page `p`, from 1 to 63 (R187). -/
def recordBase (p : Index8) (r : Nat) : Nat := pageBase p + r * 0x40

/-! ## The profile -/

/-- Word `k` of the profile: addresses 2k and 2k + 1, low byte first (R190). -/
def profileWord (p : Profile) (k : Fin 12) : BitVec 16 :=
  p.get ⟨2 * k.val + 1, by omega⟩ ++ p.get ⟨2 * k.val, by omega⟩

/-- The 16-bit word sum of the whole profile (R177, R190). -/
def profileSum (p : Profile) : BitVec 16 := ((List.finRange 12).map (profileWord p)).foldl (· + ·) 0

/-- The map entry byte of link n: in word `base` + n div 2, low byte for even n and high byte for odd n (R190), which is
profile byte 2 × base + n. -/
def profileEntry (p : Profile) (base : Fin 8) (n : Index8) : Byte := p.get ⟨2 * base.val + n.val, by omega⟩

/-- A transmitter map entry that names no zone code is taken as none (R177). -/
def transmitterZone (b : Byte) : Option Zone :=
  if h : b.toNat < 4 then some ⟨b.toNat, h⟩ else none

/-- A receiver map entry above 3 is taken as 3 (R177). -/
def receiverZone (b : Byte) : Zone := if h : b.toNat < 4 then ⟨b.toNat, h⟩ else 3

/-- The profile engine control uses: the one read, where the memory answered and the sum is 0 (R177). -/
def goodProfile (p : Option Profile) : Option Profile := p.filter fun q => profileSum q == 0

end Sys2Proof.Machine
end

