-- ==== Sys2Proof/Machine/AirCode.lean ====
section
/-! DEFINITION. The air format (section 1.3, R189): check byte, whitening, block data, page entries, and the zone frame
the encoder forms. -/

namespace Sys2Proof.Machine

/-! ## Check byte (R17) -/

/-- One bit taken into the CRC-8 remainder, generator x^8 + x^2 + x + 1 (R17). -/
def crcStep (remainder : Byte) (bit : Bool) : Byte :=
  if (remainder.msb ^^ bit) then (remainder <<< 1) ^^^ 0x07 else remainder <<< 1

/-- The CRC-8 of the `n` low bits of `data`, most significant bit first, from remainder `r` (R17). -/
def crcFrom {w : Nat} (data : BitVec w) : (n : Nat) → Byte → Byte
  | 0, r => r
  | n + 1, r => crcFrom data n (crcStep r (data.getLsbD n))

/-- The check byte over all bits of `data`: initial value 00h, final remainder XORed with 55h (R17). -/
def checkByte {w : Nat} (data : BitVec w) : Byte := crcFrom data w 0 ^^^ 0x55

/-- A block's codeword before whitening: 24 data bits and the check byte (R12, R17). -/
def codeword (data : BlockData) : Word := data ++ checkByte data

/-! ## Whitening (R18) -/

/-- The seed of a frame: (cycle number mod 256) × 32 + frame number + 1 (R18). -/
def whiteningSeed (serial : Nat) : BitVec 15 := BitVec.ofNat 15 (cycleOf serial % 256 * 32 + serial % 32 + 1)

/-- One step of the whitening register: the output is bit 14, and the new bit 0 is bit 14 XOR bit 13 (R18). -/
def whiteningStep (r : BitVec 15) : BitVec 15 := (r <<< 1) ||| BitVec.setWidth 15 (BitVec.ofBool (r.getLsbD 14 ^^ r.getLsbD 13))

/-- `n` further output bits collected after `acc`, the first output bit the most significant, and the register after
them (R18). -/
def whiteningBits : (n : Nat) → BitVec 15 → Word → Word × BitVec 15
  | 0, r, acc => (acc, r)
  | n + 1, r, acc => whiteningBits n (whiteningStep r) ((acc <<< 1) ||| BitVec.setWidth 32 (BitVec.ofBool (r.getLsbD 14)))

/-- Codewords with 32 consecutive output bits laid over each, the register running on (R18). -/
def whiten : BitVec 15 → List Word → List Word
  | _, [] => []
  | r, w :: rest => (w ^^^ (whiteningBits 32 r 0).1) :: whiten (whiteningBits 32 r 0).2 rest

/-! ## Blocks and pages (R13 to R16, R189) -/

/-- The number of text blocks T of a message (R16, R40). -/
def textBlocks (kind : MessageKind) (length : Nat) : Nat :=
  match kind with
  | .tone => 0
  | .numeric => (length + 5) / 6
  | .alpha => (length + 2) / 3

/-- The text blocks of a message record. -/
def MessageRecord.blocks (r : MessageRecord) : Nat := textBlocks r.kind r.text.length

/-- The cost B of a record's page in blocks (R16). -/
def MessageRecord.cost (r : MessageRecord) : Nat := 2 + r.blocks

/-- The 4-bit symbol of a numeric posting byte (R15). -/
def numericSymbol (b : Byte) : BitVec 4 :=
  if 0x30#8 ≤ b ∧ b ≤ 0x39#8 then b.setWidth 4
  else if b = 0x2D then 11
  else if b = 0x28 then 12
  else if b = 0x29 then 13
  else if b = 0x2A then 14
  else if b = 0x23 then 15
  else 10

/-- One numeric text block: six symbols, the first in the most significant bits, padded with symbol 10 (R15). -/
def numericBlock (t : List Byte) : BlockData :=
  let symbol (i : Nat) : BitVec 4 := numericSymbol (t.getD i 0x20)
  symbol 0 ++ symbol 1 ++ symbol 2 ++ symbol 3 ++ symbol 4 ++ symbol 5

/-- One alpha text block: three 8-bit codes, the first in the most significant bits, padded with 00h (R15). -/
def alphaBlock (t : List Byte) : BlockData := t.getD 0 0 ++ t.getD 1 0 ++ t.getD 2 0

/-- The text blocks of a text (R15). -/
def textData (kind : MessageKind) (text : List Byte) : List BlockData :=
  match kind with
  | .tone => []
  | .numeric => (List.range (textBlocks .numeric text.length)).map fun k => numericBlock (text.drop (6 * k))
  | .alpha => (List.range (textBlocks .alpha text.length)).map fun k => alphaBlock (text.drop (3 * k))

/-- The code of a kind in an address block (R14, R184, R189). -/
def kindBits : MessageKind → BitVec 2
  | .tone => 0 | .numeric => 1 | .alpha => 2

/-- The address block: office code, subscriber number, kind (R14, R189). -/
def addressBlock (office : Fin 64) (subscriber : Nat) (kind : MessageKind) : BlockData :=
  BitVec.ofNat 6 office.val ++ BitVec.ofNat 16 subscriber ++ kindBits kind

/-- The descriptor block: tag (0 where none), urgent flag, length, attempt number, generation (R14, R189). -/
def descriptorBlock (tag : Option (Fin 8)) (urgent : Bool) (length attempt : Nat) (generation : BitVec 8) : BlockData :=
  BitVec.ofNat 3 (tag.elim 0 Fin.val) ++ BitVec.ofBool urgent ++ BitVec.ofNat 8 length ++ BitVec.ofNat 4 attempt ++ generation

/-- The B data words of a record's page (R14, R15, R116). -/
def MessageRecord.pageWords (r : MessageRecord) (office : Fin 64) : List BlockData :=
  addressBlock office r.subscriber r.kind ::
    descriptorBlock r.tag r.urgent r.text.length (r.attempts + 1) r.generation :: textData r.kind r.text

/-- The payload block count of a section (R13, R116). -/
def sectionBlocks (sec : Section) : Nat := (sec.map fun e => e.words.length).sum

/-- Header block 1: office code, cycle number mod 256, frame number, zone, three zero bits (R13, R189). -/
def headerBlock1 (office : Fin 64) (serial : Nat) (zone : Zone) : BlockData :=
  BitVec.ofNat 6 office.val ++ BitVec.ofNat 8 (cycleOf serial) ++ BitVec.ofNat 5 serial ++ BitVec.ofNat 2 zone.val ++ 0#3

/-- Header block 2: page count, payload block count, twelve zero bits (R13, R189). -/
def headerBlock2 (sec : Section) : BlockData :=
  BitVec.ofNat 5 sec.length ++ BitVec.ofNat 7 (sectionBlocks sec) ++ 0#12

/-- The fixed data of an idle block (R12). -/
def idleBlock : BlockData := 0x5A3C96

/-- The payload and idle blocks 3 to 120 of a zone frame (R12). -/
def bodyBlocks (sec : Section) : List BlockData :=
  (sec.flatMap (·.words)) ++ List.replicate (Config.sectionBlocks - sectionBlocks sec) idleBlock

/-- The zone frame of serial s for a zone: 120 codewords, the two headers not whitened (R12, R13, R17, R18, R145). -/
def zoneFrame (office : Fin 64) (serial : Nat) (zone : Zone) (sec : Section) : List Word :=
  codeword (headerBlock1 office serial zone) :: codeword (headerBlock2 sec) ::
    whiten (whiteningSeed serial) ((bodyBlocks sec).map codeword)

end Sys2Proof.Machine
end

