-- ==== Sys2Proof/Machine/Reports.lean ====
section
/-! DEFINITION. The report writer (chapter 10): room, reservations, appending and closing pages; and what each producer
asks. These are the shared operations by which every family hands its records. -/

namespace Sys2Proof.Machine

/-- The frame serial and office clock a page close records (R174). -/
structure Stamp where
  serial : Nat
  second : Nat
  day : Nat
  deriving DecidableEq, Repr

/-- The present frame serial and office clock. -/
def State.stamp (s : State) : Stamp := ⟨s.air.serial, s.air.second, s.air.day⟩

/-! ## Room (R169) -/

/-- The FILLING page, if there is one (R168). -/
def Writer.filling (w : Writer) : Option Index8 := (List.finRange 8).find? fun p => decide (w.pages.get p = .filling)

/-- The run of EMPTY pages from page `p`, at most `n` of them (R169). -/
def emptyRun (pages : Vector PageState 8) : Nat → Index8 → Nat
  | 0, _ => 0
  | n + 1, p => if pages.get p = .empty then 1 + emptyRun pages n (p + 1) else 0

/-- The run of R169: EMPTY pages from the next page on, in index order, wrapping. -/
def Writer.run (w : Writer) : Nat := emptyRun w.pages 8 w.next

/-- The free positions of the FILLING page (R169). -/
def Writer.freePositions (w : Writer) : Nat := if w.filling.isSome then Config.pageRecords - w.count else 0

/-- Room (R169). -/
def Writer.room (w : Writer) : Nat := w.freePositions + Config.pageRecords * w.run

/-- The reserved total: positions granted and not yet used or returned (R168). -/
def Writer.reserved (w : Writer) : Nat := (w.held.map (·.2)).sum

/-- Unreserved room (R169). -/
def Writer.unreserved (w : Writer) : Nat := w.room - w.reserved

/-- Whether a producer holds a reservation. -/
def Writer.holds (w : Writer) (p : Producer) : Bool := w.held.any fun h => decide (h.1 = p)

/-- The positions left of a producer's reservation. -/
def Writer.left (w : Writer) (p : Producer) : Nat := ((w.held.filter fun h => decide (h.1 = p)).map (·.2)).sum

/-- The amount each producer asks for (R170). -/
def Producer.amount : Producer → Nat
  | .intake => 8
  | .rollWalk => 8
  | .tracker => 4
  | .messageStore => 4
  | .linkUnit => 1
  | .monitor => 1
  | .builder => 1

/-! ## Closing and opening pages (R171 to R174) -/

/-- The FILLING page is closed: its header completed, its state FILLED, the sequence counter raised, the two mirrors
noticed, and PAGE CLOSED set (R174). -/
def Exchange.closePage (x : Exchange) (st : Stamp) (cause : CloseCause) : Exchange :=
  match x.writer.filling with
  | none => x
  | some p =>
    let header := [word x.writer.count, x.writer.sequence, cause.code, word st.serial, word st.second, word st.day]
    let y : Exchange :=
      { x with
        mem := Memory.writeWords x.mem (pageBase p + 4) header
        summary.pageClosed := true
        writer := { x.writer with
          pages := x.writer.pages.set p.val .filled p.isLt
          count := 0
          age := 0
          due := false
          sequence := x.writer.sequence + 1
          lastIndex := p
          lastSequence := x.writer.sequence } }
    (y.notice .lastPageIndex).notice .lastPageSequence

/-- A due page is closed by age when the run alone covers the reserved total (R173). -/
def Exchange.closeIfDue (x : Exchange) (st : Stamp) : Exchange :=
  if x.writer.due ∧ x.writer.reserved ≤ Config.pageRecords * x.writer.run then x.closePage st .age else x

/-- The next page is opened: FILLING, record count and age count 0, the header's record count 0, the next page advanced
(R171). -/
def Exchange.openPage (x : Exchange) : Exchange :=
  { x with
    mem := Memory.writeWord x.mem (pageBase x.writer.next + 4) 0
    writer := { x.writer with
      pages := x.writer.pages.set x.writer.next.val .filling x.writer.next.isLt
      count := 0
      age := 0
      due := false
      next := x.writer.next + 1 } }

/-- The page the next record goes to is FILLING afterwards (R171). -/
def Exchange.ensureOpen (x : Exchange) : Exchange := if x.writer.filling.isSome then x else x.openPage

/-- A record written at the first free position of the FILLING page, which is opened first where there is none; the page
is closed by count when it reaches 63 (R171, R172). -/
def Exchange.append (x : Exchange) (st : Stamp) (r : Record) : Exchange :=
  let y := x.ensureOpen
  let p := y.writer.filling.getD 0
  let z : Exchange :=
    { y with
      mem := Memory.writeWords y.mem (recordBase p (y.writer.count + 1)) r.padded
      writer.count := y.writer.count + 1 }
  if z.writer.count = Config.pageRecords then z.closePage st .count else z

/-- One position of a producer's reservation used (R171). -/
def Writer.use (w : Writer) (p : Producer) : Writer :=
  { w with held := w.held.map fun h => if h.1 = p then (h.1, h.2 - 1) else h }

/-- A record appended under a producer's reservation; a due page is closed where the lowered reserved total allows it
(R171, R173). -/
def Exchange.hand (x : Exchange) (st : Stamp) (p : Producer) (r : Record) : Exchange :=
  (({ x with writer := x.writer.use p }).append st r).closeIfDue st

/-! ## Reservations (R170) -/

/-- A reservation granted. The intake unit then sends its take request and is TAKING (R83). -/
def Exchange.grant (x : Exchange) (p : Producer) : Exchange :=
  { x with
    writer := { x.writer with
      waiting := x.writer.waiting.filter fun q => decide (q ≠ p)
      held := x.writer.held ++ [(p, p.amount)] }
    intake := if p = .intake then .taking else x.intake }

/-- One waiting request judged: granted where its amount is at or below the unreserved room (R170). -/
def Exchange.judgeOne (x : Exchange) (p : Producer) : Exchange :=
  if p.amount ≤ x.writer.unreserved then x.grant p else x

/-- The waiting requests in the order of a judgement: ascending amount, then the order made (R170). -/
def Writer.judgeOrder (w : Writer) : List Producer :=
  (w.waiting.filter fun p => decide (p.amount = 1)) ++ (w.waiting.filter fun p => decide (p.amount = 4)) ++
    (w.waiting.filter fun p => decide (p.amount = 8))

/-- A judgement of the waiting requests (R170). -/
def Exchange.judge (x : Exchange) : Exchange := x.writer.judgeOrder.foldl Exchange.judgeOne x

/-- A request made: at most one per producer, and none by a producer that holds a reservation (R170). -/
def Exchange.request (x : Exchange) (p : Producer) : Exchange :=
  if p ∈ x.writer.waiting ∨ x.writer.holds p then x
  else Exchange.judge { x with writer.waiting := x.writer.waiting ++ [p] }

/-- What the writer does in a step in which unreserved room rises: it judges the waiting requests and closes a due page
whose test holds. Where both can act, the manual does not say which is first (DESIGN CHOICE, log entry 12). -/
def Exchange.roomRose (x : Exchange) (st : Stamp) : Exchange :=
  if x.writer.due ∧ x.writer.waiting ≠ [] then
    let y : Exchange := { x with choices := x.choices + 1 }
    if Config.closeFirst x.choices then (y.closeIfDue st).judge else y.judge.closeIfDue st
  else (x.closeIfDue st).judge

/-- A producer returns the unused part of its reservation (R170). -/
def Exchange.giveBack (x : Exchange) (st : Stamp) (p : Producer) : Exchange :=
  Exchange.roomRose { x with writer.held := x.writer.held.filter fun h => decide (h.1 ≠ p) } st

/-- The age count at a second boundary: it rises by one, stopping at 30; the page is due when it reaches the flush
interval (R173). A page once due stays due until it closes, whatever the interval is set to later: DESIGN CHOICE, log
entry 34. -/
def Exchange.ageStep (x : Exchange) (st : Stamp) (flush : Nat) : Exchange :=
  if x.writer.filling.isSome then
    let age := saturate 30 x.writer.age 1
    Exchange.closeIfDue
      { x with writer := { x.writer with age := age, due := x.writer.due || decide (flush ≤ age) } } st
  else x

/-- A FILLED page returned by the host: EMPTY in the same step, and the requests judged (R175). -/
def Exchange.returnPage (x : Exchange) (st : Stamp) (p : Index8) : Exchange :=
  Exchange.roomRose { x with writer.pages := x.writer.pages.set p.val .empty p.isLt } st

/-- Each page header's record count and sequence number written 0 (R168). -/
def clearPageHeaders (m : List Host.Cell) : List Host.Cell :=
  (List.finRange 8).foldl (fun m p => Memory.writeWords m (pageBase p + 4) [0, 0]) m

/-- The report writer's part of an engine reset (R168, R176): every page EMPTY, every reservation and request dropped,
the headers' counts and sequence numbers and the two mirrors 0, PAGE CLOSED clear. -/
def Exchange.resetWriter (x : Exchange) : Exchange :=
  { x with
    writer := Writer.reset
    mem := Memory.writeWords (clearPageHeaders x.mem) 0x18 [0, 0]
    notices := x.notices.filter fun m => decide (m ≠ .lastPageIndex ∧ m ≠ .lastPageSequence)
    summary.pageClosed := false }

/-! ## The same over State -/

/-- A record handed under a producer's reservation. -/
def State.hand (s : State) (p : Producer) (r : Record) : State := { s with ex := s.ex.hand s.stamp p r }

/-- A reservation's unused part returned. -/
def State.giveBack (s : State) (p : Producer) : State := { s with ex := s.ex.giveBack s.stamp p }

/-- A deadline is due when its serial is at or below the present frame serial (R156). -/
def State.deadlineDue (s : State) : Bool :=
  match s.tracker.deadlines with
  | e :: _ => decide (e.serial ≤ s.air.serial)
  | [] => false

/-- Whether an item is ready at the tracker (R156). -/
def State.trackerReady (s : State) : Bool :=
  !s.tracker.settle.isEmpty || !s.tracker.reverse.isEmpty || s.deadlineDue

/-- Whether a controller holds a pending report (R143). -/
def Link.reporting (c : Link) : Bool := c.trip.isSome || c.recovery.isSome

/-- Whether a producer has work for which it asks a reservation (R62, R82, R108, R109, R11, R125, R143, R155). -/
def State.hasWork (s : State) : Producer → Bool
  | .intake => decide (s.ex.intake = .roomWait)
  | .rollWalk => s.account.walk.inFlight
  | .tracker => s.trackerReady
  | .messageStore => !s.store.airStop.isEmpty || s.store.sweep.waiting.isSome
  | .linkUnit => (List.finRange 8).any fun l => (s.link l).reporting
  | .monitor => s.air.monitor.report.isSome
  | .builder => s.builder.late.isSome

/-- A producer with work asks for its reservation, unless it holds one or has asked (R170). A request or reservation whose
work is gone before it is used stands until the next work: DESIGN CHOICE, log entry 29. -/
def State.ask (s : State) (p : Producer) : State :=
  if s.hasWork p then { s with ex := s.ex.request p } else s

/-- A producer's unit of work ends: the unused part is returned, and it asks again if more work is ready. -/
def State.endUnit (s : State) (p : Producer) : State := (s.giveBack p).ask p

end Sys2Proof.Machine
end

