-- ==== Sys2Proof/Machine/Guard.lean ====
section
/-! DEFINITION. The exchange window and the window guard (sections 4.1 to 4.6), the intake unit's cycle (sections 5.1 and
5.6), the mirrors, and the store arbiter (section 4.7). -/

namespace Sys2Proof.Machine

/-! ## The intake unit's cycle -/

/-- R82: an IDLE intake unit that finds the posting queue nonempty, outside LOADING, asks for a reservation of 8 and
enters ROOM WAIT. -/
def Exchange.wakeIntake (x : Exchange) (loading : Bool) : Exchange :=
  if x.intake = .idle ∧ x.queue ≠ [] ∧ loading = false then
    Exchange.request { x with intake := .roomWait } .intake
  else x

/-- Whether the engine is LOADING. -/
def State.loading (s : State) : Bool := decide (s.engine.state = .loading)

/-- The slot map entry of a slot (R70). -/
def Exchange.slot (x : Exchange) (n : Nat) : SlotState := Table.get .free x.slots n

/-- The slot map with one entry changed. The slot's state word reads as the entry, in the same step (R70). -/
def Exchange.setSlot (x : Exchange) (n : Nat) (v : SlotState) : Exchange :=
  { x with slots := Table.set .free n v x.slots }

/-- The answered count changed and its mirror written in the same step (R74, R77). -/
def Exchange.setAnswered (x : Exchange) (n : Nat) : Exchange :=
  { x with answered := n, mem := Memory.writeWord x.mem 0 (word n) }

/-- The words of an answer over a slot body: answer code, posting code, answer data, zero over the rest (R95, R186). -/
def answerBody (code : AnswerCode) (posting : Word) (data : List Word) : List Word :=
  (code.code :: posting :: data ++ List.replicate bodyWords 0).take bodyWords

/-- The answer to the posting in slot `n`: the body written, the slot ANSWERED, the answered count raised, the ANSWERS bit
set, the unused reservation returned, and the unit IDLE with nothing in hand, where R82 applies at once (R74, R95). -/
def Exchange.answer (x : Exchange) (st : Stamp) (loading : Bool) (n : Nat) (posting : Word) (code : AnswerCode)
    (data : List Word) : Exchange :=
  let written := { x with mem := Memory.writeWords x.mem (slotBase n + 4) (answerBody code posting data) }
  let marked := (written.setSlot n .answered).setAnswered (x.answered + 1)
  let returned := Exchange.giveBack { marked with summary.answers := true, intake := .answering n, progress := .begun } st .intake
  Exchange.wakeIntake { returned with intake := .idle } loading

/-- What the owners have answered to the posting in hand is held for the next request (R84). -/
def State.advance (s : State) (g : Progress) : State := { s with ex.progress := g }

/-- The posting in hand answered (R95). -/
def State.answer (s : State) (code : AnswerCode) (data : List Word) : State :=
  match s.ex.intake with
  | .working n posting => { s with ex := s.ex.answer s.stamp s.loading n (Posting.code posting) code data }
  | _ => s

/-- The posting in hand, where the unit is WORKING on one (R84). -/
def State.posting (s : State) : Option Posting :=
  match s.ex.intake with
  | .working _ posting => some posting
  | _ => none

/-- An order's meaning: `f` on the posting in hand where it carries this posting code; with no such posting in hand the
event does not occur and nothing changes (R84; DEDUCED, log entry 6). -/
def State.order (s : State) (code : Nat) (f : Posting → State) : Host.Outcome State Fault Refusal :=
  match s.posting with
  | some p => if (Posting.code p).toNat = code then .next (f p) else .next s
  | none => .next s

/-- POSTING_TAKE (R73, R83, R84): in TAKING the guard gives the head slot, which becomes TAKEN and is read, and none of the
owners has been asked yet; with an empty
queue the unit returns its reservation and is IDLE again, where R82 applies at once. -/
def execPostingTake (s : State) : Host.Outcome State Fault Refusal :=
  match s.ex.intake, s.ex.queue with
  | .taking, n :: rest =>
    let x := (s.ex.setSlot n .taken).notice .queueLength
    .next { s with
      ex := { x with
        queue := rest, intake := .working n (Memory.readWords s.ex.mem (slotBase n + 4) bodyWords), progress := .begun } }
  | .taking, [] =>
    let x := s.ex.giveBack s.stamp .intake
    .next { s with ex := Exchange.wakeIntake { x with intake := .idle } s.loading }
  | _, _ => .next s

/-! ## The host's accesses to the exchange window -/

/-- The word a host read of the window returns: a state word reads as the slot map entry or the page state, the unused
part as 0, the rest as the memory holds it (R68, R70). -/
def Exchange.windowWord (x : Exchange) (offset : Nat) : Word :=
  match regionOf offset with
  | .slotState n => (x.slot n).code
  | .pageState p => (x.writer.pages.get p).code
  | .unused => 0
  | _ => Memory.readWord x.mem offset

/-- The state with the bus reply the host sees. -/
def State.reply (s : State) (r : BusReply) : State := { s with ex.bus := r }

/-- Whether every host write accepted before a delayed read has been judged: the write buffer holds later ones only (R68). -/
def Exchange.readReady (x : Exchange) (r : DelayedRead) : Bool := decide (x.buffer.length ≤ r.after)

/-- The word a delayed read has to give: the one its burst fetched, or 0 without a burst in the unused part of the window
(R68). -/
def Exchange.readWord (x : Exchange) (r : DelayedRead) : Option Word :=
  match r.data with
  | some w => some w
  | none => if Config.usedEnd ≤ r.offset ∧ x.readReady r then some 0 else none

/-- The burst of the delayed read in progress: the content of store memory at its offset as it stands (R68). -/
def Exchange.fetch (x : Exchange) : Exchange :=
  match x.read with
  | some r =>
    if r.data = none ∧ r.offset < Config.usedEnd ∧ x.readReady r then
      { x with read := some { r with data := some (x.windowWord r.offset) } }
    else x
  | none => x

/-- HOST_WINDOW_READ (R68): retried in LOADING. The first attempt of a read is answered with retry and begins the delayed
read; a repeated attempt is answered with retry until the data has arrived, and then completes it. A read of another word
is retried while one is in progress (DESIGN CHOICE, log entry 4). No other state changes. -/
def execHostWindowRead (offset : Nat) (s : State) : Host.Outcome State Fault Refusal :=
  if Config.windowSize ≤ offset then .fault (.outsideWindow offset)
  else if s.loading then .next (s.reply .retry)
  else
    match s.ex.read with
    | none => .next (State.reply { s with ex.read := some ⟨wordOffset offset, 0, none⟩ } .retry)
    | some r =>
      if r.offset = wordOffset offset then
        match s.ex.readWord r with
        | some w => .next (State.reply { s with ex.read := none } (.data w))
        | none => .next (s.reply .retry)
      else .next (s.reply .retry)

/-- A host write accepted after the delayed read in progress, which does not wait for it (R68). -/
def DelayedRead.pass (r : DelayedRead) : DelayedRead := { r with after := r.after + 1 }

/-- HOST_WINDOW_WRITE (R69): the word joins the write buffer, or is answered with retry while the buffer holds 16 words
or the engine is LOADING. -/
def execHostWindowWrite (offset : Nat) (data : Word) (enables : BitVec 4) (s : State) :
    Host.Outcome State Fault Refusal :=
  if Config.windowSize ≤ offset then .fault (.outsideWindow offset)
  else if s.loading ∨ Config.bufferSize ≤ s.ex.buffer.length then .next (s.reply .retry)
  else
    .next (State.reply
      { s with
        ex.buffer := s.ex.buffer ++ [⟨wordOffset offset, data, enables⟩], ex.read := s.ex.read.map DelayedRead.pass } .done)

/-! ## The guard's judgement -/

/-- What the guard makes of a host write word (R71, R75, R76). -/
inductive Verdict where
  | body
  | post (slot : Nat)
  | withdraw (slot : Nat)
  | takeBack (slot : Nat)
  | pageReturn (page : Index8)
  | drop (kind : FenceKind) (seen : Option Word)
  deriving DecidableEq, Repr

/-- The guard's judgement of one word against the slot map and the page states as they stand (R71, R75, R76). -/
def Exchange.verdict (x : Exchange) (w : BufferedWrite) : Verdict :=
  match regionOf w.offset with
  | .header => .drop .readOnly none
  | .unused => .drop .outside none
  | .slotBody n =>
    if x.slot n = .free ∨ x.slot n = .posted then .body else .drop .slotOwned (some (x.slot n).code)
  | .slotState n =>
    if w.enables = 0xF ∧ w.data = SlotState.posted.code ∧ x.slot n = .free then .post n
    else if w.enables = 0xF ∧ w.data = SlotState.free.code ∧ x.slot n = .posted then .withdraw n
    else if w.enables = 0xF ∧ w.data = SlotState.free.code ∧ x.slot n = .answered then .takeBack n
    else .drop .state (some (x.slot n).code)
  | .pageState p =>
    if w.enables = 0xF ∧ w.data = PageState.empty.code ∧ x.writer.pages.get p = .filled then .pageReturn p
    else .drop .report (some (x.writer.pages.get p).code)
  | .pageBody p => .drop .report (some (x.writer.pages.get p).code)

/-- The word at the head of the write buffer, the guard's verdict on it, and the exchange with that word taken (R69). -/
def Exchange.judged (x : Exchange) : Option (BufferedWrite × Verdict × Exchange) :=
  match x.buffer with
  | w :: rest => some (w, x.verdict w, { x with buffer := rest })
  | [] => none

/-- SLOT_BODY_WRITE (R71): the enabled bytes of a body word of a FREE or POSTED slot are written. -/
def execSlotBodyWrite (s : State) : Host.Outcome State Fault Refusal :=
  match s.ex.judged with
  | some (w, .body, x) => .next { s with ex := { x with mem := Memory.writeEnabled x.mem w.offset w.data w.enables } }
  | _ => .next s

/-- SLOT_POST (R71, R72, R82): the slot becomes POSTED and joins the posting queue; an IDLE intake unit asks for room. -/
def execSlotPost (s : State) : Host.Outcome State Fault Refusal :=
  match s.ex.judged with
  | some (_, .post n, x) =>
    let y := (x.setSlot n .posted).notice .queueLength
    .next { s with ex := Exchange.wakeIntake { y with queue := y.queue ++ [n] } s.loading }
  | _ => .next s

/-- SLOT_WITHDRAW (R71, R72): the slot becomes FREE and leaves the queue, the others keeping their order. -/
def execSlotWithdraw (s : State) : Host.Outcome State Fault Refusal :=
  match s.ex.judged with
  | some (_, .withdraw n, x) =>
    let y := (x.setSlot n .free).notice .queueLength
    .next { s with ex := Exchange.wakeIntake { y with queue := y.queue.filter fun k => decide (k ≠ n) } s.loading }
  | _ => .next s

/-- SLOT_RETURN (R71, R74): the slot becomes FREE and the answered count falls by one. -/
def execSlotReturn (s : State) : Host.Outcome State Fault Refusal :=
  match s.ex.judged with
  | some (_, .takeBack n, x) => .next { s with ex := (x.setSlot n .free).setAnswered (x.answered - 1) }
  | _ => .next s

/-- REPORT_PAGE_RETURN (R75, R175): the FILLED page becomes EMPTY and the waiting requests are judged. -/
def execReportPageReturn (s : State) : Host.Outcome State Fault Refusal :=
  match s.ex.judged with
  | some (_, .pageReturn p, x) => .next { s with ex := x.returnPage s.stamp p }
  | _ => .next s

/-- The fence record after a dropped word: filled if it was clear, else its count of later drops raised (R76). -/
def fenceAfter (f : Option Fence) (offset : Nat) (kind : FenceKind) (seen : Option Word) : Fence :=
  match f with
  | none => ⟨kind, offset, seen, 0⟩
  | some g => { g with later := saturate 255 g.later 1 }

/-- DROPPED_WRITE (R76): the word is discarded, the fence record filled or counted, and FENCE set. -/
def execDroppedWrite (s : State) : Host.Outcome State Fault Refusal :=
  match s.ex.judged with
  | some (w, .drop kind seen, x) =>
    .next { s with ex := { x with fence := some (fenceAfter x.fence w.offset kind seen), summary.fence := true } }
  | _ => .next s

/-! ## Mirrors (R77, R185) -/

/-- The window offset of a mirror (R185). -/
def mirrorOffset : Mirror → Nat
  | .answeredCount => 0x00
  | .queueLength => 0x04
  | .freeRecords => 0x08
  | .frameSerial => 0x0C
  | .officeClock => 0x10
  | .lastPageIndex => 0x18
  | .lastPageSequence => 0x1C

/-- The present value behind a mirror, as the words written (R77, R185). -/
def State.mirrorWords (s : State) : Mirror → List Word
  | .answeredCount => [word s.ex.answered]
  | .queueLength => [word s.ex.queue.length]
  | .freeRecords => [word s.store.freeCount]
  | .frameSerial => [word s.air.serial]
  | .officeClock => [word s.air.second, word s.air.day]
  | .lastPageIndex => [word s.ex.writer.lastIndex.val]
  | .lastPageSequence => [s.ex.writer.lastSequence]

/-- MIRROR_WRITE (R77): the latest value of a mirror with a notice outstanding is written, and the notice is done. -/
def execMirrorWrite (m : Mirror) (s : State) : Host.Outcome State Fault Refusal :=
  if m ∈ s.ex.notices then
    .next { s with
      ex := { s.ex with
        mem := Memory.writeWords s.ex.mem (mirrorOffset m) (s.mirrorWords m)
        notices := s.ex.notices.filter fun k => decide (k ≠ m) } }
  else .next s

/-! ## The store arbiter (R78, R79) -/

/-- The rotation after a client: the clients in the order they come after it, itself last (R79). -/
def rotationAfter : Client → List Client
  | .hostWindow => [.intake, .frameBuilder, .tracker, .rollWalk, .reportWriter, .hostWindow]
  | .intake => [.frameBuilder, .tracker, .rollWalk, .reportWriter, .hostWindow, .intake]
  | .frameBuilder => [.tracker, .rollWalk, .reportWriter, .hostWindow, .intake, .frameBuilder]
  | .tracker => [.rollWalk, .reportWriter, .hostWindow, .intake, .frameBuilder, .tracker]
  | .rollWalk => [.reportWriter, .hostWindow, .intake, .frameBuilder, .tracker, .rollWalk]
  | .reportWriter => [.hostWindow, .intake, .frameBuilder, .tracker, .rollWalk, .reportWriter]

/-- Whether a client requests. -/
def requestOf (r : Requests) : Client → Bool
  | .hostWindow => r.hostWindow
  | .intake => r.intake
  | .frameBuilder => r.frameBuilder
  | .tracker => r.tracker
  | .rollWalk => r.rollWalk
  | .reportWriter => r.reportWriter

/-- A client's weight in the office settings (R79, R180). -/
def Office.weight (o : Office) : Client → Nat
  | .hostWindow => o.weightHostWindow
  | .intake => o.weightIntake
  | .frameBuilder => o.weightFrameBuilder
  | .tracker => o.weightTracker
  | .rollWalk => o.weightRollWalk
  | .reportWriter => o.weightReportWriter

/-- The next grant: the encoder first, with the rotation untouched; then the holder below its weight; then the first
requesting client after the holder; else the port idles with holder and run count kept (R78, R79). A run count of 0 stands
after a reset alone, and the first grant then goes to the first requesting client from the host window onward, the report
writer last (R79's last sentence; DEDUCED, log entry 31). -/
def Arbiter.grant (a : Arbiter) (weight : Client → Nat) (encoder : Bool) (r : Requests) : Arbiter :=
  if encoder then { a with port := .encoder }
  else if requestOf r a.holder ∧ 0 < a.run ∧ a.run < weight a.holder then { a with run := a.run + 1, port := .client a.holder }
  else match (rotationAfter a.holder).find? (requestOf r) with
    | some c => ⟨c, 1, .client c⟩
    | none => { a with port := .idle }

/-- STORE_BURST_GRANT (R78, R79). A burst granted to the host window is the burst of the delayed read in progress, where that
read waits for nothing else (R68; DESIGN CHOICE, log entry 4). -/
def execStoreBurstGrant (encoder : Bool) (requests : Requests) (s : State) : Host.Outcome State Fault Refusal :=
  let a := s.arbiter.grant s.engine.office.weight encoder requests
  .next { s with arbiter := a, ex := if a.port = .client .hostWindow then s.ex.fetch else s.ex }

end Sys2Proof.Machine
end

