-- ==== Sys2Proof/Machine/Account.lean ====
section
/-! DEFINITION. The account unit (chapter 3): rating, balance events and the low-balance flag, refunds, rolls, and the roll
walk. -/

namespace Sys2Proof.Machine

/-! ## Rating (R39 to R47) -/

/-- Step 3: the urgent surcharge, rounded to the nearest CU, halves upward (R41). -/
def urgentPrice (raw percent : Nat) (urgent : Bool) : Nat := if urgent then (raw * percent + 50) / 100 else raw

/-- Step 5: the volume discount (R43). -/
def volumeDiscount (plan : RatePlan) (n : Nat) : Nat :=
  if plan.t2 ≤ n then plan.d2 else if plan.t1 ≤ n then plan.d1 else 0

/-- Whether a minute of day lies in the off-peak window (R44). -/
def inWindow (start stop minute : Nat) : Bool :=
  if start = stop then false
  else if start < stop then decide (start ≤ minute ∧ minute < stop)
  else decide (start ≤ minute ∨ minute < stop)

/-- Step 7: both discounts, the product formed in full and the division rounded down (R45). -/
def discounted (u d op : Nat) : Nat := u * (100 - d) * (100 - op) / 10000

/-- Step 8: the cap, where it is not 0 (R46). -/
def capped (cap charge : Nat) : Nat := if cap ≠ 0 ∧ cap < charge then cap else charge

/-- Steps 1 to 8 of rating, from the inputs of R39. Under the allowance the charge is 0 and d and op are carried as 0
(R42, R48). -/
def rate (plan : RatePlan) (office : Office) (minute n : Nat) (kind : MessageKind) (length : Nat) (urgent : Bool) :
    Rating :=
  let blocks := textBlocks kind length
  let raw := plan.base + plan.perBlock * blocks
  let u := urgentPrice raw plan.urgentPercent urgent
  if n < plan.allowance then ⟨blocks, raw, u, 0, 0, true, 0⟩
  else
    let d := volumeDiscount plan n
    let op := if inWindow office.offPeakStart office.offPeakEnd minute then plan.offPeakPercent else 0
    ⟨blocks, raw, u, d, op, false, capped plan.cap (discounted u d op)⟩

/-- Step 9: a charge of 0 passes, and another passes when the balance after is at least the negative of the credit limit
(R47). -/
def creditPasses (balance : Int) (limit charge : Nat) : Bool :=
  decide (charge = 0 ∨ -(limit : Int) ≤ balance - charge)

/-! ## Counters, balance and flag -/

/-- The credits counter raised by an applied amount, saturating at both ends (R56). -/
def raiseCredits (c amount : Int) : Int := clampInt (c + amount)

/-- The counters after an admission (R48, R56). -/
def Counters.countAdmission (c : Counters) (blocks charge : Nat) : Counters :=
  { c with
    messages := saturate 65535 c.messages 1
    textBlocks := saturate 16777215 c.textBlocks blocks
    charges := saturate 4294967295 c.charges charge }

/-- The low-balance flag as a balance event leaves it (R49). -/
def State.setLow (s : State) (n : Nat) : State :=
  let b := (s.sub n).billing
  s.setBilling n { b with lowBalance := lowBalanceAfter (s.planOf n) b.lowBalance b.balance }

/-- The low-balance flag judged after a balance event, with its BALANCE ALERT where the flag changed (R49, R50). -/
def State.judgeLow (s : State) (p : Producer) (n : Nat) (event : BalanceEvent) : State :=
  let b := (s.sub n).billing
  let plan := s.planOf n
  let flag := lowBalanceAfter plan b.lowBalance b.balance
  let t := s.setLow n
  if flag = b.lowBalance then t
  else t.hand p (recordBalanceAlert n flag b.balance plan.warningLevel plan.recoveryMargin b.plan event)

/-- A roll: the PERIOD SUMMARY handed, the counters zeroed, the period number set to the office period (R57). -/
def State.roll (s : State) (p : Producer) (n : Nat) (source : SummarySource) : State :=
  let b := (s.sub n).billing
  let t := s.hand p (recordPeriodSummary n b source)
  t.setBilling n { b with counters := Counters.zero, period := s.account.period }

/-- Whether a record is stale (section 3.7). -/
def State.stale (s : State) (n : Nat) : Bool := decide ((s.sub n).billing.period ≠ s.account.period)

/-- A stale record rolled at the start of an intake request (R58). -/
def State.rollIfStale (s : State) (n : Nat) : State := if s.stale n then s.roll .intake n .intake else s

/-- A refund (R54): balance clamped at the top, refunds counter, REFUND record, flag judged. -/
def State.refund (s : State) (p : Producer) (i : Nat) (r : MessageRecord) (outcome : CloseOutcome) : State :=
  let b := (s.sub r.subscriber).billing
  let balance := min intMax (b.balance + r.charge)
  let t := s.setBilling r.subscriber
    { b with
      balance := balance
      counters := { b.counters with refunds := saturate 4294967295 b.counters.refunds r.charge } }
  (t.hand p (recordRefund i r outcome balance b.period)).judgeLow p r.subscriber .refund

/-- Whether a close of a record with an outcome is refunded (R53). -/
def MessageRecord.refunded (r : MessageRecord) (outcome : CloseOutcome) : Bool :=
  decide (outcome = .undelivered ∨ outcome = .expired ∨ outcome = .cancelled) && r.refundable && decide (0 < r.charge)

/-- A CREDIT applied (R52): the clamped balance, the credits counter, the CREDIT record, the flag judged. -/
def State.applyCredit (s : State) (n : Nat) (amount : Int) : State :=
  let b := (s.sub n).billing
  let balance := clampInt (b.balance + amount)
  let applied := balance - b.balance
  let t := s.setBilling n
    { b with balance := balance, counters := { b.counters with credits := raiseCredits b.counters.credits applied } }
  (t.hand .intake (recordCredit n b.period amount applied balance)).judgeLow .intake n .credit

/-! ## The roll walk (R59 to R65) -/

/-- One visit's effect on the record: a stale non-VACANT record is rolled with source WALK and counted (R61). -/
def State.walkVisit (s : State) : State :=
  let n := s.account.walk.next
  if (s.sub n).billing.state ≠ .vacant ∧ s.stale n then
    let t := s.roll .rollWalk n .walk
    { t with account.walk.count := t.account.walk.count + 1 }
  else s

/-- The end of a walk (R63): PERIOD CLOSED handed, the walk no longer in flight, the unused reservation returned. -/
def State.walkEnd (s : State) : State :=
  let closed := (s.account.period + 65535) % 65536
  let t := s.hand .rollWalk (recordPeriodClosed closed s.account.period s.account.walk.count)
  State.giveBack { t with account.walk := ⟨false, 0, 0⟩ } .rollWalk

/-- ROLL_WALK_VISIT (R61 to R63): under its reservation the walk visits the next subscriber; the unit ends when seven
summaries have been handed, which leaves one position, or when the walk passes subscriber 65535. -/
def execRollWalkVisit (s : State) : Host.Outcome State Fault Refusal :=
  if s.account.walk.inFlight ∧ s.ex.writer.holds .rollWalk then
    let t := s.walkVisit
    let u : State := { t with account.walk.next := t.account.walk.next + 1 }
    if Config.subscribers ≤ u.account.walk.next then .next u.walkEnd
    else if u.ex.writer.left .rollWalk ≤ 1 then .next (u.endUnit .rollWalk)
    else .next u
  else .next s

end Sys2Proof.Machine
end

