-- ==== Sys2Proof/Machine/MessageStore.lean ====
section
/-! DEFINITION. The message store (chapter 6): frame lists, closing, the requests of the air path and the return channel,
the expiry sweep and the air-stop closes. -/

namespace Sys2Proof.Machine

/-! ## Frame lists (R106) -/

/-- A record inserted by its key into the frame list of its subscriber's present frame slot (R106). -/
def State.enlist (s : State) (i : Nat) : State :=
  let slot := (s.sub (s.msg i).subscriber).billing.slot
  { s with
    store.lists := s.store.lists.set slot.val (insertByKey (fun j => (s.msg j).key) i (s.store.lists.get slot)) slot.isLt }

/-- A record taken out of the frame list of its subscriber's present frame slot (R106). -/
def State.delist (s : State) (i : Nat) : State :=
  let slot := (s.sub (s.msg i).subscriber).billing.slot
  { s with store.lists := s.store.lists.set slot.val ((s.store.lists.get slot).filter fun j => decide (j ≠ i)) slot.isLt }

/-- A record made WAITING and inserted in its list, in one step (R102, R103). -/
def State.makeWaiting (s : State) (i : Nat) (r : MessageRecord) : State :=
  (s.setMsg i { r with state := .waiting, deadline := none, cancelPending := false, ackedPending := false }).enlist i

/-- A record made HELD: it enters no list (R102). -/
def State.makeHeld (s : State) (i : Nat) (r : MessageRecord) : State :=
  s.setMsg i { r with state := .held, deadline := none, cancelPending := false, ackedPending := false }

/-- A record's entry taken out of the deadline list (R162). -/
def State.dropDeadline (s : State) (i : Nat) : State :=
  { s with tracker.deadlines := s.tracker.deadlines.filter fun e => decide (e.record ≠ i) }

/-- A record taken out of the collection its state puts it in. -/
def State.leaveCollections (s : State) (i : Nat) : State :=
  match (s.msg i).state with
  | .waiting => s.delist i
  | .awaitingAck => s.dropDeadline i
  | _ => s

/-! ## Occupied records of a subscriber -/

/-- Whether a record is occupied (R99). -/
def MessageRecord.occupied (r : MessageRecord) : Bool := decide (r.state ≠ .free)

/-- The indexes, rising, of the records that satisfy `p`. -/
def State.msgsWhere (s : State) (p : MessageRecord → Bool) : List Nat :=
  Table.keysWhere (fun _ r => p r) s.store.records

/-- How many of a subscriber's records are PLACED, ON AIR or AWAITING ACK (R120). -/
def State.inFlight (s : State) (n : Nat) : Nat :=
  (s.msgsWhere fun r => decide (r.subscriber = n ∧ (r.state = .placed ∨ r.state = .onAir ∨ r.state = .awaitingAck))).length

/-- The subscriber's occupied record holding a tag (R103). -/
def State.findTag (s : State) (n : Nat) (tag : Fin 8) : Option Nat :=
  (s.msgsWhere fun r => r.occupied && decide (r.subscriber = n ∧ r.tag = some tag)).head?

/-! ## Closing (R107) -/

/-- The step of a close on the record, its collections, its subscriber's store group and the count of FREE records. -/
def State.freeRecord (s : State) (i : Nat) : State :=
  let r := s.msg i
  let left := s.leaveCollections i
  let freed := left.setMsg i { r with state := .free, deadline := none, cancelPending := false, ackedPending := false }
  let g := (freed.sub r.subscriber).store
  let tags := match r.tag with
    | some t => g.tags &&& ~~~ tagBit t
    | none => g.tags
  let grouped := freed.setStoreGroup r.subscriber ⟨g.openCount - 1, tags⟩
  State.notice { grouped with store.freeCount := grouped.store.freeCount + 1 } .freeRecords

/-- A close (R107): the record is freed, OUTCOME is handed, and where R53 calls for it the refund follows, all charged to
the reservation of the block whose request caused the close. -/
def State.close (s : State) (p : Producer) (i : Nat) (outcome : CloseOutcome) : State :=
  let r := s.msg i
  let t := (s.freeRecord i).hand p (recordOutcome i r outcome s.air.serial)
  if r.refunded outcome then t.refund p i r outcome else t

/-- The amount a close refunds (R53, R110). -/
def MessageRecord.refundAmount (r : MessageRecord) (outcome : CloseOutcome) : Nat :=
  if r.refunded outcome then r.charge else 0

/-! ## Requests (R102, R103) -/

/-- Settle request to AWAITING ACK: the record joins the deadline list in the same step (R102, R158, R162). -/
def State.makeAwaiting (s : State) (i : Nat) (r : MessageRecord) (deadline : Nat) : State :=
  let t := s.setMsg i
    { r with state := .awaitingAck, deadline := some deadline, cancelPending := false, ackedPending := false }
  { t with tracker.deadlines := insertDeadline ⟨i, r.generation, deadline⟩ t.tracker.deadlines }

/-- Airing request at mark s: every PLACED record with placed serial s, other than one held for an air-stop close, becomes
ON AIR with its markers kept (R102, R146). -/
def State.airing (s : State) (serial : Nat) : State :=
  { s with
    store.records := Table.mapValues MessageRecord.powerOn
      (fun i r =>
        if r.state = .placed ∧ r.placedSerial = some serial ∧ i ∉ s.store.airStop then { r with state := .onAir } else r)
      s.store.records }

/-- Hold request: every WAITING record of the subscriber leaves its list and becomes HELD; and how many did (R103). -/
def State.holdAll (s : State) (n : Nat) : State × Nat :=
  let is := s.msgsWhere fun r => decide (r.subscriber = n ∧ r.state = .waiting)
  (is.foldl (fun t i => (t.delist i).makeHeld i (t.msg i)) s, is.length)

/-- Release of a subscriber (R165, R103): unreachable flag clear, miss count 0, every HELD record WAITING with attempts 0
and eligible cycle 0; and how many were released. -/
def State.releaseAll (s : State) (n : Nat) : State × Nat :=
  let is := s.msgsWhere fun r => decide (r.subscriber = n ∧ r.state = .held)
  let t := s.setReach n { (s.sub n).reach with unreachable := false, missCount := 0 }
  (is.foldl (fun t i => t.makeWaiting i { t.msg i with attempts := 0, eligible := 0 }) t, is.length)

/-- One record of the return request (R102, R109): a marked one is held for an air-stop close; an unmarked one becomes
WAITING, or HELD where its subscriber is unreachable. -/
def State.returnOne (s : State) (i : Nat) : State :=
  let r := s.msg i
  if r.ackedPending ∨ r.cancelPending then { s with store.airStop := insertRising i s.store.airStop }
  else if (s.sub r.subscriber).reach.unreachable then s.makeHeld i r
  else s.makeWaiting i r

/-- The return request at mark m, which ends STOPPING, for serials m and m + 1 (R102, R179). -/
def State.returnPlaced (s : State) (m : Nat) : State :=
  (s.msgsWhere fun r => decide (r.state = .placed ∧ (r.placedSerial = some m ∨ r.placedSerial = some (m + 1)))).foldl
    State.returnOne s

/-- A slot move (R27): the subscriber's WAITING records leave list a and enter list b by key, in one step with the new
slot. -/
def State.moveSlot (s : State) (n : Nat) (slot : Fin 32) : State :=
  let is := s.msgsWhere fun r => decide (r.subscriber = n ∧ r.state = .waiting)
  let out := is.foldl State.delist s
  let moved := out.setBilling n { (out.sub n).billing with slot := slot }
  is.foldl State.enlist moved

/-! ## The expiry sweep and the air-stop closes (R108, R109) -/

/-- At a mark with frame number 0 the sweep starts, or is rebound to the new cycle and flagged to restart (R108). -/
def Sweep.start (w : Sweep) (cycle : Nat) : Sweep :=
  if w.inFlight then { w with bound := cycle, restart := true } else ⟨true, 0, cycle, false, none⟩

/-- The sweep moves on from the record at its index; past record 16383 it starts again where its restart flag is set, and
ends otherwise (R108). A sweep that has ended holds next index 0 and keeps its bound: DESIGN CHOICE, log entry 28. -/
def Sweep.advance (w : Sweep) : Sweep :=
  if w.next + 1 < Config.records then { w with next := w.next + 1, waiting := none }
  else if w.restart then ⟨true, 0, w.bound, false, none⟩
  else ⟨false, 0, w.bound, false, none⟩

/-- Whether the sweep closes a record: WAITING or HELD and expired at the bound (R108). -/
def MessageRecord.expiredAt (r : MessageRecord) (bound : Nat) : Bool :=
  decide ((r.state = .waiting ∨ r.state = .held) ∧ r.expiry ≤ bound)

/-- SWEEP_VISIT (R108, R109): the sweep reads the next record and passes over it, or asks for a reservation of 4 with its
index held. Air-stop closes come ahead of the next visit. -/
def execSweepVisit (s : State) : Host.Outcome State Fault Refusal :=
  if s.store.sweep.inFlight ∧ s.store.sweep.waiting = none ∧ s.store.airStop = [] then
    let r := s.msg s.store.sweep.next
    if r.expiredAt s.store.sweep.bound then
      .next (State.ask { s with store.sweep.waiting := some r.generation } .messageStore)
    else .next { s with store.sweep := s.store.sweep.advance }
  else .next s

/-- SWEEP_CLOSE (R108): with its reservation granted the sweep reads the record again, closes it EXPIRED if it is still
occupied with the same generation, WAITING or HELD, and expired, returns the unused part and moves on. -/
def execSweepClose (s : State) : Host.Outcome State Fault Refusal :=
  match s.store.sweep.waiting with
  | some generation =>
    if s.ex.writer.holds .messageStore then
      let i := s.store.sweep.next
      let r := s.msg i
      let t := if r.generation = generation ∧ r.expiredAt s.store.sweep.bound then s.close .messageStore i .expired else s
      .next (State.endUnit { t with store.sweep := t.store.sweep.advance } .messageStore)
    else .next s
  | none => .next s

/-- AIR_STOP_CLOSE (R109): with a reservation granted the lowest-numbered record held for an air-stop close is closed,
DELIVERED where acked-pending is set and CANCELLED otherwise. -/
def execAirStopClose (s : State) : Host.Outcome State Fault Refusal :=
  match s.store.airStop with
  | i :: rest =>
    if s.ex.writer.holds .messageStore then
      let outcome := if (s.msg i).ackedPending then CloseOutcome.delivered else .cancelled
      let t := s.close .messageStore i outcome
      .next (State.endUnit { t with store.airStop := rest } .messageStore)
    else .next s
  | [] => .next s

end Sys2Proof.Machine
end

