-- ==== Sys2Proof/Machine/Links.lean ====
section
/-! DEFINITION. The transmitter link controllers (sections 8.1 to 8.5): keying, skip frames, observations, trips, recovery,
and the link reports. -/

namespace Sys2Proof.Machine

/-! ## State changes of a controller -/

/-- A link leaves service states for another state; leaving KEYED sets the clean run to 0 (R135). -/
def Link.moveTo (c : Link) (state : LinkState) : Link :=
  { c with state := state, cleanRun := if state = .keyed then c.cleanRun else 0 }

/-- A link enters STANDBY with the skip counter 0 (R132, R133, R134, R136, R142). -/
def Link.toStandby (c : Link) : Link := { c.moveTo .standby with skipCounter := 0 }

/-- A link enters OVERRIDE: keying ends, the pending key-off is cleared, and the fault run, clear run, clean run and
blanking remaining become 0 (R133; DEDUCED, log entry 14). -/
def Link.toOverride (c : Link) : Link :=
  { c.moveTo .override with
    keyOffPending := false, keyed := false, faultRun := 0, clearRun := 0, cleanRun := 0, blanking := 0 }

/-- Skip length N of a skip setting (R136). -/
def Skip.length : Skip → Option Nat
  | .none => Option.none
  | .oneIn5 => some 5
  | .oneIn6 => some 6
  | .oneIn7 => some 7

/-- One step of the skip counter at a KEYED mark: the new counter, and whether the frame is a skip frame (R136). -/
def skipStep (skip : Skip) (counter : Nat) : Nat × Bool :=
  match skip.length with
  | none => (counter, false)
  | some n => if counter + 1 = n then (0, true) else (counter + 1, false)

/-- Whether the frame `steps` marks ahead is a skip frame, the counter stepped over every mark up to it (R136). -/
def skipAhead (skip : Skip) : (steps : Nat) → (counter : Nat) → Bool
  | 0, _ => false
  | 1, counter => (skipStep skip counter).2
  | n + 1, counter => skipAhead skip n (skipStep skip counter).1

/-! ## Observations, trips and recovery (R138 to R142) -/

/-- The trip report after a trip (R143): created, or the later count raised and the kind made LATCHED where this trip
latched. -/
def tripReportAfter (t : Option TripReport) (capture : Capture) (latched : Bool) (latchCounter created : Nat) :
    TripReport :=
  match t with
  | none => ⟨capture, latched, latchCounter, created, 0⟩
  | some t => { t with later := saturate 255 t.later 1, latched := t.latched || latched }

/-- The recovery report after a recovery (R143). -/
def recoveryReportAfter (r : Option RecoveryReport) (serial position : Nat) : RecoveryReport :=
  match r with
  | none => ⟨serial, position, 0⟩
  | some r => { r with later := saturate 255 r.later 1 }

/-- A trip (R140): keying ends, the capture is recorded, the latch counter rises, and the link is LATCHED or TRIPPED with
its runs and blanking 0 and the trip in its report. `created` is the present frame serial. -/
def Link.tripAt (c : Link) (capture : Capture) (created : Nat) : Link :=
  let latch := saturate 32 c.latchCounter 1
  let latched := decide (c.settings.latchLimit ≠ 0 ∧ c.settings.latchLimit ≤ latch)
  { c.moveTo (if latched then .latched else .tripped) with
    keyed := false
    capture := some capture
    latchCounter := latch
    faultRun := 0
    clearRun := 0
    blanking := 0
    trip := some (tripReportAfter c.trip capture latched latch created) }

/-- A recovery (R142): STANDBY with skip counter, clear run and fault run 0, and the recovery in its report. -/
def Link.recoverAt (c : Link) (serial position : Nat) : Link :=
  { c.toStandby with
    clearRun := 0, faultRun := 0, recovery := some (recoveryReportAfter c.recovery serial position) }

/-- Where and when an observation is made: the serial of its frame, the present serial, the block position, the alarm
bits, and the free value a clear run takes past 255. -/
structure Sighting where
  serial : Nat
  now : Nat
  position : Nat
  alarms : Byte
  past : Nat
  deriving DecidableEq, Repr

/-- The status counts after an observation that was taken (R138). -/
def Link.countTaken (c : Link) : Observation → Link
  | .clear => { c with clearCount := saturate 255 c.clearCount 1 }
  | .alarm => { c with alarmCount := saturate 255 c.alarmCount 1 }
  | .silent => { c with silentCount := saturate 255 c.silentCount 1 }

/-- A clear run raised by one; past 255 the manual gives no value (DESIGN CHOICE, log entry 10). -/
def raiseClearRun (run past : Nat) : Nat := if run < 255 then run + 1 else past

/-- A CLEAR observation taken, by the link's state (R140, R142). -/
def Link.takeClear (c : Link) (at_ : Sighting) : Link :=
  match c.state with
  | .standby => { c with faultRun := 0 }
  | .keyed => { c with faultRun := 0 }
  | .tripped =>
    let run := raiseClearRun c.clearRun at_.past
    if c.settings.recoveryFrames ≠ 0 ∧ c.settings.recoveryFrames ≤ run then c.recoverAt at_.now at_.position
    else { c with clearRun := run }
  | .off => c
  | .latched => c
  | .override => c

/-- An ALARM or SILENT observation taken, by the link's state (R140). -/
def Link.takeFault (c : Link) (kind : Observation) (at_ : Sighting) : Link :=
  let strike : Link :=
    if c.settings.tripCount ≤ c.faultRun + 1 then c.tripAt ⟨at_.serial, at_.position, kind, at_.alarms⟩ at_.now
    else { c with faultRun := c.faultRun + 1 }
  match c.state with
  | .standby => strike
  | .keyed => strike
  | .tripped => { c with clearRun := 0 }
  | .off => c
  | .latched => c
  | .override => c

/-- An observation (R139, R140): blanked while blanking remains, else taken. -/
def Link.observe (c : Link) (kind : Observation) (at_ : Sighting) : Link :=
  if 0 < c.blanking then { c with blanking := c.blanking - 1, blankedCount := saturate 255 c.blankedCount 1 }
  else
    let d := { c.countTaken kind with lastObservation := some kind, alert := decide (kind ≠ Observation.clear) }
    match kind with
    | .clear => d.takeClear at_
    | .alarm => d.takeFault .alarm at_
    | .silent => d.takeFault .silent at_

/-- Whether a controller tripped or recovered between two states of it: its report was created or its count of later
events rose, which the LINK bit marks at the step itself (R143). A saturated count shows as a change of state. -/
def Link.tripped (before after : Link) : Bool :=
  (decide (before.state = .standby ∨ before.state = .keyed) && decide (after.state = .tripped ∨ after.state = .latched)) ||
    (decide (before.state = .tripped) && decide (after.state = .standby))

/-! ## A frame mark at a controller (R135 to R137) -/

/-- What a controller reads at a mark m: whether the engine is RUNNING, the serial of the frame in progress that ends
there, m itself, and whether the reference allows keying. -/
structure MarkView where
  running : Bool
  ended : Option Nat
  mark : Nat
  reference : Bool
  deriving DecidableEq, Repr

/-- Step 1, first part: whether the link carried the frame that ends, keying over, and the SILENT observation where a
frame was in progress, the link is not OFF and no status message was judged (R135, R138). At a mark that ends no frame,
the first of a run, the link has not carried the frame before, and a frame it is keyed for is a key-up: DESIGN CHOICE, log
entry 33. -/
def Link.endFrame (c : Link) (v : MarkView) : Link :=
  let d := { c with carried := c.keyed, keyed := false }
  match v.ended with
  | some serial =>
    if c.state ≠ .off ∧ c.statusTaken = false then d.observe .silent ⟨serial, v.mark, Config.frameBlocks, 0, 0⟩ else d
  | none => d

/-- Step 1, second part: a frame begun and ended in KEYED raises the clean run, and at 30 the latch counter and the clean
run become 0 (R135). A link enters KEYED at marks alone, so one that ends a frame KEYED began it KEYED. -/
def Link.cleanFrame (c : Link) (v : MarkView) : Link :=
  if v.ended.isSome ∧ c.state = .keyed then
    if c.cleanRun + 1 = 30 then { c with cleanRun := 0, latchCounter := 0 } else { c with cleanRun := c.cleanRun + 1 }
  else c

/-- Steps 2 and 3: a pending key-off takes the link to OVERRIDE, and a STANDBY link enters KEYED (R133, R135). -/
def Link.changeOver (c : Link) : Link :=
  let d := if c.keyOffPending then c.toOverride else c
  if d.state = .standby then d.moveTo .keyed else d

/-- The controller after steps 1 to 3 of a mark. -/
def Link.beforeKeying (c : Link) (v : MarkView) : Link := ((c.endFrame v).cleanFrame v).changeOver

/-- Step 4: with the engine RUNNING a KEYED link steps its skip counter and keying is judged; a key-up sets blanking
remaining to the blanking count (R135 to R137). -/
def Link.judgeKeying (c : Link) (v : MarkView) : Link :=
  if v.running ∧ c.state = .keyed then
    let step := skipStep c.settings.skip c.skipCounter
    let keyed := v.reference && !step.2 && c.settings.zone.isSome
    { c with
      skipCounter := step.1
      keyed := keyed
      blanking := if keyed ∧ c.carried = false then c.settings.blankingCount else c.blanking }
  else c

/-- Whether a controller offers LINK STATUS at a mark: it is not OFF and its divider reaches the cadence (R144). No step
of a mark leaves or enters OFF. -/
def Link.offers (c : Link) : Bool := decide (c.state ≠ .off ∧ c.settings.cadence ≤ c.divider + 1)

/-- Step 5: a link not OFF raises its cadence divider, which returns to 0 where it reaches the cadence (R144). -/
def Link.raiseDivider (c : Link) : Link :=
  if c.state = .off then c else { c with divider := if c.offers then 0 else c.divider + 1 }

/-- A controller takes a frame mark; status taken becomes no (R135). -/
def Link.takeMark (c : Link) (v : MarkView) : Link :=
  { ((c.beforeKeying v).judgeKeying v).raiseDivider with statusTaken := false }

/-- What the controllers read at the mark that the state stands at, before the mark is taken. -/
def State.markView (s : State) : MarkView :=
  ⟨decide (s.engine.state = .running), s.frame.map (·.serial), s.air.serial,
    decide (s.air.monitor.state = .locked ∨ s.air.monitor.state = .holdover)⟩

/-- Every controller takes the mark; the LINK bit is set where one trips (R135, R140). -/
def State.linksTakeMark (s : State) : State :=
  let v := s.markView
  let links := Vector.ofFn fun l => (s.link l).takeMark v
  let event := (List.finRange 8).any fun l => Link.tripped (s.link l) ((s.link l).endFrame v)
  { s with links := links, ex.summary.link := s.ex.summary.link || event }

/-- Every keyed link stops at once: the reference entered LOST at the second-of-pair boundary (R137). -/
def State.endKeying (s : State) : State :=
  { s with links := Vector.ofFn fun l => { s.link l with keyed := false } }

/-! ## LINK STATUS and link reports (R143, R144) -/

/-- LINK STATUS offered: appended where unreserved room is above 0, with the status counts and the dropped count returned
to 0; else dropped and counted (R144, R171). -/
def State.offerStatus (s : State) (l : Index8) : State :=
  let c := s.link l
  if 0 < s.ex.writer.unreserved then
    let t := { s with ex := (s.ex.append s.stamp (recordLinkStatus l c s.air.serial)).closeIfDue s.stamp }
    t.setLink l { c with clearCount := 0, alarmCount := 0, silentCount := 0, blankedCount := 0, dropped := 0 }
  else s.setLink l { c with dropped := saturate 255 c.dropped 1 }

/-- Whether of a link's two reports the trip report is the one created first, at the earlier serial, the trip first where
both were created in the same frame (R143). -/
def Link.tripFirst (c : Link) : Bool :=
  match c.trip, c.recovery with
  | some t, some r => decide (t.created ≤ r.serial)
  | some _, none => true
  | none, _ => false

/-- The lowest-numbered link holding a report (R143). -/
def State.reportingLink (s : State) : Option Index8 := (List.finRange 8).find? fun l => (s.link l).reporting

/-- One pending report of a link appended and cleared (R143). -/
def State.appendLinkReport (s : State) (l : Index8) : State :=
  let c := s.link l
  if c.tripFirst then
    match c.trip with
    | some t => (s.hand .linkUnit (recordTrip l c t)).setLink l { c with trip := none }
    | none => s
  else
    match c.recovery with
    | some r => (s.hand .linkUnit (recordRecovered l c r)).setLink l { c with recovery := none }
    | none => s

/-- LINK_REPORT_APPEND (R143): under its reservation of 1 the link unit appends the oldest report of the lowest-numbered
link holding one, and asks again if any remains. -/
def execLinkReportAppend (s : State) : Host.Outcome State Fault Refusal :=
  match s.reportingLink with
  | some l => if s.ex.writer.holds .linkUnit then .next ((s.appendLinkReport l).endUnit .linkUnit) else .next s
  | none => .next s

/-! ## Site status messages (R138) -/

/-- LINK_STATUS_MESSAGE (R138 to R142): the first message of a frame in progress at a link that is not OFF is judged ALARM
where an alarm bit is set, or the link is keyed and forward-power-good is clear, and CLEAR otherwise. Others are
discarded. `position` is the block position at the moment of arrival. -/
def execLinkStatusMessage (l : Index8) (alarms : Byte) (power : Bool) (position : Nat) (s : State) :
    Host.Outcome State Fault Refusal :=
  let c := s.link l
  match s.frame with
  | some f =>
    if c.state ≠ .off ∧ c.statusTaken = false then
      let kind := if alarms ≠ 0 ∨ (c.keyed = true ∧ power = false) then Observation.alarm else .clear
      let past := (Config.clearRunPastLimit s.ex.choices).toNat
      let d := Link.observe { c with statusTaken := true } kind
        ⟨f.serial, s.air.serial, min position Config.frameBlocks, alarms, past⟩
      let t := s.setLink l d
      .next (State.ask
        { t with
          ex.summary.link := s.ex.summary.link || Link.tripped c d
          ex.choices := if c.state = .tripped ∧ c.clearRun = 255 then s.ex.choices + 1 else s.ex.choices } .linkUnit)
    else .next s
  | none => .next s

/-! ## Orders on a link (R132 to R134) -/

/-- LINK ENABLE's effect (R132). -/
def Link.enable (c : Link) : Link := if c.state = .off then c.toStandby else c

/-- LINK DISABLE's effect (R132). -/
def Link.disable (c : Link) : Link :=
  if c.state = .off then c
  else
    { c.moveTo .off with
      keyed := false, keyOffPending := false, statusTaken := false, blanking := 0, faultRun := 0, clearRun := 0,
      cleanRun := 0, divider := 0, alert := false, lastObservation := none }

/-- KEY OFF's effect, and whether it is DEFERRED (R133). -/
def Link.keyOff (c : Link) (immediate framed : Bool) : Link × Bool :=
  if c.state = .off ∨ c.state = .override then (c, false)
  else if immediate = false ∧ framed then ({ c with keyOffPending := true }, true)
  else (c.toOverride, false)

/-- KEY RESTORE's effect (R133). -/
def Link.keyRestore (c : Link) : Link :=
  if c.keyOffPending then { c with keyOffPending := false }
  else if c.state = .override then c.toStandby
  else c

/-- LINK RESTORE's effect (R134). -/
def Link.restore (c : Link) : Link :=
  if c.state = .tripped ∨ c.state = .latched then
    { c.toStandby with latchCounter := 0, faultRun := 0, clearRun := 0, blanking := 0 }
  else c

end Sys2Proof.Machine
end

