-- ==== Sys2Proof/Machine/Builder.lean ====
section
/-! DEFINITION. The frame builder (chapter 7) and the encoder (section 8.6): prediction, candidate checks, placement, cuts,
zone frames and the airing report. -/

namespace Sys2Proof.Machine

/-! ## Dark-zone prediction (R117) -/

/-- Whether a link lights its zone for a frame `steps` marks after the last mark its controller has taken (R117, R136). -/
def Link.lights (c : Link) (z : Zone) (steps : Nat) : Bool :=
  decide (c.settings.zone = some z) && decide (c.state = .keyed ∨ c.state = .standby) && !c.keyOffPending &&
    !skipAhead c.settings.skip steps c.skipCounter

/-- The set of zones that satisfy `p`. -/
def zonesWhere (p : Zone → Bool) : ZoneSet :=
  (List.finRange 4).foldl (fun acc z => if p z then acc ||| zoneBit z else acc) 0

/-- The zones predicted lit for a serial, `lastMark` being the last mark the controllers have taken (R117). -/
def State.predictLit (s : State) (serial lastMark : Nat) : ZoneSet :=
  if s.air.monitor.state = .lost then 0
  else zonesWhere fun z => (List.finRange 8).any fun l => (s.link l).lights z (serial - lastMark)

/-! ## The walk (R118) -/

/-- Whether a key lies after the walk position (R118). -/
def keyAfter (position : Option OrderKey) (key : OrderKey) : Bool :=
  match position with
  | none => true
  | some p => p.before key

/-- The records of the build's frame list with keys after the walk position (R118, R125). -/
def State.unexamined (s : State) (b : Build) : List Nat :=
  (s.store.lists.get (frameOf b.serial)).filter fun i => keyAfter b.position (s.msg i).key

/-- Whether a heard zone is fresh: the current cycle minus the heard cycle is no more than the freshness limit (R34,
R121). -/
def State.freshZone (s : State) (n : Nat) : Option Zone :=
  let r := (s.sub n).reach
  if s.cycle ≤ r.heardCycle + s.engine.office.freshnessLimit then r.heardZone else none

/-- Check 4: the target zones before darkness (R121). -/
def State.targetZones (s : State) (r : MessageRecord) : ZoneSet :=
  let home := (s.sub r.subscriber).billing.homeZones
  let heard := (s.freshZone r.subscriber).map zoneBit
  if (s.classOf r.subscriber).twoWay then
    if r.attempts + 1 = 1 then heard.getD home
    else if r.attempts + 1 = 2 then home ||| heard.getD 0
    else 0xF
  else home

/-- Check 5: whether a page of cost B fits a section (R122). -/
def fits (sec : Section) (cost : Nat) : Bool :=
  decide (sec.length < Config.sectionPages ∧ sectionBlocks sec + cost ≤ Config.sectionBlocks)

/-- Check 5 on a page's target zones: every one has room for a page of cost B, none only in part (R122). -/
def FramePage.admits (page : FramePage) (targets : ZoneSet) (cost : Nat) : Bool :=
  (List.finRange 4).all fun z => !targets.getLsbD z.val || fits (page.get z) cost

/-- The frame page of a serial (R116). -/
def pageOf (serial : Nat) : Fin 4 := Fin.ofNat 4 serial

/-- Checks 1 to 5 on a candidate for the build in hand: its target zones where it passes (R119 to R122). -/
def State.candidateTargets (s : State) (b : Build) (i : Nat) : Option ZoneSet :=
  let r := s.msg i
  let page := s.builder.pages.get (pageOf b.serial)
  let targets := s.targetZones r &&& b.lit
  if r.expiry ≤ cycleOf b.serial then none
  else if cycleOf b.serial < r.eligible then none
  else if Config.flightLimit ≤ s.inFlight r.subscriber then none
  else if (s.classOf r.subscriber).twoWay ∧ r.tag = none ∧ lowestTag (s.sub r.subscriber).store.tags = none then none
  else if targets = 0 then none
  else if page.admits targets r.cost then some targets
  else none

/-! ## Placement (R123) -/

/-- The result of a place request (R123). -/
inductive PlaceResult where
  | late
  | ended
  | refused
  | accepted (tag : Option (Fin 8))
  deriving DecidableEq, Repr

/-- Whether a record still has room in flight and in its target zones' sections. R120 and R122 say that what checks 3 and 5
found holds at the place step (DEDUCED, log entry 36). -/
def State.hasPlace (s : State) (serial i : Nat) (targets : ZoneSet) : Bool :=
  let r := s.msg i
  decide (s.inFlight r.subscriber < Config.flightLimit) && (s.builder.pages.get (pageOf serial)).admits targets r.cost

/-- The joint judgement of a place request, with the tag the record then holds (R102, R123). -/
def State.judgePlace (s : State) (serial : Nat) (c : Candidate) (targets : ZoneSet) : PlaceResult :=
  let r := s.msg c.record
  if serial ≤ s.air.serial then .late
  else if s.engine.state ≠ .running then .ended
  else if r.generation ≠ c.generation ∨ r.state ≠ .waiting then .refused
  else if (s.sub r.subscriber).billing.slot ≠ frameOf serial then .refused
  else if s.hasPlace serial c.record targets = false then .refused
  else if (s.classOf r.subscriber).twoWay ∧ r.tag = none then
    match lowestTag (s.sub r.subscriber).store.tags with
    | some t => .accepted (some t)
    | none => .refused
  else .accepted r.tag

/-- An entry appended to each target zone's section of a frame page (R123). -/
def placeEntry (page : FramePage) (targets : ZoneSet) (e : PageEntry) : FramePage :=
  Vector.ofFn fun z => if targets.getLsbD z.val then page.get z ++ [e] else page.get z

/-- The joint step of an accepted placement: the record PLACED out of its list, its tag in the tag set, and its entry in
each target zone's section (R102, R105, R123). -/
def State.place (s : State) (serial i : Nat) (tag : Option (Fin 8)) (targets : ZoneSet) : State :=
  let r := { s.msg i with state := .placed, tag := tag, placedSerial := some serial, placedZones := targets }
  let t := (s.delist i).setMsg i r
  let g := (t.sub r.subscriber).store
  let u := t.setStoreGroup r.subscriber { g with tags := g.tags ||| (tag.elim 0 tagBit) }
  let k := pageOf serial
  { u with
    builder.pages := u.builder.pages.set k.val
      (placeEntry (u.builder.pages.get k) targets ⟨i, r.generation, r.pageWords s.engine.office.code⟩) k.isLt }

/-! ## Builds (R115, R124 to R126) -/

/-- Every section of the frame page of a serial emptied (R115). -/
def State.emptyPage (s : State) (serial : Nat) : State :=
  { s with builder.pages := s.builder.pages.set (pageOf serial).val (Vector.replicate 4 []) (pageOf serial).isLt }

/-- The build in hand ends, and the due build, if one is held, starts with a prediction of its own (R115, R124). -/
def State.endBuild (s : State) (lit : Nat → ZoneSet) : State :=
  match s.builder.due with
  | some d => { s with builder.inHand := some ⟨d, none, lit d, none⟩, builder.due := none }
  | none => { s with builder.inHand := none }

/-- A build ended by stop: no report, and a due build dropped (R126). -/
def State.stopBuild (s : State) : State := { s with builder.inHand := none, builder.due := none }

/-- The records a cut leaves: those after the walk position, and the candidate in hand, which is refused late (R124, R125;
DEDUCED, log entry 38). -/
def State.leftUnplaced (s : State) (b : Build) : Nat := (s.unexamined b).length + b.candidate.toList.length

/-- The LATE BUILD report after a cut of the build in hand (R125). -/
def State.lateAfter (s : State) (b : Build) : LateReport :=
  match s.builder.late with
  | some l => { l with later := saturate 255 l.later 1 }
  | none =>
    let page := s.builder.pages.get (pageOf b.serial)
    ⟨b.serial, (frameOf b.serial).val, s.leftUnplaced b, (page.get 0).length, (page.get 1).length,
      (page.get 2).length, (page.get 3).length, 0⟩

/-- The builder at a mark m, first part: a build of m still in hand is cut (R124, R125). -/
def State.cutBuild (s : State) (m : Nat) (lit : Nat → ZoneSet) : State :=
  match s.builder.inHand with
  | some b =>
    if b.serial ≤ m then State.endBuild { s with builder.late := some (s.lateAfter b) } lit else s
  | none => s

/-- The builder at a mark m with the engine RUNNING, second part: the build of m + 2 becomes due, its page emptied, and it
starts at once or is held (R115). -/
def State.buildDue (s : State) (m : Nat) (lit : Nat → ZoneSet) : State :=
  let t := s.emptyPage (m + 2)
  match t.builder.inHand with
  | none => { t with builder.inHand := some ⟨m + 2, none, lit (m + 2), none⟩ }
  | some _ => { t with builder.due := some (m + 2) }

/-- Every section of all four frame pages emptied (R126, R127). -/
def State.emptyPages (s : State) : State :=
  { s with builder.pages := Vector.replicate 4 (Vector.replicate 4 []) }

/-- The build in hand replaced. -/
def State.setBuild (s : State) (b : Build) : State := { s with builder.inHand := some b }

/-- The reading of a candidate (R118, R124, R126): the builder checks the engine state and takes the first record of the
frame list after the walk position, which becomes that record's key. With no such record the build is exhausted, and a due
build starts. -/
def State.readCandidate (s : State) (b : Build) : State :=
  if s.engine.state ≠ .running then s.stopBuild
  else
    match s.unexamined b with
    | [] => s.endBuild fun d => s.predictLit d s.air.serial
    | i :: _ =>
      s.setBuild { b with position := some (s.msg i).key, candidate := some ⟨i, (s.msg i).generation, none⟩ }

/-- Checks 1 to 5 on the candidate read: it is skipped, or its place request goes out with its target zones (R119 to
R122). -/
def State.checkCandidate (s : State) (b : Build) (c : Candidate) : State :=
  s.setBuild { b with candidate := (s.candidateTargets b c.record).map fun targets => { c with targets := some targets } }

/-- The place step of a candidate that passed (R123). A refusal but that of a stopped engine lets the walk go on. -/
def State.placeCandidate (s : State) (b : Build) (c : Candidate) (targets : ZoneSet) : State :=
  match s.judgePlace b.serial c targets with
  | .accepted tag => (s.setBuild { b with candidate := none }).place b.serial c.record tag targets
  | .refused | .late => s.setBuild { b with candidate := none }
  | .ended => s.stopBuild

/-- BUILD_CANDIDATE (R118 to R124, R126). The command is the builder's next act on its build: the reading of a candidate,
its checks, or its place step, so that what other commands do between two of them is met as R128 says. A candidate that is
placed takes three of them (DEDUCED, log entry 8). -/
def execBuildCandidate (s : State) : Host.Outcome State Fault Refusal :=
  match s.builder.inHand with
  | none => .next s
  | some b =>
    match b.candidate with
    | none => .next (s.readCandidate b)
    | some c =>
      match c.targets with
      | none => .next (s.checkCandidate b c)
      | some targets => .next (s.placeCandidate b c targets)

/-- LATE_BUILD_APPEND (R125): under its reservation of 1 the builder appends the pending report and clears it. -/
def execLateBuildAppend (s : State) : Host.Outcome State Fault Refusal :=
  match s.builder.late with
  | some l =>
    if s.ex.writer.holds .builder then
      .next (State.endUnit { s.hand .builder (recordLateBuild l) with builder.late := none } .builder)
    else .next s
  | none => .next s

/-! ## The encoder (R145 to R148) -/

/-- The entry list of a frame page: each record once, with its generation, in order of first appearance through the
sections of zones 0 to 3 (R146). -/
def entryList (page : FramePage) : List (Nat × BitVec 8) :=
  let all := (page.get 0 ++ page.get 1 ++ page.get 2 ++ page.get 3).map fun e => (e.record, e.generation)
  all.foldl (fun acc e => if acc.any fun f => f.1 == e.1 then acc else acc ++ [e]) []

/-- The frame the encoder forms at mark s: the entry list and the zone frame of each zone (R145, R146). -/
def State.formFrame (s : State) (serial : Nat) : Frame :=
  let page := s.builder.pages.get (pageOf serial)
  ⟨serial, entryList page, Vector.ofFn fun z => zoneFrame s.engine.office.code serial z (page.get z)⟩

/-- The successful zones of the frame that ends: at least one link of the zone was keyed for it and is still keyed
(R147). -/
def State.successfulZones (s : State) : ZoneSet :=
  zonesWhere fun z => (List.finRange 8).any fun l => (s.link l).keyed && decide ((s.link l).settings.zone = some z)

/-- The airing report of the frame that ends handed to the tracker, which appends its entries to the settle list (R147,
R148, R157). -/
def State.handReport (s : State) : State :=
  match s.frame with
  | some f =>
    { s with
      tracker.settle := s.tracker.settle ++ f.entries.map fun e => ⟨e.1, e.2, f.serial, s.successfulZones⟩ }
  | none => s

/-- The codeword a transmitter link sends as block k (1 to 120) of the frame in progress: that of its zone's frame while
the link is keyed, and nothing otherwise (R12, R137, R145). -/
def State.linkOutput (s : State) (l : Index8) (k : Nat) : Option Word :=
  match s.frame, (s.link l).settings.zone with
  | some f, some z => if (s.link l).keyed then (f.zoneFrames.get z)[k - 1]? else none
  | _, _ => none

end Sys2Proof.Machine
end

