-- ==== Sys2Proof/Machine/Tracker.lean ====
section
/-! DEFINITION. The delivery tracker (chapter 9): return messages at the receiver links, and the three kinds of item. -/

namespace Sys2Proof.Machine

/-! ## Return messages at a receiver link (R152) -/

/-- The office code of a return message's radio address: the address div 65536 (R21, R189). -/
def messageAddress (bits : BitVec 40) : Nat := (bits.extractLsb' 16 22).toNat

/-- The kind bits of a return message (R189). -/
def messageKind (bits : BitVec 40) : BitVec 2 := bits.extractLsb' 38 2

/-- Whether the check byte of a return message is the CRC-8 of its 32 data bits (R152, R189). -/
def messageCheckOk (bits : BitVec 40) : Bool :=
  decide (checkByte (bits.extractLsb' 8 32) = bits.extractLsb' 0 8) &&
    decide (messageKind bits = 1 ∨ messageKind bits = 2)

/-- The reverse queue entry of an accepted message; the tag is 0 for REGISTER (R152). -/
def State.reverseEntry (s : State) (l : Index8) (bits : BitVec 40) : ReverseEntry where
  link := l
  zone := (s.receiver l).zone
  isAck := decide (messageKind bits = 1)
  address := messageAddress bits
  tag := if messageKind bits = 1 then Fin.ofNat 8 (bits.extractLsb' 13 3).toNat else 0
  arrival := s.air.serial

/-- RETURN_MESSAGE (R152, R153): judged at its link in the order disabled, bad check, foreign, queue full, accepted. In
LOADING it is discarded and not counted. -/
def execReturnMessage (l : Index8) (bits : BitVec 40) (s : State) : Host.Outcome State Fault Refusal :=
  let v := s.receiver l
  if s.loading then .next s
  else if v.enabled = false then .next (s.setReceiver l { v with disabled := saturate 65535 v.disabled 1 })
  else if messageCheckOk bits = false then .next (s.setReceiver l { v with badCheck := saturate 65535 v.badCheck 1 })
  else if messageAddress bits / 65536 ≠ s.engine.office.code.val then
    .next (s.setReceiver l { v with foreign := saturate 65535 v.foreign 1 })
  else if Config.reverseSize ≤ s.tracker.reverse.length then
    .next (s.setReceiver l { v with queueFull := saturate 65535 v.queueFull 1 })
  else
    let t := s.setReceiver l { v with accepted := saturate 65535 v.accepted 1 }
    .next (State.ask { t with tracker.reverse := t.tracker.reverse ++ [s.reverseEntry l bits] } .tracker)

/-! ## Settling airing reports (R157, R158) -/

/-- The first matching row of R158's table for an ON AIR record, as the settle request of R102. -/
def State.settleRecord (s : State) (e : SettleEntry) (r : MessageRecord) : State :=
  let i := e.record
  let cls := s.classOf r.subscriber
  let unreachable := (s.sub r.subscriber).reach.unreachable
  let aired := r.placedZones &&& e.zones
  let raised := { r with attempts := saturate 15 r.attempts 1, airedZones := aired }
  if r.ackedPending then s.close .tracker i .delivered
  else if r.cancelPending then s.close .tracker i .cancelled
  else if aired = 0 ∧ r.expiry ≤ s.cycle then s.close .tracker i .expired
  else if aired = 0 ∧ unreachable then s.makeHeld i r
  else if aired = 0 then s.makeWaiting i r
  else if cls.twoWay then s.makeAwaiting i raised (e.serial + cls.ackWindow)
  else if cls.repeatCount ≤ raised.attempts then (s.setMsg i raised).close .tracker i .sent
  else if unreachable then s.makeHeld i raised
  else s.makeWaiting i { raised with eligible := cycleOf e.serial + 1 }

/-- SETTLE_ENTRY (R155, R157, R158): under its reservation the tracker settles the head of the settle list; an entry whose
record is no longer ON AIR with its generation and serial is discarded. -/
def execSettleEntry (s : State) : Host.Outcome State Fault Refusal :=
  match s.tracker.settle with
  | e :: rest =>
    if s.ex.writer.holds .tracker then
      let r := s.msg e.record
      let t : State := { s with tracker.settle := rest }
      let u :=
        if r.state = .onAir ∧ r.generation = e.generation ∧ r.placedSerial = some e.serial then t.settleRecord e r else t
      .next (u.endUnit .tracker)
    else .next s
  | [] => .next s

/-! ## Return message items (R159 to R161) -/

/-- The reach group after location debounce with a message heard in zone z at serial a (R161). -/
def Reach.debounce (r : Reach) (confirm : Nat) (z : Zone) (arrival : Nat) : Reach :=
  let count := if r.candidateZone = some z then saturate 7 r.candidateCount 1 else 1
  let moved := { r with candidateZone := some z, candidateCount := count }
  if confirm ≤ count then { moved with heardZone := some z, heardCycle := cycleOf arrival } else moved

/-- R160 and R161 on an ACTIVE or BARRED subscriber: miss count 0, release where unreachable, location debounce, and the
records SUBSCRIBER RELEASED and MOVED in that order. -/
def State.heard (s : State) (n : Nat) (e : ReverseEntry) : State :=
  let t := s.setReach n { (s.sub n).reach with missCount := 0 }
  let u :=
    if (t.sub n).reach.unreachable then
      let released := t.releaseAll n
      released.1.hand .tracker (recordReleased n released.2 e.arrival)
    else t
  let before := (u.sub n).reach
  let after := before.debounce u.engine.office.locationConfirm e.zone e.arrival
  let v := u.setReach n after
  if after.heardZone ≠ before.heardZone ∧ (v.sub n).billing.notifyMoves then
    v.hand .tracker (recordMoved n before.heardZone after.heardZone e.link e.arrival)
  else v

/-- The ack request of R103: the subscriber's occupied record holding the tag is closed DELIVERED, or marked acked-pending
where PLACED or ON AIR; with none, UNMATCHED ACK is handed (R159). -/
def State.matchAck (s : State) (n : Nat) (e : ReverseEntry) : State :=
  match s.findTag n e.tag with
  | none => s.hand .tracker (recordUnmatchedAck e (s.sub n).billing.state)
  | some i =>
    let r := s.msg i
    if r.state = .placed ∨ r.state = .onAir then s.setMsg i { r with ackedPending := true }
    else s.close .tracker i .delivered

/-- One return message processed (R159, R160). -/
def State.processReturn (s : State) (e : ReverseEntry) : State :=
  let n := e.address % 65536
  let state := (s.sub n).billing.state
  if state = .vacant then
    if e.isAck then s.hand .tracker (recordUnmatchedAck e state) else s
  else if e.isAck then (s.matchAck n e).heard n e
  else s.heard n e

/-- Whether a due deadline comes before a return message with arrival serial a: its serial is at or below a (R156). -/
def State.deadlineBefore (s : State) (arrival : Nat) : Bool :=
  match s.tracker.deadlines with
  | d :: _ => decide (d.serial ≤ s.air.serial) && decide (d.serial ≤ arrival)
  | [] => false

/-- RETURN_MESSAGE_ITEM (R155, R156, R159): under its reservation the tracker takes the head of the reverse queue, where
no due deadline comes before it in the merged order. -/
def execReturnMessageItem (s : State) : Host.Outcome State Fault Refusal :=
  match s.tracker.reverse with
  | e :: rest =>
    if s.ex.writer.holds .tracker ∧ s.deadlineBefore e.arrival = false then
      let t := State.processReturn { s with tracker.reverse := rest } e
      .next (t.endUnit .tracker)
    else .next s
  | [] => .next s

/-! ## Deadlines (R162 to R164) -/

/-- The miss latch of a deadline (R163): the miss count rises, stopping at 16; where the latch limit is reached and the
subscriber is not unreachable already, the flag is set, its WAITING records are held, and SUBSCRIBER HELD is handed. -/
def State.missLatch (s : State) (n : Nat) : State :=
  let r := (s.sub n).reach
  let misses := saturate 16 r.missCount 1
  let limit := s.engine.office.missLatchLimit
  if limit ≠ 0 ∧ limit ≤ misses ∧ r.unreachable = false then
    let t := s.setReach n { r with missCount := misses, unreachable := true }
    let held := t.holdAll n
    held.1.hand .tracker (recordHeld n misses held.2 s.air.serial)
  else s.setReach n { r with missCount := misses }

/-- The extra cycles of a retry: min(2^(attempts - 1) - 1, backoff cap) (R164). -/
def backoff (attempts cap : Nat) : Nat := min (2 ^ (attempts - 1) - 1) cap

/-- The fate of the record whose deadline d fell: the first matching row of R164's table. -/
def State.deadlineFate (s : State) (i d : Nat) : State :=
  let r := s.msg i
  let cls := s.classOf r.subscriber
  if cls.retryLimit ≤ r.attempts then s.close .tracker i .undelivered
  else if r.expiry ≤ cycleOf d then s.close .tracker i .expired
  else if (s.sub r.subscriber).reach.unreachable then (s.dropDeadline i).makeHeld i r
  else (s.dropDeadline i).makeWaiting i { r with eligible := cycleOf d + 1 + backoff r.attempts cls.backoffCap }

/-- Whether a return message comes before a due deadline d: its arrival serial is below d (R156). -/
def State.returnBefore (s : State) (d : Nat) : Bool :=
  match s.tracker.reverse with
  | e :: _ => decide (e.arrival < d)
  | [] => false

/-- DEADLINE_ITEM (R155, R156, R163, R164): under its reservation the tracker takes the due head of the deadline list,
where no return message comes before it in the merged order. A deadline settle acts on an AWAITING ACK record (R103). With no
item ready a reservation held stays held: DESIGN CHOICE, log entry 29. -/
def execDeadlineItem (s : State) : Host.Outcome State Fault Refusal :=
  match s.tracker.deadlines with
  | e :: _ =>
    if s.ex.writer.holds .tracker ∧ e.serial ≤ s.air.serial ∧ s.returnBefore e.serial = false then
      let t := s.missLatch (s.msg e.record).subscriber
      let u := if (t.msg e.record).state = .awaitingAck then t.deadlineFate e.record e.serial else t.dropDeadline e.record
      .next (u.endUnit .tracker)
    else .next s
  | [] => .next s

end Sys2Proof.Machine
end

