-- ==== Sys2Proof/Machine/Timing.lean ====
section
/-! DEFINITION. The air timing unit (chapter 1): second boundaries, frame marks, the office clock and the reference monitor;
and what every block does at a frame mark. -/

namespace Sys2Proof.Machine

/-! ## The reference monitor (R7 to R11) -/

/-- A missed pulse, early or by the expiry of the window (R8, R9). Where it enters HOLDOVER at the very moment of the second
boundary still to be taken, that boundary is not counted (R10). -/
def Monitor.missed (m : Monitor) (onBoundary : Bool) : Monitor :=
  match m.state with
  | .absent => m
  | .locking => { m with good := 0 }
  | .locked => { m with state := .holdover, good := 0, holdover := 0, uncounted := onBoundary }
  | .holdover => { m with good := 0 }
  | .lost => { m with good := 0 }

/-- A good pulse raises the good count, and the one that would raise it to 4 moves the monitor to LOCKED (R8, R9). -/
def Monitor.raiseGood (m : Monitor) : Monitor :=
  if 4 ≤ m.good + 1 then { m with state := .locked, good := 0, holdover := 0, uncounted := false } else { m with good := m.good + 1 }

/-- A good pulse (R8, R9). -/
def Monitor.goodPulse (m : Monitor) : Monitor :=
  match m.state with
  | .absent => m
  | .locking => m.raiseGood
  | .locked => m
  | .holdover => m.raiseGood
  | .lost => m.raiseGood

/-- A starting pulse: it moves ABSENT to LOCKING and leaves every other state and the good count as they are (R8, R9). -/
def Monitor.startingPulse (m : Monitor) : Monitor :=
  match m.state with
  | .absent => { m with state := .locking, good := 0 }
  | .locking => m
  | .locked => m
  | .holdover => m
  | .lost => m

/-- A pulse judged by the time elapsed since the pulse that opened the window: early under 0.9 s, good to 1.1 s, and after
that a starting pulse behind the expiry of its window, which fell before it (R7; DESIGN CHOICE, log entry 5). -/
def Monitor.judgePulse (m : Monitor) (time next : Nat) : Monitor :=
  match m.window with
  | none => m.startingPulse
  | some opened =>
    if time - opened < Config.windowOpensAt then m.missed (decide (time = next))
    else if time - opened ≤ Config.windowEndsAt then m.goodPulse
    else (m.missed (decide (opened + Config.windowEndsAt = next))).startingPulse

/-- A pulse taken: judged, and a new window opened from its arrival (R7). `next` is the time of the second boundary still to
be taken. -/
def Monitor.pulse (m : Monitor) (time next : Nat) : Monitor := { m.judgePulse time next with window := some time }

/-- The window expires 1.1 s after it opened: a missed pulse, and the window closes; a closed window does not expire (R7). -/
def Monitor.expire (m : Monitor) (next : Nat) : Monitor :=
  match m.window with
  | some opened => { m.missed (decide (opened + Config.windowEndsAt = next)) with window := none }
  | none => m

/-- The holdover count at a second boundary, and LOST where the raised count exceeds twice the limit; the boundary at which
HOLDOVER was entered is not counted (R10). -/
def Monitor.countHoldover (m : Monitor) (limit : Nat) : Monitor :=
  if m.state = .holdover then
    if m.uncounted then { m with uncounted := false }
    else { m with holdover := m.holdover + 1, state := if 2 * limit < m.holdover + 1 then .lost else .holdover }
  else m

/-- The pending REFERENCE report after a reported transition (R11). -/
def referenceReportAfter (r : Option ReferenceReport) (enterLost : Bool) (serial second day : Nat) : ReferenceReport :=
  match r with
  | none => ⟨enterLost, serial, second, day, 0⟩
  | some r => { r with later := saturate 255 r.later 1 }

/-- Whether a change of monitor state is a reported transition: HOLDOVER to LOST, or LOST to LOCKED (R11). -/
def reportedTransition (before after : MonitorState) : Bool :=
  decide ((before = .holdover ∧ after = .lost) ∨ (before = .lost ∧ after = .locked))

/-- The monitor changed: a reported transition sets REFERENCE and enters the pending report (R11), and a STARTING engine
enters RUNNING where the monitor is LOCKED (R178). -/
def State.setMonitor (s : State) (m : Monitor) : State :=
  let edge := reportedTransition s.air.monitor.state m.state
  let report :=
    if edge then some (referenceReportAfter m.report (decide (m.state = .lost)) s.air.serial s.air.second s.air.day)
    else m.report
  let run := decide (s.engine.state = .starting ∧ m.state = .locked)
  { s with
    air.monitor := { m with report := report }
    engine.state := if run then .running else s.engine.state
    ex.summary.reference := s.ex.summary.reference || edge
    ex.summary.engine := s.ex.summary.engine || run }

/-- The time at which the second boundary still to be taken falls, on the timebase (R1; DESIGN CHOICE, log entry 5). -/
def State.nextBoundary (s : State) : Nat := (s.air.seconds + 1) * Config.second

/-- REFERENCE_PULSE (R7 to R11, R178): a pulse arrives at `time` on the timebase. -/
def execReferencePulse (time : Nat) (s : State) : Host.Outcome State Fault Refusal :=
  .next ((s.setMonitor (s.air.monitor.pulse time s.nextBoundary)).ask .monitor)

/-- WINDOW_EXPIRY (R7 to R10): an open window has been open 1.1 s without a pulse. -/
def execWindowExpiry (s : State) : Host.Outcome State Fault Refusal :=
  .next ((s.setMonitor (s.air.monitor.expire s.nextBoundary)).ask .monitor)

/-- REFERENCE_RECORD_APPEND (R11): under its reservation of 1 the monitor appends the pending report, with the monitor
state at this moment, and the report is cleared. -/
def execReferenceRecordAppend (s : State) : Host.Outcome State Fault Refusal :=
  match s.air.monitor.report with
  | some r =>
    if s.ex.writer.holds .monitor then
      let t := s.hand .monitor (recordReference r s.air.monitor.state)
      .next (State.endUnit { t with air.monitor.report := none } .monitor)
    else .next s
  | none => .next s

/-! ## The air timing unit's own steps at a second boundary (R1) -/

/-- Whether the next second boundary is a frame mark: first of a pair, with the engine RUNNING or STOPPING (R4). -/
def State.markDue (s : State) : Bool :=
  s.air.firstNext && decide (s.engine.state = .running ∨ s.engine.state = .stopping)

/-- The serial of the next mark. Past 2^32 - 1 the manual states no wrap behaviour: a free value (DESIGN CHOICE, log entry 9). -/
def State.nextSerial (s : State) : Nat :=
  if s.air.serial + 1 < 2 ^ 32 then s.air.serial + 1 else (Config.serialPastLimit s.ex.choices).toNat

/-- The office clock one second on: the second of day, and the day number where it passes 86399 (R2). -/
def clockAfter (second day : Nat) : Nat × Nat :=
  if second + 1 ≤ 86399 then (second + 1, day) else (0, if day + 1 ≤ 65535 then day + 1 else 0)

/-- Steps 1 and 2: the frame serial where the boundary is a mark, and the office clock, with their mirror notices; the
pair phase alternates (R1, R2, R5). -/
def State.tick (s : State) (mark : Bool) : State :=
  let clock := clockAfter s.air.second s.air.day
  let t : State :=
    { s with
      air.seconds := s.air.seconds + 1
      air.serial := if mark then s.nextSerial else s.air.serial
      air.firstNext := !s.air.firstNext
      air.second := clock.1
      air.day := clock.2
      ex.choices := if mark ∧ 2 ^ 32 ≤ s.air.serial + 1 then s.ex.choices + 1 else s.ex.choices }
  if mark then (t.notice .frameSerial).notice .officeClock else t.notice .officeClock

/-- The three steps of the air timing unit at a second boundary, in order (R1). -/
def State.airSteps (s : State) (mark : Bool) : State :=
  let t := s.tick mark
  t.setMonitor (t.air.monitor.countHoldover t.engine.office.holdoverLimit)

/-! ## A frame mark (R4) -/

/-- The expiry sweep at a mark: with frame number 0 it starts or is rebound to the new current cycle (R108). -/
def State.startSweep (s : State) (m : Nat) : State :=
  if m % 32 = 0 then { s with store.sweep := s.store.sweep.start (cycleOf m) } else s

/-- The blocks at a mark m begun with the engine RUNNING: the encoder forms the frame and makes the records placed for m
ON AIR (R145, R146), the builder cuts a build of m and begins m + 2 (R115, R124), and the sweep may start (R108). -/
def State.beginFrame (s : State) (m : Nat) (lit : Nat → ZoneSet) : State :=
  let aired : State := { s.airing m with frame := some (s.formFrame m), ex.choices := s.ex.choices + 1 }
  ((aired.cutBuild m lit).buildDue m lit).startSweep m

/-- The blocks at the mark m that ends STOPPING: no frame is formed, a build of m still in hand is cut and any other build
ends, the return request is applied, the engine enters SETUP with the ENGINE bit, and the frame pages are emptied (R102,
R126, R148, R179; DEDUCED, log entry 15). -/
def State.endStopping (s : State) (m : Nat) : State :=
  let stopped := (s.cutBuild m fun _ => 0).stopBuild
  let returned : State := { (stopped.returnPlaced m).emptyPages with frame := none, engine.state := .setup }
  returned.setEngineBit.startSweep m

/-- Every block's part of the mark that the state stands at, after the air timing unit's steps: the encoder judges the
frame that ends before the controllers take the mark (R147), and the rest follows. The builder's prediction is taken
before or after the controllers take the mark, by a free value (DESIGN CHOICE, log entry 13). -/
def State.takeMark (s : State) : State :=
  let m := s.air.serial
  let marked := s.handReport.linksTakeMark
  let lit (d : Nat) : ZoneSet :=
    if Config.predictFirst s.ex.choices then s.predictLit d (m - 1) else marked.predictLit d m
  if s.engine.state = .running then marked.beginFrame m lit else marked.endStopping m

/-! ## What reaches the report writer at a boundary -/

/-- A piece of work that reaches the report writer at a second boundary: the boundary itself (R173), a request for a
reservation (R170), or a LINK STATUS offer (R144). -/
inductive ReportItem where
  | age
  | ask (p : Producer)
  | offer (l : Index8)
  deriving DecidableEq, Repr

/-- One such piece taken. -/
def State.takeItem (s : State) : ReportItem → State
  | .age => { s with ex := s.ex.ageStep s.stamp s.engine.office.flushInterval }
  | .ask p => s.ask p
  | .offer l => s.offerStatus l

/-- The producers that ask at a second boundary: those with work and neither a request nor a reservation. -/
def State.askers (s : State) : List Producer :=
  [Producer.monitor, .tracker, .messageStore, .linkUnit, .builder].filter fun p =>
    s.hasWork p && !decide (p ∈ s.ex.writer.waiting) && !s.ex.writer.holds p

/-- The pieces of work of a second boundary, with the links that offer LINK STATUS at it. -/
def State.reportItems (s : State) (offers : List Index8) : List ReportItem :=
  (if s.ex.writer.filling.isSome ∨ offers ≠ [] then [.age] else []) ++ s.askers.map .ask ++ offers.map .offer

/-- The pieces of work taken one after the other, in an order the manual leaves open (DESIGN CHOICE, log entry 11). -/
def State.reportSteps (s : State) (offers : List Index8) : State :=
  let items := s.reportItems offers
  let t : State := { s with ex.choices := s.ex.choices + items.length }
  (arrange s.ex.choices items.length items).foldl State.takeItem t

/-- The links that offer LINK STATUS at the next mark (R144). -/
def State.offering (s : State) : List Index8 := (List.finRange 8).filter fun l => (s.link l).offers

/-! ## Second boundaries -/

/-- A second boundary, whole: the air timing unit's steps (R1); where it is a frame mark, every block's part of the mark
(R4); where the monitor enters LOST at a boundary that is second of a pair, the end of keying (R137); and what reaches
the report writer. -/
def State.boundary (s : State) : State :=
  let mark := s.markDue
  let t := s.airSteps mark
  let entered := decide (s.air.monitor.state = .holdover ∧ t.air.monitor.state = .lost)
  let u := if mark then t.takeMark else if entered then t.endKeying else t
  u.reportSteps (if mark then s.offering else [])

/-- SECOND_BOUNDARY (R1, R2, R10, R173): the timebase ends a second. Where R4 makes the boundary a frame mark, the mark is
part of it. -/
def execSecondBoundary (s : State) : Host.Outcome State Fault Refusal := .next s.boundary

/-- FRAME_MARK (R4): the second boundary that is a frame mark. Where the next boundary is none, no mark falls and nothing
changes (DEDUCED, log entry 7). -/
def execFrameMark (s : State) : Host.Outcome State Fault Refusal := .next (if s.markDue then s.boundary else s)

/-- Whether the holdover limit expires at the next second boundary (R10). -/
def State.limitDue (s : State) : Bool :=
  decide (s.air.monitor.state = .holdover ∧ s.air.monitor.uncounted = false ∧
    2 * s.engine.office.holdoverLimit < s.air.monitor.holdover + 1)

/-- HOLDOVER_LIMIT_EXPIRY (R10, R11): the second boundary at which the raised holdover count exceeds twice the limit, and
the monitor enters LOST. Where the next boundary is none such, nothing changes (DEDUCED, log entry 7). -/
def execHoldoverLimitExpiry (s : State) : Host.Outcome State Fault Refusal :=
  .next (if s.limitDue then s.boundary else s)

/-- EXPIRY_SWEEP_START (R108): the frame mark with frame number 0, at which the sweep starts or is rebound and flagged.
Where the next boundary is none such, nothing changes (DEDUCED, log entry 7). -/
def execExpirySweepStart (s : State) : Host.Outcome State Fault Refusal :=
  .next (if s.markDue ∧ s.nextSerial % 32 = 0 then s.boundary else s)

/-- A controller as it stands when keying is judged at the next mark: after the mark's steps 1 to 3, the air timing
unit's steps taken first. -/
def State.linkAtKeying (s : State) (l : Index8) : Link :=
  (s.link l).beforeKeying (s.airSteps s.markDue).markView

/-- Whether the next boundary is a mark at which a link's frame is a skip frame (R136). -/
def State.skipDue (s : State) (l : Index8) : Bool :=
  s.markDue && decide (s.engine.state = .running) && decide ((s.linkAtKeying l).state = .keyed) &&
    (skipStep (s.linkAtKeying l).settings.skip (s.linkAtKeying l).skipCounter).2

/-- SKIP_FRAME (R136): the frame mark at which the link's skip counter equals N - 1: a skip frame, and the counter returns
to 0. Where the next boundary is none such, nothing changes (DEDUCED, log entry 7). -/
def execSkipFrame (l : Index8) (s : State) : Host.Outcome State Fault Refusal :=
  .next (if s.skipDue l then s.boundary else s)

/-- Whether the next boundary is a mark at which a link's clean run reaches 30 (R135). -/
def State.cleanRunDue (s : State) (l : Index8) : Bool :=
  s.markDue && s.frame.isSome &&
    decide (((s.link l).endFrame (s.airSteps s.markDue).markView).state = .keyed) &&
    decide (((s.link l).endFrame (s.airSteps s.markDue).markView).cleanRun + 1 = 30)

/-- CLEAN_RUN_COMPLETE (R135): the frame mark at which the link's clean run reaches 30 and its latch counter is cleared.
Where the next boundary is none such, nothing changes (DEDUCED, log entry 7). -/
def execCleanRunComplete (l : Index8) (s : State) : Host.Outcome State Fault Refusal :=
  .next (if s.cleanRunDue l then s.boundary else s)

/-- LINK_STATUS_OFFER (R144): the frame mark at which the link's cadence divider reaches the cadence and a LINK STATUS
record is appended or dropped. Where the next boundary is none such, nothing changes (DEDUCED, log entry 7). -/
def execLinkStatusOffer (l : Index8) (s : State) : Host.Outcome State Fault Refusal :=
  .next (if s.markDue ∧ (s.link l).offers then s.boundary else s)

/-- Whether the FILLING page's age count reaches the flush interval at the next second boundary (R173). -/
def State.ageDue (s : State) : Bool :=
  s.ex.writer.filling.isSome && decide (s.engine.office.flushInterval ≤ saturate 30 s.ex.writer.age 1)

/-- PAGE_AGE_DUE (R173): the second boundary at which the FILLING page's age count reaches the flush interval; a page that
is due already is closed as soon as its test holds. Where neither applies, nothing changes (DEDUCED, log entry 7). -/
def execPageAgeDue (s : State) : Host.Outcome State Fault Refusal :=
  .next
    (if s.ex.writer.due then { s with ex := s.ex.closeIfDue s.stamp } else if s.ageDue then s.boundary else s)

end Sys2Proof.Machine
end

