-- ==== Sys2Proof/Machine/Orders.lean ====
section
/-! DEFINITION. The postings (chapter 5): the message posting with its eight checks, and every order of section 5.5. Each
meaning acts on the posting the intake unit holds, and answers it. -/

namespace Sys2Proof.Machine

/-! ## Shared forms of checks and answers -/

/-- The first field of a list of field checks that fails (R85, R186). -/
def firstBad (checks : List (Nat × Bool)) : Option Nat := (checks.find? fun c => !c.2).map (·.1)

/-- Whether a full-word field lies in 0 to `limit` (R184). -/
def upTo (limit : Nat) (w : Word) : Bool := decide (w.toNat ≤ limit)

/-- Whether a full-word home zone set is nonempty and names no zone above 3 (R23, R24). -/
def zonesOk (w : Word) : Bool := decide (w ≠ 0) && upTo 15 w

/-- MALFORMED with the word that names the posting's subject and the number of the field out of range (R85, R186). -/
def State.malformed (s : State) (subject : Word) (field : Nat) : State := s.answer .malformed [subject, word field]

/-- A refused subscriber order: the subscriber number and its state as found (R23, R186). -/
def State.refuseSubscriber (s : State) (code : AnswerCode) (n : Nat) : State :=
  s.answer code [word n, (s.sub n).billing.state.code]

/-- A settings order's answer: ADJUSTED where a value was replaced, with the settings as written (R93). -/
def State.answerFitted (s : State) (carried written : List Word) : State :=
  s.answer (if carried = written then .accepted else .adjusted) written

/-- A refusal on the engine state, which is the answer data (R92). -/
def State.refuseState (s : State) (code : AnswerCode) : State := s.answer code [s.engine.state.code]

/-- Parameter words `a` to `b` of a posting. -/
def Posting.params (p : Posting) (a b : Nat) : List Word := (List.range (b + 1 - a)).map fun k => p.param (a + k)

/-- A value raised to 1 and lowered to `limit` (R131, R180, R181). -/
def fitOne (limit v : Nat) : Nat := clamp 1 limit v

/-- A value rounded down to the nearest allowed value, 0 being allowed (R131, R180). -/
def roundDown (allowed : List Nat) (v : Nat) : Nat := (allowed.filter fun a => decide (a ≤ v)).foldl max 0

/-- A tag or none, as a word (R184). -/
def wordTag : Option (Fin 8) → Word
  | some t => word t.val
  | none => wordNone

/-! ## Message postings (R85 to R91) -/

/-- Check 2: the length against the kind (R85). -/
def lengthOk (kind : MessageKind) (w : Word) : Bool :=
  match kind with
  | .tone => true
  | .numeric => upTo 40 w
  | .alpha => upTo 200 w

/-- Whether a text byte is kept by check 3 (R15, R86). -/
def byteKept (kind : MessageKind) (b : Byte) : Bool :=
  match kind with
  | .tone => true
  | .numeric => decide (b.toNat ∈ [0x20, 0x23, 0x28, 0x29, 0x2A, 0x2D] ∨ (0x30 ≤ b.toNat ∧ b.toNat ≤ 0x39))
  | .alpha => decide (0x20 ≤ b.toNat ∧ b.toNat ≤ 0x7E)

/-- The text bytes check 3 reads: none for TONE, the first L otherwise (R86). -/
def Posting.postedText (p : Posting) (kind : MessageKind) : List Byte :=
  match kind with
  | .tone => []
  | .numeric => p.text (p.param 4).toNat
  | .alpha => p.text (p.param 4).toNat

/-- The text as replaced by check 3 (R86). -/
def replacedText (kind : MessageKind) (text : List Byte) : List Byte :=
  text.map fun b => if byteKept kind b then b else 0x20

/-- How many bytes check 3 replaced (R86). -/
def replacedCount (kind : MessageKind) (text : List Byte) : Nat := (text.filter fun b => !byteKept kind b).length

/-- The record a commit writes over record `old` (R89). -/
def State.admitted (s : State) (old : MessageRecord) (d : Draft) (charge : Nat) (refundable : Bool) : MessageRecord where
  state := .waiting
  generation := old.generation + 1
  subscriber := d.subscriber
  kind := d.kind
  urgent := d.urgent
  text := d.text
  sequence := s.store.sequence
  hostTag := d.hostTag
  charge := charge
  refundable := refundable
  tag := none
  attempts := 0
  eligible := 0
  expiry := s.cycle + (s.classOf d.subscriber).lifetime
  placedSerial := none
  placedZones := 0
  airedZones := 0
  deadline := none
  cancelPending := false
  ackedPending := false

/-- The record a commit occupies: the lowest-numbered FREE one, which check 7 has found to exist (R87, R89). -/
def State.commitIndex (s : State) : Nat := s.lowestFree.getD 0

/-- The commit of an admission (R89): the record occupied and WAITING in its list, or HELD where the subscriber is
unreachable. -/
def State.commit (s : State) (d : Draft) (charge : Nat) (refundable : Bool) : State :=
  let i := s.commitIndex
  let r := s.admitted (s.msg i) d charge refundable
  let g := (s.sub d.subscriber).store
  let t := s.setStoreGroup d.subscriber { g with openCount := g.openCount + 1 }
  let u := State.notice
    { t with store.sequence := t.store.sequence + 1, store.freeCount := t.store.freeCount - 1 } .freeRecords
  if (u.sub d.subscriber).reach.unreachable then u.makeHeld i r else u.makeWaiting i r

/-- ADMIT (R48, R187). -/
def recordAdmit (d : Draft) (c : Charged) (e : Entered) : Record :=
  [0x01, handleWord e.generation e.record, d.hostTag, word d.subscriber, word c.period, d.kind.code, word d.text.length,
    word c.rating.blocks, wordFlag d.urgent, word c.rating.raw, word c.rating.surcharged, word c.rating.discount,
    word c.rating.offPeak, wordFlag c.rating.free, word c.rating.charge, wordInt c.balance]

/-- The rating request's computation on a record already rolled (R39 to R46). -/
def State.rating (s : State) (d : Draft) : Rating :=
  rate (s.planOf d.subscriber) s.engine.office (s.air.second / 60) (s.sub d.subscriber).billing.counters.messages d.kind
    d.text.length d.urgent

/-- Step 10: the charge and the counters applied (R48). -/
def State.applyCharge (s : State) (n : Nat) (r : Rating) : State :=
  let b := (s.sub n).billing
  s.setBilling n { b with balance := b.balance - r.charge, counters := b.counters.countAdmission r.blocks r.charge }

/-- Step 9 on a record already rolled (R47, R88). -/
def State.affords (s : State) (d : Draft) : Bool :=
  let b := (s.sub d.subscriber).billing
  creditPasses b.balance b.creditLimit (s.rating d).charge

/-- Step 10 whole: the charge and the counters, and the low-balance flag judged where the charge is above 0 (R48). -/
def State.charged (s : State) (d : Draft) : State :=
  let r := s.rating d
  let t := s.applyCharge d.subscriber r
  if 0 < r.charge then t.setLow d.subscriber else t

/-- What the account unit returns of step 10 and keeps for its records (R48, R88). -/
def State.chargeOf (s : State) (d : Draft) : Charged :=
  let old := (s.sub d.subscriber).billing
  let b := ((s.charged d).sub d.subscriber).billing
  let plan := s.planOf d.subscriber
  { rating := s.rating d
    period := b.period
    balance := b.balance
    refundable := plan.refundable
    alert :=
      if b.lowBalance = old.lowBalance then none
      else some ⟨b.lowBalance, plan.warningLevel, plan.recoveryMargin, b.plan⟩ }

/-- Check 8, the rating request (R88): a stale record is rolled, the message is rated, and it is charged or refused
INSUFFICIENT CREDIT. -/
def State.rateMessage (s : State) (d : Draft) : State :=
  let t := s.rollIfStale d.subscriber
  if t.affords d then (t.charged d).advance (.charged d (t.chargeOf d))
  else
    t.advance (.decided .insufficientCredit
      [word d.subscriber, word (t.rating d).charge, wordInt (t.sub d.subscriber).billing.balance])

/-- The commit request of a charged message (R89). -/
def State.commitMessage (s : State) (d : Draft) (c : Charged) : State :=
  let i := s.commitIndex
  let t := s.commit d c.rating.charge c.refundable
  t.advance (.committed d c ⟨i, (t.msg i).generation, (t.msg i).state⟩)

/-- The BALANCE ALERT of a charged message, where the charge changed the flag (R48, R50). -/
def Charged.alertRecord (c : Charged) (subscriber : Nat) : Option Record :=
  c.alert.map fun a =>
    recordBalanceAlert subscriber a.raised c.balance a.warningLevel a.recoveryMargin a.plan .admission

/-- The report of a committed message to the account unit, which hands ADMIT and, where the flag changed, BALANCE ALERT
(R48, R91). -/
def State.reportMessage (s : State) (d : Draft) (c : Charged) (e : Entered) : State :=
  let t := s.hand .intake (recordAdmit d c e)
  let u := match c.alertRecord d.subscriber with
    | some r => t.hand .intake r
    | none => t
  u.advance (.decided .accepted
    [handleWord e.generation e.record, word c.rating.charge, wordInt c.balance, word c.rating.blocks, e.state.code,
      word d.replaced])

/-- Checks 4 to 7 (R87): the answer code and the value found of the first that refuses. -/
def State.refusal (s : State) (d : Draft) : Option (AnswerCode × Word) :=
  let b := (s.sub d.subscriber).billing
  if b.state = .vacant then some (.unknownSubscriber, b.state.code)
  else if b.state = .barred then some (.barred, b.state.code)
  else if d.kind = .alpha ∧ (s.classOf d.subscriber).alphaAllowed = false then
    some (.serviceMismatch, word b.serviceClass.val)
  else if Config.openLimit ≤ (s.sub d.subscriber).store.openCount then
    some (.subscriberFull, word (s.sub d.subscriber).store.openCount)
  else if s.store.freeCount = 0 then some (.storeFull, word s.store.freeCount)
  else none

/-- What a message posting comes to at checks 1 to 7: the answer of the first that refuses, or the draft that goes to check 8
(R85 to R87). -/
inductive Checked where
  | refused (code : AnswerCode) (data : List Word)
  | passed (d : Draft)
  deriving DecidableEq, Repr

/-- A message posting put through checks 1 to 7 (R85 to R87). -/
def State.checked (s : State) (p : Posting) : Checked :=
  let n := p.subscriber
  match kindOf (p.param 2) with
  | none => .refused .malformed [word n, word 2]
  | some kind =>
    if lengthOk kind (p.param 4) = false then .refused .malformed [word n, word 4]
    else
      let posted := p.postedText kind
      let d : Draft :=
        ⟨n, kind, decide (p.param 3 ≠ 0), replacedText kind posted, p.param 5, replacedCount kind posted⟩
      match s.refusal d with
      | some r => .refused r.1 [word n, r.2]
      | none => .passed d

/-- Checks 1 to 7 taken: the message goes on to check 8, or its refusal is decided (R85 to R87). -/
def State.checkMessage (s : State) (p : Posting) : State :=
  match s.checked p with
  | .refused code data => s.advance (.decided code data)
  | .passed d => s.advance (.checked d)

/-- The next request of a message posting: checks 1 to 7, the rating, the commit, the report of the handle, and the answer
(R85 to R91, R95). Work that other commands do between two of them is seen as R87 and R90 say. -/
def State.message (s : State) (p : Posting) : State :=
  match s.ex.progress with
  | .begun | .copied _ => s.checkMessage p
  | .checked d => s.rateMessage d
  | .charged d c => s.commitMessage d c
  | .committed d c e => s.reportMessage d c e
  | .decided code data => s.answer code data

/-- MESSAGE (R85 to R91). The command is the intake unit's next request for the posting in hand, taken five times for an
admitted message (DEDUCED, log entry 8). -/
def execMessage (s : State) : Host.Outcome State Fault Refusal := s.order 0x01 s.message

/-! ## Subscriber orders (section 2.3) -/

/-- The parameter checks of PROVISION (R23, R24), taken in the order of the parameter words: DESIGN CHOICE, log entry 35. -/
def provisionChecks (p : Posting) : List (Nat × Bool) :=
  [(2, upTo 7 (p.param 2)), (3, upTo 15 (p.param 3)), (4, upTo 31 (p.param 4)), (5, zonesOk (p.param 5)),
    (6, decide (p.param 6 ≠ unchangedMarker)), (7, upTo 2147483647 (p.param 7))]

/-- The billing group PROVISION writes (R24). -/
def provisioned (p : Posting) (period : Nat) : Billing where
  state := .active
  serviceClass := Fin.ofNat 8 (p.param 2).toNat
  plan := Fin.ofNat 16 (p.param 3).toNat
  slot := Fin.ofNat 32 (p.param 4).toNat
  homeZones := (p.param 5).setWidth 4
  notifyMoves := decide (p.param 6 ≠ 0)
  balance := 0
  creditLimit := (p.param 7).toNat
  lowBalance := false
  period := period
  counters := Counters.zero

/-- PROVISION's checks and effect (R23, R24). -/
def State.provision (s : State) (p : Posting) : State :=
  let n := p.subscriber
  match firstBad (provisionChecks p) with
  | some k => s.malformed (word n) k
  | none =>
    if (s.sub n).billing.state ≠ .vacant then s.refuseSubscriber .inUse n
    else
      (s.setBilling n (provisioned p s.account.period)).answer .accepted
        [word n, word (s.radioAddress n), word s.account.period]

/-- PROVISION (R24). -/
def execProvision (s : State) : Host.Outcome State Fault Refusal := s.order 0x10 s.provision

/-- A field of AMEND passes where it carries the "unchanged" marker or a value in range (R25). -/
def amendOk (w : Word) (ok : Word → Bool) : Bool := decide (w = unchangedMarker) || ok w

/-- The parameter checks of AMEND (R23, R25), taken in the order of the parameter words: DESIGN CHOICE, log entry 35. -/
def amendChecks (p : Posting) : List (Nat × Bool) :=
  [(2, amendOk (p.param 2) (upTo 7)), (3, amendOk (p.param 3) (upTo 15)), (4, amendOk (p.param 4) (upTo 31)),
    (5, amendOk (p.param 5) zonesOk), (7, amendOk (p.param 7) (upTo 2147483647))]

/-- A field's new value, or the one it has where the field carries the "unchanged" marker (R25). -/
def amended {β : Type} (w : Word) (old new : β) : β := if w = unchangedMarker then old else new

/-- The billing group after an AMEND, the frame slot apart (R26). -/
def amendBilling (p : Posting) (b : Billing) : Billing :=
  { b with
    serviceClass := amended (p.param 2) b.serviceClass (Fin.ofNat 8 (p.param 2).toNat)
    plan := amended (p.param 3) b.plan (Fin.ofNat 16 (p.param 3).toNat)
    homeZones := amended (p.param 5) b.homeZones ((p.param 5).setWidth 4)
    notifyMoves := amended (p.param 6) b.notifyMoves (decide (p.param 6 ≠ 0))
    creditLimit := amended (p.param 7) b.creditLimit (p.param 7).toNat }

/-- The frame slot after an AMEND (R25). -/
def amendSlot (p : Posting) (b : Billing) : Fin 32 := amended (p.param 4) b.slot (Fin.ofNat 32 (p.param 4).toNat)

/-- AMEND's application after its checks (R26, R27): the roll of a stale record, the fields, and the slot move. -/
def State.applyAmend (s : State) (n : Nat) (p : Posting) : State :=
  let t := s.rollIfStale n
  let b := (t.sub n).billing
  let u := t.setBilling n (amendBilling p b)
  if amendSlot p b = b.slot then u else u.moveSlot n (amendSlot p b)

/-- The answer data of AMEND: the six fields as they stand (R26, R186). -/
def amendAnswer (b : Billing) : List Word :=
  [word b.plan.val, word b.serviceClass.val, word b.slot.val, wordZones b.homeZones, word b.creditLimit,
    wordFlag b.notifyMoves]

/-- AMEND's checks and effect (R25, R26). -/
def State.amend (s : State) (p : Posting) : State :=
  let n := p.subscriber
  let u := s.sub n
  match firstBad (amendChecks p) with
  | some k => s.malformed (word n) k
  | none =>
    if u.billing.state = .vacant then s.refuseSubscriber .unknownSubscriber n
    else if (amendBilling p u.billing).serviceClass ≠ u.billing.serviceClass ∧ 0 < u.store.openCount then
      s.refuseSubscriber .openMessages n
    else
      let t := s.applyAmend n p
      t.answer .accepted (amendAnswer (t.sub n).billing)

/-- AMEND (R25 to R28). -/
def execAmend (s : State) : Host.Outcome State Fault Refusal := s.order 0x11 s.amend

/-- BAR and UNBAR (R29): the state set to `to_`, answered with the state after and whether it changed. -/
def State.setBarred (s : State) (p : Posting) (to_ : SubscriberState) : State :=
  let n := p.subscriber
  let b := (s.sub n).billing
  if b.state = .vacant then s.refuseSubscriber .unknownSubscriber n
  else (s.setBilling n { b with state := to_ }).answer .accepted [to_.code, wordFlag (decide (b.state ≠ to_))]

/-- BAR (R29). -/
def execBar (s : State) : Host.Outcome State Fault Refusal := s.order 0x13 fun p => s.setBarred p .barred

/-- UNBAR (R29). -/
def execUnbar (s : State) : Host.Outcome State Fault Refusal := s.order 0x14 fun p => s.setBarred p .active

/-- RETIRE's checks and effect (R30): the FINAL summary, then every field of the record at its power-on value. -/
def State.retire (s : State) (p : Posting) : State :=
  let n := p.subscriber
  let u := s.sub n
  if u.billing.state = .vacant then s.refuseSubscriber .unknownSubscriber n
  else if 0 < u.store.openCount then s.refuseSubscriber .openMessages n
  else
    ((s.hand .intake (recordPeriodSummary n u.billing .final)).setSub n Subscriber.powerOn).answer .accepted
      [wordInt u.billing.balance]

/-- RETIRE (R30). -/
def execRetire (s : State) : Host.Outcome State Fault Refusal := s.order 0x16 s.retire

/-- The answer data of QUERY SUBSCRIBER from the three groups as copied (R31, R186). -/
def State.subscriberData (s : State) (n : Nat) (u : Subscriber) : List Word :=
  let b := u.billing
  [word n, word (s.radioAddress n), b.state.code, word b.serviceClass.val, word b.plan.val, word b.slot.val,
    wordZones b.homeZones, wordFlag b.notifyMoves, wordInt b.balance, word b.creditLimit, wordFlag b.lowBalance,
    word b.period, word b.counters.messages, word b.counters.textBlocks, word b.counters.charges,
    word b.counters.refunds, wordInt b.counters.credits, word u.store.openCount, wordTags u.store.tags,
    word u.reach.missCount, wordFlag u.reach.unreachable, wordZone u.reach.heardZone, word u.reach.heardCycle,
    wordZone u.reach.candidateZone, word u.reach.candidateCount]

/-- QUERY SUBSCRIBER's next copy (R31): the account unit's, then the message store's, then the delivery tracker's, each group
whole as it stands when its owner takes the request, and the answer with the last. -/
def State.querySubscriber (s : State) (n : Nat) : State :=
  let u := s.sub n
  match s.ex.progress with
  | .copied ⟨b, none⟩ => s.advance (.copied ⟨b, some u.store⟩)
  | .copied ⟨b, some g⟩ => s.answer .accepted (s.subscriberData n ⟨b, g, u.reach⟩)
  | .begun | .checked _ | .charged _ _ | .committed _ _ _ | .decided _ _ => s.advance (.copied ⟨u.billing, none⟩)

/-- QUERY SUBSCRIBER (R31): the record copied into the answer, in every subscriber state. The command is the request to one
owner, taken three times for one posting (DEDUCED, log entry 8). -/
def execQuerySubscriber (s : State) : Host.Outcome State Fault Refusal :=
  s.order 0x17 fun p => s.querySubscriber p.subscriber

/-- CREDIT's check and effect (R51, R52). -/
def State.credit (s : State) (p : Posting) : State :=
  let n := p.subscriber
  if (s.sub n).billing.state = .vacant then s.refuseSubscriber .unknownSubscriber n
  else
    let amount := (p.param 2).toInt
    let t := s.rollIfStale n
    let before := (t.sub n).billing.balance
    let u := t.applyCredit n amount
    let after := (u.sub n).billing.balance
    u.answer .accepted [wordInt amount, wordInt (after - before), wordInt after]

/-- CREDIT (R51, R52). -/
def execCredit (s : State) : Host.Outcome State Fault Refusal := s.order 0x12 s.credit

/-- RELEASE's check and effect (R165): no record is handed. -/
def State.release (s : State) (p : Posting) : State :=
  let n := p.subscriber
  if (s.sub n).billing.state = .vacant then s.refuseSubscriber .unknownSubscriber n
  else if (s.sub n).reach.unreachable then
    let released := s.releaseAll n
    released.1.answer .accepted [word n, wordFlag true, word released.2]
  else s.answer .accepted [word n, wordFlag false, 0]

/-- RELEASE (R165). -/
def execRelease (s : State) : Host.Outcome State Fault Refusal := s.order 0x15 s.release

/-! ## Plans and periods (R37, R60) -/

/-- A rate plan's fields in P2 to P14 order (R186). -/
def RatePlan.words (q : RatePlan) : List Word :=
  [word q.base, word q.perBlock, word q.urgentPercent, word q.allowance, word q.t1, word q.t2, word q.d1, word q.d2,
    word q.offPeakPercent, word q.cap, wordInt q.warningLevel, word q.recoveryMargin, wordFlag q.refundable]

/-- The plan SET PLAN writes: each value fitted to its range, then T1 lowered to T2 where it is greater (R37). -/
def fittedPlan (p : Posting) : RatePlan :=
  let v (k : Nat) : Nat := (p.param k).toNat
  let t2 := min 65535 (v 7)
  { base := min 65535 (v 2)
    perBlock := min 4095 (v 3)
    urgentPercent := clamp 100 400 (v 4)
    allowance := min 65535 (v 5)
    t1 := min (min 65535 (v 6)) t2
    t2 := t2
    d1 := min 90 (v 8)
    d2 := min 90 (v 9)
    offPeakPercent := min 90 (v 10)
    cap := min 65535 (v 11)
    warningLevel := (p.param 12).toInt
    recoveryMargin := min 65535 (v 13)
    refundable := decide (p.param 14 ≠ 0) }

/-- SET PLAN's check and effect (R37). -/
def State.setPlan (s : State) (p : Posting) : State :=
  if h : (p.param 1).toNat < 16 then
    let q := fittedPlan p
    State.answerFitted { s with account.plans := s.account.plans.set (p.param 1).toNat q h }
      (p.params 1 14) (p.param 1 :: q.words)
  else s.malformed 0 1

/-- SET PLAN (R37). -/
def execSetPlan (s : State) : Host.Outcome State Fault Refusal := s.order 0x31 s.setPlan

/-- PERIOD CLOSE's check and effect (R60, R62): the office period advances and the roll walk starts and asks its
reservation, or the order is refused ROLL BUSY. The walk asks before the intake unit returns its own reservation and asks for
a next posting: DESIGN CHOICE, log entry 32. -/
def State.periodClose (s : State) : State :=
  if s.account.walk.inFlight then s.answer .rollBusy [word s.account.period, word s.account.walk.next]
  else
    let period := (s.account.period + 1) % 65536
    (State.ask { s with account.period := period, account.walk := ⟨true, 0, 0⟩ } .rollWalk).answer .accepted [word period]

/-- PERIOD CLOSE (R60). -/
def execPeriodClose (s : State) : Host.Outcome State Fault Refusal := s.order 0x30 fun _ => s.periodClose

/-! ## Message orders (R110, R112) -/

/-- A handle order: MALFORMED where the handle has any of bits 31:22 set, NO SUCH MESSAGE where it is stale, and `f` on the
record's index where it is current (R92, R100, R110, R112). -/
def State.withHandle (s : State) (p : Posting) (f : Nat → State) : State :=
  let w := p.param 1
  let i := handleIndex w
  if handleMalformed w then s.malformed w 1
  else if (s.msg i).state = .free then s.answer .noSuchMessage [w, 0]
  else if (s.msg i).generation ≠ handleGeneration w then s.answer .noSuchMessage [w, 1]
  else f i

/-- CANCEL on a current handle (R110): closed CANCELLED, deferred with cancel-pending set, or refused CLOSING. The answer
data give the state and markers found. A close that takes away the tracker's only ready item leaves its request or reservation
standing: DESIGN CHOICE, log entry 29. -/
def State.cancelRecord (s : State) (i : Nat) : State :=
  let r := s.msg i
  let found := [handleWord r.generation i, r.state.code, wordFlag r.cancelPending, wordFlag r.ackedPending]
  if r.state = .placed ∨ r.state = .onAir then
    if r.ackedPending then s.answer .closing found
    else (s.setMsg i { r with cancelPending := true }).answer .deferred found
  else
    (s.close .intake i .cancelled).answer .accepted (found ++ [word r.attempts, word (r.refundAmount .cancelled)])

/-- CANCEL (R110). -/
def execCancel (s : State) : Host.Outcome State Fault Refusal := s.order 0x20 fun p => s.withHandle p s.cancelRecord

/-- The answer data of QUERY MESSAGE (R112, R186). -/
def messageData (i : Nat) (r : MessageRecord) : List Word :=
  [handleWord r.generation i, r.state.code, r.generation.setWidth 32, word r.subscriber, r.kind.code, wordFlag r.urgent,
    word r.text.length, word r.blocks, r.sequence, r.hostTag, word r.charge, wordFlag r.refundable, wordTag r.tag,
    word r.attempts, word r.eligible, word r.expiry, wordSerial r.placedSerial, wordZones r.placedZones,
    wordZones r.airedZones, wordSerial r.deadline, wordFlag r.cancelPending, wordFlag r.ackedPending]

/-- QUERY MESSAGE (R112): the record as it stands at this step. -/
def execQueryMessage (s : State) : Host.Outcome State Fault Refusal :=
  s.order 0x21 fun p => s.withHandle p fun i => s.answer .accepted (messageData i (s.msg i))

/-! ## CLOCK SET (R3) -/

/-- CLOCK SET's effect (R3): both parts of the office clock replaced, the second of day clamped to 86399. -/
def State.clockSet (s : State) (p : Posting) : State :=
  let day := (p.param 1).toNat % 65536
  let second := min 86399 (p.param 2).toNat
  let t := State.notice { s with air.day := day, air.second := second } .officeClock
  t.answer (if (p.param 2).toNat ≤ 86399 then .accepted else .adjusted) [word day, word second]

/-- CLOCK SET (R3). -/
def execClockSet (s : State) : Host.Outcome State Fault Refusal := s.order 0x50 s.clockSet

/-! ## Settings orders (R93, R131, R151, R180, R181) -/

/-- A settings order: refused NOT IN SETUP outside SETUP (R93). -/
def State.inSetup (s : State) (f : State) : State :=
  if s.engine.state = .setup then f else s.refuseState .notInSetup

/-- Bits 7:0 of a parameter word. -/
def Posting.low8 (p : Posting) (k : Nat) : Nat := (p.param k).toNat % 256

/-- The allowed values of the miss latch limit (R180). -/
def missLatchAllowed : List Nat := [0, 2, 3, 4, 6, 8, 12, 16]

/-- The office settings SET OFFICE writes (R180). -/
def fittedOffice (p : Posting) : Office :=
  let v (k : Nat) : Nat := (p.param k).toNat
  { code := Fin.ofNat 64 (min 63 (v 1))
    holdoverLimit := p.low8 2
    missLatchLimit := roundDown missLatchAllowed (v 3)
    locationConfirm := fitOne 7 (v 4)
    freshnessLimit := fitOne 255 (p.low8 5)
    flushInterval := fitOne 30 (v 6)
    offPeakStart := min 1439 (v 7)
    offPeakEnd := min 1439 (v 8)
    weightHostWindow := fitOne 8 (v 9)
    weightIntake := fitOne 8 (v 10)
    weightFrameBuilder := fitOne 8 (v 11)
    weightTracker := fitOne 8 (v 12)
    weightRollWalk := fitOne 8 (v 13)
    weightReportWriter := fitOne 8 (v 14) }

/-- The office settings in parameter order (R186). -/
def Office.words (o : Office) : List Word :=
  [word o.code.val, word o.holdoverLimit, word o.missLatchLimit, word o.locationConfirm, word o.freshnessLimit,
    word o.flushInterval, word o.offPeakStart, word o.offPeakEnd, word o.weightHostWindow, word o.weightIntake,
    word o.weightFrameBuilder, word o.weightTracker, word o.weightRollWalk, word o.weightReportWriter]

/-- The values SET OFFICE carries, the 8-bit fields taken from their bits (R184, R186). -/
def Posting.officeCarried (p : Posting) : List Word :=
  [p.param 1, word (p.low8 2), p.param 3, p.param 4, word (p.low8 5)] ++ p.params 6 14

/-- SET OFFICE's effect in SETUP (R180). -/
def State.setOffice (s : State) (p : Posting) : State :=
  let o := fittedOffice p
  State.answerFitted { s with engine.office := o } p.officeCarried o.words

/-- SET OFFICE (R180). -/
def execSetOffice (s : State) : Host.Outcome State Fault Refusal := s.order 0x40 fun p => s.inSetup (s.setOffice p)

/-- The service class SET CLASS writes (R181). -/
def fittedClass (p : Posting) : ServiceClass :=
  let v (k : Nat) : Nat := (p.param k).toNat
  { twoWay := decide (p.param 2 ≠ 0)
    alphaAllowed := decide (p.param 3 ≠ 0)
    repeatCount := fitOne 4 (v 4)
    retryLimit := fitOne 15 (v 5)
    ackWindow := clamp 2 31 (v 6)
    backoffCap := min 15 (v 7)
    lifetime := fitOne 255 (p.low8 8) }

/-- A service class in P2 to P8 order (R186). -/
def ServiceClass.words (c : ServiceClass) : List Word :=
  [wordFlag c.twoWay, wordFlag c.alphaAllowed, word c.repeatCount, word c.retryLimit, word c.ackWindow,
    word c.backoffCap, word c.lifetime]

/-- The class or link number of P1 bits 2:0 as a word (R186). -/
def Posting.number (p : Posting) : Word := word p.link.val

/-- SET CLASS's effect in SETUP (R181). -/
def State.setClass (s : State) (p : Posting) : State :=
  let c := fittedClass p
  State.answerFitted { s with engine.classes := s.engine.classes.set p.link.val c p.link.isLt }
    (p.number :: p.params 2 7 ++ [word (p.low8 8)]) (p.number :: c.words)

/-- SET CLASS (R181). -/
def execSetClass (s : State) : Host.Outcome State Fault Refusal := s.order 0x41 fun p => s.inSetup (s.setClass p)

/-- A zone code: 0 to 3, and none otherwise (R131). -/
def zoneOf (w : Word) : Option Zone := if h : w.toNat < 4 then some ⟨w.toNat, h⟩ else none

/-- A skip code: NONE where it names no setting (R131, R184). -/
def skipOf (w : Word) : Skip := if w = 5 then .oneIn5 else if w = 6 then .oneIn6 else if w = 7 then .oneIn7 else .none

/-- The allowed values of a link's latch limit (R131). -/
def linkLatchAllowed : List Nat := [0, 2, 4, 8, 16, 32]

/-- The link settings SET LINK writes (R131). -/
def fittedLink (p : Posting) : LinkSettings :=
  let v (k : Nat) : Nat := (p.param k).toNat
  { zone := zoneOf (p.param 2)
    skip := skipOf (p.param 3)
    blankingCount := min 15 (v 4)
    tripCount := fitOne 15 (v 5)
    recoveryFrames := p.low8 6
    latchLimit := roundDown linkLatchAllowed (v 7)
    cadence := fitOne 16 (v 8) }

/-- A link's settings in P2 to P8 order (R186). -/
def LinkSettings.words (t : LinkSettings) : List Word :=
  [wordZone t.zone, t.skip.code, word t.blankingCount, word t.tripCount, word t.recoveryFrames, word t.latchLimit,
    word t.cadence]

/-- The settings written in one step with the skip counter, blanking remaining, fault run, clear run and cadence divider at
0 (R131). -/
def Link.setSettings (c : Link) (t : LinkSettings) : Link :=
  { c with settings := t, skipCounter := 0, blanking := 0, faultRun := 0, clearRun := 0, divider := 0 }

/-- SET LINK's effect in SETUP (R131). -/
def State.setLinkSettings (s : State) (p : Posting) : State :=
  let t := fittedLink p
  (s.setLink p.link ((s.link p.link).setSettings t)).answerFitted
    (p.number :: p.params 2 5 ++ [word (p.low8 6), p.param 7, p.param 8]) (p.number :: t.words)

/-- SET LINK (R131). -/
def execSetLink (s : State) : Host.Outcome State Fault Refusal :=
  s.order 0x42 fun p => s.inSetup (s.setLinkSettings p)

/-- SET RECEIVER's effect in SETUP (R151): the two settings written, the counters left. -/
def State.setReceiverSettings (s : State) (p : Posting) : State :=
  let zone : Zone := if h : (p.param 2).toNat < 4 then ⟨(p.param 2).toNat, h⟩ else 3
  let enabled := decide (p.param 3 ≠ 0)
  (s.setReceiver p.link { s.receiver p.link with zone := zone, enabled := enabled }).answerFitted
    [p.number, p.param 2, p.param 3] [p.number, word zone.val, wordFlag enabled]

/-- SET RECEIVER (R151). -/
def execSetReceiver (s : State) : Host.Outcome State Fault Refusal :=
  s.order 0x43 fun p => s.inSetup (s.setReceiverSettings p)

/-! ## Starting and stopping air (R178, R179) -/

/-- AIR START's check and effect (R178): STARTING with cause NONE, or RUNNING in the same step where the reference is
LOCKED. -/
def State.airStart (s : State) : State :=
  if s.engine.state = .setup then
    let next : EngineState := if s.air.monitor.state = .locked then .running else .starting
    (State.setEngineBit { s with engine.state := next, engine.cause := .none }).answer .accepted [next.code]
  else s.refuseState .notInSetup

/-- AIR START (R178). -/
def execAirStart (s : State) : Host.Outcome State Fault Refusal := s.order 0x51 fun _ => s.airStart

/-- AIR STOP's check and effect (R178, R179). The answer data give the state the order found. -/
def State.airStop (s : State) : State :=
  if s.engine.state = .starting then
    (State.setEngineBit { s with engine.state := .setup }).answer .accepted [EngineState.starting.code]
  else if s.engine.state = .running then
    (State.setEngineBit { s with engine.state := .stopping }).answer .accepted [EngineState.running.code]
  else s.refuseState .notRunning

/-- AIR STOP (R178, R179). -/
def execAirStop (s : State) : Host.Outcome State Fault Refusal := s.order 0x52 fun _ => s.airStop

/-! ## Link orders (R132 to R134) -/

/-- The four words every link order's answer carries (R186). -/
def linkAnswer (l : Index8) (before after : Link) : List Word :=
  [word l.val, before.state.code, after.state.code, wordFlag after.keyOffPending]

/-- A link order: the controller replaced, answered with the link's four words. -/
def State.linkOrder (s : State) (l : Index8) (after : Link) (code : AnswerCode) : State :=
  (s.setLink l after).answer code (linkAnswer l (s.link l) after)

/-- LINK ENABLE (R132). -/
def execLinkEnable (s : State) : Host.Outcome State Fault Refusal :=
  s.order 0x60 fun p => s.linkOrder p.link (s.link p.link).enable .accepted

/-- LINK DISABLE (R132). -/
def execLinkDisable (s : State) : Host.Outcome State Fault Refusal :=
  s.order 0x61 fun p => s.linkOrder p.link (s.link p.link).disable .accepted

/-- KEY OFF (R133): P2 of 0 is at frame boundary, any other value immediate. -/
def execKeyOff (s : State) : Host.Outcome State Fault Refusal :=
  s.order 0x62 fun p =>
    let r := (s.link p.link).keyOff (decide (p.param 2 ≠ 0))
      (decide (s.engine.state = .running ∨ s.engine.state = .stopping))
    s.linkOrder p.link r.1 (if r.2 then .deferred else .accepted)

/-- KEY RESTORE (R133). -/
def execKeyRestore (s : State) : Host.Outcome State Fault Refusal :=
  s.order 0x63 fun p => s.linkOrder p.link (s.link p.link).keyRestore .accepted

/-- LINK RESTORE (R134). -/
def execLinkRestore (s : State) : Host.Outcome State Fault Refusal :=
  s.order 0x64 fun p => s.linkOrder p.link (s.link p.link).restore .accepted

/-- The capture's four words (R186). -/
def captureWords : Option Capture → List Word
  | some c => [word c.serial, word c.position, c.kind.code, c.alarms.setWidth 32]
  | none => [wordAbsent, wordAbsent, wordAbsent, wordAbsent]

/-- A pending report's later count, where the report is present (R184, R186). -/
def wordLater : Option Nat → Word
  | some n => word n
  | none => wordNone

/-- The answer data of QUERY LINK (R134): the 36 words R186 tables, which have none for 'previous frame carried' (DEDUCED, log
entry 37). An absent report's later count reads FFh (DEDUCED, log entry 18). -/
def State.linkData (s : State) (l : Index8) : List Word :=
  let c := s.link l
  linkAnswer l c c ++ c.settings.words ++
    [word c.skipCounter, word c.blanking, wordFlag c.statusTaken, wordObservation c.lastObservation, wordFlag c.alert,
      word c.faultRun, word c.clearRun, word c.latchCounter, word c.cleanRun] ++ captureWords c.capture ++
    [wordFlag c.trip.isSome, wordLater (c.trip.map (·.later)), wordFlag c.recovery.isSome,
      wordLater (c.recovery.map (·.later)), word c.divider, word c.clearCount, word c.alarmCount, word c.silentCount,
      word c.blankedCount, word c.dropped, wordFlag c.keyed, word s.air.serial]

/-- QUERY LINK (R134). -/
def execQueryLink (s : State) : Host.Outcome State Fault Refusal :=
  s.order 0x65 fun p => s.answer .accepted (s.linkData p.link)

/-- The answer data of QUERY RECEIVER (R154, R186). -/
def State.receiverData (s : State) (l : Index8) : List Word :=
  let v := s.receiver l
  [word l.val, word v.zone.val, wordFlag v.enabled, word v.accepted, word v.badCheck, word v.disabled, word v.foreign,
    word v.queueFull, word s.tracker.reverse.length, word s.tracker.deadlines.length, word s.air.serial]

/-- QUERY RECEIVER (R154). -/
def execQueryReceiver (s : State) : Host.Outcome State Fault Refusal :=
  s.order 0x66 fun p => s.answer .accepted (s.receiverData p.link)

/-! ## Unknown codes (R84) -/

/-- UNKNOWN_ORDER (R84): a posting whose code is none of R186's is answered UNKNOWN ORDER with the code read. -/
def execUnknownOrder (s : State) : Host.Outcome State Fault Refusal :=
  match s.posting with
  | some p =>
    if (Posting.code p).toNat ∈ postingCodes then .next s
    else .next (s.answer .unknownOrder [Posting.code p])
  | none => .next s

end Sys2Proof.Machine
end

