-- ==== Sys2Proof/Machine/Control.lean ====
section
/-! DEFINITION. Engine control (chapter 11): the two resets, the load at start-up, and the writes of the register block. -/

namespace Sys2Proof.Machine

/-! ## Power-on reset and the load (R177) -/

/-- The bytes of the exchange window where a reset leaves them: every mirror but the office clock's at its reset value, each
page header's record count and sequence number 0, and slot bodies and records as they stand (R70, R77, R168). -/
def resetBytes (m : List Host.Cell) : List Host.Cell :=
  Memory.writeWords (Memory.writeWords (clearPageHeaders m) 0x18 [0, 0]) 0x00 [0, 0, word Config.records, 0]

/-- POWER_ON_RESET (R177): every block at its power-on values and the engine LOADING. Slot bodies and the records of the
report pages are left as they stand (R70, R168), the office clock mirror is 0 (R77). What stands outside the 4160, the queue
of commands to come, and the model's counter of free values used stay (DESIGN CHOICE, log entry 24). -/
def execPowerOnReset (s : State) : Host.Outcome State Fault Refusal :=
  .next { State.reset with
    pending := s.pending
    ex.choices := s.ex.choices
    ex.mem := Memory.writeWords (resetBytes s.ex.mem) 0x10 [0, 0] }

/-- The transmitter link zones the load writes: the profile's map, or the default map (R177, R190). -/
def loadedZone (profile : Option Profile) (l : Index8) : Option Zone :=
  match profile with
  | some p => transmitterZone (profileEntry p 3 l)
  | none => some (defaultZone l)

/-- The receiver link zones the load writes (R177, R190). -/
def loadedReceiverZone (profile : Option Profile) (l : Index8) : Zone :=
  match profile with
  | some p => receiverZone (profileEntry p 7 l)
  | none => defaultZone l

/-- Engine control when a load ends: SETUP, the profile's office code and identifiers or the default set, every office
setting and service class at its default (R177, R180, R181, R190). -/
def Engine.loaded (e : Engine) (profile : Option Profile) : Engine where
  state := .setup
  cause := e.cause
  profileDefaulted := profile.isNone
  subsystemVendor := profile.elim 0 fun p => profileWord p 1
  subsystemId := profile.elim 0 fun p => profileWord p 2
  office := Office.defaults (profile.elim 0 fun p => Fin.ofNat 64 (profileWord p 0).toNat)
  classes := Vector.replicate 8 ServiceClass.defaults

/-- The exchange when a load ends: the store memory structures at their power-on values, PAGE CLOSED clear with the report
pages and ENGINE set; the other registers stand, and so do the office clock mirror and its notice, whose value the load does
not change, and the bytes that R70 and R168 leave (R168, R177; DEDUCED, log entry 25). -/
def Exchange.loaded (x : Exchange) : Exchange :=
  { Exchange.powerOn with
    mem := resetBytes x.mem
    fence := x.fence
    notices := x.notices.filter fun m => decide (m = .officeClock)
    summary := { x.summary with pageClosed := false, engine := true }
    enable := x.enable
    bus := x.bus
    choices := x.choices }

/-- The load's effect, with the profile it uses (R177 steps 1 to 4, and the entry to SETUP). A REFERENCE report pending at
that moment is asked room for in the cleared pages. -/
def State.load (s : State) (profile : Option Profile) : State :=
  State.ask
    { s with
      engine := s.engine.loaded profile
      account := Account.powerOn
      store := MessageStore.powerOn
      builder := Builder.reset
      links := Vector.ofFn fun l => Link.reset (LinkSettings.powerOn (loadedZone profile l))
      frame := none
      tracker := ⟨Vector.ofFn fun l => Receiver.powerOn (loadedReceiverZone profile l), [], [], []⟩
      ex := s.ex.loaded } .monitor

/-- LOADING_COMPLETE (R177): in LOADING, the load ends. `profile` is what the profile memory gave, none where it did not
answer; a profile whose word sum is not 0 is not used. -/
def execLoadingComplete (profile : Option Profile) (s : State) : Host.Outcome State Fault Refusal :=
  .next (if s.loading then s.load (goodProfile profile) else s)

/-- LOADING_ACCESS_RETRY (R177): a PCI access of any kind made while the engine is LOADING is answered with retry. -/
def execLoadingAccessRetry (s : State) : Host.Outcome State Fault Refusal :=
  .next (if s.loading then s.reply .retry else s)

/-! ## Engine reset (R182) -/

/-- Engine control's part: SETUP with cause ENGINE, every setting kept (R180, R181, R182). -/
def Engine.engineReset (e : Engine) : Engine := { e with state := .setup, cause := .engine }

/-- The air timing unit's part: the frame serial 0; the office clock, pair phase and reference monitor kept (R1, R2, R5,
R6). -/
def Air.engineReset (a : Air) : Air := { a with serial := 0 }

/-- The account unit's part: the store and reach groups of every subscriber reset; the billing groups, plans, office period
and roll walk kept (R20, R36, R59, R65). -/
def Account.engineReset (a : Account) : Account :=
  { a with
    subscribers := Table.mapValues Subscriber.powerOn
      (fun _ u => { u with store := StoreGroup.reset, reach := Reach.reset }) a.subscribers }

/-- A message record freed by an engine reset: no close, the generation and contents kept (R99, R104, R113). -/
def MessageRecord.freed (r : MessageRecord) : MessageRecord :=
  { r with state := .free, deadline := none, cancelPending := false, ackedPending := false }

/-- The message store's part (R101, R106, R108, R113). -/
def MessageStore.engineReset (m : MessageStore) : MessageStore :=
  ⟨Table.mapValues MessageRecord.powerOn (fun _ r => r.freed) m.records, Config.records, 0, Vector.replicate 32 [],
    Sweep.reset, []⟩

/-- The tracker's part: its lists emptied, every receiver counter 0, the receiver settings kept (R150, R166). -/
def Tracker.engineReset (t : Tracker) : Tracker :=
  ⟨Vector.ofFn fun l => { Receiver.powerOn (t.receivers.get l).zone with enabled := (t.receivers.get l).enabled },
    [], [], []⟩

/-- The arbiter's part: the report writer holds with run count 0 (R79). The burst in progress is not touched: DESIGN CHOICE,
log entry 2. -/
def Arbiter.engineReset (a : Arbiter) : Arbiter := { a with holder := .reportWriter, run := 0 }

/-- The exchange's part: every slot FREE, the queue empty, the answered count 0, the intake unit IDLE, the report pages
reset; the mirrors at their values after engine reset with only an office clock notice left outstanding; ANSWERS and
PAGE CLOSED clear and ENGINE set; the write buffer, slot bodies, fence record and other registers kept (R69, R70, R72,
R74, R76, R77, R81, R96, R168, R176, R183). A delayed read in progress stands (DESIGN CHOICE, log entry 4). The posting in
hand is abandoned with what the owners have answered to it, and what they have applied stands (R97). -/
def Exchange.engineReset (x : Exchange) : Exchange :=
  let y := x.resetWriter
  { y with
    mem := resetBytes x.mem
    slots := []
    queue := []
    answered := 0
    intake := .idle
    progress := .begun
    notices := y.notices.filter fun m => decide (m = .officeClock)
    summary := { y.summary with answers := false, engine := true } }

/-- An engine reset in one step across every block (R182); the roll walk in flight and a pending REFERENCE report then ask
for room again (R6, R65, R168). -/
def State.engineReset (s : State) : State :=
  let t : State :=
    { s with
      engine := s.engine.engineReset
      air := s.air.engineReset
      account := s.account.engineReset
      store := s.store.engineReset
      builder := Builder.reset
      links := Vector.ofFn fun l => Link.reset (s.link l).settings
      frame := none
      tracker := s.tracker.engineReset
      arbiter := s.arbiter.engineReset
      ex := s.ex.engineReset }
  (t.ask .rollWalk).ask .monitor

/-! ## Writes of the register block (R183, R188) -/

/-- A write to the register block: retried in LOADING, and accepted otherwise (R177). -/
def State.registerWrite (s : State) (f : State) : State := if s.loading then s.reply .retry else f.reply .done

/-- ENGINE_RESET (R97, R182, R188): a write of 1 to bit 0 of ENGINE CONTROL applies an engine reset, which abandons the
posting in hand at the point it has reached; a write of 0 changes nothing. -/
def execEngineReset (data : Word) (enables : BitVec 4) (s : State) : Host.Outcome State Fault Refusal :=
  .next (s.registerWrite (if writesOne data enables 0 then s.engineReset else s))

/-- CLEAR_ANSWERS (R96, R183): a write of 1 to bit 0 of EVENT SUMMARY clears ANSWERS. -/
def execClearAnswers (data : Word) (enables : BitVec 4) (s : State) : Host.Outcome State Fault Refusal :=
  .next (s.registerWrite (if writesOne data enables 0 then { s with ex.summary.answers := false } else s))

/-- CLEAR_PAGE_CLOSED (R176, R183): a write of 1 to bit 1 of EVENT SUMMARY clears PAGE CLOSED. -/
def execClearPageClosed (data : Word) (enables : BitVec 4) (s : State) : Host.Outcome State Fault Refusal :=
  .next (s.registerWrite (if writesOne data enables 1 then { s with ex.summary.pageClosed := false } else s))

/-- CLEAR_FENCE (R76, R183): a write of 1 to bit 2 of EVENT SUMMARY clears FENCE and the fence record; while the record is
clear it changes nothing. -/
def execClearFence (data : Word) (enables : BitVec 4) (s : State) : Host.Outcome State Fault Refusal :=
  .next (s.registerWrite
    (if writesOne data enables 2 ∧ s.ex.fence.isSome then { s with ex.summary.fence := false, ex.fence := none } else s))

/-- CLEAR_LINK (R183): a write of 1 to bit 3 of EVENT SUMMARY clears LINK. -/
def execClearLink (data : Word) (enables : BitVec 4) (s : State) : Host.Outcome State Fault Refusal :=
  .next (s.registerWrite (if writesOne data enables 3 then { s with ex.summary.link := false } else s))

/-- CLEAR_REFERENCE (R183): a write of 1 to bit 4 of EVENT SUMMARY clears REFERENCE. -/
def execClearReference (data : Word) (enables : BitVec 4) (s : State) : Host.Outcome State Fault Refusal :=
  .next (s.registerWrite (if writesOne data enables 4 then { s with ex.summary.reference := false } else s))

/-- CLEAR_ENGINE (R183): a write of 1 to bit 5 of EVENT SUMMARY clears ENGINE. -/
def execClearEngine (data : Word) (enables : BitVec 4) (s : State) : Host.Outcome State Fault Refusal :=
  .next (s.registerWrite (if writesOne data enables 5 then { s with ex.summary.engine := false } else s))

/-- EVENT_ENABLE_WRITE (R183, R188): the six enables written, in an enabled byte 0. -/
def execEventEnableWrite (data : Word) (enables : BitVec 4) (s : State) : Host.Outcome State Fault Refusal :=
  .next (s.registerWrite { s with ex.enable := s.ex.enable.written data enables })

/-- REGISTER_WRITE_IGNORED (R183, R188): a write to ENGINE STATE, FENCE RECORD or 14h to 1Fh is accepted and changes
nothing. An offset past the register block reaches no register. -/
def execRegisterWriteIgnored (offset : Nat) (_data : Word) (_enables : BitVec 4) (s : State) :
    Host.Outcome State Fault Refusal :=
  if Config.registerBlock ≤ offset then .fault (.outsideWindow offset) else .next (s.registerWrite s)

end Sys2Proof.Machine
end

