-- ==== Sys2Proof/Machine/Dispatch.lean ====
section
/-! DEFINITION. Every command and its meaning, in the order of the table of operations and events. -/

namespace Sys2Proof.Machine

def exec (i : Instr) (s : State) : Host.Outcome State Fault Refusal :=
  match i with
  | .powerOnReset => Sys2Proof.Machine.execPowerOnReset s
  | .loadingComplete profile => Sys2Proof.Machine.execLoadingComplete profile s
  | .loadingAccessRetry => Sys2Proof.Machine.execLoadingAccessRetry s
  | .engineReset data enables => Sys2Proof.Machine.execEngineReset data enables s
  | .secondBoundary => Sys2Proof.Machine.execSecondBoundary s
  | .frameMark => Sys2Proof.Machine.execFrameMark s
  | .holdoverLimitExpiry => Sys2Proof.Machine.execHoldoverLimitExpiry s
  | .referencePulse time => Sys2Proof.Machine.execReferencePulse time s
  | .windowExpiry => Sys2Proof.Machine.execWindowExpiry s
  | .referenceRecordAppend => Sys2Proof.Machine.execReferenceRecordAppend s
  | .hostWindowRead offset => Sys2Proof.Machine.execHostWindowRead offset s
  | .hostWindowWrite offset data enables => Sys2Proof.Machine.execHostWindowWrite offset data enables s
  | .slotBodyWrite => Sys2Proof.Machine.execSlotBodyWrite s
  | .slotPost => Sys2Proof.Machine.execSlotPost s
  | .slotWithdraw => Sys2Proof.Machine.execSlotWithdraw s
  | .slotReturn => Sys2Proof.Machine.execSlotReturn s
  | .reportPageReturn => Sys2Proof.Machine.execReportPageReturn s
  | .droppedWrite => Sys2Proof.Machine.execDroppedWrite s
  | .mirrorWrite mirror => Sys2Proof.Machine.execMirrorWrite mirror s
  | .storeBurstGrant encoder requests => Sys2Proof.Machine.execStoreBurstGrant encoder requests s
  | .clearAnswers data enables => Sys2Proof.Machine.execClearAnswers data enables s
  | .clearPageClosed data enables => Sys2Proof.Machine.execClearPageClosed data enables s
  | .clearFence data enables => Sys2Proof.Machine.execClearFence data enables s
  | .clearLink data enables => Sys2Proof.Machine.execClearLink data enables s
  | .clearReference data enables => Sys2Proof.Machine.execClearReference data enables s
  | .clearEngine data enables => Sys2Proof.Machine.execClearEngine data enables s
  | .eventEnableWrite data enables => Sys2Proof.Machine.execEventEnableWrite data enables s
  | .registerWriteIgnored offset data enables => Sys2Proof.Machine.execRegisterWriteIgnored offset data enables s
  | .postingTake => Sys2Proof.Machine.execPostingTake s
  | .message => Sys2Proof.Machine.execMessage s
  | .provision => Sys2Proof.Machine.execProvision s
  | .amend => Sys2Proof.Machine.execAmend s
  | .bar => Sys2Proof.Machine.execBar s
  | .unbar => Sys2Proof.Machine.execUnbar s
  | .retire => Sys2Proof.Machine.execRetire s
  | .querySubscriber => Sys2Proof.Machine.execQuerySubscriber s
  | .credit => Sys2Proof.Machine.execCredit s
  | .setPlan => Sys2Proof.Machine.execSetPlan s
  | .periodClose => Sys2Proof.Machine.execPeriodClose s
  | .cancel => Sys2Proof.Machine.execCancel s
  | .queryMessage => Sys2Proof.Machine.execQueryMessage s
  | .release => Sys2Proof.Machine.execRelease s
  | .clockSet => Sys2Proof.Machine.execClockSet s
  | .setOffice => Sys2Proof.Machine.execSetOffice s
  | .setClass => Sys2Proof.Machine.execSetClass s
  | .setLink => Sys2Proof.Machine.execSetLink s
  | .setReceiver => Sys2Proof.Machine.execSetReceiver s
  | .airStart => Sys2Proof.Machine.execAirStart s
  | .airStop => Sys2Proof.Machine.execAirStop s
  | .linkEnable => Sys2Proof.Machine.execLinkEnable s
  | .linkDisable => Sys2Proof.Machine.execLinkDisable s
  | .keyOff => Sys2Proof.Machine.execKeyOff s
  | .keyRestore => Sys2Proof.Machine.execKeyRestore s
  | .linkRestore => Sys2Proof.Machine.execLinkRestore s
  | .queryLink => Sys2Proof.Machine.execQueryLink s
  | .queryReceiver => Sys2Proof.Machine.execQueryReceiver s
  | .unknownOrder => Sys2Proof.Machine.execUnknownOrder s
  | .buildCandidate => Sys2Proof.Machine.execBuildCandidate s
  | .lateBuildAppend => Sys2Proof.Machine.execLateBuildAppend s
  | .skipFrame link => Sys2Proof.Machine.execSkipFrame link s
  | .cleanRunComplete link => Sys2Proof.Machine.execCleanRunComplete link s
  | .linkStatusMessage link alarms power position => Sys2Proof.Machine.execLinkStatusMessage link alarms power position s
  | .linkReportAppend => Sys2Proof.Machine.execLinkReportAppend s
  | .linkStatusOffer link => Sys2Proof.Machine.execLinkStatusOffer link s
  | .returnMessage receiver bits => Sys2Proof.Machine.execReturnMessage receiver bits s
  | .settleEntry => Sys2Proof.Machine.execSettleEntry s
  | .returnMessageItem => Sys2Proof.Machine.execReturnMessageItem s
  | .deadlineItem => Sys2Proof.Machine.execDeadlineItem s
  | .expirySweepStart => Sys2Proof.Machine.execExpirySweepStart s
  | .sweepVisit => Sys2Proof.Machine.execSweepVisit s
  | .sweepClose => Sys2Proof.Machine.execSweepClose s
  | .airStopClose => Sys2Proof.Machine.execAirStopClose s
  | .rollWalkVisit => Sys2Proof.Machine.execRollWalkVisit s
  | .pageAgeDue => Sys2Proof.Machine.execPageAgeDue s

end Sys2Proof.Machine
end

