-- ==== Sys2Proof/Safety.lean ====
section
/-! DEFINITION. What counts as a safe run: the canonical form of the model's data, the laws the manual states of every run,
and what an order's answer leaves, in the terms the statements use. -/

namespace Sys2Proof.Machine

/-- The canonical form of the model's sparse data: the bytes of the exchange window, the slot map, the subscriber table
and the message records. -/
structure State.Tidy (s : State) : Prop where
  mem : Memory.wf s.ex.mem = true
  slots : Table.wf SlotState.free s.ex.slots = true
  subscribers : Table.wf Subscriber.powerOn s.account.subscribers = true
  records : Table.wf MessageRecord.powerOn s.store.records = true

/-- How many slots the slot map holds as ANSWERED. -/
def Exchange.answeredSlots (x : Exchange) : Nat := Table.countWhere (fun v => decide (v = SlotState.answered)) x.slots

/-- The laws of R72 and R74: a slot number is in the posting queue exactly when the slot map holds it as POSTED, no slot is
in it twice and no more than 512 are; the answered count in the exchange header equals the number of ANSWERED slots. The
slot the intake unit works on is TAKEN (R73), and the unit holds its reservation from the grant to the answer (R83, R95). -/
structure Exchange.GuardLaw (x : Exchange) : Prop where
  posted : ∀ n, n ∈ x.queue ↔ x.slot n = .posted
  nodup : x.queue.Nodup
  length : x.queue.length ≤ 512
  range : ∀ n, x.slot n ≠ .free → n < 512
  count : x.answered = x.answeredSlots
  header : Memory.readWord x.mem 0 = word x.answered
  working : ∀ n p, x.intake = .working n p → x.slot n = .taken
  reserved : (x.intake = .taking ∨ ∃ n p, x.intake = .working n p) → x.writer.holds .intake = true

/-- The law of R174, first half, with the range of the record count (R168): at most one report page is FILLING, and a page
that would hold 63 records is closed; and no producer that holds a reservation has a request waiting (R170). -/
structure Writer.PageLaw (w : Writer) : Prop where
  one : ∀ p q, w.pages.get p = .filling → w.pages.get q = .filling → p = q
  count : w.count < Config.pageRecords
  requests : ∀ p, p ∈ w.waiting → w.holds p = false

/-- The positions that are left at least of a producer's reservation between two commands: 2 of the roll walk's, which hands
summaries one visit at a time (R62); 5 of the intake unit's, which a message posting draws on in three requests (R83, R95);
all of the others' (R170). -/
def Producer.least : Producer → Nat
  | .rollWalk => 2
  | .intake => 5
  | p => p.amount

/-- A reservation between two commands (R170). -/
def Producer.Stands (h : Producer × Nat) : Prop := h.1.least ≤ h.2 ∧ h.2 ≤ h.1.amount

/-- The law of R169: the reserved total is at or below room, so that a record appended under a reservation always finds a
position; with the law of R170 that no producer holds two reservations or has two requests waiting. -/
structure Writer.RoomLaw (w : Writer) : Prop where
  within : w.reserved ≤ w.room
  once : (w.held.map (·.1)).Nodup
  asked : w.waiting.Nodup
  stands : ∀ h, h ∈ w.held → Producer.Stands h

/-- The positions that are left at least of the intake unit's reservation at a point of the posting in hand: PERIOD SUMMARY
may have been handed once the rating is taken, and ADMIT and BALANCE ALERT once the answer is decided (R83). -/
def Progress.least : Progress → Nat
  | .begun | .copied _ | .checked _ => 8
  | .charged _ _ | .committed _ _ _ => 7
  | .decided _ _ => 5

/-- The same at any point of the intake unit's cycle: a reservation not yet drawn on is whole, and only a message posting
draws on it before its answer (R83). -/
def Exchange.least (x : Exchange) : Nat :=
  match x.intake with
  | .working _ p => if (Posting.code p).toNat = 0x01 then x.progress.least else 8
  | _ => 8

/-- The intake unit's reservation holds the records its posting may still cause (R83). -/
def Exchange.IntakeLaw (x : Exchange) : Prop := ∀ k, (Producer.intake, k) ∈ x.writer.held → x.least ≤ k

/-- The draft of a message past checks 1 to 7 whose commit is not taken yet. -/
def Progress.draft : Progress → Option Draft
  | .checked d => some d
  | .charged d _ => some d
  | _ => none

/-- The law of R87: a message that passed checks 1 to 7 is the posting in hand, and until its commit its subscriber is in
service with an open count below 16, and a record is FREE, so that it still finds room when the commit is taken. -/
def State.AdmissionLaw (s : State) : Prop :=
  ∀ d, s.ex.progress.draft = some d →
    (∃ n p, s.ex.intake = .working n p ∧ (Posting.code p).toNat = 0x01) ∧
      (s.sub d.subscriber).billing.state ≠ .vacant ∧ (s.sub d.subscriber).store.openCount < Config.openLimit ∧
      s.store.freeCount ≠ 0

/-- The law of R137: a link is keyed for the present frame only while it is KEYED, has a zone, a frame begun while RUNNING
is in progress, and the reference monitor is LOCKED or in HOLDOVER. -/
structure State.KeyLaw (s : State) : Prop where
  keyed : ∀ l, (s.link l).keyed = true → (s.link l).state = .keyed ∧ (s.link l).settings.zone.isSome = true
  engine : ∀ l, (s.link l).keyed = true → s.engine.state = .running ∨ s.engine.state = .stopping
  frame : ∀ l, (s.link l).keyed = true → s.frame.isSome = true
  reference : ∀ l, (s.link l).keyed = true → s.air.monitor.state = .locked ∨ s.air.monitor.state = .holdover

/-- The law of R163: a subscriber marked unreachable has no WAITING message. -/
def State.UnreachableLaw (s : State) : Prop :=
  ∀ i, (s.msg i).state = .waiting → (s.sub (s.msg i).subscriber).reach.unreachable = false

/-- How many message records satisfy `p`, which no FREE record at its power-on values does. -/
def State.countMsgs (s : State) (p : MessageRecord → Bool) : Nat := Table.countWhere p s.store.records

/-- Whether a record is occupied and names subscriber `n`. -/
def MessageRecord.ofSubscriber (n : Nat) (r : MessageRecord) : Bool := r.occupied && decide (r.subscriber = n)

/-- Whether a record of subscriber `n` is PLACED, ON AIR or AWAITING ACK. -/
def MessageRecord.flying (n : Nat) (r : MessageRecord) : Bool :=
  decide (r.subscriber = n ∧ (r.state = .placed ∨ r.state = .onAir ∨ r.state = .awaitingAck))

/-- The laws of R105, with what they rest on of R99, R101 and R109: each subscriber's open count equals the number of
occupied records naming it and never exceeds 16, and a VACANT subscriber's is 0; its tag set holds exactly the tags of its
occupied records, which are pairwise distinct; at most 4 of them are in flight; the count of FREE records is what 16384
records leave; and the records held for an air-stop close stand in rising order, PLACED and marked. -/
structure State.StoreLaw (s : State) : Prop where
  range : ∀ i, (s.msg i).state ≠ .free → i < Config.records
  open_ : ∀ n, (s.sub n).store.openCount = s.countMsgs (MessageRecord.ofSubscriber n)
  limit : ∀ n, (s.sub n).store.openCount ≤ Config.openLimit
  vacant : ∀ n, (s.sub n).billing.state = .vacant → (s.sub n).store.openCount = 0
  tags : ∀ n (k : Fin 8), (s.sub n).store.tags.getLsbD k.val = true ↔
    ∃ i, (s.msg i).state ≠ .free ∧ (s.msg i).subscriber = n ∧ (s.msg i).tag = some k
  distinct : ∀ i j k, (s.msg i).state ≠ .free → (s.msg j).state ≠ .free → (s.msg i).subscriber = (s.msg j).subscriber →
    (s.msg i).tag = some k → (s.msg j).tag = some k → i = j
  flight : ∀ n, s.countMsgs (MessageRecord.flying n) ≤ Config.flightLimit
  free : s.store.freeCount + s.countMsgs MessageRecord.occupied = Config.records
  rising : s.store.airStop.Pairwise (· < ·)
  stopped : ∀ i, i ∈ s.store.airStop →
    (s.msg i).state = .placed ∧ ((s.msg i).ackedPending = true ∨ (s.msg i).cancelPending = true)

/-- The law of R106: a record is in a frame list exactly when it is WAITING, and then only in the list of its subscriber's
frame slot, once, and every list is in ascending order of order key. -/
structure State.ListLaw (s : State) : Prop where
  listed : ∀ (f : Fin 32) i, i ∈ s.store.lists.get f ↔
    (s.msg i).state = .waiting ∧ (s.sub (s.msg i).subscriber).billing.slot = f
  once : ∀ f : Fin 32, (s.store.lists.get f).Nodup
  order : ∀ f : Fin 32, (s.store.lists.get f).Pairwise fun i j => (s.msg j).key.before (s.msg i).key = false

/-- The law of R116, first half: every zone section of every frame page holds at most 24 pages and 118 payload blocks. -/
def State.SectionLaw (s : State) : Prop :=
  ∀ (k : Fin 4) (z : Zone), ((s.builder.pages.get k).get z).length ≤ Config.sectionPages ∧
    sectionBlocks ((s.builder.pages.get k).get z) ≤ Config.sectionBlocks

/-- The law of R60: every non-VACANT subscriber's period number equals the office period, or, only while a roll walk is in
flight and has not yet reached that subscriber, the office period minus one modulo 65536. -/
structure State.PeriodLaw (s : State) : Prop where
  office : s.account.period < 65536
  current : ∀ n, n < Config.subscribers → (s.sub n).billing.state ≠ .vacant →
    (s.sub n).billing.period = s.account.period ∨
      (s.account.walk.inFlight = true ∧ s.account.walk.next ≤ n ∧
        (s.sub n).billing.period = (s.account.period + 65535) % 65536)

/-- The laws a run of the 4160 keeps. -/
structure State.Lawful (s : State) : Prop where
  tidy : s.Tidy
  guard : s.ex.GuardLaw
  pages : s.ex.writer.PageLaw
  room : s.ex.writer.RoomLaw
  intake : s.ex.IntakeLaw
  admission : s.AdmissionLaw
  key : s.KeyLaw
  unreachable : s.UnreachableLaw
  store : s.StoreLaw
  lists : s.ListLaw
  sections : s.SectionLaw
  period : s.PeriodLaw

/-- Whether an offset lies in the report pages (R67). -/
def inPages (a : Nat) : Prop := Config.pagesBase ≤ a ∧ a < Config.usedEnd

/-- Records handed in order under a producer's reservation (R171). -/
def State.handAll (s : State) (p : Producer) (records : List Record) : State := records.foldl (fun t r => t.hand p r) s

/-- The reports of a unit of work of producer `p` in the step from `s` to `t`: these records handed in order, then the
unused part of the reservation returned, and a new one asked for where `t` leaves more work (R170, R171). -/
def State.UnitEnded (s t : State) (p : Producer) (records : List Record) : Prop :=
  t.ex = (State.endUnit { t with ex := (s.handAll p records).ex } p).ex

/-- The intake unit works on the posting of slot `n`, which carries this posting code, in a state whose data is canonical
and whose report writer keeps its law. -/
structure State.InHand (s : State) (n : Nat) (p : Posting) (code : Nat) : Prop where
  intake : s.ex.intake = .working n p
  slot : n < 512
  code : (Posting.code p).toNat = code
  tidy : s.Tidy
  pages : s.ex.writer.PageLaw

/-- Whether an offset lies in the body of posting slot `n` (R67). -/
def inBody (n a : Nat) : Prop := slotBase n + 4 ≤ a ∧ a < slotBase n + 0x100

/-- Whether an offset lies in posting slot `n`, its state word included (R67). -/
def inSlot (n a : Nat) : Prop := slotBase n ≤ a ∧ a < slotBase n + 0x100

/-- What the report writer can do from `x` to `y` where no record is handed: every record position of the pages reads as
before, no page is opened, no reservation is lost, and a due FILLING page may be closed. -/
structure Exchange.NoRecord (x y : Exchange) : Prop where
  records : ∀ a, inPages a → 0x40 ≤ (a - Config.pagesBase) % 0x1000 → Memory.read y.mem a = Memory.read x.mem a
  next : y.writer.next = x.writer.next
  held : ∀ h, h ∈ x.writer.held → h ∈ y.writer.held
  pages :
    (y.writer.pages = x.writer.pages ∧ y.writer.count = x.writer.count ∧ y.writer.due = x.writer.due ∧
      y.writer.sequence = x.writer.sequence ∧ y.summary.pageClosed = x.summary.pageClosed) ∨
    (x.writer.due = true ∧ ∃ q : Index8, x.writer.pages.get q = .filling ∧
      y.writer.pages = x.writer.pages.set q.val .filled q.isLt ∧ y.writer.count = 0 ∧ y.writer.due = false ∧
      y.writer.sequence = x.writer.sequence + 1 ∧ y.summary.pageClosed = true)

/-- What answering the posting of slot `n` leaves of the exchange, from the exchange of `s` (R74, R95): the body holds the
answer, the slot is ANSWERED, the answered count and its mirror are raised, ANSWERS is set, the intake unit works on no
posting and its reservation is returned; outside the slot, whose state word reads as the slot map, the mirror and the report
pages every byte reads as before, and no record is handed but those `s` already holds. -/
structure Answered (s t : State) (n : Nat) (posting : Word) (code : AnswerCode) (data : List Word) : Prop where
  body : Memory.readWords t.ex.mem (slotBase n + 4) 63 = answerBody code posting data
  slots : ∀ m, t.ex.slot m = if m = n then .answered else s.ex.slot m
  count : t.ex.answered = s.ex.answered + 1
  header : Memory.readWord t.ex.mem 0 = word (s.ex.answered + 1)
  mem : ∀ a, 4 ≤ a → ¬ inSlot n a → ¬ inPages a → Memory.read t.ex.mem a = Memory.read s.ex.mem a
  queue : t.ex.queue = s.ex.queue
  buffer : t.ex.buffer = s.ex.buffer
  fence : t.ex.fence = s.ex.fence
  enable : t.ex.enable = s.ex.enable
  bus : t.ex.bus = s.ex.bus
  read : t.ex.read = s.ex.read
  progress : t.ex.progress = .begun
  answers : t.ex.summary.answers = true
  others : t.ex.summary.fence = s.ex.summary.fence ∧ t.ex.summary.link = s.ex.summary.link ∧
    t.ex.summary.reference = s.ex.summary.reference ∧ t.ex.summary.engine = s.ex.summary.engine
  intake : ∀ m q, t.ex.intake ≠ .working m q
  notices : ∀ m, m ∈ s.ex.notices → m ∈ t.ex.notices
  reports : Exchange.NoRecord
    { s.ex with writer := { s.ex.writer with held := s.ex.writer.held.filter fun h => decide (h.1 ≠ .intake) } } t.ex

/-- A polynomial over GF(2) of degree below 24 times the generator x^8 + x^2 + x + 1 of R17, in 32 bits. -/
def timesGenerator (q : Word) : Word := q <<< 8 ^^^ q <<< 2 ^^^ q <<< 1 ^^^ q

/-- What the entry list of a frame page is of the entries of its sections (R146): each record once, in order of first
appearance, with the generation it first appears with. -/
structure ListsOnce (all listed : List (Nat × BitVec 8)) : Prop where
  records : ∀ i, i ∈ listed.map (·.1) ↔ i ∈ all.map (·.1)
  order : (listed.map (·.1)).Pairwise fun a b => (all.map (·.1)).idxOf a < (all.map (·.1)).idxOf b
  first : ∀ e, e ∈ listed → all.find? (fun f => f.1 == e.1) = some e

/-- A safe outcome of a step: a next state that keeps the laws. A fault stands for an access that reaches no part of the
4160, and a refusal for a command without a meaning. -/
def Safe : Host.Outcome State Fault Refusal → Prop
  | .next t => t.Lawful
  | .fault _ => True
  | .refused _ => False

end Sys2Proof.Machine
end

