-- ==== Sys2Proof/Certificates/Slice0/Obligations.lean ====
section
/-! DEFINITION. The statements for the provers, from the numbered rules of the specification. -/

open Sys2Proof Sys2Proof.Machine

/-! ## Steps, reset and the laws every step keeps -/

/-- A step takes the command at the front of the queue and runs it on the state with the queue's rest. -/
def Obligations.StepRunsFrontCommand : Prop :=
  ∀ (c : Instr) (s : State) (rest : List Instr),
    step { s with pending := c :: rest } = exec c { s with pending := rest }

/-- The state right after power-on reset keeps every law stated below, and so is a start from which they hold. -/
def Obligations.ResetIsLawful : Prop := State.reset.Lawful

/-- Every step keeps the canonical form of the window's bytes, the slot map, the subscriber table and the message records,
so that equal contents are equal data. -/
def Obligations.StepKeepsCanonicalForm : Prop :=
  ∀ s t : State, s.Tidy → step s = .next t → t.Tidy

/-- Every step keeps the laws of R72 and R74: a slot is in the posting queue exactly when the slot map holds it as POSTED,
never twice and never more than 512 of them, and the answered count in the exchange header equals the number of ANSWERED
slots. The premises are laws stated beside this one. -/
def Obligations.StepKeepsGuardLaw : Prop :=
  ∀ s t : State, s.Tidy → s.ex.writer.PageLaw → s.ex.GuardLaw → step s = .next t → t.ex.GuardLaw

/-- Every step keeps the law that at most one report page is FILLING, and that it holds fewer than 63 records (R168, R172,
R174). With that law, and with the intake unit holding its reservation while it works (R83), every step keeps the law of
R169: the reserved total is at or below room, so that a record handed under a reservation always finds a position; no
producer holds two reservations or has two requests waiting (R170), and of a reservation between two commands all is left,
or, of the roll walk, two positions at least (R62), and of the intake unit, what its posting may still need: all before a
message's rating, all but the PERIOD SUMMARY after it, and all but the three records of R83 once its answer is decided. -/
def Obligations.StepKeepsPageLaw : Prop :=
  (∀ s t : State, s.ex.writer.PageLaw → step s = .next t → t.ex.writer.PageLaw) ∧
    ∀ s t : State, s.ex.GuardLaw → s.ex.writer.PageLaw → s.ex.writer.RoomLaw → s.ex.IntakeLaw → step s = .next t →
      t.ex.writer.RoomLaw ∧ t.ex.IntakeLaw

/-- Every step keeps the law that a link is keyed only while it is KEYED with a zone, the frame in progress was begun while
RUNNING, and the reference monitor is LOCKED or in HOLDOVER (R137). -/
def Obligations.StepKeepsKeyLaw : Prop :=
  ∀ s t : State, s.KeyLaw → step s = .next t → t.KeyLaw

/-- Every step keeps the laws of the message store. A subscriber marked unreachable has no WAITING message (R163). Each
subscriber's open count equals the number of occupied records naming it and never exceeds 16, its tag set holds exactly
the tags of its occupied records, which are pairwise distinct, and at most 4 of them are PLACED, ON AIR or AWAITING ACK
(R105); a record is in a frame list exactly when it is WAITING, then only in the list of its subscriber's slot and once,
and every list is in ascending order of order key (R106). A message past checks 1 to 7 still finds an open count below 16
and a FREE record when its commit is taken, whatever has come between (R87). Every zone section of every frame page holds
at most 24 pages and 118 payload blocks (R116; that a section holds a message only if it was placed there is the place
step's, stated with the builder). -/
def Obligations.StepKeepsUnreachableLaw : Prop :=
  (∀ s t : State, s.Tidy → s.UnreachableLaw → step s = .next t → t.UnreachableLaw) ∧
    (∀ s t : State, s.Tidy → s.ex.GuardLaw → s.ex.writer.PageLaw → s.AdmissionLaw → s.StoreLaw → s.ListLaw →
      step s = .next t → t.StoreLaw ∧ t.ListLaw ∧ t.AdmissionLaw) ∧
      ∀ s t : State, s.SectionLaw → step s = .next t → t.SectionLaw

/-- Every step keeps the law that every non-VACANT subscriber's period number equals the office period or, only while a
roll walk is in flight and has not yet reached that subscriber, the office period minus one modulo 65536 (R60). -/
def Obligations.StepKeepsPeriodLaw : Prop :=
  ∀ s t : State, s.Tidy → s.PeriodLaw → step s = .next t → t.PeriodLaw

/-! ## Resets, load and registers -/

/-- POWER_ON_RESET, from any state whose window bytes are in canonical form: LOADING with cause POWER, both event registers
clear, and every block at its power-on values: the air timing unit, the account unit, the message store with its sweep, the
builder with its pages, the links, the tracker with its three lists and its receivers, the arbiter, the slots, the intake
unit, the report writer and the mirrors. Slot bodies and the records of the report pages are left as they stand (R2, R5, R6,
R20, R36, R69 to R77, R79, R81, R99, R108, R114, R127, R130, R150, R166, R168, R177). That the queue of commands to come
stays, that slot bodies stand, whose content the manual calls undefined until the host writes it, and that a delayed read
in progress is dropped are the model's choices: log entries 24, 3 and 4. -/
def Obligations.PowerOnResetEntersLoading : Prop :=
  ∀ s : State, s.Tidy → ∃ t, exec .powerOnReset s = .next t ∧
    t.pending = s.pending ∧ t.engine.state = .loading ∧ t.engine.cause = .power ∧
    t.ex.summary = EventBits.clear ∧ t.ex.enable = EventBits.clear ∧
    (∀ n, t.sub n = Subscriber.powerOn) ∧ (∀ k : Fin 16, t.account.plans.get k = RatePlan.powerOn) ∧
    t.account.period = 0 ∧ t.account.walk = ⟨false, 0, 0⟩ ∧
    (∀ i, t.msg i = MessageRecord.powerOn) ∧ t.store.freeCount = 16384 ∧ t.store.sequence = 0 ∧
    (∀ f : Fin 32, t.store.lists.get f = []) ∧ t.store.sweep = ⟨false, 0, 0, false, none⟩ ∧ t.store.airStop = [] ∧
    t.builder.inHand = none ∧ t.builder.due = none ∧ t.builder.late = none ∧
    (∀ k z, (t.builder.pages.get k).get z = []) ∧ t.frame = none ∧
    t.tracker.reverse = [] ∧ t.tracker.deadlines = [] ∧ t.tracker.settle = [] ∧
    (∀ l, t.receiver l = ⟨(t.receiver l).zone, false, 0, 0, 0, 0, 0⟩) ∧
    (∀ n, t.ex.slot n = .free) ∧ t.ex.queue = [] ∧ t.ex.answered = 0 ∧ t.ex.buffer = [] ∧ t.ex.fence = none ∧
    t.ex.notices = [] ∧ t.ex.read = none ∧ t.ex.progress = .begun ∧
    t.ex.intake = .idle ∧ (∀ p : Index8, t.ex.writer.pages.get p = .empty) ∧ t.ex.writer.sequence = 1 ∧
    t.ex.writer.count = 0 ∧ t.ex.writer.next = 0 ∧ t.ex.writer.waiting = [] ∧ t.ex.writer.held = [] ∧
    Memory.readWords t.ex.mem 0x00 8 = [0, 0, 16384, 0, 0, 0, 0, 0] ∧
    (∀ p : Index8, Memory.readWords t.ex.mem (0x21000 + p.val * 0x1000 + 4) 2 = [0, 0]) ∧
    (∀ n a, n < 512 → inBody n a → Memory.read t.ex.mem a = Memory.read s.ex.mem a) ∧
    (∀ a, inPages a → 0x40 ≤ (a - 0x21000) % 0x1000 → Memory.read t.ex.mem a = Memory.read s.ex.mem a) ∧
    (∀ l, t.link l = Link.reset (LinkSettings.powerOn (t.link l).settings.zone)) ∧
    t.air.serial = 0 ∧ t.air.day = 0 ∧ t.air.second = 0 ∧ t.air.firstNext = true ∧ t.air.monitor.state = .absent ∧
    t.air.monitor.window = none ∧ t.air.monitor.good = 0 ∧ t.air.monitor.holdover = 0 ∧ t.air.monitor.report = none ∧
    t.arbiter.holder = .reportWriter ∧ t.arbiter.run = 0

/-- LOADING_COMPLETE (R177, R180, R181, R190): a profile whose word sum is 0 gives the office code, the identifiers and the
two zone maps, byte by byte; where the memory does not answer or the sum is not 0, the whole default set is used and the
flag is set. That the air timing unit and the arbiter stand is the model's reading: log entry 25. -/
def Obligations.LoadUsesProfileOrDefaults : Prop :=
  ∀ (s : State) (q : Option Profile), s.engine.state = .loading →
    ∃ t, exec (.loadingComplete q) s = .next t ∧
      t.engine.state = .setup ∧ t.engine.cause = s.engine.cause ∧ t.ex.summary.engine = true ∧ t.air = s.air ∧
      t.arbiter = s.arbiter ∧ t.pending = s.pending ∧ (∀ k : Fin 8, t.engine.classes.get k = ServiceClass.defaults) ∧
      (∀ l, (t.link l).state = .off ∧ (t.link l).settings = LinkSettings.powerOn (t.link l).settings.zone) ∧
      (∀ l, t.receiver l = Receiver.powerOn (t.receiver l).zone) ∧
      (∀ p, q = some p → profileSum p = 0 →
        t.engine.profileDefaulted = false ∧
        t.engine.office = Office.defaults (Fin.ofNat 64 ((p.get 0).toNat % 64)) ∧
        t.engine.subsystemVendor = p.get 3 ++ p.get 2 ∧ t.engine.subsystemId = p.get 5 ++ p.get 4 ∧
        (∀ l : Index8, (t.link l).settings.zone = transmitterZone (p.get ⟨6 + l.val, by omega⟩)) ∧
        (∀ l : Index8, (t.receiver l).zone = receiverZone (p.get ⟨14 + l.val, by omega⟩))) ∧
      ((q = none ∨ ∃ p, q = some p ∧ profileSum p ≠ 0) →
        t.engine.profileDefaulted = true ∧ t.engine.office = Office.defaults 0 ∧ t.engine.subsystemVendor = 0 ∧
        t.engine.subsystemId = 0 ∧
        (∀ l : Index8, (t.link l).settings.zone = some ⟨l.val / 2, by omega⟩) ∧
        (∀ l : Index8, (t.receiver l).zone = ⟨l.val / 2, by omega⟩))

/-- In LOADING every PCI access is answered with retry and changes nothing else (R177). -/
def Obligations.AccessRetriedInLoading : Prop :=
  ∀ (s : State) (o : Nat) (data : Word) (e : BitVec 4), s.engine.state = .loading →
    let retried : Host.Outcome State Fault Refusal := .next { s with ex := { s.ex with bus := .retry } }
    exec .loadingAccessRetry s = retried ∧
    (o < 0x100000 → exec (.hostWindowRead o) s = retried ∧ exec (.hostWindowWrite o data e) s = retried) ∧
    exec (.engineReset data e) s = retried ∧ exec (.clearAnswers data e) s = retried ∧
    exec (.clearPageClosed data e) s = retried ∧ exec (.clearFence data e) s = retried ∧
    exec (.clearLink data e) s = retried ∧ exec (.clearReference data e) s = retried ∧
    exec (.clearEngine data e) s = retried ∧ exec (.eventEnableWrite data e) s = retried ∧
    (o < 32 → exec (.registerWriteIgnored o data e) s = retried)

/-- ENGINE_RESET outside LOADING (R182, with the reset values of R2, R5, R6, R20, R36, R59, R65, R69 to R81, R96, R97, R99,
R101, R113, R127, R130, R150, R166, R168): a write of 1 to bit 0, in an enabled byte, resets every block in one step, the
mirrors, page headers and reservations included, and the roll walk in flight and a pending REFERENCE report ask again;
another write changes nothing. The posting in hand, at whatever point it stands, is abandoned without an answer, and what
its owners have taken stands in the billing groups and generations as R97 tables it. That a delayed read in progress and
the slot bodies stand is the model's choice: log entries 4 and 3. -/
def Obligations.EngineResetAppliesWhole : Prop :=
  ∀ (s : State) (data : Word) (e : BitVec 4), s.engine.state ≠ .loading → s.Tidy →
    ((data.getLsbD 0 && e.getLsbD 0) = false →
      exec (.engineReset data e) s = .next { s with ex := { s.ex with bus := .done } }) ∧
    ((data.getLsbD 0 && e.getLsbD 0) = true →
      ∃ t, exec (.engineReset data e) s = .next t ∧
        t.pending = s.pending ∧ t.engine = { s.engine with state := .setup, cause := .engine } ∧
        t.air = { s.air with serial := 0 } ∧
        (∀ n, t.sub n = ⟨(s.sub n).billing, StoreGroup.reset, Reach.reset⟩) ∧
        t.account.plans = s.account.plans ∧ t.account.period = s.account.period ∧ t.account.walk = s.account.walk ∧
        (∀ i, (t.msg i).state = .free ∧ (t.msg i).generation = (s.msg i).generation) ∧
        t.store.freeCount = 16384 ∧ t.store.sequence = 0 ∧ (∀ f : Fin 32, t.store.lists.get f = []) ∧
        t.store.sweep = ⟨false, 0, 0, false, none⟩ ∧ t.store.airStop = [] ∧ t.builder = Builder.reset ∧
        (∀ l, t.link l = Link.reset (s.link l).settings) ∧ t.frame = none ∧
        (∀ l, t.receiver l = ⟨(s.receiver l).zone, (s.receiver l).enabled, 0, 0, 0, 0, 0⟩) ∧
        t.tracker.reverse = [] ∧ t.tracker.deadlines = [] ∧ t.tracker.settle = [] ∧
        t.arbiter.holder = .reportWriter ∧ t.arbiter.run = 0 ∧
        (∀ n, t.ex.slot n = .free) ∧ t.ex.queue = [] ∧ t.ex.answered = 0 ∧ t.ex.intake = .idle ∧ t.ex.progress = .begun ∧
        t.ex.read = s.ex.read ∧ t.ex.buffer = s.ex.buffer ∧ t.ex.fence = s.ex.fence ∧ t.ex.enable = s.ex.enable ∧
        t.ex.summary = { s.ex.summary with answers := false, pageClosed := false, engine := true } ∧
        (∀ p : Index8, t.ex.writer.pages.get p = .empty) ∧ t.ex.writer.count = 0 ∧ t.ex.writer.sequence = 1 ∧
        t.ex.writer.next = 0 ∧ t.ex.writer.waiting = [] ∧
        t.ex.writer.held = (if s.account.walk.inFlight then [(.rollWalk, 8)] else []) ++
          (if s.air.monitor.report.isSome then [(.monitor, 1)] else []) ∧
        Memory.readWords t.ex.mem 0x00 4 = [0, 0, 16384, 0] ∧
        Memory.readWords t.ex.mem 0x10 2 = Memory.readWords s.ex.mem 0x10 2 ∧
        Memory.readWords t.ex.mem 0x18 2 = [0, 0] ∧ (∀ m, m ∈ t.ex.notices → m = .officeClock ∧ m ∈ s.ex.notices) ∧
        (∀ p : Index8, Memory.readWords t.ex.mem (0x21000 + p.val * 0x1000 + 4) 2 = [0, 0]) ∧
        (∀ n a, n < 512 → inBody n a → Memory.read t.ex.mem a = Memory.read s.ex.mem a) ∧
        ∀ a, inPages a → 0x40 ≤ (a - 0x21000) % 0x1000 → Memory.read t.ex.mem a = Memory.read s.ex.mem a)

/-- The six clearing writes of EVENT SUMMARY outside LOADING: a write of 1 to the bit, in enabled byte 0, clears it, and
another write changes nothing; FENCE clears together with the fence record, and only where the record is not clear (R76,
R96, R176, R183, R188). -/
def Obligations.EventBitsClearOnWriteOfOne : Prop :=
  ∀ (s : State) (data : Word) (e : BitVec 4), s.engine.state ≠ .loading →
    let one (k : Nat) : Bool := data.getLsbD k && e.getLsbD 0
    let bits := s.ex.summary
    let after (b : EventBits) (f : Option Fence) : Host.Outcome State Fault Refusal :=
      .next { s with ex := { s.ex with summary := b, fence := f, bus := .done } }
    exec (.clearAnswers data e) s = after { bits with answers := bits.answers && !one 0 } s.ex.fence ∧
    exec (.clearPageClosed data e) s = after { bits with pageClosed := bits.pageClosed && !one 1 } s.ex.fence ∧
    exec (.clearFence data e) s =
      (if one 2 && s.ex.fence.isSome then after { bits with fence := false } none else after bits s.ex.fence) ∧
    exec (.clearLink data e) s = after { bits with link := bits.link && !one 3 } s.ex.fence ∧
    exec (.clearReference data e) s = after { bits with reference := bits.reference && !one 4 } s.ex.fence ∧
    exec (.clearEngine data e) s = after { bits with engine := bits.engine && !one 5 } s.ex.fence

/-- Outside LOADING, EVENT ENABLE reads as written in an enabled byte 0 and stands otherwise; writes to ENGINE STATE, FENCE
RECORD and 14h to 1Fh are ignored. The interrupt line is asserted exactly while a bit is set in both EVENT SUMMARY and EVENT
ENABLE. ENGINE STATE and FENCE RECORD read with each field in its bits, and ENGINE CONTROL and 14h to 1Fh read as 0 (R182,
R183, R188). Two points are the model's choice and no rule: an offset of 20h or more faults (log entry 27), and bits 5:4 of
FENCE RECORD read as 0 where the state seen is not valid (log entry 30). -/
def Obligations.EnableWriteAndInterruptLine : Prop :=
  (∀ (s : State) (data : Word) (e : BitVec 4), s.engine.state ≠ .loading →
    ∃ t, exec (.eventEnableWrite data e) s = .next t ∧
      t = { s with ex := { s.ex with enable := t.ex.enable, bus := .done } } ∧
      (e.getLsbD 0 = true → t.registerWord 0x08 = data &&& 0x3F) ∧ (e.getLsbD 0 = false → t.ex.enable = s.ex.enable)) ∧
  (∀ (s : State) (o : Nat) (data : Word) (e : BitVec 4), s.engine.state ≠ .loading →
    (o < 32 → exec (.registerWriteIgnored o data e) s = .next { s with ex := { s.ex with bus := .done } }) ∧
    (32 ≤ o → exec (.registerWriteIgnored o data e) s = .fault (.outsideWindow o))) ∧
  (∀ s : State, s.interruptLine = true ↔ s.registerWord 0x04 &&& s.registerWord 0x08 ≠ 0) ∧
  (∀ s : State,
    let w := s.registerWord 0x00
    w.extractLsb' 0 3 = s.engine.state.code.setWidth 3 ∧ w.extractLsb' 4 3 = s.air.monitor.state.code.setWidth 3 ∧
    w.extractLsb' 8 2 = s.engine.cause.code.setWidth 2 ∧ w.getLsbD 12 = s.engine.profileDefaulted ∧
    w.getLsbD 3 = false ∧ w.getLsbD 7 = false ∧ w.extractLsb' 10 2 = 0 ∧ w.extractLsb' 13 19 = 0) ∧
  (∀ s : State, (s.ex.fence = none → s.registerWord 0x10 = 0) ∧
    ∀ f, s.ex.fence = some f → (∀ v, f.seen = some v → v.toNat < 4) →
      let w := s.registerWord 0x10
      w.extractLsb' 0 3 = f.kind.code.setWidth 3 ∧ w.getLsbD 3 = f.seen.isSome ∧
      w.extractLsb' 4 2 = (f.seen.getD 0).setWidth 2 ∧ (w.extractLsb' 6 18).toNat = f.offset / 4 % 2 ^ 18 ∧
      (w.extractLsb' 24 8).toNat = f.later % 256) ∧
  (∀ (s : State) (o : Nat), o = 0x0C ∨ (0x14 ≤ o ∧ o < 0x20) → s.registerWord o = 0)

/-! ## The exchange window -/

/-- HOST_WINDOW_READ outside LOADING, with the burst of a delayed read (R68, R70): the first attempt is answered with retry
and begins the read; repeated, it is answered with retry until the data has arrived and then completes it. The data is what
store memory holds at the burst granted to the host window, once every write accepted before the first attempt has been
judged: a slot's or page's state, or the bytes as they stand; from 029000h on it is 0 without a burst. Nothing else changes.
One read at a time, another word being retried meanwhile, and the host window's burst being that of the read in progress are
the model's choice (log entry 4), and so is the fault past the window (log entry 27). -/
def Obligations.HostReadReturnsWord : Prop :=
  (∀ s : State, s.engine.state ≠ .loading →
    let replied (b : BusReply) (d : Option DelayedRead) : Host.Outcome State Fault Refusal :=
      .next { s with ex := { s.ex with read := d, bus := b } }
    (∀ o, 0x100000 ≤ o → exec (.hostWindowRead o) s = .fault (.outsideWindow o)) ∧
    (s.ex.read = none → ∀ o, o < 0x100000 →
      exec (.hostWindowRead o) s = replied .retry (some ⟨o / 4 * 4, 0, none⟩)) ∧
    (∀ r, s.ex.read = some r →
      (∀ o, o < 0x100000 → o / 4 * 4 ≠ r.offset → exec (.hostWindowRead o) s = replied .retry (some r)) ∧
      (∀ o, o < 0x100000 → o / 4 * 4 = r.offset →
        (∀ w, r.data = some w → exec (.hostWindowRead o) s = replied (.data w) none) ∧
        (r.data = none → (o < 0x29000 ∨ r.after < s.ex.buffer.length) →
          exec (.hostWindowRead o) s = replied .retry (some r)) ∧
        (r.data = none → 0x29000 ≤ o → s.ex.buffer.length ≤ r.after →
          exec (.hostWindowRead o) s = replied (.data 0) none)))) ∧
  (∀ (s : State) (encoder : Bool) (q : Requests) (r : DelayedRead), s.ex.read = some r →
    ∃ t, exec (.storeBurstGrant encoder q) s = .next t ∧
      let fetched (w : Word) : Prop :=
        t.ex = { s.ex with read := some { r with data := some w } }
      let granted : Prop := t.arbiter.port = .client .hostWindow ∧ r.data = none ∧ s.ex.buffer.length ≤ r.after
      (granted →
        (∀ n, n < 512 → r.offset = 0x1000 + n * 0x100 → fetched (s.ex.slot n).code) ∧
        (∀ p : Index8, r.offset = 0x21000 + p.val * 0x1000 → fetched (s.ex.writer.pages.get p).code) ∧
        (r.offset < 0x1000 → fetched (Memory.readWord s.ex.mem r.offset)) ∧
        (∀ n k, n < 512 → 0 < k → k < 0x100 → r.offset = 0x1000 + n * 0x100 + k →
          fetched (Memory.readWord s.ex.mem r.offset)) ∧
        (∀ (p : Index8) k, 0 < k → k < 0x1000 → r.offset = 0x21000 + p.val * 0x1000 + k →
          fetched (Memory.readWord s.ex.mem r.offset)) ∧
        (0x29000 ≤ r.offset → t.ex = s.ex)) ∧
      (¬ granted → t.ex = s.ex) ∧
      t = { s with arbiter := t.arbiter, ex := t.ex })

/-- HOST_WINDOW_WRITE outside LOADING (R68, R69): the word joins the tail of the write buffer while it holds fewer than 16
words, behind a delayed read in progress, and is answered with retry while it holds 16. The fault past the window is the
model's choice: log entry 27. -/
def Obligations.HostWriteJoinsBuffer : Prop :=
  ∀ (s : State) (o : Nat) (data : Word) (e : BitVec 4), s.engine.state ≠ .loading →
    (o < 0x100000 → o % 4 = 0 → s.ex.buffer.length < 16 →
      exec (.hostWindowWrite o data e) s =
        .next { s with ex := { s.ex with
          buffer := s.ex.buffer ++ [⟨o, data, e⟩]
          read := s.ex.read.map fun r => { r with after := r.after + 1 }
          bus := .done } }) ∧
    (o < 0x100000 → 16 ≤ s.ex.buffer.length →
      exec (.hostWindowWrite o data e) s = .next { s with ex := { s.ex with bus := .retry } }) ∧
    (0x100000 ≤ o → exec (.hostWindowWrite o data e) s = .fault (.outsideWindow o))

/-- SLOT_BODY_WRITE (R69, R71): a buffered word of the body of a FREE or POSTED slot is written in its enabled bytes; no
other byte and nothing else changes. -/
def Obligations.SlotBodyWritten : Prop :=
  ∀ (s : State) (n k : Nat) (data : Word) (e : BitVec 4) (rest : List BufferedWrite),
    s.Tidy → n < 512 → k % 4 = 0 → 0 < k → k < 0x100 →
    s.ex.buffer = ⟨0x1000 + n * 0x100 + k, data, e⟩ :: rest → (s.ex.slot n = .free ∨ s.ex.slot n = .posted) →
    ∃ t, exec .slotBodyWrite s = .next t ∧
      (∀ i, i < 4 → Memory.read t.ex.mem (0x1000 + n * 0x100 + k + i) =
        if e.getLsbD i then byteOf data i else Memory.read s.ex.mem (0x1000 + n * 0x100 + k + i)) ∧
      (∀ a, (a < 0x1000 + n * 0x100 + k ∨ 0x1000 + n * 0x100 + k + 4 ≤ a) →
        Memory.read t.ex.mem a = Memory.read s.ex.mem a) ∧
      t = { s with ex := { s.ex with mem := t.ex.mem, buffer := rest } }

/-- What a host write of a slot's state word moves (R70 to R72, R74): posting a FREE slot puts it at the queue's tail,
withdrawing a POSTED slot takes it out of the queue with the others' order kept, and returning an ANSWERED slot lowers the
answered count and its mirror. Every other slot stands, and every byte but those of the mirror and of the slot's own state
word, which reads as the slot map. -/
def Obligations.SlotStateWritesMoveSlot : Prop :=
  ∀ (s : State) (n : Nat) (rest : List BufferedWrite), s.Tidy → n < 512 →
    let moved (v : SlotState) (t : State) : Prop :=
      (∀ m, t.ex.slot m = if m = n then v else s.ex.slot m) ∧ t.ex.buffer = rest ∧
      (∀ a, 4 ≤ a → (a < 0x1000 + n * 0x100 ∨ 0x1000 + n * 0x100 + 4 ≤ a) →
        Memory.read t.ex.mem a = Memory.read s.ex.mem a) ∧ t.ex.summary = s.ex.summary ∧
      t.ex.fence = s.ex.fence ∧ t.ex.enable = s.ex.enable ∧ t.ex.bus = s.ex.bus ∧
      t.ex.read = s.ex.read ∧ t.ex.progress = s.ex.progress ∧
      t.ex.writer.pages = s.ex.writer.pages ∧ t = { s with ex := t.ex }
    (s.ex.buffer = ⟨0x1000 + n * 0x100, 1, 0xF⟩ :: rest → s.ex.slot n = .free →
      ∃ t, exec .slotPost s = .next t ∧ moved .posted t ∧ t.ex.queue = s.ex.queue ++ [n] ∧
        t.ex.answered = s.ex.answered ∧ Memory.readWord t.ex.mem 0 = Memory.readWord s.ex.mem 0 ∧
        .queueLength ∈ t.ex.notices ∧ (s.ex.intake ≠ .idle → t.ex.intake = s.ex.intake) ∧
        (s.ex.intake = .idle → s.engine.state ≠ .loading → t.ex.intake = .roomWait ∨ t.ex.intake = .taking)) ∧
    (s.ex.buffer = ⟨0x1000 + n * 0x100, 0, 0xF⟩ :: rest → s.ex.slot n = .posted →
      ∃ t, exec .slotWithdraw s = .next t ∧ moved .free t ∧
        t.ex.queue = s.ex.queue.filter (fun m => decide (m ≠ n)) ∧ t.ex.answered = s.ex.answered ∧
        Memory.readWord t.ex.mem 0 = Memory.readWord s.ex.mem 0 ∧ .queueLength ∈ t.ex.notices) ∧
    (s.ex.buffer = ⟨0x1000 + n * 0x100, 0, 0xF⟩ :: rest → s.ex.slot n = .answered →
      ∃ t, exec .slotReturn s = .next t ∧ moved .free t ∧ t.ex.queue = s.ex.queue ∧
        t.ex.answered = s.ex.answered - 1 ∧ Memory.readWord t.ex.mem 0 = word (s.ex.answered - 1) ∧
        t.ex.intake = s.ex.intake)

/-- REPORT_PAGE_RETURN (R75, R170, R173, R175): an EMPTY write over a FILLED page makes it EMPTY; every other page stands,
but for a due FILLING page that may close in the same step; and the waiting requests are judged: each is granted its
amount or left waiting, and one left waiting asks for more than the unreserved room that remains. -/
def Obligations.FilledPageReturned : Prop :=
  ∀ (s : State) (p : Index8) (rest : List BufferedWrite),
    s.ex.writer.PageLaw → s.ex.buffer = ⟨0x21000 + p.val * 0x1000, 0, 0xF⟩ :: rest →
    s.ex.writer.pages.get p = .filled →
    let amount : Producer → Nat
      | .intake => 8 | .rollWalk => 8 | .tracker => 4 | .messageStore => 4 | .linkUnit => 1 | .monitor => 1 | .builder => 1
    ∃ t, exec .reportPageReturn s = .next t ∧ t.ex.writer.pages.get p = .empty ∧
      (∀ q, q ≠ p → t.ex.writer.pages.get q = s.ex.writer.pages.get q ∨
        (s.ex.writer.pages.get q = .filling ∧ t.ex.writer.pages.get q = .filled ∧ s.ex.writer.due = true)) ∧
      (∀ q, q ∈ t.ex.writer.waiting → q ∈ s.ex.writer.waiting ∧ t.ex.writer.unreserved < amount q) ∧
      (∀ q, q ∈ s.ex.writer.waiting → q ∈ t.ex.writer.waiting ∨ (q, amount q) ∈ t.ex.writer.held) ∧
      (∀ h, h ∈ s.ex.writer.held → h ∈ t.ex.writer.held) ∧
      t.ex.buffer = rest ∧ t.ex.slots = s.ex.slots ∧ t.ex.queue = s.ex.queue ∧ t.ex.answered = s.ex.answered ∧
      t.ex.fence = s.ex.fence ∧ t.ex.enable = s.ex.enable ∧ t.ex.bus = s.ex.bus ∧
      t.ex.read = s.ex.read ∧ t.ex.progress = s.ex.progress ∧ t = { s with ex := t.ex }

/-- DROPPED_WRITE (R71, R75, R76): a word of the header, past 029000h, of the body of a slot the host does not own, over a
slot state it may not move, or over a report page it may not return is discarded and fenced with its kind, its offset and
the state seen; a record that holds a word keeps it and counts the later drop, up to 255. -/
def Obligations.DroppedWriteFenced : Prop :=
  ∀ (s : State) (w : BufferedWrite) (rest : List BufferedWrite), s.ex.buffer = w :: rest →
    let fenced (kind : FenceKind) (seen : Option Word) : Prop :=
      exec .droppedWrite s = .next { s with ex := { s.ex with
        buffer := rest
        fence := some (match s.ex.fence with
          | none => ⟨kind, w.offset, seen, 0⟩
          | some f => { f with later := if f.later < 255 then f.later + 1 else 255 })
        summary := { s.ex.summary with fence := true } } }
    (w.offset < 0x1000 → fenced .readOnly none) ∧
    (0x29000 ≤ w.offset → fenced .outside none) ∧
    (∀ n k, n < 512 → 0 < k → k < 0x100 → w.offset = 0x1000 + n * 0x100 + k →
      (s.ex.slot n = .taken ∨ s.ex.slot n = .answered) →
      fenced .slotOwned (some (s.ex.slot n).code)) ∧
    (∀ n, n < 512 → w.offset = 0x1000 + n * 0x100 →
      ¬ (w.enables = 0xF ∧ ((w.data = 1 ∧ s.ex.slot n = .free) ∨
        (w.data = 0 ∧ (s.ex.slot n = .posted ∨ s.ex.slot n = .answered)))) →
      fenced .state (some (s.ex.slot n).code)) ∧
    (∀ (p : Index8) k, k < 0x1000 → w.offset = 0x21000 + p.val * 0x1000 + k →
      ¬ (k = 0 ∧ w.enables = 0xF ∧ w.data = 0 ∧ s.ex.writer.pages.get p = .filled) →
      fenced .report (some (s.ex.writer.pages.get p).code))

/-- MIRROR_WRITE (R77, R185): with a notice outstanding the mirror's words take the owner's present value and the notice is
done; every other byte and everything else stands. -/
def Obligations.MirrorWritten : Prop :=
  ∀ (s : State) (m : Mirror), s.Tidy → m ∈ s.ex.notices →
    ∃ t, exec (.mirrorWrite m) s = .next t ∧ m ∉ t.ex.notices ∧
      (∀ k, k ≠ m → (k ∈ t.ex.notices ↔ k ∈ s.ex.notices)) ∧
      t = { s with ex := { s.ex with mem := t.ex.mem, notices := t.ex.notices } } ∧
      (∀ a, (a < mirrorOffset m ∨ mirrorOffset m + (if m = .officeClock then 8 else 4) ≤ a) →
        Memory.read t.ex.mem a = Memory.read s.ex.mem a) ∧
      match m with
      | .answeredCount => Memory.readWord t.ex.mem 0x00 = word s.ex.answered
      | .queueLength => Memory.readWord t.ex.mem 0x04 = word s.ex.queue.length
      | .freeRecords => Memory.readWord t.ex.mem 0x08 = word s.store.freeCount
      | .frameSerial => Memory.readWord t.ex.mem 0x0C = word s.air.serial
      | .officeClock =>
        Memory.readWord t.ex.mem 0x10 = word s.air.second ∧ Memory.readWord t.ex.mem 0x14 = word s.air.day
      | .lastPageIndex => Memory.readWord t.ex.mem 0x18 = word s.ex.writer.lastIndex.val
      | .lastPageSequence => Memory.readWord t.ex.mem 0x1C = s.ex.writer.lastSequence

/-- STORE_BURST_GRANT (R78, R79): the encoder goes first and leaves holder and run count; else a requesting holder below its
weight goes on; else the requesting client nearest after the holder in the rotation becomes the holder with run count 1; and
with no request the port idles with holder and run count kept. After a reset, which leaves run count 0, the holder does not
go on, so that the first grant goes to the first requesting client from the host window onward (log entry 31). A burst of
the host window is that of the delayed read in progress (log entry 4). -/
def Obligations.BurstGrantedByRotation : Prop :=
  ∀ (s : State) (r : Requests),
    let place : Client → Nat
      | .hostWindow => 0 | .intake => 1 | .frameBuilder => 2 | .tracker => 3 | .rollWalk => 4 | .reportWriter => 5
    let a := s.arbiter
    let after (c : Client) : Nat := (place c + 5 - place a.holder) % 6
    let stays : Prop := requestOf r a.holder = true ∧ 0 < a.run ∧ a.run < s.engine.office.weight a.holder
    let granted (b : Arbiter) : Host.Outcome State Fault Refusal :=
      .next { s with arbiter := b, ex := if b.port = .client .hostWindow then s.ex.fetch else s.ex }
    exec (.storeBurstGrant true r) s = granted { a with port := .encoder } ∧
    (stays → exec (.storeBurstGrant false r) s = granted ⟨a.holder, a.run + 1, .client a.holder⟩) ∧
    (¬ stays → ∀ c, requestOf r c = true → (∀ d, requestOf r d = true → after c ≤ after d) →
      exec (.storeBurstGrant false r) s = granted ⟨c, 1, .client c⟩) ∧
    ((∀ c, requestOf r c = false) → exec (.storeBurstGrant false r) s = granted { a with port := .idle })

/-- POSTING_TAKE (R73, R83, R84): in TAKING the head of the queue becomes TAKEN and its body, as it stands, is the posting
the unit works on, with no owner asked yet; with an empty queue the unit is IDLE again and holds no reservation. -/
def Obligations.PostingTaken : Prop :=
  ∀ s : State, s.Tidy → s.ex.writer.PageLaw → s.ex.GuardLaw → s.ex.intake = .taking →
    (∀ n rest, s.ex.queue = n :: rest →
      ∃ t, exec .postingTake s = .next t ∧ t.ex.queue = rest ∧
        (∀ m, t.ex.slot m = if m = n then .taken else s.ex.slot m) ∧
        t.ex.intake = .working n (Memory.readWords s.ex.mem (0x1000 + n * 0x100 + 4) 63) ∧
        .queueLength ∈ t.ex.notices ∧
        t = { s with ex := { s.ex with
          queue := rest, slots := t.ex.slots, intake := t.ex.intake, notices := t.ex.notices, progress := .begun } }) ∧
    (s.ex.queue = [] →
      ∃ t, exec .postingTake s = .next t ∧ t.ex.intake = .idle ∧ t.ex.writer.holds .intake = false ∧
        t.ex.queue = [] ∧ t.ex.slots = s.ex.slots ∧ t.ex.answered = s.ex.answered ∧ t.ex.buffer = s.ex.buffer ∧
        t.ex.fence = s.ex.fence ∧ t.ex.enable = s.ex.enable ∧ t.ex.bus = s.ex.bus ∧
        t.ex.read = s.ex.read ∧ t.ex.progress = s.ex.progress ∧ t = { s with ex := t.ex })

/-! ## Message postings -/

/-- MESSAGE, admitted (R39, R48, R85 to R91, R95, R99 to R106), request by request, each on the state that stands when it is
taken (R87, R90). A posting that passes checks 1 to 7 goes on to the rating, with its text replaced. The rating rolls a stale
record, with its PERIOD SUMMARY, and where the credit check passes it applies the charge, the counters and the low-balance
flag. The commit occupies the lowest-numbered FREE record with its fields written and its generation advanced, WAITING in the
list of the subscriber's slot or HELD where it is unreachable; the open count, the free count and the admission sequence
move. The report hands ADMIT and, where the charge changed the flag, BALANCE ALERT; and the answer gives handle, charge,
balance after, T, state and replaced count. Nothing else changes. That each request is one taking of the command is the
model's choice: log entry 8. -/
def Obligations.MessageAdmitted : Prop :=
  ∀ (s : State) (n : Nat) (p : Posting), s.InHand n p 0x01 →
    ((s.ex.progress = .begun ∨ ∃ c, s.ex.progress = .copied c) → ∀ kind, kindOf (p.param 2) = some kind →
      lengthOk kind (p.param 4) = true →
      let u := s.sub p.subscriber
      let posted := p.postedText kind
      u.billing.state = .active → (kind = .alpha → (s.classOf p.subscriber).alphaAllowed = true) →
      u.store.openCount < 16 → s.store.freeCount ≠ 0 →
      let draft : Draft :=
        { subscriber := p.subscriber
          kind := kind
          urgent := decide (p.param 3 ≠ 0)
          text := posted.map fun c => if byteKept kind c then c else 0x20
          hostTag := p.param 5
          replaced := (posted.filter fun c => !byteKept kind c).length }
      exec .message s = .next { s with ex := { s.ex with progress := .checked draft } }) ∧
    (∀ d, s.ex.progress = .checked d →
      let m := d.subscriber
      let u := s.sub m
      let b := u.billing
      let plan := s.planOf m
      let stale := decide (b.period ≠ s.account.period)
      let counters := if stale then Counters.zero else b.counters
      let r := rate plan s.engine.office (s.air.second / 60) counters.messages d.kind d.text.length d.urgent
      let balance := b.balance - r.charge
      let low := if 0 < r.charge then lowBalanceAfter plan b.lowBalance balance else b.lowBalance
      let charge : Charged :=
        { rating := r
          period := s.account.period
          balance := balance
          refundable := plan.refundable
          alert := if low = b.lowBalance then none else some ⟨low, plan.warningLevel, plan.recoveryMargin, b.plan⟩ }
      (r.charge = 0 ∨ -(b.creditLimit : Int) ≤ balance) →
      ∃ t, exec .message s = .next t ∧
        t.sub m = { u with billing := { b with
          balance := balance
          lowBalance := low
          period := s.account.period
          counters := counters.countAdmission r.blocks r.charge } } ∧
        (∀ k, k ≠ m → t.sub k = s.sub k) ∧
        t = { s with
          account := { s.account with subscribers := t.account.subscribers }
          ex := { (s.handAll .intake (if stale then [recordPeriodSummary m b .intake] else [])).ex with
            progress := .charged d charge } }) ∧
    (∀ d c i, s.ex.progress = .charged d c →
      (s.msg i).state = .free → (∀ j, j < i → (s.msg j).state ≠ .free) → i < 16384 →
      let m := d.subscriber
      let u := s.sub m
      let state : MessageState := if u.reach.unreachable then .held else .waiting
      ∃ t, exec .message s = .next t ∧
        t.msg i =
          { state := state
            generation := (s.msg i).generation + 1
            subscriber := m
            kind := d.kind
            urgent := d.urgent
            text := d.text
            sequence := s.store.sequence
            hostTag := d.hostTag
            charge := c.rating.charge
            refundable := c.refundable
            tag := none
            attempts := 0
            eligible := 0
            expiry := s.cycle + (s.classOf m).lifetime
            placedSerial := none
            placedZones := 0
            airedZones := 0
            deadline := none
            cancelPending := false
            ackedPending := false } ∧
        (∀ j, j ≠ i → t.msg j = s.msg j) ∧
        t.store.sequence = s.store.sequence + 1 ∧ t.store.freeCount = s.store.freeCount - 1 ∧
        (∀ f : Fin 32, t.store.lists.get f =
          if u.reach.unreachable = false ∧ f = u.billing.slot then
            insertByKey (fun j => (t.msg j).key) i (s.store.lists.get f)
          else s.store.lists.get f) ∧
        t.store.sweep = s.store.sweep ∧ t.store.airStop = s.store.airStop ∧
        t.sub m = { u with store := ⟨u.store.openCount + 1, u.store.tags⟩ } ∧ (∀ k, k ≠ m → t.sub k = s.sub k) ∧
        (∀ k, k ∈ t.ex.notices ↔ k ∈ s.ex.notices ∨ k = .freeRecords) ∧
        t = { s with
          account := { s.account with subscribers := t.account.subscribers }
          store := t.store
          ex := { s.ex with
            notices := t.ex.notices, progress := .committed d c ⟨i, (s.msg i).generation + 1, state⟩ } }) ∧
    (∀ d c e, s.ex.progress = .committed d c e →
      let r := c.rating
      let admission : Record :=
        [0x01, handleWord e.generation e.record, d.hostTag, word d.subscriber, word c.period, d.kind.code,
          word d.text.length, word r.blocks, wordFlag d.urgent, word r.raw, word r.surcharged, word r.discount,
          word r.offPeak, wordFlag r.free, word r.charge, wordInt c.balance]
      let alert : List Record := match c.alert with
        | some a => [[0x04, word d.subscriber, wordFlag a.raised, wordInt c.balance, wordInt a.warningLevel,
            word a.recoveryMargin, word a.plan.val, 0]]
        | none => []
      let answer : List Word :=
        [handleWord e.generation e.record, word r.charge, wordInt c.balance, word r.blocks, e.state.code, word d.replaced]
      exec .message s = .next
        { s with ex := { (s.handAll .intake (admission :: alert)).ex with progress := .decided .accepted answer } }) ∧
    (∀ code data, s.ex.progress = .decided code data →
      ∃ t, exec .message s = .next t ∧ Answered s t n 0x01 code data ∧ t = { s with ex := t.ex })

/-- MESSAGE, refused (R39, R47, R58, R85, R87, R88): the first check that fails gives the answer, in the order kind, length,
subscriber state, alpha allowed, open count, free count, credit; a refusal before the credit check changes nothing and hands
nothing, and INSUFFICIENT CREDIT leaves the roll of a stale record standing. The answer decided is then written as O24 says
of every answer. That each request is one taking of the command is the model's choice: log entry 8. -/
def Obligations.MessageRefused : Prop :=
  ∀ (s : State) (n : Nat) (p : Posting), s.InHand n p 0x01 →
    let decided (x : Exchange) (code : AnswerCode) (data : List Word) : Exchange :=
      { x with progress := .decided code data }
    ((s.ex.progress = .begun ∨ ∃ c, s.ex.progress = .copied c) →
      let m := p.subscriber
      let u := s.sub m
      let refused (code : AnswerCode) (data : List Word) : Prop :=
        exec .message s = .next { s with ex := decided s.ex code data }
      (2 < (p.param 2).toNat → refused .malformed [word m, 2]) ∧
      (∀ kind, kindOf (p.param 2) = some kind →
        ((kind = .numeric ∧ 40 < (p.param 4).toNat) ∨ (kind = .alpha ∧ 200 < (p.param 4).toNat) →
          refused .malformed [word m, 4]) ∧
        (lengthOk kind (p.param 4) = true →
          (u.billing.state = .vacant → refused .unknownSubscriber [word m, 0]) ∧
          (u.billing.state = .barred → refused .barred [word m, 2]) ∧
          (u.billing.state = .active →
            (kind = .alpha ∧ (s.classOf m).alphaAllowed = false →
              refused .serviceMismatch [word m, word u.billing.serviceClass.val]) ∧
            ((kind = .alpha → (s.classOf m).alphaAllowed = true) →
              (16 ≤ u.store.openCount → refused .subscriberFull [word m, word u.store.openCount]) ∧
              (u.store.openCount < 16 → s.store.freeCount = 0 → refused .storeFull [word m, 0])))))) ∧
    (∀ d, s.ex.progress = .checked d →
      let m := d.subscriber
      let u := s.sub m
      let b := u.billing
      let stale := decide (b.period ≠ s.account.period)
      let counters := if stale then Counters.zero else b.counters
      let charge :=
        (rate (s.planOf m) s.engine.office (s.air.second / 60) counters.messages d.kind d.text.length d.urgent).charge
      0 < charge → b.balance - charge < -(b.creditLimit : Int) →
      ∃ t, exec .message s = .next t ∧
        t.sub m = { u with billing := { b with counters := counters, period := s.account.period } } ∧
        (∀ k, k ≠ m → t.sub k = s.sub k) ∧
        t = { s with
          account := { s.account with subscribers := t.account.subscribers }
          ex := decided (s.handAll .intake (if stale then [recordPeriodSummary m b .intake] else [])).ex
            .insufficientCredit [word m, word charge, wordInt b.balance] })

/-- Rating (R40 to R46): T is the least number of blocks that holds the text; the urgent price is the nearest whole CU with
halves upward; a message within the allowance is free; the volume tier, the off-peak window and both discounts give a charge
rounded down, which a cap other than 0 bounds; and no charge of a plan in range exceeds 1,359,600. -/
def Obligations.RatingComputesCharge : Prop :=
  ∀ (plan : RatePlan) (o : Office) (minute n : Nat) (kind : MessageKind) (length : Nat) (urgent : Bool),
    let r := rate plan o minute n kind length urgent
    (kind = .tone → r.blocks = 0) ∧
    (kind = .numeric → length ≤ 6 * r.blocks ∧ 6 * r.blocks < length + 6) ∧
    (kind = .alpha → length ≤ 3 * r.blocks ∧ 3 * r.blocks < length + 3) ∧
    r.raw = plan.base + plan.perBlock * r.blocks ∧
    (urgent = false → r.surcharged = r.raw) ∧
    (urgent = true → 100 * r.surcharged ≤ r.raw * plan.urgentPercent + 50 ∧
      r.raw * plan.urgentPercent + 50 < 100 * r.surcharged + 100) ∧
    (n < plan.allowance → r.free = true ∧ r.charge = 0 ∧ r.discount = 0 ∧ r.offPeak = 0) ∧
    (plan.allowance ≤ n →
      let within := (o.offPeakStart < o.offPeakEnd ∧ o.offPeakStart ≤ minute ∧ minute < o.offPeakEnd) ∨
        (o.offPeakEnd < o.offPeakStart ∧ (o.offPeakStart ≤ minute ∨ minute < o.offPeakEnd))
      r.free = false ∧
      (plan.t2 ≤ n → r.discount = plan.d2) ∧ (n < plan.t2 → plan.t1 ≤ n → r.discount = plan.d1) ∧
      (n < plan.t2 → n < plan.t1 → r.discount = 0) ∧
      (within → r.offPeak = plan.offPeakPercent) ∧ (¬ within → r.offPeak = 0) ∧
      let discounted := r.surcharged * (100 - r.discount) * (100 - r.offPeak) / 10000
      (plan.cap = 0 ∨ discounted ≤ plan.cap → r.charge = discounted) ∧
      (plan.cap ≠ 0 → plan.cap < discounted → r.charge = plan.cap)) ∧
    (plan.base ≤ 65535 → plan.perBlock ≤ 4095 → 100 ≤ plan.urgentPercent → plan.urgentPercent ≤ 400 → length ≤ 200 →
      (kind = .numeric → length ≤ 40) → r.charge ≤ 1359600)

/-- The low-balance flag after a balance event (R49, R50), judged with the subscriber's plan as it stands: a clear flag is
set below the warning level, a set flag is cleared at the level plus the margin, and a change hands one BALANCE ALERT, after
which the direction is the flag. Nothing else of any subscriber changes. -/
def Obligations.LowBalanceFlagJudged : Prop :=
  ∀ (s : State) (p : Producer) (n : Nat) (e : BalanceEvent), s.Tidy →
    let b := (s.sub n).billing
    let plan := s.account.plans.get b.plan
    let t := s.judgeLow p n e
    let flag (v : Bool) : Prop := t.sub n = { s.sub n with billing := { b with lowBalance := v } }
    (∀ k, k ≠ n → t.sub k = s.sub k) ∧
    (b.lowBalance = false → plan.warningLevel ≤ b.balance → flag false ∧ t.ex = s.ex) ∧
    (b.lowBalance = true → b.balance < plan.warningLevel + plan.recoveryMargin → flag true ∧ t.ex = s.ex) ∧
    (b.lowBalance = false → b.balance < plan.warningLevel → flag true ∧
      t.ex = (s.hand p [0x04, word n, 1, wordInt b.balance, wordInt plan.warningLevel, word plan.recoveryMargin,
        word b.plan.val, e.code]).ex) ∧
    (b.lowBalance = true → plan.warningLevel + plan.recoveryMargin ≤ b.balance → flag false ∧
      t.ex = (s.hand p [0x04, word n, 0, wordInt b.balance, wordInt plan.warningLevel, word plan.recoveryMargin,
        word b.plan.val, e.code]).ex) ∧
    t = { s with account := { s.account with subscribers := t.account.subscribers }, ex := t.ex }

/-! ## Subscriber orders -/

/-- PROVISION (R22 to R24, R186): the first field out of range is answered MALFORMED; a subscriber not VACANT is refused IN
USE; a VACANT one becomes ACTIVE with the six fields, balance 0, a clear flag, zero counters and the office period, and the
answer gives its radio address and period. Which field is the first found, where several are out of range, is the model's
choice: log entry 35. -/
def Obligations.SubscriberProvisioned : Prop :=
  ∀ (s : State) (n : Nat) (p : Posting), s.InHand n p 0x10 →
    let m := p.subscriber
    let ok (k : Nat) : Prop := match k with
      | 2 => (p.param 2).toNat ≤ 7
      | 3 => (p.param 3).toNat ≤ 15
      | 4 => (p.param 4).toNat ≤ 31
      | 5 => p.param 5 ≠ 0 ∧ (p.param 5).toNat ≤ 15
      | 6 => p.param 6 ≠ 0xFFFFFFFF
      | _ => (p.param 7).toNat ≤ 2147483647
    (∀ k, 2 ≤ k → k ≤ 7 → (∀ j, 2 ≤ j → j < k → ok j) → ¬ ok k →
      ∃ t, exec .provision s = .next t ∧ Answered s t n 0x10 .malformed [word m, word k] ∧ t = { s with ex := t.ex }) ∧
    ((∀ k, 2 ≤ k → k ≤ 7 → ok k) →
      ((s.sub m).billing.state ≠ .vacant →
        ∃ t, exec .provision s = .next t ∧
          Answered s t n 0x10 .inUse [word m, (s.sub m).billing.state.code] ∧ t = { s with ex := t.ex }) ∧
      ((s.sub m).billing.state = .vacant →
        ∃ t, exec .provision s = .next t ∧
          t.sub m = { s.sub m with
            billing :=
              { state := .active
                serviceClass := Fin.ofNat 8 (p.param 2).toNat
                plan := Fin.ofNat 16 (p.param 3).toNat
                slot := Fin.ofNat 32 (p.param 4).toNat
                homeZones := (p.param 5).setWidth 4
                notifyMoves := decide (p.param 6 ≠ 0)
                balance := 0
                creditLimit := (p.param 7).toNat
                lowBalance := false
                period := s.account.period
                counters := ⟨0, 0, 0, 0, 0⟩ } } ∧
          (∀ k, k ≠ m → t.sub k = s.sub k) ∧
          Answered s t n 0x10 .accepted
            [word m, word (s.engine.office.code.val * 65536 + m), word s.account.period] ∧
          t = { s with account := { s.account with subscribers := t.account.subscribers }, ex := t.ex }))

/-- AMEND (R25 to R28): the first field given out of range is MALFORMED; then UNKNOWN SUBSCRIBER; then OPEN MESSAGES for a
changed class with messages open. An accepted AMEND rolls a stale record, writes each field given, and in the same step
moves the subscriber's WAITING messages, and only those, to the list of a changed slot by their keys. Which field is the
first found, where several are out of range, is the model's choice: log entry 35. -/
def Obligations.SubscriberAmended : Prop :=
  ∀ (s : State) (n : Nat) (p : Posting), s.InHand n p 0x11 →
    let m := p.subscriber
    let u := s.sub m
    let b := u.billing
    let given (k : Nat) : Prop := p.param k ≠ 0xFFFFFFFF
    let ok (k : Nat) : Prop := match k with
      | 2 => given 2 → (p.param 2).toNat ≤ 7
      | 3 => given 3 → (p.param 3).toNat ≤ 15
      | 4 => given 4 → (p.param 4).toNat ≤ 31
      | 5 => given 5 → p.param 5 ≠ 0 ∧ (p.param 5).toNat ≤ 15
      | 6 => True
      | _ => given 7 → (p.param 7).toNat ≤ 2147483647
    let refused (code : AnswerCode) (data : List Word) : Prop :=
      ∃ t, exec .amend s = .next t ∧ Answered s t n 0x11 code data ∧ t = { s with ex := t.ex }
    let newClass : Fin 8 := if p.param 2 = 0xFFFFFFFF then b.serviceClass else Fin.ofNat 8 (p.param 2).toNat
    let newSlot : Fin 32 := if p.param 4 = 0xFFFFFFFF then b.slot else Fin.ofNat 32 (p.param 4).toNat
    let stale := decide (b.period ≠ s.account.period)
    let after : Billing :=
      { b with
        serviceClass := newClass
        plan := if p.param 3 = 0xFFFFFFFF then b.plan else Fin.ofNat 16 (p.param 3).toNat
        slot := newSlot
        homeZones := if p.param 5 = 0xFFFFFFFF then b.homeZones else (p.param 5).setWidth 4
        notifyMoves := if p.param 6 = 0xFFFFFFFF then b.notifyMoves else decide (p.param 6 ≠ 0)
        creditLimit := if p.param 7 = 0xFFFFFFFF then b.creditLimit else (p.param 7).toNat
        period := s.account.period
        counters := if stale then ⟨0, 0, 0, 0, 0⟩ else b.counters }
    let moved := s.msgsWhere fun r => decide (r.subscriber = m ∧ r.state = .waiting)
    (∀ k, 2 ≤ k → k ≤ 7 → (∀ j, 2 ≤ j → j < k → ok j) → ¬ ok k → refused .malformed [word m, word k]) ∧
    ((∀ k, 2 ≤ k → k ≤ 7 → ok k) →
      (b.state = .vacant → refused .unknownSubscriber [word m, 0]) ∧
      (b.state ≠ .vacant → newClass ≠ b.serviceClass → 0 < u.store.openCount →
        refused .openMessages [word m, b.state.code]) ∧
      (b.state ≠ .vacant → (newClass = b.serviceClass ∨ u.store.openCount = 0) →
        ∃ t, exec .amend s = .next t ∧ t.sub m = { u with billing := after } ∧ (∀ k, k ≠ m → t.sub k = s.sub k) ∧
          (∀ i, t.msg i = s.msg i) ∧
          (∀ f : Fin 32, t.store.lists.get f =
            if newSlot = b.slot then s.store.lists.get f
            else if f = b.slot then (s.store.lists.get f).filter fun i => decide (i ∉ moved)
            else if f = newSlot then
              moved.foldl (fun l i => insertByKey (fun j => (s.msg j).key) i l) (s.store.lists.get f)
            else s.store.lists.get f) ∧
          Answered (s.handAll .intake (if stale then [recordPeriodSummary m b .intake] else [])) t n 0x11 .accepted
            [word after.plan.val, word newClass.val, word newSlot.val, wordZones after.homeZones,
              word after.creditLimit, wordFlag after.notifyMoves] ∧
          t = { s with
            account := { s.account with subscribers := t.account.subscribers }
            store := { s.store with lists := t.store.lists }
            ex := t.ex }))

/-- BAR and UNBAR (R29): VACANT is refused UNKNOWN SUBSCRIBER; otherwise the state becomes BARRED or ACTIVE, the answer
carries it and whether it changed, no record is handed, no period is rolled, and no other field changes. -/
def Obligations.SubscriberBarredAndUnbarred : Prop :=
  ∀ (s : State) (n : Nat) (p : Posting) (code : Nat) (c : Instr) (to_ : SubscriberState),
    ((c = .bar ∧ code = 0x13 ∧ to_ = .barred) ∨ (c = .unbar ∧ code = 0x14 ∧ to_ = .active)) →
    s.InHand n p code →
    let m := p.subscriber
    let b := (s.sub m).billing
    (b.state = .vacant → ∃ t, exec c s = .next t ∧
      Answered s t n (word code) .unknownSubscriber [word m, 0] ∧ t = { s with ex := t.ex }) ∧
    (b.state ≠ .vacant → ∃ t, exec c s = .next t ∧
      t.sub m = { s.sub m with billing := { b with state := to_ } } ∧ (∀ k, k ≠ m → t.sub k = s.sub k) ∧
      Answered s t n (word code) .accepted [to_.code, if b.state = to_ then 0 else 1] ∧
      t = { s with account := { s.account with subscribers := t.account.subscribers }, ex := t.ex })

/-- RETIRE (R20, R30): VACANT is refused UNKNOWN SUBSCRIBER and open messages refuse it OPEN MESSAGES; otherwise a PERIOD
SUMMARY marked FINAL is handed with the record's own period, without a roll, every field of the three groups takes its
power-on value, and the answer carries the balance. -/
def Obligations.SubscriberRetired : Prop :=
  ∀ (s : State) (n : Nat) (p : Posting), s.InHand n p 0x16 →
    let m := p.subscriber
    let u := s.sub m
    let b := u.billing
    let refused (code : AnswerCode) : Prop :=
      ∃ t, exec .retire s = .next t ∧ Answered s t n 0x16 code [word m, b.state.code] ∧ t = { s with ex := t.ex }
    (b.state = .vacant → refused .unknownSubscriber) ∧
    (b.state ≠ .vacant → 0 < u.store.openCount → refused .openMessages) ∧
    (b.state ≠ .vacant → u.store.openCount = 0 → ∃ t, exec .retire s = .next t ∧
      t.sub m = Subscriber.powerOn ∧ (∀ k, k ≠ m → t.sub k = s.sub k) ∧
      Answered
        (s.hand .intake [0x05, word m, word b.period, word b.counters.messages, word b.counters.textBlocks,
          word b.counters.charges, word b.counters.refunds, wordInt b.counters.credits, wordInt b.balance,
          wordFlag b.lowBalance, word b.plan.val, 2])
        t n 0x16 .accepted [wordInt b.balance] ∧
      t = { s with account := { s.account with subscribers := t.account.subscribers }, ex := t.ex })

/-- QUERY SUBSCRIBER, QUERY MESSAGE, QUERY LINK, QUERY RECEIVER and an unknown posting code (R31, R84, R112, R134, R154,
R186): each answers with the words tabled and changes nothing else. QUERY SUBSCRIBER copies the billing group, then the
store group, then the reach group, each as it stands at its own turn, and answers with the last; that each turn is one
taking of the command is the model's choice (log entry 8). In QUERY LINK's answer the later count of an absent report
reads FFh (log entry 18), and the words are the 36 that R186 tables, with none for the item 'previous frame carried', and
zeros behind them (log entry 37): both the model's reading. -/
def Obligations.QueriesAnswerWithoutChange : Prop :=
  ∀ (s : State) (n : Nat) (p : Posting) (k : Nat), s.InHand n p k →
    let told (c : Instr) (code : AnswerCode) (data : List Word) : Prop :=
      ∃ t, exec c s = .next t ∧ Answered s t n (Posting.code p) code data ∧ t = { s with ex := t.ex }
    (k = 0x17 →
      let m := p.subscriber
      let u := s.sub m
      let v := u.reach
      let copying (c : QueryCopy) : State := { s with ex := { s.ex with progress := .copied c } }
      ((∀ c, s.ex.progress ≠ .copied c) → exec .querySubscriber s = .next (copying ⟨u.billing, none⟩)) ∧
      (∀ b, s.ex.progress = .copied ⟨b, none⟩ → exec .querySubscriber s = .next (copying ⟨b, some u.store⟩)) ∧
      (∀ b g, s.ex.progress = .copied ⟨b, some g⟩ → told .querySubscriber .accepted
          [word m, word (s.engine.office.code.val * 65536 + m), b.state.code, word b.serviceClass.val, word b.plan.val,
            word b.slot.val, wordZones b.homeZones, wordFlag b.notifyMoves, wordInt b.balance, word b.creditLimit,
            wordFlag b.lowBalance, word b.period, word b.counters.messages, word b.counters.textBlocks,
            word b.counters.charges, word b.counters.refunds, wordInt b.counters.credits, word g.openCount,
            wordTags g.tags, word v.missCount, wordFlag v.unreachable, wordZone v.heardZone, word v.heardCycle,
            wordZone v.candidateZone, word v.candidateCount])) ∧
    (k = 0x21 →
      let w := p.param 1
      let i := w.toNat % 16384
      let r := s.msg i
      (0x400000 ≤ w.toNat → told .queryMessage .malformed [w, 1]) ∧
      (w.toNat < 0x400000 → r.state = .free → told .queryMessage .noSuchMessage [w, 0]) ∧
      (w.toNat < 0x400000 → r.state ≠ .free → r.generation.toNat ≠ w.toNat / 16384 →
        told .queryMessage .noSuchMessage [w, 1]) ∧
      (w.toNat < 0x400000 → r.state ≠ .free → r.generation.toNat = w.toNat / 16384 →
        told .queryMessage .accepted
          [w, r.state.code, r.generation.setWidth 32, word r.subscriber, r.kind.code, wordFlag r.urgent,
            word r.text.length, word r.blocks, r.sequence, r.hostTag, word r.charge, wordFlag r.refundable,
            (match r.tag with | some g => word g.val | none => 0xFF), word r.attempts, word r.eligible, word r.expiry,
            wordSerial r.placedSerial, wordZones r.placedZones, wordZones r.airedZones, wordSerial r.deadline,
            wordFlag r.cancelPending, wordFlag r.ackedPending])) ∧
    (k = 0x65 →
      let l : Index8 := Fin.ofNat 8 (p.param 1).toNat
      let c := s.link l
      let caught (f : Capture → Word) : Word := match c.capture with | some x => f x | none => 0xFFFFFFFF
      told .queryLink .accepted
        [word l.val, c.state.code, c.state.code, wordFlag c.keyOffPending, wordZone c.settings.zone, c.settings.skip.code,
          word c.settings.blankingCount, word c.settings.tripCount, word c.settings.recoveryFrames,
          word c.settings.latchLimit, word c.settings.cadence, word c.skipCounter, word c.blanking,
          wordFlag c.statusTaken, wordObservation c.lastObservation, wordFlag c.alert, word c.faultRun, word c.clearRun,
          word c.latchCounter, word c.cleanRun, caught fun x => word x.serial, caught fun x => word x.position,
          caught fun x => x.kind.code, caught fun x => x.alarms.setWidth 32,
          wordFlag c.trip.isSome, (match c.trip with | some x => word x.later | none => 0xFF),
          wordFlag c.recovery.isSome, (match c.recovery with | some x => word x.later | none => 0xFF), word c.divider,
          word c.clearCount, word c.alarmCount, word c.silentCount, word c.blankedCount, word c.dropped,
          wordFlag c.keyed, word s.air.serial]) ∧
    (k = 0x66 →
      let l : Index8 := Fin.ofNat 8 (p.param 1).toNat
      let v := s.receiver l
      told .queryReceiver .accepted
        [word l.val, word v.zone.val, wordFlag v.enabled, word v.accepted, word v.badCheck, word v.disabled,
          word v.foreign, word v.queueFull, word s.tracker.reverse.length, word s.tracker.deadlines.length,
          word s.air.serial]) ∧
    (k ∉ [0x01, 0x10, 0x11, 0x12, 0x13, 0x14, 0x15, 0x16, 0x17, 0x20, 0x21, 0x30, 0x31, 0x40, 0x41, 0x42, 0x43, 0x50,
        0x51, 0x52, 0x60, 0x61, 0x62, 0x63, 0x64, 0x65, 0x66] →
      told .unknownOrder .unknownOrder [Posting.code p])

/-- CREDIT (R49 to R52, R58): VACANT is refused UNKNOWN SUBSCRIBER; otherwise a stale record is rolled, the sum clamped into
the signed 32-bit range becomes the balance, the applied amount moves the credits counter with the same clamp, the flag is
judged, and PERIOD SUMMARY, CREDIT and BALANCE ALERT are handed in that order. -/
def Obligations.CreditApplied : Prop :=
  ∀ (s : State) (n : Nat) (p : Posting), s.InHand n p 0x12 →
    let m := p.subscriber
    let u := s.sub m
    let b := u.billing
    let stale := decide (b.period ≠ s.account.period)
    let amount := (p.param 2).toInt
    let clamped (v : Int) : Int := if v < -2147483648 then -2147483648 else if 2147483647 < v then 2147483647 else v
    let balance := clamped (b.balance + amount)
    let applied := balance - b.balance
    let counters : Counters := if stale then ⟨0, 0, 0, 0, 0⟩ else b.counters
    let low := lowBalanceAfter (s.planOf m) b.lowBalance balance
    (b.state = .vacant → ∃ t, exec .credit s = .next t ∧
      Answered s t n 0x12 .unknownSubscriber [word m, 0] ∧ t = { s with ex := t.ex }) ∧
    (b.state ≠ .vacant → ∃ t, exec .credit s = .next t ∧
      t.sub m = { u with
        billing := { b with
          balance := balance
          lowBalance := low
          period := s.account.period
          counters := { counters with credits := clamped (counters.credits + applied) } } } ∧
      (∀ k, k ≠ m → t.sub k = s.sub k) ∧
      Answered
        (s.handAll .intake
          ((if stale then [recordPeriodSummary m b .intake] else []) ++
            [[0x03, word m, word s.account.period, wordInt amount, wordInt applied, wordInt balance]] ++
            (if low = b.lowBalance then [] else
              [recordBalanceAlert m low balance (s.planOf m).warningLevel (s.planOf m).recoveryMargin b.plan .credit])))
        t n 0x12 .accepted [wordInt amount, wordInt applied, wordInt balance] ∧
      t = { s with account := { s.account with subscribers := t.account.subscribers }, ex := t.ex })

/-! ## Plans, periods, messages and releases -/

/-- SET PLAN (R37, R186): a plan number above 15 is refused MALFORMED and no plan changes; otherwise each value is fitted to
its range and T1 to T2, the one plan is written, and the answer is ADJUSTED exactly where a value was replaced. -/
def Obligations.PlanFittedAndSet : Prop :=
  ∀ (s : State) (n : Nat) (p : Posting), s.InHand n p 0x31 →
    let v (k : Nat) : Nat := (p.param k).toNat
    let t2 := min 65535 (v 7)
    let q : RatePlan :=
      { base := min 65535 (v 2)
        perBlock := min 4095 (v 3)
        urgentPercent := if v 4 < 100 then 100 else min 400 (v 4)
        allowance := min 65535 (v 5)
        t1 := min (v 6) t2
        t2 := t2
        d1 := min 90 (v 8)
        d2 := min 90 (v 9)
        offPeakPercent := min 90 (v 10)
        cap := min 65535 (v 11)
        warningLevel := (p.param 12).toInt
        recoveryMargin := min 65535 (v 13)
        refundable := decide (v 14 ≠ 0) }
    let written : List Word :=
      [p.param 1, word q.base, word q.perBlock, word q.urgentPercent, word q.allowance, word q.t1, word q.t2, word q.d1,
        word q.d2, word q.offPeakPercent, word q.cap, p.param 12, word q.recoveryMargin, wordFlag q.refundable]
    let carried : List Word := (List.range 14).map fun k => p.param (k + 1)
    (16 ≤ v 1 → ∃ t, exec .setPlan s = .next t ∧ Answered s t n 0x31 .malformed [0, 1] ∧ t = { s with ex := t.ex }) ∧
    (∀ h : v 1 < 16, ∃ t, exec .setPlan s = .next t ∧ t.account.plans = s.account.plans.set (v 1) q h ∧
      Answered s t n 0x31 (if written = carried then .accepted else .adjusted) written ∧
      t = { s with account := { s.account with plans := t.account.plans }, ex := t.ex })

/-- PERIOD CLOSE (R59, R60, R62): refused ROLL BUSY while a walk is in flight; otherwise the office period advances modulo
65536, a walk starts at subscriber 0 with count 0 and asks its reservation, and the answer gives the new period. -/
def Obligations.PeriodClosedOrBusy : Prop :=
  ∀ (s : State) (n : Nat) (p : Posting), s.InHand n p 0x30 → s.ex.GuardLaw →
    let period := (s.account.period + 1) % 65536
    (s.account.walk.inFlight = true → ∃ t, exec .periodClose s = .next t ∧
      Answered s t n 0x30 .rollBusy [word s.account.period, word s.account.walk.next] ∧ t = { s with ex := t.ex }) ∧
    (s.account.walk.inFlight = false → ∃ t, exec .periodClose s = .next t ∧
      t.account = { s.account with period := period, walk := ⟨true, 0, 0⟩ } ∧
      (t.ex.writer.holds .rollWalk = true ∨ .rollWalk ∈ t.ex.writer.waiting) ∧
      Answered s t n 0x30 .accepted [word period] ∧ t = { s with account := t.account, ex := t.ex })

/-- A close (R53, R54, R107): the record is FREE with its contents kept and leaves the frame list or the deadline list its
state put it in; the open count falls, the tag is returned, the count of FREE records rises; OUTCOME is handed, and a close
UNDELIVERED, EXPIRED or CANCELLED of a refundable record with a charge raises the balance and the refunds counter, judges
the flag, and hands REFUND and, where the flag changed, BALANCE ALERT. -/
def Obligations.CloseFreesRecord : Prop :=
  ∀ (s : State) (p : Producer) (i : Nat) (o : CloseOutcome), s.Tidy → s.ex.writer.PageLaw →
    let r := s.msg i
    let n := r.subscriber
    let u := s.sub n
    let b := u.billing
    let plan := s.account.plans.get b.plan
    let refund := decide ((o = .undelivered ∨ o = .expired ∨ o = .cancelled) ∧ r.refundable = true ∧ 0 < r.charge)
    let balance : Int := if refund then min 2147483647 (b.balance + r.charge) else b.balance
    let low := if refund then lowBalanceAfter plan b.lowBalance balance else b.lowBalance
    let refunds := if refund then min 4294967295 (b.counters.refunds + r.charge) else b.counters.refunds
    let t := s.close p i o
    t.msg i = { r with state := .free, deadline := none, cancelPending := false, ackedPending := false } ∧
    (∀ j, j ≠ i → t.msg j = s.msg j) ∧
    t.store.freeCount = s.store.freeCount + 1 ∧
    (∀ f : Fin 32, t.store.lists.get f =
      if r.state = .waiting ∧ f = b.slot then (s.store.lists.get f).filter fun j => decide (j ≠ i)
      else s.store.lists.get f) ∧
    t.tracker.deadlines =
      (if r.state = .awaitingAck then s.tracker.deadlines.filter fun e => decide (e.record ≠ i) else s.tracker.deadlines) ∧
    t.sub n =
      ⟨{ b with balance := balance, lowBalance := low, counters := { b.counters with refunds := refunds } },
        ⟨u.store.openCount - 1, match r.tag with | some g => u.store.tags &&& ~~~(1#8 <<< g.val) | none => u.store.tags⟩,
        u.reach⟩ ∧
    (∀ k, k ≠ n → t.sub k = s.sub k) ∧
    t.ex = ((s.notice .freeRecords).handAll p
      ([[0x07, handleWord r.generation i, r.hostTag, word n, o.code, word r.attempts, word s.air.serial,
          wordZones r.airedZones]] ++
        (if refund then [[0x02, handleWord r.generation i, r.hostTag, word n, o.code, word r.charge, wordInt balance,
          word b.period]] else []) ++
        (if low = b.lowBalance then [] else
          [recordBalanceAlert n low balance plan.warningLevel plan.recoveryMargin b.plan .refund]))).ex ∧
    t = { s with
      account := { s.account with subscribers := t.account.subscribers }
      store := { s.store with records := t.store.records, lists := t.store.lists, freeCount := t.store.freeCount }
      tracker := { s.tracker with deadlines := t.tracker.deadlines }
      ex := t.ex }

/-- CANCEL (R92, R100, R110), by the handle and the record's state: a handle with bits 31:22 set is MALFORMED and a stale
one is NO SUCH MESSAGE; a WAITING, HELD or AWAITING ACK record is closed CANCELLED and answered ACCEPTED with its attempts
and refund; a PLACED or ON AIR record is DEFERRED with cancel-pending set, or refused CLOSING where acked-pending is set.
-/
def Obligations.CancelByState : Prop :=
  ∀ (s : State) (n : Nat) (p : Posting), s.InHand n p 0x20 →
    let w := p.param 1
    let i := w.toNat % 16384
    let r := s.msg i
    let found : List Word := [w, r.state.code, wordFlag r.cancelPending, wordFlag r.ackedPending]
    let refused (code : AnswerCode) (data : List Word) : Prop :=
      ∃ t, exec .cancel s = .next t ∧ Answered s t n 0x20 code data ∧ t = { s with ex := t.ex }
    (0x400000 ≤ w.toNat → refused .malformed [w, 1]) ∧
    (w.toNat < 0x400000 → r.state = .free → refused .noSuchMessage [w, 0]) ∧
    (w.toNat < 0x400000 → r.state ≠ .free → r.generation.toNat ≠ w.toNat / 16384 → refused .noSuchMessage [w, 1]) ∧
    (w.toNat < 0x400000 → r.generation.toNat = w.toNat / 16384 →
      (r.state = .waiting ∨ r.state = .held ∨ r.state = .awaitingAck →
        ∃ t, exec .cancel s = .next t ∧
          Answered (s.close .intake i .cancelled) t n 0x20 .accepted
            (found ++ [word r.attempts, word (if r.refundable then r.charge else 0)]) ∧
          t = { s.close .intake i .cancelled with ex := t.ex }) ∧
      (r.state = .placed ∨ r.state = .onAir →
        (r.ackedPending = true → refused .closing found) ∧
        (r.ackedPending = false → ∃ t, exec .cancel s = .next t ∧ t.msg i = { r with cancelPending := true } ∧
          (∀ j, j ≠ i → t.msg j = s.msg j) ∧ Answered s t n 0x20 .deferred found ∧
          t = { s with store := { s.store with records := t.store.records }, ex := t.ex })))

/-- RELEASE (R103, R165): VACANT is refused UNKNOWN SUBSCRIBER and a reachable subscriber is answered without a change; an
unreachable one is released: flag clear, miss count 0, and every HELD record of it, and no other record, WAITING with
attempts 0 and eligible cycle 0 in the list of its present slot by its key. No record is handed. -/
def Obligations.SubscriberReleased : Prop :=
  ∀ (s : State) (n : Nat) (p : Posting), s.InHand n p 0x15 →
    let m := p.subscriber
    let u := s.sub m
    let held := s.msgsWhere fun r => decide (r.subscriber = m ∧ r.state = .held)
    (u.billing.state = .vacant → ∃ t, exec .release s = .next t ∧
      Answered s t n 0x15 .unknownSubscriber [word m, 0] ∧ t = { s with ex := t.ex }) ∧
    (u.billing.state ≠ .vacant → u.reach.unreachable = false → ∃ t, exec .release s = .next t ∧
      Answered s t n 0x15 .accepted [word m, 0, 0] ∧ t = { s with ex := t.ex }) ∧
    (u.billing.state ≠ .vacant → u.reach.unreachable = true → ∃ t, exec .release s = .next t ∧
      t.sub m = { u with reach := { u.reach with unreachable := false, missCount := 0 } } ∧
      (∀ k, k ≠ m → t.sub k = s.sub k) ∧
      (∀ i, t.msg i = if (s.msg i).subscriber = m ∧ (s.msg i).state = .held then
          { s.msg i with
            state := .waiting, attempts := 0, eligible := 0, deadline := none, cancelPending := false, ackedPending := false }
        else s.msg i) ∧
      (∀ f : Fin 32, t.store.lists.get f =
        if f = u.billing.slot then held.foldl (fun l i => insertByKey (fun j => (s.msg j).key) i l) (s.store.lists.get f)
        else s.store.lists.get f) ∧
      Answered s t n 0x15 .accepted [word m, 1, word held.length] ∧
      t = { s with
        account := { s.account with subscribers := t.account.subscribers }
        store := { s.store with records := t.store.records, lists := t.store.lists }
        ex := t.ex })

/-! ## Clock, settings, air and link orders -/

/-- CLOCK SET (R3): both parts of the office clock are replaced, a second of day above 86399 by 86399 with ADJUSTED, and the
mirror is to be rewritten; serial, pair phase and monitor stand. -/
def Obligations.ClockSet : Prop :=
  ∀ (s : State) (n : Nat) (p : Posting), s.InHand n p 0x50 →
    let day := (p.param 1).toNat % 65536
    let second := if (p.param 2).toNat ≤ 86399 then (p.param 2).toNat else 86399
    ∃ t, exec .clockSet s = .next t ∧ t.air = { s.air with day := day, second := second } ∧
      .officeClock ∈ t.ex.notices ∧
      Answered s t n 0x50 (if (p.param 2).toNat ≤ 86399 then .accepted else .adjusted) [word day, word second] ∧
      t = { s with air := t.air, ex := t.ex }

/-- SET OFFICE and SET CLASS (R93, R180, R181): refused NOT IN SETUP outside SETUP; in SETUP every value is fitted as
tabled, all are written in one step, and the answer is ADJUSTED exactly where a value was replaced. That SET CLASS's answer
begins with the class number is the model's choice: log entry 18. -/
def Obligations.OfficeAndClassFitted : Prop :=
  ∀ (s : State) (n : Nat) (p : Posting) (code : Nat), s.InHand n p code →
    let v (k : Nat) : Nat := (p.param k).toNat
    let byte (k : Nat) : Nat := v k % 256
    let one (limit k : Nat) : Nat := if k = 0 then 1 else min limit k
    let refused (c : Instr) : Prop := ∃ t, exec c s = .next t ∧
      Answered s t n (word code) .notInSetup [s.engine.state.code] ∧ t = { s with ex := t.ex }
    let settled (c : Instr) (e : Engine) (carried written : List Word) : Prop := ∃ t, exec c s = .next t ∧
      Answered s t n (word code) (if carried = written then .accepted else .adjusted) written ∧
      t = { s with engine := e, ex := t.ex }
    (code = 0x40 →
      (s.engine.state ≠ .setup → refused .setOffice) ∧
      (s.engine.state = .setup → ∃ latch : Nat, latch ≤ v 3 ∧
        latch ∈ [0, 2, 3, 4, 6, 8, 12, 16] ∧ (∀ a, a ∈ [0, 2, 3, 4, 6, 8, 12, 16] → a ≤ v 3 → a ≤ latch) ∧
        settled .setOffice
          { s.engine with office :=
            { code := if h : v 1 < 64 then ⟨v 1, h⟩ else 63
              holdoverLimit := byte 2
              missLatchLimit := latch
              locationConfirm := one 7 (v 4)
              freshnessLimit := one 255 (byte 5)
              flushInterval := one 30 (v 6)
              offPeakStart := min 1439 (v 7)
              offPeakEnd := min 1439 (v 8)
              weightHostWindow := one 8 (v 9)
              weightIntake := one 8 (v 10)
              weightFrameBuilder := one 8 (v 11)
              weightTracker := one 8 (v 12)
              weightRollWalk := one 8 (v 13)
              weightReportWriter := one 8 (v 14) } }
          ([p.param 1, word (byte 2), p.param 3, p.param 4, word (byte 5)] ++ p.params 6 14)
          ([min 63 (v 1), byte 2, latch, one 7 (v 4), one 255 (byte 5), one 30 (v 6), min 1439 (v 7), min 1439 (v 8),
            one 8 (v 9), one 8 (v 10), one 8 (v 11), one 8 (v 12), one 8 (v 13), one 8 (v 14)].map word))) ∧
    (code = 0x41 →
      (s.engine.state ≠ .setup → refused .setClass) ∧
      (s.engine.state = .setup →
        let cls : ServiceClass :=
          { twoWay := decide (v 2 ≠ 0)
            alphaAllowed := decide (v 3 ≠ 0)
            repeatCount := one 4 (v 4)
            retryLimit := one 15 (v 5)
            ackWindow := if v 6 < 2 then 2 else min 31 (v 6)
            backoffCap := min 15 (v 7)
            lifetime := one 255 (byte 8) }
        settled .setClass { s.engine with classes := s.engine.classes.set (v 1 % 8) cls (Nat.mod_lt _ (by decide)) }
          (word (v 1 % 8) :: p.params 2 7 ++ [word (byte 8)])
          [word (v 1 % 8), wordFlag (decide (v 2 ≠ 0)), wordFlag (decide (v 3 ≠ 0)), word (one 4 (v 4)),
            word (one 15 (v 5)), word (if v 6 < 2 then 2 else min 31 (v 6)), word (min 15 (v 7)),
            word (one 255 (byte 8))]))

/-- SET LINK and SET RECEIVER (R93, R131, R151): refused NOT IN SETUP outside SETUP; in SETUP every value is fitted as
tabled and written in one step, with the skip counter, blanking remaining, fault run, clear run and cadence divider of the
link 0, or the counters of the receiver left; the answer is ADJUSTED exactly where a value was replaced. That the answers
begin with the link or receiver number is the model's choice: log entry 18. -/
def Obligations.LinkAndReceiverFitted : Prop :=
  ∀ (s : State) (n : Nat) (p : Posting) (code : Nat), s.InHand n p code →
    let v (k : Nat) : Nat := (p.param k).toNat
    let l : Index8 := ⟨v 1 % 8, by omega⟩
    let refused (c : Instr) : Prop := ∃ t, exec c s = .next t ∧
      Answered s t n (word code) .notInSetup [s.engine.state.code] ∧ t = { s with ex := t.ex }
    (code = 0x42 →
      (s.engine.state ≠ .setup → refused .setLink) ∧
      (s.engine.state = .setup → ∃ latch : Nat, latch ≤ v 7 ∧
        latch ∈ [0, 2, 4, 8, 16, 32] ∧ (∀ a, a ∈ [0, 2, 4, 8, 16, 32] → a ≤ v 7 → a ≤ latch) ∧
        let zone : Option Zone := if h : v 2 < 4 then some ⟨v 2, h⟩ else none
        let skip : Skip := if v 3 = 5 then .oneIn5 else if v 3 = 6 then .oneIn6 else if v 3 = 7 then .oneIn7 else .none
        let blanking := min 15 (v 4)
        let trips := if v 5 = 0 then 1 else min 15 (v 5)
        let cadence := if v 8 = 0 then 1 else min 16 (v 8)
        let written : List Word := [word (v 1 % 8), wordZone zone, skip.code, word blanking, word trips,
          word (v 6 % 256), word latch, word cadence]
        let carried : List Word :=
          word (v 1 % 8) :: p.params 2 5 ++ [word (v 6 % 256), p.param 7, p.param 8]
        ∃ t, exec .setLink s = .next t ∧
          t.link l =
            { s.link l with
              settings := ⟨zone, skip, blanking, trips, v 6 % 256, latch, cadence⟩
              skipCounter := 0, blanking := 0, faultRun := 0, clearRun := 0, divider := 0 } ∧
          (∀ k, k ≠ l → t.link k = s.link k) ∧
          Answered s t n 0x42 (if carried = written then .accepted else .adjusted) written ∧
          t = { s with links := t.links, ex := t.ex })) ∧
    (code = 0x43 →
      (s.engine.state ≠ .setup → refused .setReceiver) ∧
      (s.engine.state = .setup →
        let zone : Zone := if h : v 2 < 4 then ⟨v 2, h⟩ else 3
        let written : List Word := [word (v 1 % 8), word zone.val, if v 3 = 0 then 0 else 1]
        ∃ t, exec .setReceiver s = .next t ∧
          t.receiver l = { s.receiver l with zone := zone, enabled := decide (v 3 ≠ 0) } ∧
          (∀ k, k ≠ l → t.receiver k = s.receiver k) ∧
          Answered s t n 0x43 (if [word (v 1 % 8), p.param 2, p.param 3] = written then .accepted else .adjusted)
            written ∧
          t = { s with tracker := { s.tracker with receivers := t.tracker.receivers }, ex := t.ex }))

/-- AIR START and AIR STOP (R178, R179): AIR START in SETUP clears the restart cause and enters STARTING, or RUNNING where
the monitor is LOCKED, and is refused NOT IN SETUP elsewhere; AIR STOP takes STARTING to SETUP and RUNNING to STOPPING and
is refused NOT RUNNING elsewhere. Each change sets the ENGINE bit; the answer gives the state after AIR START and the state
AIR STOP found, which for an AIR STOP taken in RUNNING is the model's choice: log entry 18. -/
def Obligations.AirStartAndStop : Prop :=
  ∀ (s : State) (n : Nat) (p : Posting) (code : Nat), s.InHand n p code →
    let bit : State := { s with ex := { s.ex with summary := { s.ex.summary with engine := true } } }
    let refused (c : Instr) (a : AnswerCode) : Prop := ∃ t, exec c s = .next t ∧
      Answered s t n (word code) a [s.engine.state.code] ∧ t = { s with ex := t.ex }
    let moved (c : Instr) (e : Engine) (data : EngineState) : Prop := ∃ t, exec c s = .next t ∧
      Answered bit t n (word code) .accepted [data.code] ∧ t = { s with engine := e, ex := t.ex }
    (code = 0x51 →
      (s.engine.state ≠ .setup → refused .airStart .notInSetup) ∧
      (s.engine.state = .setup → s.air.monitor.state = .locked →
        moved .airStart { s.engine with state := .running, cause := .none } .running) ∧
      (s.engine.state = .setup → s.air.monitor.state ≠ .locked →
        moved .airStart { s.engine with state := .starting, cause := .none } .starting)) ∧
    (code = 0x52 →
      (s.engine.state ≠ .starting → s.engine.state ≠ .running → refused .airStop .notRunning) ∧
      (s.engine.state = .starting → moved .airStop { s.engine with state := .setup } .starting) ∧
      (s.engine.state = .running → moved .airStop { s.engine with state := .stopping } .running))

/-- LINK ENABLE, LINK DISABLE, KEY OFF, KEY RESTORE and LINK RESTORE (R132 to R134): each acts on the one controller as
tabled, for every state of it, and answers with link, state before, state after and key-off pending; KEY OFF at frame
boundary while frames run is DEFERRED. Every other link stands. That OVERRIDE is entered from STANDBY or KEYED with the runs
and blanking remaining 0 is the model's choice: log entry 14. -/
def Obligations.LinkOrdersActOnController : Prop :=
  ∀ (s : State) (n : Nat) (p : Posting) (code : Nat), s.InHand n p code →
    let l : Index8 := ⟨(p.param 1).toNat % 8, by omega⟩
    let c := s.link l
    let done (i : Instr) (a : AnswerCode) (d : Link) : Prop := ∃ t, exec i s = .next t ∧
      t.link l = d ∧ (∀ k, k ≠ l → t.link k = s.link k) ∧
      Answered s t n (word code) a [word l.val, c.state.code, d.state.code, wordFlag d.keyOffPending] ∧
      t = { s with links := t.links, ex := t.ex }
    let standby : Link := { c with state := .standby, skipCounter := 0, cleanRun := 0 }
    let override : Link :=
      { c with
        state := .override, keyOffPending := false, keyed := false, faultRun := 0, clearRun := 0, cleanRun := 0
        blanking := 0 }
    let framed : Prop := s.engine.state = .running ∨ s.engine.state = .stopping
    (code = 0x60 →
      (c.state = .off → done .linkEnable .accepted standby) ∧
      (c.state ≠ .off → done .linkEnable .accepted c)) ∧
    (code = 0x61 →
      (c.state = .off → done .linkDisable .accepted c) ∧
      (c.state ≠ .off → done .linkDisable .accepted
        { c with
          state := .off, keyed := false, keyOffPending := false, statusTaken := false, blanking := 0, faultRun := 0
          clearRun := 0, cleanRun := 0, divider := 0, alert := false, lastObservation := none })) ∧
    (code = 0x62 →
      (c.state = .off ∨ c.state = .override → done .keyOff .accepted c) ∧
      (c.state ≠ .off → c.state ≠ .override →
        (p.param 2 ≠ 0 ∨ ¬ framed → done .keyOff .accepted override) ∧
        (p.param 2 = 0 → framed → done .keyOff .deferred { c with keyOffPending := true }))) ∧
    (code = 0x63 →
      (c.keyOffPending = true → done .keyRestore .accepted { c with keyOffPending := false }) ∧
      (c.keyOffPending = false → c.state = .override → done .keyRestore .accepted standby) ∧
      (c.keyOffPending = false → c.state ≠ .override → done .keyRestore .accepted c)) ∧
    (code = 0x64 →
      (c.state = .tripped ∨ c.state = .latched → done .linkRestore .accepted
        { standby with latchCounter := 0, faultRun := 0, clearRun := 0, blanking := 0 }) ∧
      (c.state ≠ .tripped → c.state ≠ .latched → done .linkRestore .accepted c))

/-! ## Report pages -/

/-- A record handed under a reservation (R169, R171, R172, R174): with a page FILLING, or the next page EMPTY, it is
written at the first free position, the next page opened first where none is FILLING, with its age count 0 and not due
(R173); one position of the producer's reservation is used; the page that then holds 63 records is closed by count with its
header, the sequence counter, the two mirrors' notices and PAGE CLOSED; and a page due by age closes where 63 times the run
covers the reserved total. A LINK STATUS record offered is appended in the same way, with no reservation used, where
unreserved room is above 0, and the link's counts and dropped count return to 0; with no unreserved room it is dropped and
counted (R144, R171, R187). That a page once due is still due, whatever the flush interval is by then, is the model's
choice: log entry 34. -/
def Obligations.HandAppendsRecord : Prop :=
  (∀ (s : State) (p : Producer) (r : Record), s.Tidy → s.ex.writer.PageLaw → r.length ≤ 16 →
    let w := s.ex.writer
    let page := w.filling.getD w.next
    let pos := (if w.filling.isSome then w.count else 0) + 1
    let due := w.filling.isSome && w.due
    let t := s.hand p r
    let v := t.ex.writer
    let closed (cause : Word) : Prop :=
      v.pages.get page = .filled ∧
      Memory.readWords t.ex.mem (0x21000 + page.val * 0x1000 + 4) 6 =
        [word pos, w.sequence, cause, word s.air.serial, word s.air.second, word s.air.day] ∧
      v.sequence = w.sequence + 1 ∧ v.lastIndex = page ∧ v.lastSequence = w.sequence ∧
      t.ex.summary.pageClosed = true ∧ .lastPageIndex ∈ t.ex.notices ∧ .lastPageSequence ∈ t.ex.notices
    let filling : Prop :=
      v.pages.get page = .filling ∧ v.count = pos ∧ v.sequence = w.sequence ∧
      v.age = (if w.filling.isSome then w.age else 0) ∧ v.due = due ∧
      t.ex.summary.pageClosed = s.ex.summary.pageClosed ∧
      Memory.readWord t.ex.mem (0x21000 + page.val * 0x1000 + 4) =
        if w.filling.isSome then Memory.readWord s.ex.mem (0x21000 + page.val * 0x1000 + 4) else 0
    (w.filling.isSome = true ∨ w.pages.get w.next = .empty) →
    Memory.readWords t.ex.mem (0x21000 + page.val * 0x1000 + pos * 0x40) 16 = r ++ List.replicate (16 - r.length) 0 ∧
    (pos = 63 → closed 0) ∧
    (pos < 63 → due = true → v.reserved ≤ 63 * v.run → closed 1) ∧
    (pos < 63 → (due = false ∨ 63 * v.run < v.reserved) → filling) ∧
    (∀ q, q ≠ page → v.pages.get q = w.pages.get q) ∧
    v.next = (if w.filling.isSome then w.next else w.next + 1) ∧
    (∀ q k, q ≠ p → ((q, k) ∈ v.held ↔ (q, k) ∈ w.held)) ∧ (∀ k, (p, k) ∈ w.held → (p, k - 1) ∈ v.held) ∧
    v.waiting = w.waiting ∧
    (∀ a, (a < 0x21000 + page.val * 0x1000 ∨ 0x21000 + page.val * 0x1000 + 28 ≤ a) →
      (a < 0x21000 + page.val * 0x1000 + pos * 0x40 ∨ 0x21000 + page.val * 0x1000 + pos * 0x40 + 64 ≤ a) →
      Memory.read t.ex.mem a = Memory.read s.ex.mem a) ∧
    t.ex.slots = s.ex.slots ∧ t.ex.queue = s.ex.queue ∧ t.ex.answered = s.ex.answered ∧ t.ex.fence = s.ex.fence ∧
    t.ex.buffer = s.ex.buffer ∧ t.ex.enable = s.ex.enable ∧ t.ex.intake = s.ex.intake ∧ t.ex.bus = s.ex.bus ∧
    t.ex.read = s.ex.read ∧ t.ex.progress = s.ex.progress ∧
    t = { s with ex := t.ex }) ∧
  (∀ (s : State) (l : Index8), s.Tidy → s.ex.writer.PageLaw →
    let w := s.ex.writer
    let c := s.link l
    let page := w.filling.getD w.next
    let pos := (if w.filling.isSome then w.count else 0) + 1
    let due := w.filling.isSome && w.due
    let t := s.offerStatus l
    let v := t.ex.writer
    let closed (cause : Word) : Prop :=
      v.pages.get page = .filled ∧
      Memory.readWords t.ex.mem (0x21000 + page.val * 0x1000 + 4) 6 =
        [word pos, w.sequence, cause, word s.air.serial, word s.air.second, word s.air.day] ∧
      v.sequence = w.sequence + 1 ∧ v.lastIndex = page ∧ v.lastSequence = w.sequence ∧
      t.ex.summary.pageClosed = true ∧ .lastPageIndex ∈ t.ex.notices ∧ .lastPageSequence ∈ t.ex.notices
    (∀ k, k ≠ l → t.link k = s.link k) ∧ t = { s with links := t.links, ex := t.ex } ∧
    (w.unreserved = 0 → t.link l = { c with dropped := min 255 (c.dropped + 1) } ∧ t.ex = s.ex) ∧
    (0 < w.unreserved →
      t.link l = { c with clearCount := 0, alarmCount := 0, silentCount := 0, blankedCount := 0, dropped := 0 } ∧
      Memory.readWords t.ex.mem (0x21000 + page.val * 0x1000 + pos * 0x40) 16 =
        [0x0C, word l.val, wordZone c.settings.zone, word s.air.serial, c.state.code, wordFlag c.keyOffPending,
          wordFlag c.alert, wordObservation c.lastObservation, word c.clearCount, word c.alarmCount, word c.silentCount,
          word c.blankedCount, word c.latchCounter, word c.dropped, 0, 0] ∧
      (pos = 63 → closed 0) ∧
      (pos < 63 → due = true → w.reserved ≤ 63 * v.run → closed 1) ∧
      (pos < 63 → (due = false ∨ 63 * v.run < w.reserved) → v.pages.get page = .filling ∧ v.count = pos ∧
        v.sequence = w.sequence ∧ v.age = (if w.filling.isSome then w.age else 0) ∧ v.due = due ∧
        t.ex.summary.pageClosed = s.ex.summary.pageClosed) ∧
      (∀ q, q ≠ page → v.pages.get q = w.pages.get q) ∧
      v.next = (if w.filling.isSome then w.next else w.next + 1) ∧ v.held = w.held ∧ v.waiting = w.waiting ∧
      (∀ a, (a < 0x21000 + page.val * 0x1000 ∨ 0x21000 + page.val * 0x1000 + 28 ≤ a) →
        (a < 0x21000 + page.val * 0x1000 + pos * 0x40 ∨ 0x21000 + page.val * 0x1000 + pos * 0x40 + 64 ≤ a) →
        Memory.read t.ex.mem a = Memory.read s.ex.mem a)))

/-- A judgement of the waiting requests (R169, R170): a request left waiting does not fit the unreserved room that remains;
every other one is granted its producer's amount; no request for more is granted past one for less that does not fit, and
of two for the same amount the later is not granted past the earlier; no one else is granted; and the reserved total stays
within room. -/
def Obligations.JudgementGrantsWhatFits : Prop :=
  ∀ x : Exchange, x.writer.PageLaw →
    let y := x.judge
    let amount : Producer → Nat
      | .intake => 8 | .rollWalk => 8 | .tracker => 4 | .messageStore => 4 | .linkUnit => 1 | .monitor => 1 | .builder => 1
    (∀ p, p ∈ y.writer.waiting → p ∈ x.writer.waiting ∧ y.writer.unreserved < amount p) ∧
    (∀ p, p ∈ x.writer.waiting → p ∈ y.writer.waiting ∨ (p, amount p) ∈ y.writer.held) ∧
    (∀ p q, p ∈ y.writer.waiting → q ∈ x.writer.waiting → amount p < amount q → q ∈ y.writer.waiting) ∧
    (∀ p q, p ∈ y.writer.waiting → q ∈ x.writer.waiting → amount p = amount q →
      x.writer.waiting.idxOf p < x.writer.waiting.idxOf q → q ∈ y.writer.waiting) ∧
    (∀ h, h ∈ x.writer.held → h ∈ y.writer.held) ∧
    (∀ h, h ∈ y.writer.held → h ∈ x.writer.held ∨ (h.1 ∈ x.writer.waiting ∧ h.2 = amount h.1)) ∧
    (x.writer.reserved ≤ x.writer.room → y.writer.reserved ≤ y.writer.room) ∧
    y.writer.room = x.writer.room ∧
    y = { x with writer := { x.writer with waiting := y.writer.waiting, held := y.writer.held }, intake := y.intake } ∧
    (y.intake = x.intake ∨ (y.intake = .taking ∧ .intake ∈ x.writer.waiting))

/-- PAGE_AGE_DUE (R173, R174): a page already due closes where no reserved position would be lost and stays FILLING
otherwise; where the FILLING page's age reaches the flush interval at the next second boundary the command is that
boundary whole, and elsewhere it changes nothing (the model's choice: log entry 7). What that boundary does to the page is
said for a boundary at which nothing else can reach the report writer first: in SETUP, outside HOLDOVER, with no REFERENCE
report pending and no work at the tracker, message store, link unit and builder. There the page closes, or becomes due and
stays FILLING. That a page already due needs no second look at the interval is the model's choice: log entry 34. -/
def Obligations.PageClosesByAge : Prop :=
  ∀ (s : State) (page : Index8), s.Tidy → s.ex.writer.PageLaw → s.ex.writer.pages.get page = .filling →
    let w := s.ex.writer
    let closed (t : State) : Prop := t.ex.writer.pages.get page = .filled ∧
      Memory.readWords t.ex.mem (0x21000 + page.val * 0x1000 + 4) 6 =
        [word w.count, w.sequence, 1, word t.air.serial, word t.air.second, word t.air.day] ∧
      t.ex.writer.sequence = w.sequence + 1 ∧ t.ex.summary.pageClosed = true
    (w.due = true → w.reserved ≤ 63 * w.run → ∃ t, exec .pageAgeDue s = .next t ∧ closed t ∧ t = { s with ex := t.ex } ∧
      (∀ q, q ≠ page → t.ex.writer.pages.get q = w.pages.get q) ∧ t.ex.queue = s.ex.queue ∧ t.ex.slots = s.ex.slots ∧
      t.ex.writer.held = w.held ∧ t.ex.writer.waiting = w.waiting) ∧
    (w.due = true → 63 * w.run < w.reserved → exec .pageAgeDue s = .next s) ∧
    (w.due = false → s.engine.office.flushInterval ≤ min 30 (w.age + 1) →
      ∃ t, exec .pageAgeDue s = .next t ∧ exec .secondBoundary s = .next t ∧
        (s.engine.state = .setup → s.air.monitor.state ≠ .holdover → s.air.monitor.report = none →
          s.hasWork .tracker = false → s.hasWork .messageStore = false → s.hasWork .linkUnit = false →
          s.hasWork .builder = false →
          (w.reserved ≤ 63 * w.run → closed t) ∧
          (63 * w.run < w.reserved → t.ex.writer.pages.get page = .filling ∧ t.ex.writer.due = true))) ∧
    (w.due = false → min 30 (w.age + 1) < s.engine.office.flushInterval → exec .pageAgeDue s = .next s)

/-- REFERENCE_RECORD_APPEND, LATE_BUILD_APPEND and LINK_REPORT_APPEND (R11, R125, R143): under its reservation of 1 the
producer appends its pending report, with the state as it stands at the append, and the report is cleared; of the links the
lowest-numbered holding one goes first, and of its two reports the one created at the earlier serial, the trip first where
both fell in one frame. -/
def Obligations.PendingReportsAppended : Prop :=
  ∀ s : State,
    (∀ r, s.air.monitor.report = some r → s.ex.writer.holds .monitor = true →
      ∃ t, exec .referenceRecordAppend s = .next t ∧ t.air.monitor = { s.air.monitor with report := none } ∧
        s.UnitEnded t .monitor [[0x10, wordFlag r.enterLost, word r.serial, word r.second, word r.day, word r.later,
          s.air.monitor.state.code]] ∧
        t = { s with air := { s.air with monitor := t.air.monitor }, ex := t.ex }) ∧
    (∀ r, s.builder.late = some r → s.ex.writer.holds .builder = true →
      ∃ t, exec .lateBuildAppend s = .next t ∧ t.builder = { s.builder with late := none } ∧
        s.UnitEnded t .builder [[0x11, word r.serial, word r.list, word r.left, word r.pages0, word r.pages1,
          word r.pages2, word r.pages3, word r.later]] ∧
        t = { s with builder := t.builder, ex := t.ex }) ∧
    (∀ l : Index8, s.ex.writer.holds .linkUnit = true →
      (∀ k, k < l → (s.link k).trip = none ∧ (s.link k).recovery = none) →
      let c := s.link l
      let appended (d : Link) (record : Record) : Prop :=
        ∃ t, exec .linkReportAppend s = .next t ∧ t.link l = d ∧ (∀ k, k ≠ l → t.link k = s.link k) ∧
          s.UnitEnded t .linkUnit [record] ∧ t = { s with links := t.links, ex := t.ex }
      (∀ r, c.trip = some r → (∀ v, c.recovery = some v → r.created ≤ v.serial) →
        appended { c with trip := none }
          [if r.latched then 0x0E else 0x0D, word l.val, wordZone c.settings.zone, word r.capture.serial,
            word r.capture.position, r.capture.kind.code, r.capture.alarms.setWidth 32, word r.latchCounter,
            word r.later, c.state.code]) ∧
      (∀ v, c.recovery = some v → (∀ r, c.trip = some r → v.serial < r.created) →
        appended { c with recovery := none }
          [0x0F, word l.val, word v.serial, word v.position, word v.later, c.state.code]))

/-! ## The reference monitor and second boundaries -/

/-- REFERENCE_PULSE and WINDOW_EXPIRY (R7 to R11, R178): a pulse is early under 0.9 s after the last, good to 1.1 s, and
a starting pulse with the window closed; it opens a new window, and an expiry is a missed pulse that closes it. The monitor
moves as tabled, and an entry into HOLDOVER at the time of the second boundary still to come marks that boundary uncounted;
HOLDOVER to LOST never happens here, LOST to LOCKED is reported with the REFERENCE bit, and a STARTING engine enters RUNNING
with the ENGINE bit where the monitor is LOCKED. Times in microseconds from power-on, and a pulse more than 1.1 s after a
window still open being missed and then starting, are the model's choice: log entry 5. -/
def Obligations.PulsesAndExpiryJudged : Prop :=
  ∀ (s : State) (time : Nat),
    let m := s.air.monitor
    let boundary := (s.air.seconds + 1) * 1000000
    let missed (m : Monitor) (at_ : Nat) : Monitor := match m.state with
      | .absent => m
      | .locked => { m with state := .holdover, good := 0, holdover := 0, uncounted := decide (at_ = boundary) }
      | _ => { m with good := 0 }
    let good (m : Monitor) : Monitor := match m.state with
      | .absent => m
      | .locked => m
      | _ =>
        if m.good < 3 then { m with good := m.good + 1 }
        else { m with state := .locked, good := 0, holdover := 0, uncounted := false }
    let starting (m : Monitor) : Monitor := match m.state with
      | .absent => { m with state := .locking, good := 0 }
      | _ => m
    let judged (c : Instr) (v : Monitor) : Prop :=
      let leave := decide (m.state = .lost ∧ v.state = .locked)
      let run := decide (s.engine.state = .starting ∧ v.state = .locked)
      ∃ t, exec c s = .next t ∧
        t.air = { s.air with monitor :=
          if leave then { v with report := some (match m.report with
            | none => ⟨false, s.air.serial, s.air.second, s.air.day, 0⟩
            | some r => { r with later := min 255 (r.later + 1) }) }
          else v } ∧
        t.engine = (if run then { s.engine with state := .running } else s.engine) ∧
        t.ex.summary = { s.ex.summary with
          reference := s.ex.summary.reference || leave, engine := s.ex.summary.engine || run } ∧
        (t.air.monitor.report.isSome = true →
          t.ex.writer.holds .monitor = true ∨ .monitor ∈ t.ex.writer.waiting) ∧
        t.ex.mem = s.ex.mem ∧ t.ex.slots = s.ex.slots ∧ t.ex.queue = s.ex.queue ∧ t.ex.writer.pages = s.ex.writer.pages ∧
        t = { s with air := t.air, engine := t.engine, ex := t.ex }
    (m.window = none → judged (.referencePulse time) { starting m with window := some time }) ∧
    (∀ o, m.window = some o →
      (time - o < 900000 → judged (.referencePulse time) { missed m time with window := some time }) ∧
      (900000 ≤ time - o → time - o ≤ 1100000 → judged (.referencePulse time) { good m with window := some time }) ∧
      (1100000 < time - o →
        judged (.referencePulse time) { starting (missed m (o + 1100000)) with window := some time }) ∧
      judged .windowExpiry { missed m (o + 1100000) with window := none }) ∧
    (m.window = none → judged .windowExpiry m)

/-- SECOND_BOUNDARY that is no frame mark, and HOLDOVER_LIMIT_EXPIRY (R1, R2, R4, R10, R11, R137): the pair phase
alternates, the office clock advances with its wraps, the holdover count rises unless HOLDOVER was entered at this
boundary, and where the raised count exceeds twice the limit the monitor enters LOST, reported with the REFERENCE bit, and
every link's keying ends. The serial and every other block stand. At every second boundary, a frame mark included, the age
count of a FILLING page that stays FILLING rises by one, stopping at 30, and the page is due from the boundary at which the
count reaches the flush interval on (R173). That HOLDOVER_LIMIT_EXPIRY is the boundary whole, and that it and FRAME_MARK
change nothing at another boundary, is the model's choice: log entry 7; and so is that the page stays due where the
interval was raised since: log entry 34. -/
def Obligations.SecondBoundaryAdvancesClock : Prop :=
  (∀ (s : State) (page : Index8), s.ex.writer.PageLaw → s.ex.writer.pages.get page = .filling →
    ∃ t, exec .secondBoundary s = .next t ∧
      (t.ex.writer.pages.get page = .filling →
        t.ex.writer.age = min 30 (s.ex.writer.age + 1) ∧
        t.ex.writer.due = (s.ex.writer.due || decide (s.engine.office.flushInterval ≤ min 30 (s.ex.writer.age + 1))))) ∧
  ∀ s : State, (s.air.firstNext = false ∨ (s.engine.state ≠ .running ∧ s.engine.state ≠ .stopping)) →
    (s.engine.state = .starting → s.air.monitor.state ≠ .locked) →
    let m := s.air.monitor
    let limit := 2 * s.engine.office.holdoverLimit
    let lost := decide (m.state = .holdover ∧ m.uncounted = false ∧ limit < m.holdover + 1)
    let second := if s.air.second < 86399 then s.air.second + 1 else 0
    let day := if s.air.second < 86399 then s.air.day else if s.air.day < 65535 then s.air.day + 1 else 0
    let raised : Monitor :=
      if m.state ≠ .holdover then m
      else if m.uncounted then { m with uncounted := false }
      else { m with holdover := m.holdover + 1 }
    exec .frameMark s = .next s ∧
    (lost = false → exec .holdoverLimitExpiry s = .next s) ∧
    ∃ t, exec .secondBoundary s = .next t ∧ (lost = true → exec .holdoverLimitExpiry s = .next t) ∧
      t.air =
        { s.air with
          seconds := s.air.seconds + 1
          firstNext := !s.air.firstNext
          second := second
          day := day
          monitor :=
            if lost then { raised with
              state := .lost
              report := some (match m.report with
                | none => ⟨true, s.air.serial, second, day, 0⟩
                | some r => { r with later := min 255 (r.later + 1) }) }
            else raised } ∧
      (∀ l, t.link l = if lost then { s.link l with keyed := false } else s.link l) ∧
      .officeClock ∈ t.ex.notices ∧ t.ex.summary.reference = (s.ex.summary.reference || lost) ∧
      t.ex.summary.engine = s.ex.summary.engine ∧ t.ex.summary.link = s.ex.summary.link ∧
      t.ex.summary.fence = s.ex.summary.fence ∧ t.ex.summary.answers = s.ex.summary.answers ∧
      t.ex.slots = s.ex.slots ∧ t.ex.queue = s.ex.queue ∧ t.ex.answered = s.ex.answered ∧ t.ex.fence = s.ex.fence ∧
      t.ex.buffer = s.ex.buffer ∧ t.ex.enable = s.ex.enable ∧ t.ex.bus = s.ex.bus ∧
      t.ex.read = s.ex.read ∧ t.ex.progress = s.ex.progress ∧
      t = { s with air := t.air, links := t.links, ex := t.ex }

/-! ## Frame marks -/

/-- FRAME_MARK, and SECOND_BOUNDARY where it is one, with the engine RUNNING and the serial below 2^32 - 1 (R1, R2, R4,
R5, R10, R11, R115 to R117, R124, R125, R135 to R137, R145 to R148): the serial rises and the office clock advances; the
holdover count rises, and the mark at which it exceeds twice the limit enters LOST, with its report and the REFERENCE bit,
and is HOLDOVER_LIMIT_EXPIRY too; the airing report of the frame that ends joins the settle
list with the zones a still keyed link carried; the records placed for the new serial are ON AIR; the encoder holds the
new frame's entry list and zone frames; the page two serials on is emptied and its build starts, with its prediction, or is
held; a build of the new serial is cut with its LATE BUILD report, or that report's later count raised; and each link
moves, is keyed, steps its skip counter and is blanked as tabled. Lists, subscribers, slots and the fence stand. The
SILENT observation is said in O52. A zone frame is 120 codewords: two headers not whitened, the section's blocks and then
idle blocks under the whitening bits of the serial's seed, each with the remainder of its data as check byte (R12, R13,
R17, R18); a page's words are its address, its descriptor and its text blocks (R14 to R16, R189); and the entry list names
each record of the page once, in order of first appearance (R146). That FRAME_MARK and SECOND_BOUNDARY are the one step of
the boundary is the model's choice: log entry 7; and so is that a mark with no frame before it finds no link that carried
the frame before: log entry 33; and that the records a cut leaves count the candidate in hand at whatever act it stands: log
entry 38. The prediction is that of the links before or after they take the mark, which the manual leaves open (log entry
13). -/
def Obligations.FrameMarkBeginsFrame : Prop :=
  (∀ s : State, s.Tidy → s.air.firstNext = true → s.engine.state = .running → s.air.serial + 1 < 2 ^ 32 →
    let m := s.air.serial + 1
    let page := s.builder.pages.get (Fin.ofNat 4 m)
    let carried (z : Zone) : Prop := ∃ l, (s.link l).keyed = true ∧ (s.link l).settings.zone = some z
    let a := s.air
    let limit := 2 * s.engine.office.holdoverLimit
    let lost := decide (a.monitor.state = .holdover ∧ a.monitor.uncounted = false ∧ limit < a.monitor.holdover + 1)
    let second := if a.second < 86399 then a.second + 1 else 0
    let day := if a.second < 86399 then a.day else if a.day < 65535 then a.day + 1 else 0
    let raised : Monitor :=
      if a.monitor.state ≠ .holdover then a.monitor
      else if a.monitor.uncounted then { a.monitor with uncounted := false }
      else { a.monitor with holdover := a.monitor.holdover + 1 }
    let left (b : Build) : Nat := (s.unexamined b).length + if b.candidate = none then 0 else 1
    let cutReport (b : Build) : LateReport := match s.builder.late with
      | some r => { r with later := min 255 (r.later + 1) }
      | none =>
        let cutPage := s.builder.pages.get (Fin.ofNat 4 b.serial)
        ⟨b.serial, b.serial % 32, left b, (cutPage.get 0).length, (cutPage.get 1).length,
          (cutPage.get 2).length, (cutPage.get 3).length, 0⟩
    ∃ t, exec .frameMark s = .next t ∧ exec .secondBoundary s = .next t ∧
      (lost = true → exec .holdoverLimitExpiry s = .next t) ∧ (lost = false → exec .holdoverLimitExpiry s = .next s) ∧
      t.air =
        { a with
          seconds := a.seconds + 1
          serial := m
          firstNext := false
          second := second
          day := day
          monitor :=
            if lost then { raised with
              state := .lost
              report := some (match a.monitor.report with
                | none => ⟨true, m, second, day, 0⟩
                | some r => { r with later := min 255 (r.later + 1) }) }
            else raised } ∧
      t.ex.summary.reference = (s.ex.summary.reference || lost) ∧
      let lights (link : Index8 → Link) (last : Nat) (b : Build) : Prop :=
        ∀ z : Zone, b.lit.getLsbD z.val = true ↔ t.air.monitor.state ≠ .lost ∧ ∃ l,
          (link l).settings.zone = some z ∧ ((link l).state = .keyed ∨ (link l).state = .standby) ∧
          (link l).keyOffPending = false ∧ skipAhead (link l).settings.skip (b.serial - last) (link l).skipCounter = false
      let starts (b : Build) (serial : Nat) : Prop :=
        b.serial = serial ∧ b.position = none ∧ b.candidate = none ∧ (lights s.link s.air.serial b ∨ lights t.link m b)
      .frameSerial ∈ t.ex.notices ∧ .officeClock ∈ t.ex.notices ∧ t.engine = s.engine ∧ t.account = s.account ∧
      t.arbiter = s.arbiter ∧ t.pending = s.pending ∧
      t.frame = some ⟨m, entryList page, Vector.ofFn fun z => zoneFrame s.engine.office.code m z (page.get z)⟩ ∧
      (∀ i, t.msg i =
        if (s.msg i).state = .placed ∧ (s.msg i).placedSerial = some m ∧ i ∉ s.store.airStop then
          { s.msg i with state := .onAir }
        else s.msg i) ∧
      t.store.lists = s.store.lists ∧ t.store.freeCount = s.store.freeCount ∧ t.store.airStop = s.store.airStop ∧
      (∃ zones : ZoneSet, (∀ z : Zone, zones.getLsbD z.val = true ↔ carried z) ∧
        t.tracker = { s.tracker with
          settle := s.tracker.settle ++ match s.frame with
            | some f => f.entries.map fun e => ⟨e.1, e.2, f.serial, zones⟩
            | none => [] }) ∧
      (∀ k z, (t.builder.pages.get k).get z =
        if k = Fin.ofNat 4 (m + 2) then [] else (s.builder.pages.get k).get z) ∧
      (s.builder.inHand = none → t.builder.due = s.builder.due ∧ t.builder.late = s.builder.late ∧
        ∃ b, t.builder.inHand = some b ∧ starts b (m + 2)) ∧
      (∀ b, s.builder.inHand = some b → m < b.serial →
        t.builder.inHand = some b ∧ t.builder.due = some (m + 2) ∧ t.builder.late = s.builder.late) ∧
      (∀ b, s.builder.inHand = some b → b.serial ≤ m → t.builder.late = some (cutReport b) ∧
        (∀ d, s.builder.due = some d → t.builder.due = some (m + 2) ∧
          ∃ c, t.builder.inHand = some c ∧ starts c d) ∧
        (s.builder.due = none → t.builder.due = none ∧ ∃ c, t.builder.inHand = some c ∧ starts c (m + 2))) ∧
      (∀ l,
        let c := s.link l
        let d := t.link l
        let skip : Prop := ∃ n, (match c.settings.skip with
          | .none => Option.none | .oneIn5 => some 5 | .oneIn6 => some 6 | .oneIn7 => some 7) = some n ∧
          c.skipCounter + 1 = n
        d.settings = c.settings ∧ d.statusTaken = false ∧ d.carried = c.keyed ∧
        (d.keyed = true ↔ d.state = .keyed ∧ (t.air.monitor.state = .locked ∨ t.air.monitor.state = .holdover) ∧
          c.settings.zone.isSome = true ∧ ¬ skip) ∧
        (d.keyed = true → c.keyed = false → d.blanking = c.settings.blankingCount) ∧
        (d.state = .keyed → d.skipCounter =
          if c.settings.skip = .none then c.skipCounter else if skip then 0 else c.skipCounter + 1) ∧
        (c.state = .off → c.keyOffPending = false → d.state = .off) ∧
        (c.keyOffPending = true → d.state = .override ∧ d.keyOffPending = false) ∧
        (c.keyOffPending = false → (s.frame = none ∨ c.statusTaken = true) →
          (c.state = .standby ∨ c.state = .keyed → d.state = .keyed) ∧
          (c.state ≠ .standby → d.state = c.state))) ∧
      t.ex.slots = s.ex.slots ∧ t.ex.queue = s.ex.queue ∧ t.ex.answered = s.ex.answered ∧ t.ex.fence = s.ex.fence ∧
      t.ex.buffer = s.ex.buffer ∧ t.ex.enable = s.ex.enable ∧ t.ex.bus = s.ex.bus ∧
      t.ex.read = s.ex.read ∧ t.ex.progress = s.ex.progress ∧
      t.ex.summary.engine = s.ex.summary.engine ∧ t.ex.summary.answers = s.ex.summary.answers ∧
      t.ex.summary.fence = s.ex.summary.fence) ∧
  (∀ (office : Fin 64) (serial : Nat) (zone : Zone) (sec : Section), sectionBlocks sec ≤ 118 →
    let frame := zoneFrame office serial zone sec
    let payload : List BlockData := sec.flatMap (·.words)
    let seed : BitVec 15 := BitVec.ofNat 15 (serial / 32 % 256 * 32 + serial % 32 + 1)
    frame.length = 120 ∧
    frame[0]? = some (codeword (BitVec.ofNat 6 office.val ++ BitVec.ofNat 8 (serial / 32) ++ BitVec.ofNat 5 serial ++
      BitVec.ofNat 2 zone.val ++ 0#3)) ∧
    frame[1]? = some (codeword (BitVec.ofNat 5 sec.length ++ BitVec.ofNat 7 (sectionBlocks sec) ++ 0#12)) ∧
    ∀ k i, k < 118 → i < 32 → ∃ w, frame[k + 2]? = some w ∧
      w.getLsbD (31 - i) =
        ((codeword (payload.getD k 0x5A3C96)).getLsbD (31 - i) ^^ (whiteningStep^[32 * k + i] seed).getLsbD 14)) ∧
  (∀ (r : BitVec 15) (i : Nat), i < 15 →
    (whiteningStep r).getLsbD i = if i = 0 then r.getLsbD 14 ^^ r.getLsbD 13 else r.getLsbD (i - 1)) ∧
  (∀ d : BlockData, (codeword d).extractLsb' 8 24 = d ∧
    ∃ q : Word, q.toNat < 2 ^ 24 ∧ codeword d ^^^ 0x55 = timesGenerator q) ∧
  (∀ page : FramePage,
    ListsOnce ((page.get 0 ++ page.get 1 ++ page.get 2 ++ page.get 3).map fun e => (e.record, e.generation))
      (entryList page)) ∧
  (∀ (r : MessageRecord) (office : Fin 64),
    let words := r.pageWords office
    let length := r.text.length
    let symbols : List Byte :=
      [0x30, 0x31, 0x32, 0x33, 0x34, 0x35, 0x36, 0x37, 0x38, 0x39, 0x20, 0x2D, 0x28, 0x29, 0x2A, 0x23]
    words.length = 2 + (match r.kind with | .tone => 0 | .numeric => (length + 5) / 6 | .alpha => (length + 2) / 3) ∧
    words[0]? = some (BitVec.ofNat 6 office.val ++ BitVec.ofNat 16 r.subscriber ++
      (match r.kind with | .tone => 0#2 | .numeric => 1#2 | .alpha => 2#2)) ∧
    words[1]? = some (BitVec.ofNat 3 (match r.tag with | some g => g.val | none => 0) ++ BitVec.ofBool r.urgent ++
      BitVec.ofNat 8 length ++ BitVec.ofNat 4 (r.attempts + 1) ++ r.generation) ∧
    (r.kind = .numeric → ∀ k j, k < (length + 5) / 6 → j < 6 → ∃ w, words[k + 2]? = some w ∧
      (∀ c v, r.text[6 * k + j]? = some c → symbols[v]? = some c → w.extractLsb' (20 - 4 * j) 4 = BitVec.ofNat 4 v) ∧
      (length ≤ 6 * k + j → w.extractLsb' (20 - 4 * j) 4 = 10)) ∧
    (r.kind = .alpha → ∀ k j, k < (length + 2) / 3 → j < 3 → ∃ w, words[k + 2]? = some w ∧
      w.extractLsb' (16 - 8 * j) 8 = r.text.getD (3 * k + j) 0))

/-- The mark m that ends STOPPING (R1, R2, R4, R10, R11, R102, R109, R125, R126, R147, R148, R179): the clock and the
holdover count go on as at any boundary; the report of the last frame is handed, each entry with its serial and the
successful zones; no frame is formed, no link is keyed, every frame page is emptied with no build left, the engine enters SETUP with the ENGINE bit, and
the records placed for m and m + 1 become WAITING, or HELD for an unreachable subscriber, with their other fields kept, or
stay PLACED to be closed where a marker is set. That the mark and SECOND_BOUNDARY are one step (log entry 7), that no build
is left in hand, one of m being cut (log entry 15), that the records a cut leaves count the candidate in hand (log entry 38),
and that where no frame ends at m no link carried the frame before (log entry 33), is the model's choice. -/
def Obligations.MarkEndsStopping : Prop :=
  ∀ s : State, s.Tidy → s.air.firstNext = true → s.engine.state = .stopping → s.air.serial + 1 < 2 ^ 32 →
    let m := s.air.serial + 1
    let placed (i : Nat) : Prop := (s.msg i).state = .placed ∧
      ((s.msg i).placedSerial = some m ∨ (s.msg i).placedSerial = some (m + 1))
    let a := s.air
    let limit := 2 * s.engine.office.holdoverLimit
    let lost := decide (a.monitor.state = .holdover ∧ a.monitor.uncounted = false ∧ limit < a.monitor.holdover + 1)
    let second := if a.second < 86399 then a.second + 1 else 0
    let day := if a.second < 86399 then a.day else if a.day < 65535 then a.day + 1 else 0
    let raised : Monitor :=
      if a.monitor.state ≠ .holdover then a.monitor
      else if a.monitor.uncounted then { a.monitor with uncounted := false }
      else { a.monitor with holdover := a.monitor.holdover + 1 }
    let carried (z : Zone) : Prop := ∃ l, (s.link l).keyed = true ∧ (s.link l).settings.zone = some z
    ∃ t, exec .frameMark s = .next t ∧ exec .secondBoundary s = .next t ∧
      (lost = true → exec .holdoverLimitExpiry s = .next t) ∧ (lost = false → exec .holdoverLimitExpiry s = .next s) ∧
      t.air =
        { a with
          seconds := a.seconds + 1
          serial := m
          firstNext := false
          second := second
          day := day
          monitor :=
            if lost then { raised with
              state := .lost
              report := some (match a.monitor.report with
                | none => ⟨true, m, second, day, 0⟩
                | some r => { r with later := min 255 (r.later + 1) }) }
            else raised } ∧
      t.ex.summary.reference = (s.ex.summary.reference || lost) ∧
      t.engine = { s.engine with state := .setup } ∧ t.ex.summary.engine = true ∧ t.frame = none ∧
      (∀ l, (t.link l).keyed = false ∧ (t.link l).carried = (s.link l).keyed) ∧
      t.builder.inHand = none ∧ t.builder.due = none ∧ (∀ k z, (t.builder.pages.get k).get z = []) ∧
      (∀ i, ¬ placed i → t.msg i = s.msg i ∧ (i ∈ t.store.airStop ↔ i ∈ s.store.airStop)) ∧
      (∀ i, placed i → ((s.msg i).ackedPending = true ∨ (s.msg i).cancelPending = true) →
        t.msg i = s.msg i ∧ i ∈ t.store.airStop) ∧
      (∀ i, placed i → (s.msg i).ackedPending = false → (s.msg i).cancelPending = false →
        (i ∈ t.store.airStop ↔ i ∈ s.store.airStop) ∧
        t.msg i = { s.msg i with
          state := if (s.sub (s.msg i).subscriber).reach.unreachable then .held else .waiting, deadline := none } ∧
        ((t.msg i).state = .waiting → i ∈ t.store.lists.get (s.sub (s.msg i).subscriber).billing.slot)) ∧
      (∃ zones : ZoneSet, (∀ z : Zone, zones.getLsbD z.val = true ↔ carried z) ∧
        t.tracker = { s.tracker with
          settle := s.tracker.settle ++ match s.frame with
            | some f => f.entries.map fun e => ⟨e.1, e.2, f.serial, zones⟩
            | none => [] }) ∧
      ((∀ b, s.builder.inHand = some b → m < b.serial) → t.builder.late = s.builder.late) ∧
      (∀ b, s.builder.inHand = some b → b.serial ≤ m →
        let left (b : Build) : Nat := (s.unexamined b).length + if b.candidate = none then 0 else 1
        let cutPage := s.builder.pages.get (Fin.ofNat 4 b.serial)
        t.builder.late = some (match s.builder.late with
          | some r => { r with later := min 255 (r.later + 1) }
          | none => ⟨b.serial, b.serial % 32, left b, (cutPage.get 0).length, (cutPage.get 1).length,
              (cutPage.get 2).length, (cutPage.get 3).length, 0⟩)) ∧
      t.account = s.account ∧ t.store.freeCount = s.store.freeCount ∧ t.pending = s.pending ∧
      t.ex.slots = s.ex.slots ∧ t.ex.queue = s.ex.queue ∧ t.ex.answered = s.ex.answered ∧ t.ex.fence = s.ex.fence

/-- SKIP_FRAME, CLEAN_RUN_COMPLETE and LINK_STATUS_OFFER (R135, R136, R144): each is the frame mark at which it falls. A
KEYED link at skip counter N - 1 is not keyed and its counter returns to 0; a thirtieth clean frame clears the latch
counter; a cadence divider that reaches the cadence returns to 0, and the link's counts are cleared with the LINK STATUS
record appended, or the dropped count is raised (O44 says which, and the record). At a mark that ends a frame without a
status message a link not OFF makes a SILENT observation (R135, R138 to R143), here at a mark that offers no LINK STATUS
of the link: blanked and counted, or taken, with the fault run raised, or the trip with its capture at position 120, its
report and the LINK bit. That each command is the mark whole and changes nothing at another boundary is the model's
choice: log entry 7; and so is the serial of creation of the trip report, the mark's own: log entry 19. -/
def Obligations.MarkEventsOfLinks : Prop :=
  ∀ (s : State) (l : Index8),
    let c := s.link l
    let quiet : Prop := c.keyOffPending = false ∧ c.statusTaken = true ∧ c.state = .keyed
    let mark : Prop := s.air.firstNext = true ∧ s.engine.state = .running ∧ s.air.serial + 1 < 2 ^ 32
    let counts (d : Link) : Nat × Nat × Nat × Nat := (d.clearCount, d.alarmCount, d.silentCount, d.blankedCount)
    (s.air.firstNext = false → exec (.skipFrame l) s = .next s ∧ exec (.cleanRunComplete l) s = .next s ∧
      exec (.linkStatusOffer l) s = .next s) ∧
    (mark → quiet → c.settings.skip ≠ .none →
      ((c.settings.skip = .oneIn5 ∧ c.skipCounter = 4) ∨ (c.settings.skip = .oneIn6 ∧ c.skipCounter = 5) ∨
        (c.settings.skip = .oneIn7 ∧ c.skipCounter = 6) →
        ∃ t, exec (.skipFrame l) s = .next t ∧ exec .frameMark s = .next t ∧ t.air.serial = s.air.serial + 1 ∧
          (t.link l).state = .keyed ∧ (t.link l).keyed = false ∧ (t.link l).skipCounter = 0) ∧
      (c.skipCounter < 4 → exec (.skipFrame l) s = .next s)) ∧
    (mark → quiet → s.frame.isSome = true →
      (c.cleanRun = 29 → ∃ t, exec (.cleanRunComplete l) s = .next t ∧ exec .frameMark s = .next t ∧
        t.air.serial = s.air.serial + 1 ∧ (t.link l).cleanRun = 0 ∧ (t.link l).latchCounter = 0) ∧
      (c.cleanRun < 29 → exec (.cleanRunComplete l) s = .next s)) ∧
    (mark → c.state ≠ .off →
      (c.settings.cadence ≤ c.divider + 1 →
        ∃ t, exec (.linkStatusOffer l) s = .next t ∧ exec .frameMark s = .next t ∧ t.air.serial = s.air.serial + 1 ∧
          (t.link l).divider = 0 ∧
          ((counts (t.link l) = (0, 0, 0, 0) ∧ (t.link l).dropped = 0) ∨
            (t.link l).dropped = min 255 (c.dropped + 1))) ∧
      (c.divider + 1 < c.settings.cadence → exec (.linkStatusOffer l) s = .next s)) ∧
    (mark → ∀ f, s.frame = some f → c.state ≠ .off → c.statusTaken = false → c.keyOffPending = false →
      c.divider + 1 < c.settings.cadence → ∃ t, exec .frameMark s = .next t ∧
        let d := t.link l
        let capture : Capture := ⟨f.serial, 120, .silent, 0⟩
        let latch := min 32 (c.latchCounter + 1)
        let latched := decide (c.settings.latchLimit ≠ 0 ∧ c.settings.latchLimit ≤ latch)
        let inService : Prop := c.state = .standby ∨ c.state = .keyed
        d.clearCount = c.clearCount ∧ d.alarmCount = c.alarmCount ∧ d.dropped = c.dropped ∧ d.divider = c.divider + 1 ∧
        d.recovery = c.recovery ∧
        (0 < c.blanking →
          d.blankedCount = min 255 (c.blankedCount + 1) ∧ d.silentCount = c.silentCount ∧
          d.lastObservation = c.lastObservation ∧ d.alert = c.alert ∧ d.faultRun = c.faultRun ∧ d.clearRun = c.clearRun ∧
          d.capture = c.capture ∧ d.trip = c.trip ∧ (inService → d.state = .keyed) ∧ (¬ inService → d.state = c.state) ∧
          (d.keyed = false ∨ c.keyed = true → d.blanking = c.blanking - 1)) ∧
        (c.blanking = 0 →
          d.silentCount = min 255 (c.silentCount + 1) ∧ d.blankedCount = c.blankedCount ∧
          d.lastObservation = some .silent ∧ d.alert = true ∧
          (inService → c.faultRun + 1 < c.settings.tripCount →
            d.state = .keyed ∧ d.faultRun = c.faultRun + 1 ∧ d.capture = c.capture ∧ d.trip = c.trip) ∧
          (inService → c.settings.tripCount ≤ c.faultRun + 1 →
            d.state = (if latched then .latched else .tripped) ∧ d.keyed = false ∧ d.capture = some capture ∧
            d.latchCounter = latch ∧ d.faultRun = 0 ∧ d.clearRun = 0 ∧ d.cleanRun = 0 ∧ d.blanking = 0 ∧
            d.trip = some (match c.trip with
              | none => ⟨capture, latched, latch, s.air.serial + 1, 0⟩
              | some r => { r with later := min 255 (r.later + 1), latched := r.latched || latched }) ∧
            t.ex.summary.link = true) ∧
          (c.state = .tripped → d.state = .tripped ∧ d.clearRun = 0 ∧ d.capture = c.capture ∧ d.trip = c.trip) ∧
          (c.state = .latched ∨ c.state = .override → d.state = c.state ∧ d.faultRun = c.faultRun ∧
            d.clearRun = c.clearRun ∧ d.capture = c.capture ∧ d.trip = c.trip)))

/-! ## Links and the return channel -/

/-- LINK_STATUS_MESSAGE (R138 to R143): the first message of a frame in progress at a link not OFF is an ALARM where an
alarm bit is set, or the link is keyed without forward power, and CLEAR otherwise; it is blanked and counted while
blanking remains, and taken otherwise with the last observation, the alert and its count. A fault run that reaches the
trip count trips the link, ends keying, records capture and report, and latches at the limit; a clear run that reaches the
recovery frames recovers a TRIPPED link; each sets the LINK bit. Every other message is discarded. -/
def Obligations.StatusMessageObserved : Prop :=
  ∀ (s : State) (l : Index8) (alarms : Byte) (power : Bool) (position : Nat), position ≤ 120 →
    let c := s.link l
    let arrival : Instr := .linkStatusMessage l alarms power position
    let alarm : Bool := decide (alarms ≠ 0 ∨ (c.keyed = true ∧ power = false))
    (s.frame = none ∨ c.state = .off ∨ c.statusTaken = true → exec arrival s = .next s) ∧
    (∀ f, s.frame = some f → c.state ≠ .off → c.statusTaken = false →
      let d : Link :=
        { c with
          statusTaken := true
          lastObservation := some (if alarm then .alarm else .clear)
          alert := alarm
          clearCount := if alarm then c.clearCount else min 255 (c.clearCount + 1)
          alarmCount := if alarm then min 255 (c.alarmCount + 1) else c.alarmCount }
      let capture : Capture := ⟨f.serial, position, .alarm, alarms⟩
      let latch := min 32 (c.latchCounter + 1)
      let latched := decide (c.settings.latchLimit ≠ 0 ∧ c.settings.latchLimit ≤ latch)
      let becomes (e : Link) (event : Bool) : Prop := ∃ t, exec arrival s = .next t ∧
        t.link l = e ∧ (∀ k, k ≠ l → t.link k = s.link k) ∧
        t.ex.summary = { s.ex.summary with link := s.ex.summary.link || event } ∧
        (event = true → t.ex.writer.holds .linkUnit = true ∨ .linkUnit ∈ t.ex.writer.waiting) ∧
        t.ex.mem = s.ex.mem ∧ t.ex.queue = s.ex.queue ∧ t.ex.slots = s.ex.slots ∧
        t.ex.writer.pages = s.ex.writer.pages ∧ t = { s with links := t.links, ex := t.ex }
      (0 < c.blanking → becomes
        { c with statusTaken := true, blanking := c.blanking - 1, blankedCount := min 255 (c.blankedCount + 1) } false) ∧
      (c.blanking = 0 →
        (c.state = .latched ∨ c.state = .override → becomes d false) ∧
        (c.state = .standby ∨ c.state = .keyed →
          (alarm = false → becomes { d with faultRun := 0 } false) ∧
          (alarm = true → c.faultRun + 1 < c.settings.tripCount →
            becomes { d with faultRun := c.faultRun + 1 } false) ∧
          (alarm = true → c.settings.tripCount ≤ c.faultRun + 1 → becomes
            { d with
              state := if latched then .latched else .tripped
              keyed := false
              capture := some capture
              latchCounter := latch
              faultRun := 0
              clearRun := 0
              cleanRun := 0
              trip := some (match c.trip with
                | none => ⟨capture, latched, latch, s.air.serial, 0⟩
                | some r => { r with later := min 255 (r.later + 1), latched := r.latched || latched }) } true)) ∧
        (c.state = .tripped →
          (alarm = true → becomes { d with clearRun := 0 } false) ∧
          (alarm = false → c.clearRun < 255 →
            (c.settings.recoveryFrames = 0 ∨ c.clearRun + 1 < c.settings.recoveryFrames →
              becomes { d with clearRun := c.clearRun + 1 } false) ∧
            (0 < c.settings.recoveryFrames → c.settings.recoveryFrames ≤ c.clearRun + 1 → becomes
              { d with
                state := .standby
                skipCounter := 0
                cleanRun := 0
                clearRun := 0
                faultRun := 0
                recovery := some (match c.recovery with
                  | none => ⟨s.air.serial, position, 0⟩
                  | some r => { r with later := min 255 (r.later + 1) }) } true)))))

/-- RETURN_MESSAGE (R152, R153): discarded uncounted in LOADING; elsewhere the first case that holds, of link not enabled,
bad check byte or kind, foreign office code, full reverse queue and acceptance, raises its counter up to 65535; an
accepted message enters the queue's tail with its link, zone, kind, address, tag and arrival serial, and the tracker asks
its room. -/
def Obligations.ReturnMessageJudged : Prop :=
  ∀ (s : State) (l : Index8) (bits : BitVec 40),
    let v := s.receiver l
    let kind := bits.extractLsb' 38 2
    let address := (bits.extractLsb' 16 22).toNat
    let good := decide (checkByte (bits.extractLsb' 8 32) = bits.extractLsb' 0 8 ∧ (kind = 1 ∨ kind = 2))
    let foreign := decide (address / 65536 ≠ s.engine.office.code.val)
    let counted (w : Receiver) : Prop := ∃ t, exec (.returnMessage l bits) s = .next t ∧
      t.receiver l = w ∧ (∀ k, k ≠ l → t.receiver k = s.receiver k) ∧
      t = { s with tracker := { s.tracker with receivers := t.tracker.receivers } }
    (s.engine.state = .loading → exec (.returnMessage l bits) s = .next s) ∧
    (s.engine.state ≠ .loading →
      (v.enabled = false → counted { v with disabled := min 65535 (v.disabled + 1) }) ∧
      (v.enabled = true → good = false → counted { v with badCheck := min 65535 (v.badCheck + 1) }) ∧
      (v.enabled = true → good = true → foreign = true → counted { v with foreign := min 65535 (v.foreign + 1) }) ∧
      (v.enabled = true → good = true → foreign = false →
        (256 ≤ s.tracker.reverse.length → counted { v with queueFull := min 65535 (v.queueFull + 1) }) ∧
        (s.tracker.reverse.length < 256 → ∃ t, exec (.returnMessage l bits) s = .next t ∧
          t.receiver l = { v with accepted := min 65535 (v.accepted + 1) } ∧
          (∀ k, k ≠ l → t.receiver k = s.receiver k) ∧
          t.tracker.reverse = s.tracker.reverse ++ [{
            link := l
            zone := v.zone
            isAck := decide (kind = 1)
            address := address
            tag := if kind = 1 then Fin.ofNat 8 (bits.extractLsb' 13 3).toNat else 0
            arrival := s.air.serial }] ∧
          (t.ex.writer.holds .tracker = true ∨ .tracker ∈ t.ex.writer.waiting) ∧
          t.ex.mem = s.ex.mem ∧ t.ex.summary = s.ex.summary ∧ t.ex.slots = s.ex.slots ∧ t.ex.queue = s.ex.queue ∧
          t = { s with
            tracker := { s.tracker with receivers := t.tracker.receivers, reverse := t.tracker.reverse }
            ex := t.ex })))

/-! ## Building, settling, retrying, sweeping and walking -/

/-- BUILD_CANDIDATE (R115, R117 to R124, R126, R128), act by act, each on the state that stands when it is taken. Reading a
candidate: outside RUNNING the build ends and a due one is dropped; with no record after the walk position it ends and a due
one starts with its prediction; otherwise the first such record is the candidate, and its key the walk position. The checks:
the candidate is skipped where one of the five fails, and its place request holds its target zones where all pass. The place
step: refused late the candidate stays as it is; outside RUNNING the build ends; a stale handle, a record no longer WAITING,
another frame slot, or a full tag set is refused and the walk goes on; otherwise the record is PLACED with its zones, tag and
page entries. That each act is one taking of the command is the model's choice (log entry 8), and so is that a place request
without room, which R120 and R122 exclude, is refused (log entry 36). -/
def Obligations.CandidatePlacedOrSkipped : Prop :=
  ∀ (s : State) (b : Build), s.Tidy → s.builder.inHand = some b →
    let answers (x : Builder) : Prop := exec .buildCandidate s = .next { s with builder := x }
    let builds (c : Build) : Builder := { s.builder with inHand := some c }
    let stopped : Prop := answers { s.builder with inHand := none, due := none }
    let walksOn : Prop := answers (builds { b with candidate := none })
    let page := s.builder.pages.get (Fin.ofNat 4 b.serial)
    let room (targets : ZoneSet) (r : MessageRecord) : Prop := ∀ z : Zone, targets.getLsbD z.val = true →
      (page.get z).length < 24 ∧ sectionBlocks (page.get z) + (2 + r.blocks) ≤ 118
    let tagOf (r : MessageRecord) : Option (Fin 8) :=
      if (s.classOf r.subscriber).twoWay = true ∧ r.tag = none then lowestTag (s.sub r.subscriber).store.tags else r.tag
    let tagged (r : MessageRecord) : Prop := (s.classOf r.subscriber).twoWay = true → tagOf r ≠ none
    (b.candidate = none →
      (s.engine.state ≠ .running → stopped) ∧
      (s.engine.state = .running → s.unexamined b = [] →
        (s.builder.due = none → answers { s.builder with inHand := none }) ∧
        (∀ d, s.builder.due = some d → ∃ lit : ZoneSet,
          answers { s.builder with inHand := some ⟨d, none, lit, none⟩, due := none } ∧
          (∀ z : Zone, lit.getLsbD z.val = true ↔ s.air.monitor.state ≠ .lost ∧ ∃ l,
            (s.link l).settings.zone = some z ∧ ((s.link l).state = .keyed ∨ (s.link l).state = .standby) ∧
            (s.link l).keyOffPending = false ∧
            skipAhead (s.link l).settings.skip (d - s.air.serial) (s.link l).skipCounter = false))) ∧
      (∀ i rest, s.engine.state = .running → s.unexamined b = i :: rest →
        let r := s.msg i
        answers (builds { b with position := some ⟨r.urgent, r.sequence⟩, candidate := some ⟨i, r.generation, none⟩ }))) ∧
    (∀ c, b.candidate = some c → c.targets = none →
      let r := s.msg c.record
      let u := s.sub r.subscriber
      let fresh : ZoneSet := match u.reach.heardZone with
        | some z => if s.air.serial / 32 ≤ u.reach.heardCycle + s.engine.office.freshnessLimit then 1#4 <<< z.val else 0
        | none => 0
      let aimed : ZoneSet :=
        if (s.classOf r.subscriber).twoWay = false then u.billing.homeZones
        else if r.attempts = 0 then (if fresh = 0 then u.billing.homeZones else fresh)
        else if r.attempts = 1 then u.billing.homeZones ||| fresh
        else 0xF
      let targets := aimed &&& b.lit
      let passes : Prop := b.serial / 32 < r.expiry ∧ r.eligible ≤ b.serial / 32 ∧ s.inFlight r.subscriber < 4 ∧
        tagged r ∧ targets ≠ 0 ∧ room targets r
      (¬ passes → walksOn) ∧
      (passes → answers (builds { b with candidate := some { c with targets := some targets } }))) ∧
    (∀ c targets, b.candidate = some c → c.targets = some targets →
      let r := s.msg c.record
      let u := s.sub r.subscriber
      let granted : Prop := r.generation = c.generation ∧ r.state = .waiting ∧ u.billing.slot = Fin.ofNat 32 b.serial ∧
        tagged r ∧ s.inFlight r.subscriber < 4 ∧ room targets r
      (b.serial ≤ s.air.serial → walksOn) ∧
      (s.air.serial < b.serial → s.engine.state ≠ .running → stopped) ∧
      (s.air.serial < b.serial → s.engine.state = .running → ¬ granted → walksOn) ∧
      (s.air.serial < b.serial → s.engine.state = .running → granted → ∃ t, exec .buildCandidate s = .next t ∧
        t.msg c.record =
          { r with state := .placed, tag := tagOf r, placedSerial := some b.serial, placedZones := targets } ∧
        (∀ j, j ≠ c.record → t.msg j = s.msg j) ∧
        (∀ f : Fin 32, t.store.lists.get f =
          if f = u.billing.slot then (s.store.lists.get f).filter fun j => decide (j ≠ c.record)
          else s.store.lists.get f) ∧
        t.sub r.subscriber = { u with store := ⟨u.store.openCount,
          u.store.tags ||| (match tagOf r with | some g => 1#8 <<< g.val | none => 0)⟩ } ∧
        (∀ k, k ≠ r.subscriber → t.sub k = s.sub k) ∧
        (∀ k z, (t.builder.pages.get k).get z =
          if k = Fin.ofNat 4 b.serial ∧ targets.getLsbD z.val = true then
            page.get z ++
              [⟨c.record, r.generation, MessageRecord.pageWords { r with tag := tagOf r } s.engine.office.code⟩]
          else (s.builder.pages.get k).get z) ∧
        t = { s with
          account := { s.account with subscribers := t.account.subscribers }
          store := { s.store with records := t.store.records, lists := t.store.lists }
          builder := { s.builder with inHand := some { b with candidate := none }, pages := t.builder.pages } }))

/-- SETTLE_ENTRY (R102, R155, R157, R158): under its reservation the tracker takes the head of the settle list; an entry
whose record is no longer ON AIR with its generation and serial is discarded; otherwise the first matching row of the table
closes the record, makes it WAITING or HELD, or makes it AWAITING ACK with its deadline. -/
def Obligations.EntrySettledByFirstRow : Prop :=
  ∀ (s : State) (e : SettleEntry) (rest : List SettleEntry), s.Tidy → s.tracker.settle = e :: rest →
    s.ex.writer.holds .tracker = true →
    let i := e.record
    let r := s.msg i
    let u := s.sub r.subscriber
    let cls := s.classOf r.subscriber
    let taken : State := { s with tracker := { s.tracker with settle := rest } }
    let aired := r.placedZones &&& e.zones
    let attempts := if r.attempts < 15 then r.attempts + 1 else 15
    let current : Prop := r.state = .onAir ∧ r.generation = e.generation ∧ r.placedSerial = some e.serial
    let closed (q : MessageRecord) (o : CloseOutcome) : Prop :=
      exec .settleEntry s = .next ((taken.setMsg i q).close .tracker i o |>.endUnit .tracker)
    let moved (q : MessageRecord) : Prop := ∃ t, exec .settleEntry s = .next t ∧
      t.msg i = { q with cancelPending := false, ackedPending := false } ∧ (∀ j, j ≠ i → t.msg j = s.msg j) ∧
      (∀ f : Fin 32, t.store.lists.get f =
        if q.state = .waiting ∧ f = u.billing.slot then insertByKey (fun j => (t.msg j).key) i (s.store.lists.get f)
        else s.store.lists.get f) ∧
      t.tracker.deadlines = (match q.deadline with
        | some d => insertDeadline ⟨i, r.generation, d⟩ s.tracker.deadlines
        | none => s.tracker.deadlines) ∧
      s.UnitEnded t .tracker [] ∧
      t = { s with
        store := { s.store with records := t.store.records, lists := t.store.lists }
        tracker := { s.tracker with settle := rest, deadlines := t.tracker.deadlines }
        ex := t.ex }
    (¬ current → exec .settleEntry s = .next (taken.endUnit .tracker)) ∧
    (current →
      (r.ackedPending = true → closed r .delivered) ∧
      (r.ackedPending = false → r.cancelPending = true → closed r .cancelled) ∧
      (r.ackedPending = false → r.cancelPending = false →
        (aired = 0 →
          (r.expiry ≤ s.air.serial / 32 → closed r .expired) ∧
          (s.air.serial / 32 < r.expiry →
            moved { r with state := if u.reach.unreachable then .held else .waiting, deadline := none })) ∧
        (aired ≠ 0 →
          let raised := { r with attempts := attempts, airedZones := aired }
          (cls.twoWay = true →
            moved { raised with state := .awaitingAck, deadline := some (e.serial + cls.ackWindow) }) ∧
          (cls.twoWay = false → cls.repeatCount ≤ attempts → closed raised .sent) ∧
          (cls.twoWay = false → attempts < cls.repeatCount → u.reach.unreachable = true →
            moved { raised with state := .held, deadline := none }) ∧
          (cls.twoWay = false → attempts < cls.repeatCount → u.reach.unreachable = false →
            moved { raised with state := .waiting, eligible := e.serial / 32 + 1, deadline := none }))))

/-- RETURN_MESSAGE_ITEM (R103, R156, R159 to R161, R165): under its reservation the tracker takes the head of the reverse
queue unless a due deadline comes before it. An ACK closes the subscriber's record holding its tag DELIVERED, marks it
acked-pending while PLACED or ON AIR, or hands UNMATCHED ACK; an ACTIVE or BARRED subscriber's miss count then becomes 0, an
unreachable one is released, and its location is debounced, with SUBSCRIBER RELEASED and MOVED in that order. -/
def Obligations.ReturnItemProcessed : Prop :=
  (∀ (s : State) (e : ReverseEntry) (rest : List ReverseEntry), s.Tidy → s.tracker.reverse = e :: rest →
    s.ex.writer.holds .tracker = true →
    let n := e.address % 65536
    let state := (s.sub n).billing.state
    let taken : State := { s with tracker := { s.tracker with reverse := rest } }
    let unmatched : Record :=
      [0x08, word e.link.val, word e.zone.val, word e.address, word e.tag.val, word e.arrival, state.code]
    let holder (r : MessageRecord) : Prop := r.state ≠ .free ∧ r.subscriber = n ∧ r.tag = some e.tag
    let ends (t : State) : Prop := exec .returnMessageItem s = .next (t.endUnit .tracker)
    (∀ d ds, s.tracker.deadlines = d :: ds → d.serial ≤ s.air.serial → d.serial ≤ e.arrival →
      exec .returnMessageItem s = .next s) ∧
    ((∀ d ds, s.tracker.deadlines = d :: ds → d.serial ≤ s.air.serial → e.arrival < d.serial) →
      (state = .vacant → e.isAck = false → ends taken) ∧
      (state = .vacant → e.isAck = true → ends (taken.hand .tracker unmatched)) ∧
      (state ≠ .vacant → e.isAck = false → ends (taken.heard n e)) ∧
      (state ≠ .vacant → e.isAck = true →
        ((∀ i, ¬ holder (s.msg i)) → ends ((taken.hand .tracker unmatched).heard n e)) ∧
        (∀ i, holder (s.msg i) → (∀ j, j ≠ i → ¬ holder (s.msg j)) →
          ((s.msg i).state = .placed ∨ (s.msg i).state = .onAir →
            ends ((taken.setMsg i { s.msg i with ackedPending := true }).heard n e)) ∧
          ((s.msg i).state ≠ .placed → (s.msg i).state ≠ .onAir →
            ends ((taken.close .tracker i .delivered).heard n e)))))) ∧
  (∀ (s : State) (n : Nat) (e : ReverseEntry), s.Tidy →
    let u := s.sub n
    let v := u.reach
    let held := s.msgsWhere fun r => decide (r.subscriber = n ∧ r.state = .held)
    let count := if v.candidateZone = some e.zone then min 7 (v.candidateCount + 1) else 1
    let confirmed := decide (s.engine.office.locationConfirm ≤ count)
    let heardZone := if confirmed then some e.zone else v.heardZone
    let t := s.heard n e
    t.sub n = { u with reach := ⟨0, false, heardZone, if confirmed then e.arrival / 32 else v.heardCycle, some e.zone,
      count⟩ } ∧
    (∀ k, k ≠ n → t.sub k = s.sub k) ∧
    (∀ i, t.msg i = if v.unreachable = true ∧ (s.msg i).subscriber = n ∧ (s.msg i).state = .held then
        { s.msg i with
          state := .waiting, attempts := 0, eligible := 0, deadline := none, cancelPending := false, ackedPending := false }
      else s.msg i) ∧
    (∀ f : Fin 32, t.store.lists.get f = if v.unreachable = true ∧ f = u.billing.slot then
        held.foldl (fun l i => insertByKey (fun j => (s.msg j).key) i l) (s.store.lists.get f)
      else s.store.lists.get f) ∧
    t.ex = (s.handAll .tracker
      ((if v.unreachable then [[0x0A, word n, 0, word held.length, word e.arrival]] else []) ++
        (if heardZone ≠ v.heardZone ∧ u.billing.notifyMoves = true then
          [[0x0B, word n, wordZone v.heardZone, wordZone heardZone, word e.link.val, word e.arrival]] else []))).ex ∧
    t = { s with
      account := { s.account with subscribers := t.account.subscribers }
      store := { s.store with records := t.store.records, lists := t.store.lists }
      ex := t.ex })

/-- DEADLINE_ITEM (R103, R156, R162 to R164): under its reservation the tracker takes a due deadline unless a return message
comes before it. The miss count rises, stopping at 16; at the latch limit a reachable subscriber becomes unreachable, its
WAITING records are HELD and SUBSCRIBER HELD is handed; then the first matching row closes the record UNDELIVERED or
EXPIRED, holds it, or makes it WAITING with the backoff's eligible cycle. -/
def Obligations.DeadlineItemProcessed : Prop :=
  (∀ (s : State) (e : DeadlineEntry) (rest : List DeadlineEntry), s.Tidy → s.tracker.deadlines = e :: rest →
    s.ex.writer.holds .tracker = true → (s.msg e.record).state = .awaitingAck →
    let i := e.record
    let r := s.msg i
    let n := r.subscriber
    let cls := s.classOf n
    let cycle := e.serial / 32
    let judged := s.missLatch n
    let unreachable := (judged.sub n).reach.unreachable
    let moved (q : MessageRecord) : Prop := ∃ t, exec .deadlineItem s = .next t ∧
      t.msg i = { q with deadline := none, cancelPending := false, ackedPending := false } ∧
      (∀ j, j ≠ i → t.msg j = judged.msg j) ∧
      t.tracker.deadlines = s.tracker.deadlines.filter (fun d => decide (d.record ≠ i)) ∧
      (∀ f : Fin 32, t.store.lists.get f =
        if q.state = .waiting ∧ f = (s.sub n).billing.slot then
          insertByKey (fun j => (t.msg j).key) i (judged.store.lists.get f)
        else judged.store.lists.get f) ∧
      judged.UnitEnded t .tracker [] ∧
      t = { judged with
        store := { judged.store with records := t.store.records, lists := t.store.lists }
        tracker := { judged.tracker with deadlines := t.tracker.deadlines }
        ex := t.ex }
    let closed (o : CloseOutcome) : Prop :=
      exec .deadlineItem s = .next ((judged.close .tracker i o).endUnit .tracker)
    let first : Prop := ∀ q qs, s.tracker.reverse = q :: qs → e.serial ≤ q.arrival
    (s.air.serial < e.serial → exec .deadlineItem s = .next s) ∧
    (∀ q qs, s.tracker.reverse = q :: qs → q.arrival < e.serial → exec .deadlineItem s = .next s) ∧
    (e.serial ≤ s.air.serial → first →
      (cls.retryLimit ≤ r.attempts → closed .undelivered) ∧
      (r.attempts < cls.retryLimit → r.expiry ≤ cycle → closed .expired) ∧
      (r.attempts < cls.retryLimit → cycle < r.expiry →
        (unreachable = true → moved { r with state := .held }) ∧
        (unreachable = false → moved { r with
          state := .waiting, eligible := cycle + 1 + min (2 ^ (r.attempts - 1) - 1) cls.backoffCap })))) ∧
  (∀ (s : State) (n : Nat), s.Tidy →
    let u := s.sub n
    let misses := min 16 (u.reach.missCount + 1)
    let limit := s.engine.office.missLatchLimit
    let latches : Prop := limit ≠ 0 ∧ limit ≤ misses ∧ u.reach.unreachable = false
    let waiting := s.msgsWhere fun r => decide (r.subscriber = n ∧ r.state = .waiting)
    let t := s.missLatch n
    (∀ k, k ≠ n → t.sub k = s.sub k) ∧
    (¬ latches → t.sub n = { u with reach := { u.reach with missCount := misses } } ∧
      t = { s with account := { s.account with subscribers := t.account.subscribers } }) ∧
    (latches → t.sub n = { u with reach := { u.reach with missCount := misses, unreachable := true } } ∧
      (∀ i, t.msg i = if (s.msg i).subscriber = n ∧ (s.msg i).state = .waiting then
          { s.msg i with state := .held, deadline := none, cancelPending := false, ackedPending := false }
        else s.msg i) ∧
      (∀ f : Fin 32, t.store.lists.get f = if f = u.billing.slot then
          (s.store.lists.get f).filter fun i => decide (i ∉ waiting) else s.store.lists.get f) ∧
      t.ex = (s.hand .tracker [0x09, word n, word misses, word waiting.length, word s.air.serial]).ex ∧
      t = { s with
        account := { s.account with subscribers := t.account.subscribers }
        store := { s.store with records := t.store.records, lists := t.store.lists }
        ex := t.ex }))

/-- EXPIRY_SWEEP_START, SWEEP_VISIT, SWEEP_CLOSE and AIR_STOP_CLOSE (R108, R109): the mark with frame number 0 starts the
sweep, or rebinds it and flags it to restart; a visit asks room for a WAITING or HELD record expired at the bound and passes
over any other, past the last record ending or restarting; under the reservation the record, read again, is closed EXPIRED
or left, and the lowest record held from an air stop is closed DELIVERED or CANCELLED by its markers. That
EXPIRY_SWEEP_START is the mark whole and changes nothing elsewhere (log entry 7), that either close uses whichever
reservation the message store holds (log entry 17), and what an ended sweep's next index and bound hold (log entry 28), is
the model's choice. -/
def Obligations.SweepAndAirStopClose : Prop :=
  ∀ s : State,
    let w := s.store.sweep
    let i := w.next
    let r := s.msg i
    let m := s.air.serial + 1
    let expired : Prop := (r.state = .waiting ∨ r.state = .held) ∧ r.expiry ≤ w.bound
    let onward : Sweep :=
      if i < 16383 then { w with next := i + 1, waiting := none }
      else if w.restart then ⟨true, 0, w.bound, false, none⟩ else ⟨false, 0, w.bound, false, none⟩
    let swept (t : State) (v : Sweep) : State := { t with store := { t.store with sweep := v } }
    (s.air.firstNext = true → s.engine.state = .running ∨ s.engine.state = .stopping → m < 2 ^ 32 →
      (m % 32 = 0 → ∃ t, exec .expirySweepStart s = .next t ∧ exec .frameMark s = .next t ∧ t.air.serial = m ∧
        (w.inFlight = false → t.store.sweep = ⟨true, 0, m / 32, false, none⟩) ∧
        (w.inFlight = true → t.store.sweep = { w with bound := m / 32, restart := true })) ∧
      (m % 32 ≠ 0 → exec .expirySweepStart s = .next s)) ∧
    (w.inFlight = true → w.waiting = none → s.store.airStop = [] →
      (expired → ∃ t, exec .sweepVisit s = .next t ∧
        (t.ex.writer.holds .messageStore = true ∨ .messageStore ∈ t.ex.writer.waiting) ∧ t.ex.mem = s.ex.mem ∧
        t.ex.summary = s.ex.summary ∧ t.ex.slots = s.ex.slots ∧ t.ex.queue = s.ex.queue ∧
        t = { swept s { w with waiting := some r.generation } with ex := t.ex }) ∧
      (¬ expired → exec .sweepVisit s = .next (swept s onward))) ∧
    (∀ g, w.waiting = some g → s.ex.writer.holds .messageStore = true →
      (r.generation = g → expired →
        exec .sweepClose s = .next ((swept (s.close .messageStore i .expired) onward).endUnit .messageStore)) ∧
      (¬ (r.generation = g ∧ expired) → exec .sweepClose s = .next ((swept s onward).endUnit .messageStore))) ∧
    (∀ k rest, s.store.airStop = k :: rest → s.ex.writer.holds .messageStore = true →
      let stopped (o : CloseOutcome) : Prop :=
        let t := s.close .messageStore k o
        exec .airStopClose s =
          .next (State.endUnit { t with store := { t.store with airStop := rest } } .messageStore)
      ((s.msg k).ackedPending = true → stopped .delivered) ∧ ((s.msg k).ackedPending = false → stopped .cancelled))

/-- ROLL_WALK_VISIT (R57, R61 to R63): under its reservation the walk visits the next subscriber: a non-VACANT record of
another period is rolled with a PERIOD SUMMARY of source WALK and counted, any other is passed over. The unit ends when one
position is left; past subscriber 65535 the walk ends with PERIOD CLOSED and returns its room. -/
def Obligations.RollWalkVisits : Prop :=
  ∀ s : State, s.Tidy → s.account.walk.inFlight = true → s.ex.writer.holds .rollWalk = true →
    let n := s.account.walk.next
    let u := s.sub n
    let b := u.billing
    let stale := decide (b.state ≠ .vacant ∧ b.period ≠ s.account.period)
    let count := if stale then s.account.walk.count + 1 else s.account.walk.count
    let summary : List Record := if stale then [[0x05, word n, word b.period, word b.counters.messages,
      word b.counters.textBlocks, word b.counters.charges, word b.counters.refunds, wordInt b.counters.credits,
      wordInt b.balance, wordFlag b.lowBalance, word b.plan.val, 0]] else []
    let visited := (s.handAll .rollWalk summary).ex
    ∃ t, exec .rollWalkVisit s = .next t ∧
      t.sub n = (if stale then
        { u with billing := { b with counters := ⟨0, 0, 0, 0, 0⟩, period := s.account.period } } else u) ∧
      (∀ k, k ≠ n → t.sub k = s.sub k) ∧
      t.account.plans = s.account.plans ∧ t.account.period = s.account.period ∧
      (n < 65535 → t.account.walk = ⟨true, n + 1, count⟩ ∧
        (1 < visited.writer.left .rollWalk → t.ex = visited) ∧
        (visited.writer.left .rollWalk ≤ 1 → s.UnitEnded t .rollWalk summary)) ∧
      (65535 ≤ n → t.account.walk = ⟨false, 0, 0⟩ ∧
        t.ex = ((s.handAll .rollWalk (summary ++
          [[0x06, word ((s.account.period + 65535) % 65536), word s.account.period, word count]])).giveBack .rollWalk).ex) ∧
      t = { s with account := t.account, ex := t.ex }
end

