-- ==== Sys2Proof/Laws/Tables.lean ====
section
/-! SUPPORT. What the sparse tables and the bytes of the exchange window do: reading after writing, and the canonical form
kept by every operation. -/

namespace Sys2Proof.Machine

variable {α : Type}

/-! ## Reading -/

@[simp] theorem Table.get_nil (d : α) (a : Nat) : Table.get d [] a = d := rfl

theorem Table.wfFrom_mono [DecidableEq α] {d : α} {t : Table α} {low high : Nat} (le : low ≤ high)
    (h : Table.wfFrom d high t = true) : Table.wfFrom d low t = true := by
  cases t with
  | nil => rfl
  | cons e rest =>
    simp only [Table.wfFrom, Bool.and_eq_true, decide_eq_true_eq] at h ⊢
    exact ⟨⟨le_trans le h.1.1, h.1.2⟩, h.2⟩

/-- A key below every listed one holds the unlisted value. -/
theorem Table.get_of_lt [DecidableEq α] {d : α} {t : Table α} {low a : Nat} (h : Table.wfFrom d low t = true)
    (lt : a < low) : Table.get d t a = d := by
  induction t generalizing low with
  | nil => rfl
  | cons e rest ih =>
    simp only [Table.wfFrom, Bool.and_eq_true, decide_eq_true_eq] at h
    have ne : a ≠ e.1 := by omega
    rw [Table.get, if_neg ne]
    exact ih h.2 (by omega)

/-- A key holds what it was set to. -/
theorem Table.get_set_same [DecidableEq α] {d : α} {t : Table α} {low : Nat} (h : Table.wfFrom d low t = true)
    (a : Nat) (v : α) : Table.get d (Table.set d a v t) a = v := by
  induction t generalizing low with
  | nil => by_cases e : v = d <;> simp [Table.set, Table.get, e]
  | cons e rest ih =>
    simp only [Table.wfFrom, Bool.and_eq_true, decide_eq_true_eq] at h
    unfold Table.set
    split
    · next lt =>
      split
      · next eq =>
        rw [Table.get, if_neg (by omega), Table.get_of_lt h.2 (by omega), eq]
      · simp [Table.get]
    · split
      · next nlt eq =>
        split
        · next ev => rw [Table.get_of_lt h.2 (by omega), ev]
        · simp [Table.get]
      · next nlt ne => rw [Table.get, if_neg ne]; exact ih h.2

/-- Another key holds what it held. -/
theorem Table.get_set_other [DecidableEq α] {d : α} {t : Table α} {a b : Nat} (ne : b ≠ a) (v : α) :
    Table.get d (Table.set d a v t) b = Table.get d t b := by
  induction t with
  | nil => by_cases e : v = d <;> simp [Table.set, Table.get, e, ne]
  | cons e rest ih =>
    unfold Table.set
    split
    · split
      · rfl
      · simp [Table.get, ne]
    · split
      · next nlt eq =>
        subst eq
        split <;> simp [Table.get, ne]
      · simp only [Table.get, ih]

theorem Table.get_set [DecidableEq α] {d : α} {t : Table α} (h : Table.wf d t = true) (a b : Nat) (v : α) :
    Table.get d (Table.set d a v t) b = if b = a then v else Table.get d t b := by
  by_cases e : b = a
  · rw [if_pos e, e]; exact Table.get_set_same h a v
  · rw [if_neg e]; exact Table.get_set_other e v

/-- A set key below which nothing is listed keeps the canonical form from any bound at or below both. -/
theorem Table.wfFrom_set [DecidableEq α] {d : α} {t : Table α} {low : Nat} (h : Table.wfFrom d low t = true)
    {a : Nat} (la : low ≤ a) (v : α) : Table.wfFrom d low (Table.set d a v t) = true := by
  induction t generalizing low with
  | nil => by_cases e : v = d <;> simp [Table.set, Table.wfFrom, e, la]
  | cons e rest ih =>
    have h' := h
    simp only [Table.wfFrom, Bool.and_eq_true, decide_eq_true_eq] at h
    unfold Table.set
    split
    · next lt =>
      split
      · exact h'
      · next ne =>
        simp only [Table.wfFrom, Bool.and_eq_true, decide_eq_true_eq]
        exact ⟨⟨la, ne⟩, ⟨by omega, h.1.2⟩, h.2⟩
    · split
      · next nlt eq =>
        split
        · exact Table.wfFrom_mono (by omega) h.2
        · next ne =>
          simp only [Table.wfFrom, Bool.and_eq_true, decide_eq_true_eq]
          exact ⟨⟨la, ne⟩, by rw [eq]; exact h.2⟩
      · next nlt ne =>
        simp only [Table.wfFrom, Bool.and_eq_true, decide_eq_true_eq]
        exact ⟨h.1, ih h.2 (by omega)⟩

/-- Setting a key keeps the canonical form. -/
theorem Table.wf_set [DecidableEq α] {d : α} {t : Table α} (h : Table.wf d t = true) (a : Nat) (v : α) :
    Table.wf d (Table.set d a v t) = true := Table.wfFrom_set h (Nat.zero_le a) v

theorem Table.wfFrom_mapValues [DecidableEq α] {d : α} (f : Nat → α → α) {t : Table α} {low : Nat}
    (h : Table.wfFrom d low t = true) : Table.wfFrom d low (Table.mapValues d f t) = true := by
  induction t generalizing low with
  | nil => rfl
  | cons e rest ih =>
    simp only [Table.wfFrom, Bool.and_eq_true, decide_eq_true_eq] at h
    unfold Table.mapValues
    split
    · exact Table.wfFrom_mono (by omega) (ih h.2)
    · next ne =>
      simp only [Table.wfFrom, Bool.and_eq_true, decide_eq_true_eq]
      exact ⟨⟨h.1.1, ne⟩, ih h.2⟩

/-- Mapping the values keeps the canonical form. -/
theorem Table.wf_mapValues [DecidableEq α] {d : α} (f : Nat → α → α) {t : Table α} (h : Table.wf d t = true) :
    Table.wf d (Table.mapValues d f t) = true := Table.wfFrom_mapValues f h

/-- A mapped table holds the mapped value at every key, where the unlisted value maps to itself. -/
theorem Table.get_mapValues [DecidableEq α] {d : α} {f : Nat → α → α} (fd : ∀ k, f k d = d) {t : Table α} {low : Nat}
    (h : Table.wfFrom d low t = true) (a : Nat) :
    Table.get d (Table.mapValues d f t) a = f a (Table.get d t a) := by
  induction t generalizing low with
  | nil => simp [Table.mapValues, Table.get, fd]
  | cons e rest ih =>
    simp only [Table.wfFrom, Bool.and_eq_true, decide_eq_true_eq] at h
    unfold Table.mapValues
    split
    · next eq =>
      rw [ih h.2, Table.get]
      split
      · next ea => rw [Table.get_of_lt h.2 (by omega), fd, ea, eq]
      · rfl
    · next ne =>
      simp only [Table.get]
      split
      · next ea => rw [ea]
      · exact ih h.2

/-- A key is listed among those satisfying `p` exactly when its value does, where the unlisted value does not. -/
theorem Table.mem_keysWhere [DecidableEq α] {d : α} {p : Nat → α → Bool} (pd : ∀ k, p k d = false) {t : Table α}
    {low : Nat} (h : Table.wfFrom d low t = true) (a : Nat) :
    a ∈ Table.keysWhere p t ↔ p a (Table.get d t a) = true := by
  induction t generalizing low with
  | nil => simp [Table.keysWhere, Table.get, pd]
  | cons e rest ih =>
    simp only [Table.wfFrom, Bool.and_eq_true, decide_eq_true_eq] at h
    have tail := ih h.2
    unfold Table.keysWhere at tail ⊢
    rw [List.filter_cons, Table.get]
    by_cases ea : a = e.1
    · rw [if_pos ea]
      by_cases pe : p e.1 e.2 = true
      · simp [pe, ea]
      · rw [if_neg pe, tail, Table.get_of_lt h.2 (by omega), pd, ea]
        simp [pe]
    · rw [if_neg ea]
      by_cases pe : p e.1 e.2 = true
      · rw [if_pos pe, List.map_cons, List.mem_cons, tail]
        simp [ea]
      · rw [if_neg pe, tail]

/-- Setting a key moves the count of values satisfying `p` by the old value's and the new value's share. -/
theorem Table.countWhere_set [DecidableEq α] {d : α} {p : α → Bool} (pd : p d = false) {t : Table α} {low : Nat}
    (h : Table.wfFrom d low t = true) (a : Nat) (v : α) :
    Table.countWhere p (Table.set d a v t) + (if p (Table.get d t a) then 1 else 0) =
      Table.countWhere p t + (if p v then 1 else 0) := by
  induction t generalizing low with
  | nil => by_cases e : v = d <;> by_cases pv : p v <;> simp_all [Table.set, Table.get, Table.countWhere]
  | cons e rest ih =>
    simp only [Table.wfFrom, Bool.and_eq_true, decide_eq_true_eq] at h
    have tail := ih h.2
    unfold Table.set
    split
    · next lt =>
      have g : Table.get d (e :: rest) a = d := by
        rw [Table.get, if_neg (by omega)]
        exact Table.get_of_lt h.2 (by omega)
      rw [g, pd]
      split
      · next eq => simp [eq, pd]
      · by_cases pv : p v <;> simp [Table.countWhere, pv]
    · split
      · next nlt eq =>
        rw [Table.get, if_pos eq]
        split
        · next ev => by_cases pe : p e.2 <;> simp [Table.countWhere, pe, ev, pd]
        · by_cases pe : p e.2 <;> by_cases pv : p v <;> simp [Table.countWhere, pe, pv]
      · next nlt ne =>
        rw [Table.get, if_neg ne]
        unfold Table.countWhere at tail ⊢
        by_cases pe : p e.2
        · simp only [List.filter_cons, pe, if_true, List.length_cons]
          omega
        · simpa only [List.filter_cons, pe, if_false, Bool.false_eq_true] using tail

/-! ## The bytes of the exchange window -/

/-- A read after a write to the same byte gives the byte written. -/
theorem Memory.read_write_same {m : List Host.Cell} (h : Memory.wf m = true) (a : Nat) (b : Byte) :
    Memory.read (Memory.write m a b) a = b := Table.get_set_same h a b

/-- A write leaves every other byte alone. -/
theorem Memory.read_write_other {m : List Host.Cell} {a c : Nat} (ne : c ≠ a) (b : Byte) :
    Memory.read (Memory.write m a b) c = Memory.read m c := Table.get_set_other ne b

/-- A write keeps the canonical form. -/
theorem Memory.wf_write {m : List Host.Cell} (h : Memory.wf m = true) (a : Nat) (b : Byte) :
    Memory.wf (Memory.write m a b) = true := Table.wf_set h a b

/-- A write of a word's enabled bytes keeps the canonical form. -/
theorem Memory.wf_writeEnabled {m : List Host.Cell} (h : Memory.wf m = true) (a : Nat) (w : Word) (e : BitVec 4) :
    Memory.wf (Memory.writeEnabled m a w e) = true := by
  have put : ∀ (m : List Host.Cell) (i : Nat), Memory.wf m = true →
      Memory.wf (if e.getLsbD i then Memory.write m (a + i) (byteOf w i) else m) = true := by
    intro m i hm
    split
    · exact Memory.wf_write hm _ _
    · exact hm
  exact put _ 3 (put _ 2 (put _ 1 (put _ 0 h)))

theorem Memory.wf_writeWord {m : List Host.Cell} (h : Memory.wf m = true) (a : Nat) (w : Word) :
    Memory.wf (Memory.writeWord m a w) = true := Memory.wf_writeEnabled h a w _

/-- A write of words keeps the canonical form. -/
theorem Memory.wf_writeWords {m : List Host.Cell} (h : Memory.wf m = true) (a : Nat) (ws : List Word) :
    Memory.wf (Memory.writeWords m a ws) = true := by
  induction ws generalizing m a with
  | nil => exact h
  | cons w rest ih => exact ih (Memory.wf_writeWord h a w) (a + 4)

/-- A write of a word's enabled bytes leaves every byte outside the word alone. -/
theorem Memory.read_writeEnabled_other {m : List Host.Cell} {a c : Nat} (out : c < a ∨ a + 4 ≤ c) (w : Word)
    (e : BitVec 4) : Memory.read (Memory.writeEnabled m a w e) c = Memory.read m c := by
  have put : ∀ (m : List Host.Cell) (i : Nat), i < 4 →
      Memory.read (if e.getLsbD i then Memory.write m (a + i) (byteOf w i) else m) c = Memory.read m c := by
    intro m i hi
    split
    · exact Memory.read_write_other (by omega) _
    · rfl
  unfold Memory.writeEnabled
  rw [put _ 3 (by omega), put _ 2 (by omega), put _ 1 (by omega), put _ 0 (by omega)]

theorem Memory.read_writeWord_other {m : List Host.Cell} {a c : Nat} (out : c < a ∨ a + 4 ≤ c) (w : Word) :
    Memory.read (Memory.writeWord m a w) c = Memory.read m c := Memory.read_writeEnabled_other out w _

/-- A write of words leaves every byte outside them alone. -/
theorem Memory.read_writeWords_other {m : List Host.Cell} {a c : Nat} {ws : List Word}
    (out : c < a ∨ a + 4 * ws.length ≤ c) : Memory.read (Memory.writeWords m a ws) c = Memory.read m c := by
  induction ws generalizing m a with
  | nil => rfl
  | cons w rest ih =>
    simp only [List.length_cons] at out
    rw [Memory.writeWords, ih (by omega), Memory.read_writeWord_other (by omega)]

/-- Within a word whose enabled bytes are written, an enabled byte reads as written and another as it read. -/
theorem Memory.read_writeEnabled_byte {m : List Host.Cell} (h : Memory.wf m = true) (a : Nat) (w : Word)
    (e : BitVec 4) {i : Nat} (hi : i < 4) :
    Memory.read (Memory.writeEnabled m a w e) (a + i) =
      if e.getLsbD i then byteOf w i else Memory.read m (a + i) := by
  have keep : ∀ (m : List Host.Cell) (j : Nat), j ≠ i →
      Memory.read (if e.getLsbD j then Memory.write m (a + j) (byteOf w j) else m) (a + i) =
        Memory.read m (a + i) := by
    intro m j hj
    split
    · exact Memory.read_write_other (by omega) _
    · rfl
  have here : ∀ (m : List Host.Cell), Memory.wf m = true →
      Memory.read (if e.getLsbD i then Memory.write m (a + i) (byteOf w i) else m) (a + i) =
        if e.getLsbD i then byteOf w i else Memory.read m (a + i) := by
    intro m hm
    split
    · exact Memory.read_write_same hm _ _
    · rfl
  have put : ∀ (m : List Host.Cell) (i : Nat), Memory.wf m = true →
      Memory.wf (if e.getLsbD i then Memory.write m (a + i) (byteOf w i) else m) = true := by
    intro m i hm
    split
    · exact Memory.wf_write hm _ _
    · exact hm
  unfold Memory.writeEnabled
  have h0 := put m 0 h
  have h1 := put _ 1 h0
  have h2 := put _ 2 h1
  match i, hi with
  | 0, _ => rw [keep _ 3 (by decide), keep _ 2 (by decide), keep _ 1 (by decide), here _ h]
  | 1, _ => rw [keep _ 3 (by decide), keep _ 2 (by decide), here _ h0, keep _ 0 (by decide)]
  | 2, _ => rw [keep _ 3 (by decide), here _ h1, keep _ 1 (by decide), keep _ 0 (by decide)]
  | 3, _ => rw [here _ h2, keep _ 2 (by decide), keep _ 1 (by decide), keep _ 0 (by decide)]

/-- A word is made of its four bytes, byte 0 the least significant. -/
theorem word_of_bytes (w : Word) : byteOf w 3 ++ byteOf w 2 ++ byteOf w 1 ++ byteOf w 0 = w := by
  apply BitVec.eq_of_getLsbD_eq
  intro i hi
  simp only [BitVec.getLsbD_append, byteOf, BitVec.getLsbD_extractLsb']
  split_ifs <;> (rw [decide_eq_true (by omega), Bool.true_and]; congr 1; omega)

/-! ## Words -/

/-- A word read is decided by its four bytes. -/
theorem Memory.readWord_congr {m n : List Host.Cell} {a : Nat}
    (h : ∀ i, i < 4 → Memory.read m (a + i) = Memory.read n (a + i)) : Memory.readWord m a = Memory.readWord n a := by
  have h0 : Memory.read m a = Memory.read n a := h 0 (by decide)
  simp only [Memory.readWord, h 3 (by decide), h 2 (by decide), h 1 (by decide), h0]

/-- A word written reads back. -/
theorem Memory.readWord_writeWord_same {m : List Host.Cell} (h : Memory.wf m = true) (a : Nat) (w : Word) :
    Memory.readWord (Memory.writeWord m a w) a = w := by
  have b : ∀ i, i < 4 → Memory.read (Memory.writeWord m a w) (a + i) = byteOf w i := by
    intro i hi
    rw [Memory.writeWord, Memory.read_writeEnabled_byte h a w 0xF hi]
    have e : (0xF : BitVec 4).getLsbD i = true := by
      match i, hi with
      | 0, _ => rfl
      | 1, _ => rfl
      | 2, _ => rfl
      | 3, _ => rfl
    rw [if_pos e]
  have b0 : Memory.read (Memory.writeWord m a w) a = byteOf w 0 := b 0 (by decide)
  rw [Memory.readWord, b 3 (by decide), b 2 (by decide), b 1 (by decide), b0, word_of_bytes]

/-- Words written elsewhere leave a word alone. -/
theorem Memory.readWord_writeWords_other {m : List Host.Cell} {a c : Nat} {ws : List Word}
    (out : c + 4 ≤ a ∨ a + 4 * ws.length ≤ c) :
    Memory.readWord (Memory.writeWords m a ws) c = Memory.readWord m c :=
  Memory.readWord_congr fun i hi => Memory.read_writeWords_other (by omega)

theorem Memory.readWord_writeWord_other {m : List Host.Cell} {a c : Nat} (out : c + 4 ≤ a ∨ a + 4 ≤ c) (w : Word) :
    Memory.readWord (Memory.writeWord m a w) c = Memory.readWord m c :=
  Memory.readWord_congr fun i hi => Memory.read_writeWord_other (by omega) w

/-- Words written read back in order. -/
theorem Memory.readWords_writeWords_same {m : List Host.Cell} (h : Memory.wf m = true) (a : Nat) (ws : List Word) :
    Memory.readWords (Memory.writeWords m a ws) a ws.length = ws := by
  induction ws generalizing m a with
  | nil => rfl
  | cons w rest ih =>
    have wf := Memory.wf_writeWord h a w
    simp only [List.length_cons, Memory.writeWords, Memory.readWords]
    rw [ih wf (a + 4), Memory.readWord_writeWords_other (by omega), Memory.readWord_writeWord_same h]

/-- Words read are decided by their bytes. -/
theorem Memory.readWords_congr {m n : List Host.Cell} {a k : Nat}
    (h : ∀ c, a ≤ c → c < a + 4 * k → Memory.read m c = Memory.read n c) :
    Memory.readWords m a k = Memory.readWords n a k := by
  induction k generalizing a with
  | zero => rfl
  | succ k ih =>
    rw [Memory.readWords, Memory.readWords, Memory.readWord_congr fun i hi => h (a + i) (by omega) (by omega),
      ih fun c l u => h c (by omega) (by omega)]

end Sys2Proof.Machine
end

