-- ==== Sys2Proof/Laws/State.lean ====
section
/-! SUPPORT. One lemma per field per update of State: what each named update leaves as it is, true by unfolding. -/

namespace Sys2Proof.Machine

/-! ### setSub -/

@[simp] theorem State.setSub_pending (s : State) (n : Nat) (u : Subscriber) : (s.setSub n u).pending = s.pending := rfl
@[simp] theorem State.setSub_engine (s : State) (n : Nat) (u : Subscriber) : (s.setSub n u).engine = s.engine := rfl
@[simp] theorem State.setSub_air (s : State) (n : Nat) (u : Subscriber) : (s.setSub n u).air = s.air := rfl
@[simp] theorem State.setSub_store (s : State) (n : Nat) (u : Subscriber) : (s.setSub n u).store = s.store := rfl
@[simp] theorem State.setSub_builder (s : State) (n : Nat) (u : Subscriber) : (s.setSub n u).builder = s.builder := rfl
@[simp] theorem State.setSub_links (s : State) (n : Nat) (u : Subscriber) : (s.setSub n u).links = s.links := rfl
@[simp] theorem State.setSub_frame (s : State) (n : Nat) (u : Subscriber) : (s.setSub n u).frame = s.frame := rfl
@[simp] theorem State.setSub_tracker (s : State) (n : Nat) (u : Subscriber) : (s.setSub n u).tracker = s.tracker := rfl
@[simp] theorem State.setSub_arbiter (s : State) (n : Nat) (u : Subscriber) : (s.setSub n u).arbiter = s.arbiter := rfl
@[simp] theorem State.setSub_ex (s : State) (n : Nat) (u : Subscriber) : (s.setSub n u).ex = s.ex := rfl

/-! ### setBilling -/

@[simp] theorem State.setBilling_pending (s : State) (n : Nat) (b : Billing) : (s.setBilling n b).pending = s.pending := rfl
@[simp] theorem State.setBilling_engine (s : State) (n : Nat) (b : Billing) : (s.setBilling n b).engine = s.engine := rfl
@[simp] theorem State.setBilling_air (s : State) (n : Nat) (b : Billing) : (s.setBilling n b).air = s.air := rfl
@[simp] theorem State.setBilling_store (s : State) (n : Nat) (b : Billing) : (s.setBilling n b).store = s.store := rfl
@[simp] theorem State.setBilling_builder (s : State) (n : Nat) (b : Billing) : (s.setBilling n b).builder = s.builder := rfl
@[simp] theorem State.setBilling_links (s : State) (n : Nat) (b : Billing) : (s.setBilling n b).links = s.links := rfl
@[simp] theorem State.setBilling_frame (s : State) (n : Nat) (b : Billing) : (s.setBilling n b).frame = s.frame := rfl
@[simp] theorem State.setBilling_tracker (s : State) (n : Nat) (b : Billing) : (s.setBilling n b).tracker = s.tracker := rfl
@[simp] theorem State.setBilling_arbiter (s : State) (n : Nat) (b : Billing) : (s.setBilling n b).arbiter = s.arbiter := rfl
@[simp] theorem State.setBilling_ex (s : State) (n : Nat) (b : Billing) : (s.setBilling n b).ex = s.ex := rfl

/-! ### setStoreGroup -/

@[simp] theorem State.setStoreGroup_pending (s : State) (n : Nat) (g : StoreGroup) : (s.setStoreGroup n g).pending = s.pending := rfl
@[simp] theorem State.setStoreGroup_engine (s : State) (n : Nat) (g : StoreGroup) : (s.setStoreGroup n g).engine = s.engine := rfl
@[simp] theorem State.setStoreGroup_air (s : State) (n : Nat) (g : StoreGroup) : (s.setStoreGroup n g).air = s.air := rfl
@[simp] theorem State.setStoreGroup_store (s : State) (n : Nat) (g : StoreGroup) : (s.setStoreGroup n g).store = s.store := rfl
@[simp] theorem State.setStoreGroup_builder (s : State) (n : Nat) (g : StoreGroup) : (s.setStoreGroup n g).builder = s.builder := rfl
@[simp] theorem State.setStoreGroup_links (s : State) (n : Nat) (g : StoreGroup) : (s.setStoreGroup n g).links = s.links := rfl
@[simp] theorem State.setStoreGroup_frame (s : State) (n : Nat) (g : StoreGroup) : (s.setStoreGroup n g).frame = s.frame := rfl
@[simp] theorem State.setStoreGroup_tracker (s : State) (n : Nat) (g : StoreGroup) : (s.setStoreGroup n g).tracker = s.tracker := rfl
@[simp] theorem State.setStoreGroup_arbiter (s : State) (n : Nat) (g : StoreGroup) : (s.setStoreGroup n g).arbiter = s.arbiter := rfl
@[simp] theorem State.setStoreGroup_ex (s : State) (n : Nat) (g : StoreGroup) : (s.setStoreGroup n g).ex = s.ex := rfl

/-! ### setReach -/

@[simp] theorem State.setReach_pending (s : State) (n : Nat) (r : Reach) : (s.setReach n r).pending = s.pending := rfl
@[simp] theorem State.setReach_engine (s : State) (n : Nat) (r : Reach) : (s.setReach n r).engine = s.engine := rfl
@[simp] theorem State.setReach_air (s : State) (n : Nat) (r : Reach) : (s.setReach n r).air = s.air := rfl
@[simp] theorem State.setReach_store (s : State) (n : Nat) (r : Reach) : (s.setReach n r).store = s.store := rfl
@[simp] theorem State.setReach_builder (s : State) (n : Nat) (r : Reach) : (s.setReach n r).builder = s.builder := rfl
@[simp] theorem State.setReach_links (s : State) (n : Nat) (r : Reach) : (s.setReach n r).links = s.links := rfl
@[simp] theorem State.setReach_frame (s : State) (n : Nat) (r : Reach) : (s.setReach n r).frame = s.frame := rfl
@[simp] theorem State.setReach_tracker (s : State) (n : Nat) (r : Reach) : (s.setReach n r).tracker = s.tracker := rfl
@[simp] theorem State.setReach_arbiter (s : State) (n : Nat) (r : Reach) : (s.setReach n r).arbiter = s.arbiter := rfl
@[simp] theorem State.setReach_ex (s : State) (n : Nat) (r : Reach) : (s.setReach n r).ex = s.ex := rfl

/-! ### setMsg -/

@[simp] theorem State.setMsg_pending (s : State) (i : Nat) (r : MessageRecord) : (s.setMsg i r).pending = s.pending := rfl
@[simp] theorem State.setMsg_engine (s : State) (i : Nat) (r : MessageRecord) : (s.setMsg i r).engine = s.engine := rfl
@[simp] theorem State.setMsg_air (s : State) (i : Nat) (r : MessageRecord) : (s.setMsg i r).air = s.air := rfl
@[simp] theorem State.setMsg_account (s : State) (i : Nat) (r : MessageRecord) : (s.setMsg i r).account = s.account := rfl
@[simp] theorem State.setMsg_builder (s : State) (i : Nat) (r : MessageRecord) : (s.setMsg i r).builder = s.builder := rfl
@[simp] theorem State.setMsg_links (s : State) (i : Nat) (r : MessageRecord) : (s.setMsg i r).links = s.links := rfl
@[simp] theorem State.setMsg_frame (s : State) (i : Nat) (r : MessageRecord) : (s.setMsg i r).frame = s.frame := rfl
@[simp] theorem State.setMsg_tracker (s : State) (i : Nat) (r : MessageRecord) : (s.setMsg i r).tracker = s.tracker := rfl
@[simp] theorem State.setMsg_arbiter (s : State) (i : Nat) (r : MessageRecord) : (s.setMsg i r).arbiter = s.arbiter := rfl
@[simp] theorem State.setMsg_ex (s : State) (i : Nat) (r : MessageRecord) : (s.setMsg i r).ex = s.ex := rfl

/-! ### setLink -/

@[simp] theorem State.setLink_pending (s : State) (l : Index8) (c : Link) : (s.setLink l c).pending = s.pending := rfl
@[simp] theorem State.setLink_engine (s : State) (l : Index8) (c : Link) : (s.setLink l c).engine = s.engine := rfl
@[simp] theorem State.setLink_air (s : State) (l : Index8) (c : Link) : (s.setLink l c).air = s.air := rfl
@[simp] theorem State.setLink_account (s : State) (l : Index8) (c : Link) : (s.setLink l c).account = s.account := rfl
@[simp] theorem State.setLink_store (s : State) (l : Index8) (c : Link) : (s.setLink l c).store = s.store := rfl
@[simp] theorem State.setLink_builder (s : State) (l : Index8) (c : Link) : (s.setLink l c).builder = s.builder := rfl
@[simp] theorem State.setLink_frame (s : State) (l : Index8) (c : Link) : (s.setLink l c).frame = s.frame := rfl
@[simp] theorem State.setLink_tracker (s : State) (l : Index8) (c : Link) : (s.setLink l c).tracker = s.tracker := rfl
@[simp] theorem State.setLink_arbiter (s : State) (l : Index8) (c : Link) : (s.setLink l c).arbiter = s.arbiter := rfl
@[simp] theorem State.setLink_ex (s : State) (l : Index8) (c : Link) : (s.setLink l c).ex = s.ex := rfl

/-! ### setReceiver -/

@[simp] theorem State.setReceiver_pending (s : State) (l : Index8) (r : Receiver) : (s.setReceiver l r).pending = s.pending := rfl
@[simp] theorem State.setReceiver_engine (s : State) (l : Index8) (r : Receiver) : (s.setReceiver l r).engine = s.engine := rfl
@[simp] theorem State.setReceiver_air (s : State) (l : Index8) (r : Receiver) : (s.setReceiver l r).air = s.air := rfl
@[simp] theorem State.setReceiver_account (s : State) (l : Index8) (r : Receiver) : (s.setReceiver l r).account = s.account := rfl
@[simp] theorem State.setReceiver_store (s : State) (l : Index8) (r : Receiver) : (s.setReceiver l r).store = s.store := rfl
@[simp] theorem State.setReceiver_builder (s : State) (l : Index8) (r : Receiver) : (s.setReceiver l r).builder = s.builder := rfl
@[simp] theorem State.setReceiver_links (s : State) (l : Index8) (r : Receiver) : (s.setReceiver l r).links = s.links := rfl
@[simp] theorem State.setReceiver_frame (s : State) (l : Index8) (r : Receiver) : (s.setReceiver l r).frame = s.frame := rfl
@[simp] theorem State.setReceiver_arbiter (s : State) (l : Index8) (r : Receiver) : (s.setReceiver l r).arbiter = s.arbiter := rfl
@[simp] theorem State.setReceiver_ex (s : State) (l : Index8) (r : Receiver) : (s.setReceiver l r).ex = s.ex := rfl

/-! ### notice -/

@[simp] theorem State.notice_pending (s : State) (m : Mirror) : (s.notice m).pending = s.pending := rfl
@[simp] theorem State.notice_engine (s : State) (m : Mirror) : (s.notice m).engine = s.engine := rfl
@[simp] theorem State.notice_air (s : State) (m : Mirror) : (s.notice m).air = s.air := rfl
@[simp] theorem State.notice_account (s : State) (m : Mirror) : (s.notice m).account = s.account := rfl
@[simp] theorem State.notice_store (s : State) (m : Mirror) : (s.notice m).store = s.store := rfl
@[simp] theorem State.notice_builder (s : State) (m : Mirror) : (s.notice m).builder = s.builder := rfl
@[simp] theorem State.notice_links (s : State) (m : Mirror) : (s.notice m).links = s.links := rfl
@[simp] theorem State.notice_frame (s : State) (m : Mirror) : (s.notice m).frame = s.frame := rfl
@[simp] theorem State.notice_tracker (s : State) (m : Mirror) : (s.notice m).tracker = s.tracker := rfl
@[simp] theorem State.notice_arbiter (s : State) (m : Mirror) : (s.notice m).arbiter = s.arbiter := rfl

/-! ### setEngineBit -/

@[simp] theorem State.setEngineBit_pending (s : State) : (s.setEngineBit).pending = s.pending := rfl
@[simp] theorem State.setEngineBit_engine (s : State) : (s.setEngineBit).engine = s.engine := rfl
@[simp] theorem State.setEngineBit_air (s : State) : (s.setEngineBit).air = s.air := rfl
@[simp] theorem State.setEngineBit_account (s : State) : (s.setEngineBit).account = s.account := rfl
@[simp] theorem State.setEngineBit_store (s : State) : (s.setEngineBit).store = s.store := rfl
@[simp] theorem State.setEngineBit_builder (s : State) : (s.setEngineBit).builder = s.builder := rfl
@[simp] theorem State.setEngineBit_links (s : State) : (s.setEngineBit).links = s.links := rfl
@[simp] theorem State.setEngineBit_frame (s : State) : (s.setEngineBit).frame = s.frame := rfl
@[simp] theorem State.setEngineBit_tracker (s : State) : (s.setEngineBit).tracker = s.tracker := rfl
@[simp] theorem State.setEngineBit_arbiter (s : State) : (s.setEngineBit).arbiter = s.arbiter := rfl

/-! ### setLinkBit -/

@[simp] theorem State.setLinkBit_pending (s : State) : (s.setLinkBit).pending = s.pending := rfl
@[simp] theorem State.setLinkBit_engine (s : State) : (s.setLinkBit).engine = s.engine := rfl
@[simp] theorem State.setLinkBit_air (s : State) : (s.setLinkBit).air = s.air := rfl
@[simp] theorem State.setLinkBit_account (s : State) : (s.setLinkBit).account = s.account := rfl
@[simp] theorem State.setLinkBit_store (s : State) : (s.setLinkBit).store = s.store := rfl
@[simp] theorem State.setLinkBit_builder (s : State) : (s.setLinkBit).builder = s.builder := rfl
@[simp] theorem State.setLinkBit_links (s : State) : (s.setLinkBit).links = s.links := rfl
@[simp] theorem State.setLinkBit_frame (s : State) : (s.setLinkBit).frame = s.frame := rfl
@[simp] theorem State.setLinkBit_tracker (s : State) : (s.setLinkBit).tracker = s.tracker := rfl
@[simp] theorem State.setLinkBit_arbiter (s : State) : (s.setLinkBit).arbiter = s.arbiter := rfl

/-! ### setReferenceBit -/

@[simp] theorem State.setReferenceBit_pending (s : State) : (s.setReferenceBit).pending = s.pending := rfl
@[simp] theorem State.setReferenceBit_engine (s : State) : (s.setReferenceBit).engine = s.engine := rfl
@[simp] theorem State.setReferenceBit_air (s : State) : (s.setReferenceBit).air = s.air := rfl
@[simp] theorem State.setReferenceBit_account (s : State) : (s.setReferenceBit).account = s.account := rfl
@[simp] theorem State.setReferenceBit_store (s : State) : (s.setReferenceBit).store = s.store := rfl
@[simp] theorem State.setReferenceBit_builder (s : State) : (s.setReferenceBit).builder = s.builder := rfl
@[simp] theorem State.setReferenceBit_links (s : State) : (s.setReferenceBit).links = s.links := rfl
@[simp] theorem State.setReferenceBit_frame (s : State) : (s.setReferenceBit).frame = s.frame := rfl
@[simp] theorem State.setReferenceBit_tracker (s : State) : (s.setReferenceBit).tracker = s.tracker := rfl
@[simp] theorem State.setReferenceBit_arbiter (s : State) : (s.setReferenceBit).arbiter = s.arbiter := rfl

/-! ### hand -/

@[simp] theorem State.hand_pending (s : State) (p : Producer) (r : Record) : (s.hand p r).pending = s.pending := rfl
@[simp] theorem State.hand_engine (s : State) (p : Producer) (r : Record) : (s.hand p r).engine = s.engine := rfl
@[simp] theorem State.hand_air (s : State) (p : Producer) (r : Record) : (s.hand p r).air = s.air := rfl
@[simp] theorem State.hand_account (s : State) (p : Producer) (r : Record) : (s.hand p r).account = s.account := rfl
@[simp] theorem State.hand_store (s : State) (p : Producer) (r : Record) : (s.hand p r).store = s.store := rfl
@[simp] theorem State.hand_builder (s : State) (p : Producer) (r : Record) : (s.hand p r).builder = s.builder := rfl
@[simp] theorem State.hand_links (s : State) (p : Producer) (r : Record) : (s.hand p r).links = s.links := rfl
@[simp] theorem State.hand_frame (s : State) (p : Producer) (r : Record) : (s.hand p r).frame = s.frame := rfl
@[simp] theorem State.hand_tracker (s : State) (p : Producer) (r : Record) : (s.hand p r).tracker = s.tracker := rfl
@[simp] theorem State.hand_arbiter (s : State) (p : Producer) (r : Record) : (s.hand p r).arbiter = s.arbiter := rfl

/-! ### giveBack -/

@[simp] theorem State.giveBack_pending (s : State) (p : Producer) : (s.giveBack p).pending = s.pending := rfl
@[simp] theorem State.giveBack_engine (s : State) (p : Producer) : (s.giveBack p).engine = s.engine := rfl
@[simp] theorem State.giveBack_air (s : State) (p : Producer) : (s.giveBack p).air = s.air := rfl
@[simp] theorem State.giveBack_account (s : State) (p : Producer) : (s.giveBack p).account = s.account := rfl
@[simp] theorem State.giveBack_store (s : State) (p : Producer) : (s.giveBack p).store = s.store := rfl
@[simp] theorem State.giveBack_builder (s : State) (p : Producer) : (s.giveBack p).builder = s.builder := rfl
@[simp] theorem State.giveBack_links (s : State) (p : Producer) : (s.giveBack p).links = s.links := rfl
@[simp] theorem State.giveBack_frame (s : State) (p : Producer) : (s.giveBack p).frame = s.frame := rfl
@[simp] theorem State.giveBack_tracker (s : State) (p : Producer) : (s.giveBack p).tracker = s.tracker := rfl
@[simp] theorem State.giveBack_arbiter (s : State) (p : Producer) : (s.giveBack p).arbiter = s.arbiter := rfl

/-! ### reply -/

@[simp] theorem State.reply_pending (s : State) (r : BusReply) : (s.reply r).pending = s.pending := rfl
@[simp] theorem State.reply_engine (s : State) (r : BusReply) : (s.reply r).engine = s.engine := rfl
@[simp] theorem State.reply_air (s : State) (r : BusReply) : (s.reply r).air = s.air := rfl
@[simp] theorem State.reply_account (s : State) (r : BusReply) : (s.reply r).account = s.account := rfl
@[simp] theorem State.reply_store (s : State) (r : BusReply) : (s.reply r).store = s.store := rfl
@[simp] theorem State.reply_builder (s : State) (r : BusReply) : (s.reply r).builder = s.builder := rfl
@[simp] theorem State.reply_links (s : State) (r : BusReply) : (s.reply r).links = s.links := rfl
@[simp] theorem State.reply_frame (s : State) (r : BusReply) : (s.reply r).frame = s.frame := rfl
@[simp] theorem State.reply_tracker (s : State) (r : BusReply) : (s.reply r).tracker = s.tracker := rfl
@[simp] theorem State.reply_arbiter (s : State) (r : BusReply) : (s.reply r).arbiter = s.arbiter := rfl

/-! ### enlist -/

@[simp] theorem State.enlist_pending (s : State) (i : Nat) : (s.enlist i).pending = s.pending := rfl
@[simp] theorem State.enlist_engine (s : State) (i : Nat) : (s.enlist i).engine = s.engine := rfl
@[simp] theorem State.enlist_air (s : State) (i : Nat) : (s.enlist i).air = s.air := rfl
@[simp] theorem State.enlist_account (s : State) (i : Nat) : (s.enlist i).account = s.account := rfl
@[simp] theorem State.enlist_builder (s : State) (i : Nat) : (s.enlist i).builder = s.builder := rfl
@[simp] theorem State.enlist_links (s : State) (i : Nat) : (s.enlist i).links = s.links := rfl
@[simp] theorem State.enlist_frame (s : State) (i : Nat) : (s.enlist i).frame = s.frame := rfl
@[simp] theorem State.enlist_tracker (s : State) (i : Nat) : (s.enlist i).tracker = s.tracker := rfl
@[simp] theorem State.enlist_arbiter (s : State) (i : Nat) : (s.enlist i).arbiter = s.arbiter := rfl
@[simp] theorem State.enlist_ex (s : State) (i : Nat) : (s.enlist i).ex = s.ex := rfl

/-! ### delist -/

@[simp] theorem State.delist_pending (s : State) (i : Nat) : (s.delist i).pending = s.pending := rfl
@[simp] theorem State.delist_engine (s : State) (i : Nat) : (s.delist i).engine = s.engine := rfl
@[simp] theorem State.delist_air (s : State) (i : Nat) : (s.delist i).air = s.air := rfl
@[simp] theorem State.delist_account (s : State) (i : Nat) : (s.delist i).account = s.account := rfl
@[simp] theorem State.delist_builder (s : State) (i : Nat) : (s.delist i).builder = s.builder := rfl
@[simp] theorem State.delist_links (s : State) (i : Nat) : (s.delist i).links = s.links := rfl
@[simp] theorem State.delist_frame (s : State) (i : Nat) : (s.delist i).frame = s.frame := rfl
@[simp] theorem State.delist_tracker (s : State) (i : Nat) : (s.delist i).tracker = s.tracker := rfl
@[simp] theorem State.delist_arbiter (s : State) (i : Nat) : (s.delist i).arbiter = s.arbiter := rfl
@[simp] theorem State.delist_ex (s : State) (i : Nat) : (s.delist i).ex = s.ex := rfl

/-! ### makeWaiting -/

@[simp] theorem State.makeWaiting_pending (s : State) (i : Nat) (r : MessageRecord) : (s.makeWaiting i r).pending = s.pending := rfl
@[simp] theorem State.makeWaiting_engine (s : State) (i : Nat) (r : MessageRecord) : (s.makeWaiting i r).engine = s.engine := rfl
@[simp] theorem State.makeWaiting_air (s : State) (i : Nat) (r : MessageRecord) : (s.makeWaiting i r).air = s.air := rfl
@[simp] theorem State.makeWaiting_account (s : State) (i : Nat) (r : MessageRecord) : (s.makeWaiting i r).account = s.account := rfl
@[simp] theorem State.makeWaiting_builder (s : State) (i : Nat) (r : MessageRecord) : (s.makeWaiting i r).builder = s.builder := rfl
@[simp] theorem State.makeWaiting_links (s : State) (i : Nat) (r : MessageRecord) : (s.makeWaiting i r).links = s.links := rfl
@[simp] theorem State.makeWaiting_frame (s : State) (i : Nat) (r : MessageRecord) : (s.makeWaiting i r).frame = s.frame := rfl
@[simp] theorem State.makeWaiting_tracker (s : State) (i : Nat) (r : MessageRecord) : (s.makeWaiting i r).tracker = s.tracker := rfl
@[simp] theorem State.makeWaiting_arbiter (s : State) (i : Nat) (r : MessageRecord) : (s.makeWaiting i r).arbiter = s.arbiter := rfl
@[simp] theorem State.makeWaiting_ex (s : State) (i : Nat) (r : MessageRecord) : (s.makeWaiting i r).ex = s.ex := rfl

/-! ### makeHeld -/

@[simp] theorem State.makeHeld_pending (s : State) (i : Nat) (r : MessageRecord) : (s.makeHeld i r).pending = s.pending := rfl
@[simp] theorem State.makeHeld_engine (s : State) (i : Nat) (r : MessageRecord) : (s.makeHeld i r).engine = s.engine := rfl
@[simp] theorem State.makeHeld_air (s : State) (i : Nat) (r : MessageRecord) : (s.makeHeld i r).air = s.air := rfl
@[simp] theorem State.makeHeld_account (s : State) (i : Nat) (r : MessageRecord) : (s.makeHeld i r).account = s.account := rfl
@[simp] theorem State.makeHeld_builder (s : State) (i : Nat) (r : MessageRecord) : (s.makeHeld i r).builder = s.builder := rfl
@[simp] theorem State.makeHeld_links (s : State) (i : Nat) (r : MessageRecord) : (s.makeHeld i r).links = s.links := rfl
@[simp] theorem State.makeHeld_frame (s : State) (i : Nat) (r : MessageRecord) : (s.makeHeld i r).frame = s.frame := rfl
@[simp] theorem State.makeHeld_tracker (s : State) (i : Nat) (r : MessageRecord) : (s.makeHeld i r).tracker = s.tracker := rfl
@[simp] theorem State.makeHeld_arbiter (s : State) (i : Nat) (r : MessageRecord) : (s.makeHeld i r).arbiter = s.arbiter := rfl
@[simp] theorem State.makeHeld_ex (s : State) (i : Nat) (r : MessageRecord) : (s.makeHeld i r).ex = s.ex := rfl

/-! ### dropDeadline -/

@[simp] theorem State.dropDeadline_pending (s : State) (i : Nat) : (s.dropDeadline i).pending = s.pending := rfl
@[simp] theorem State.dropDeadline_engine (s : State) (i : Nat) : (s.dropDeadline i).engine = s.engine := rfl
@[simp] theorem State.dropDeadline_air (s : State) (i : Nat) : (s.dropDeadline i).air = s.air := rfl
@[simp] theorem State.dropDeadline_account (s : State) (i : Nat) : (s.dropDeadline i).account = s.account := rfl
@[simp] theorem State.dropDeadline_store (s : State) (i : Nat) : (s.dropDeadline i).store = s.store := rfl
@[simp] theorem State.dropDeadline_builder (s : State) (i : Nat) : (s.dropDeadline i).builder = s.builder := rfl
@[simp] theorem State.dropDeadline_links (s : State) (i : Nat) : (s.dropDeadline i).links = s.links := rfl
@[simp] theorem State.dropDeadline_frame (s : State) (i : Nat) : (s.dropDeadline i).frame = s.frame := rfl
@[simp] theorem State.dropDeadline_arbiter (s : State) (i : Nat) : (s.dropDeadline i).arbiter = s.arbiter := rfl
@[simp] theorem State.dropDeadline_ex (s : State) (i : Nat) : (s.dropDeadline i).ex = s.ex := rfl

/-! ### makeAwaiting -/

@[simp] theorem State.makeAwaiting_pending (s : State) (i : Nat) (r : MessageRecord) (d : Nat) : (s.makeAwaiting i r d).pending = s.pending := rfl
@[simp] theorem State.makeAwaiting_engine (s : State) (i : Nat) (r : MessageRecord) (d : Nat) : (s.makeAwaiting i r d).engine = s.engine := rfl
@[simp] theorem State.makeAwaiting_air (s : State) (i : Nat) (r : MessageRecord) (d : Nat) : (s.makeAwaiting i r d).air = s.air := rfl
@[simp] theorem State.makeAwaiting_account (s : State) (i : Nat) (r : MessageRecord) (d : Nat) : (s.makeAwaiting i r d).account = s.account := rfl
@[simp] theorem State.makeAwaiting_builder (s : State) (i : Nat) (r : MessageRecord) (d : Nat) : (s.makeAwaiting i r d).builder = s.builder := rfl
@[simp] theorem State.makeAwaiting_links (s : State) (i : Nat) (r : MessageRecord) (d : Nat) : (s.makeAwaiting i r d).links = s.links := rfl
@[simp] theorem State.makeAwaiting_frame (s : State) (i : Nat) (r : MessageRecord) (d : Nat) : (s.makeAwaiting i r d).frame = s.frame := rfl
@[simp] theorem State.makeAwaiting_arbiter (s : State) (i : Nat) (r : MessageRecord) (d : Nat) : (s.makeAwaiting i r d).arbiter = s.arbiter := rfl
@[simp] theorem State.makeAwaiting_ex (s : State) (i : Nat) (r : MessageRecord) (d : Nat) : (s.makeAwaiting i r d).ex = s.ex := rfl

/-! ### airing -/

@[simp] theorem State.airing_pending (s : State) (n : Nat) : (s.airing n).pending = s.pending := rfl
@[simp] theorem State.airing_engine (s : State) (n : Nat) : (s.airing n).engine = s.engine := rfl
@[simp] theorem State.airing_air (s : State) (n : Nat) : (s.airing n).air = s.air := rfl
@[simp] theorem State.airing_account (s : State) (n : Nat) : (s.airing n).account = s.account := rfl
@[simp] theorem State.airing_builder (s : State) (n : Nat) : (s.airing n).builder = s.builder := rfl
@[simp] theorem State.airing_links (s : State) (n : Nat) : (s.airing n).links = s.links := rfl
@[simp] theorem State.airing_frame (s : State) (n : Nat) : (s.airing n).frame = s.frame := rfl
@[simp] theorem State.airing_tracker (s : State) (n : Nat) : (s.airing n).tracker = s.tracker := rfl
@[simp] theorem State.airing_arbiter (s : State) (n : Nat) : (s.airing n).arbiter = s.arbiter := rfl
@[simp] theorem State.airing_ex (s : State) (n : Nat) : (s.airing n).ex = s.ex := rfl

/-! ### emptyPage -/

@[simp] theorem State.emptyPage_pending (s : State) (n : Nat) : (s.emptyPage n).pending = s.pending := rfl
@[simp] theorem State.emptyPage_engine (s : State) (n : Nat) : (s.emptyPage n).engine = s.engine := rfl
@[simp] theorem State.emptyPage_air (s : State) (n : Nat) : (s.emptyPage n).air = s.air := rfl
@[simp] theorem State.emptyPage_account (s : State) (n : Nat) : (s.emptyPage n).account = s.account := rfl
@[simp] theorem State.emptyPage_store (s : State) (n : Nat) : (s.emptyPage n).store = s.store := rfl
@[simp] theorem State.emptyPage_links (s : State) (n : Nat) : (s.emptyPage n).links = s.links := rfl
@[simp] theorem State.emptyPage_frame (s : State) (n : Nat) : (s.emptyPage n).frame = s.frame := rfl
@[simp] theorem State.emptyPage_tracker (s : State) (n : Nat) : (s.emptyPage n).tracker = s.tracker := rfl
@[simp] theorem State.emptyPage_arbiter (s : State) (n : Nat) : (s.emptyPage n).arbiter = s.arbiter := rfl
@[simp] theorem State.emptyPage_ex (s : State) (n : Nat) : (s.emptyPage n).ex = s.ex := rfl

/-! ### emptyPages -/

@[simp] theorem State.emptyPages_pending (s : State) : (s.emptyPages).pending = s.pending := rfl
@[simp] theorem State.emptyPages_engine (s : State) : (s.emptyPages).engine = s.engine := rfl
@[simp] theorem State.emptyPages_air (s : State) : (s.emptyPages).air = s.air := rfl
@[simp] theorem State.emptyPages_account (s : State) : (s.emptyPages).account = s.account := rfl
@[simp] theorem State.emptyPages_store (s : State) : (s.emptyPages).store = s.store := rfl
@[simp] theorem State.emptyPages_links (s : State) : (s.emptyPages).links = s.links := rfl
@[simp] theorem State.emptyPages_frame (s : State) : (s.emptyPages).frame = s.frame := rfl
@[simp] theorem State.emptyPages_tracker (s : State) : (s.emptyPages).tracker = s.tracker := rfl
@[simp] theorem State.emptyPages_arbiter (s : State) : (s.emptyPages).arbiter = s.arbiter := rfl
@[simp] theorem State.emptyPages_ex (s : State) : (s.emptyPages).ex = s.ex := rfl

/-! ### setBuild -/

@[simp] theorem State.setBuild_pending (s : State) (b : Build) : (s.setBuild b).pending = s.pending := rfl
@[simp] theorem State.setBuild_engine (s : State) (b : Build) : (s.setBuild b).engine = s.engine := rfl
@[simp] theorem State.setBuild_air (s : State) (b : Build) : (s.setBuild b).air = s.air := rfl
@[simp] theorem State.setBuild_account (s : State) (b : Build) : (s.setBuild b).account = s.account := rfl
@[simp] theorem State.setBuild_store (s : State) (b : Build) : (s.setBuild b).store = s.store := rfl
@[simp] theorem State.setBuild_links (s : State) (b : Build) : (s.setBuild b).links = s.links := rfl
@[simp] theorem State.setBuild_frame (s : State) (b : Build) : (s.setBuild b).frame = s.frame := rfl
@[simp] theorem State.setBuild_tracker (s : State) (b : Build) : (s.setBuild b).tracker = s.tracker := rfl
@[simp] theorem State.setBuild_arbiter (s : State) (b : Build) : (s.setBuild b).arbiter = s.arbiter := rfl
@[simp] theorem State.setBuild_ex (s : State) (b : Build) : (s.setBuild b).ex = s.ex := rfl
@[simp] theorem State.setBuild_inHand (s : State) (b : Build) : (s.setBuild b).builder.inHand = some b := rfl
@[simp] theorem State.setBuild_pages (s : State) (b : Build) : (s.setBuild b).builder.pages = s.builder.pages := rfl
@[simp] theorem State.setBuild_due (s : State) (b : Build) : (s.setBuild b).builder.due = s.builder.due := rfl
@[simp] theorem State.setBuild_late (s : State) (b : Build) : (s.setBuild b).builder.late = s.builder.late := rfl

/-! ### stopBuild -/

@[simp] theorem State.stopBuild_pending (s : State) : (s.stopBuild).pending = s.pending := rfl
@[simp] theorem State.stopBuild_engine (s : State) : (s.stopBuild).engine = s.engine := rfl
@[simp] theorem State.stopBuild_air (s : State) : (s.stopBuild).air = s.air := rfl
@[simp] theorem State.stopBuild_account (s : State) : (s.stopBuild).account = s.account := rfl
@[simp] theorem State.stopBuild_store (s : State) : (s.stopBuild).store = s.store := rfl
@[simp] theorem State.stopBuild_links (s : State) : (s.stopBuild).links = s.links := rfl
@[simp] theorem State.stopBuild_frame (s : State) : (s.stopBuild).frame = s.frame := rfl
@[simp] theorem State.stopBuild_tracker (s : State) : (s.stopBuild).tracker = s.tracker := rfl
@[simp] theorem State.stopBuild_arbiter (s : State) : (s.stopBuild).arbiter = s.arbiter := rfl
@[simp] theorem State.stopBuild_ex (s : State) : (s.stopBuild).ex = s.ex := rfl

/-! ### endKeying -/

@[simp] theorem State.endKeying_pending (s : State) : (s.endKeying).pending = s.pending := rfl
@[simp] theorem State.endKeying_engine (s : State) : (s.endKeying).engine = s.engine := rfl
@[simp] theorem State.endKeying_air (s : State) : (s.endKeying).air = s.air := rfl
@[simp] theorem State.endKeying_account (s : State) : (s.endKeying).account = s.account := rfl
@[simp] theorem State.endKeying_store (s : State) : (s.endKeying).store = s.store := rfl
@[simp] theorem State.endKeying_builder (s : State) : (s.endKeying).builder = s.builder := rfl
@[simp] theorem State.endKeying_frame (s : State) : (s.endKeying).frame = s.frame := rfl
@[simp] theorem State.endKeying_tracker (s : State) : (s.endKeying).tracker = s.tracker := rfl
@[simp] theorem State.endKeying_arbiter (s : State) : (s.endKeying).arbiter = s.arbiter := rfl
@[simp] theorem State.endKeying_ex (s : State) : (s.endKeying).ex = s.ex := rfl

/-! ### linksTakeMark -/

@[simp] theorem State.linksTakeMark_pending (s : State) : (s.linksTakeMark).pending = s.pending := rfl
@[simp] theorem State.linksTakeMark_engine (s : State) : (s.linksTakeMark).engine = s.engine := rfl
@[simp] theorem State.linksTakeMark_air (s : State) : (s.linksTakeMark).air = s.air := rfl
@[simp] theorem State.linksTakeMark_account (s : State) : (s.linksTakeMark).account = s.account := rfl
@[simp] theorem State.linksTakeMark_store (s : State) : (s.linksTakeMark).store = s.store := rfl
@[simp] theorem State.linksTakeMark_builder (s : State) : (s.linksTakeMark).builder = s.builder := rfl
@[simp] theorem State.linksTakeMark_frame (s : State) : (s.linksTakeMark).frame = s.frame := rfl
@[simp] theorem State.linksTakeMark_tracker (s : State) : (s.linksTakeMark).tracker = s.tracker := rfl
@[simp] theorem State.linksTakeMark_arbiter (s : State) : (s.linksTakeMark).arbiter = s.arbiter := rfl

/-! ### Exchange.engineReset -/

@[simp] theorem Exchange.engineReset_mem (x : Exchange) : x.engineReset.mem = resetBytes x.mem := by
  simp only [Exchange.engineReset, Exchange.resetWriter]
@[simp] theorem Exchange.engineReset_slots (x : Exchange) : x.engineReset.slots = [] := by
  simp only [Exchange.engineReset, Exchange.resetWriter]
@[simp] theorem Exchange.engineReset_queue (x : Exchange) : x.engineReset.queue = [] := by
  simp only [Exchange.engineReset, Exchange.resetWriter]
@[simp] theorem Exchange.engineReset_answered (x : Exchange) : x.engineReset.answered = 0 := by
  simp only [Exchange.engineReset, Exchange.resetWriter]
@[simp] theorem Exchange.engineReset_fence (x : Exchange) : x.engineReset.fence = x.fence := by
  simp only [Exchange.engineReset, Exchange.resetWriter]
@[simp] theorem Exchange.engineReset_buffer (x : Exchange) : x.engineReset.buffer = x.buffer := by
  simp only [Exchange.engineReset, Exchange.resetWriter]
@[simp] theorem Exchange.engineReset_enable (x : Exchange) : x.engineReset.enable = x.enable := by
  simp only [Exchange.engineReset, Exchange.resetWriter]
@[simp] theorem Exchange.engineReset_intake (x : Exchange) : x.engineReset.intake = .idle := by
  simp only [Exchange.engineReset, Exchange.resetWriter]
@[simp] theorem Exchange.engineReset_writer (x : Exchange) : x.engineReset.writer = Writer.reset := by
  simp only [Exchange.engineReset, Exchange.resetWriter]
@[simp] theorem Exchange.engineReset_bus (x : Exchange) : x.engineReset.bus = x.bus := by
  simp only [Exchange.engineReset, Exchange.resetWriter]
@[simp] theorem Exchange.engineReset_read (x : Exchange) : x.engineReset.read = x.read := by
  simp only [Exchange.engineReset, Exchange.resetWriter]
@[simp] theorem Exchange.engineReset_progress (x : Exchange) : x.engineReset.progress = .begun := by
  simp only [Exchange.engineReset, Exchange.resetWriter]
@[simp] theorem Exchange.engineReset_choices (x : Exchange) : x.engineReset.choices = x.choices := by
  simp only [Exchange.engineReset, Exchange.resetWriter]
@[simp] theorem Exchange.engineReset_summary (x : Exchange) : x.engineReset.summary = { x.summary with answers := false, pageClosed := false, engine := true } := by
  simp only [Exchange.engineReset, Exchange.resetWriter]

/-! ### advance -/

@[simp] theorem State.advance_pending (s : State) (g : Progress) : (s.advance g).pending = s.pending := rfl
@[simp] theorem State.advance_engine (s : State) (g : Progress) : (s.advance g).engine = s.engine := rfl
@[simp] theorem State.advance_air (s : State) (g : Progress) : (s.advance g).air = s.air := rfl
@[simp] theorem State.advance_account (s : State) (g : Progress) : (s.advance g).account = s.account := rfl
@[simp] theorem State.advance_store (s : State) (g : Progress) : (s.advance g).store = s.store := rfl
@[simp] theorem State.advance_builder (s : State) (g : Progress) : (s.advance g).builder = s.builder := rfl
@[simp] theorem State.advance_links (s : State) (g : Progress) : (s.advance g).links = s.links := rfl
@[simp] theorem State.advance_frame (s : State) (g : Progress) : (s.advance g).frame = s.frame := rfl
@[simp] theorem State.advance_tracker (s : State) (g : Progress) : (s.advance g).tracker = s.tracker := rfl
@[simp] theorem State.advance_arbiter (s : State) (g : Progress) : (s.advance g).arbiter = s.arbiter := rfl
@[simp] theorem State.advance_progress (s : State) (g : Progress) : (s.advance g).ex.progress = g := rfl
@[simp] theorem State.advance_mem (s : State) (g : Progress) : (s.advance g).ex.mem = s.ex.mem := rfl
@[simp] theorem State.advance_slots (s : State) (g : Progress) : (s.advance g).ex.slots = s.ex.slots := rfl
@[simp] theorem State.advance_queue (s : State) (g : Progress) : (s.advance g).ex.queue = s.ex.queue := rfl
@[simp] theorem State.advance_answered (s : State) (g : Progress) : (s.advance g).ex.answered = s.ex.answered := rfl
@[simp] theorem State.advance_fence (s : State) (g : Progress) : (s.advance g).ex.fence = s.ex.fence := rfl
@[simp] theorem State.advance_buffer (s : State) (g : Progress) : (s.advance g).ex.buffer = s.ex.buffer := rfl
@[simp] theorem State.advance_notices (s : State) (g : Progress) : (s.advance g).ex.notices = s.ex.notices := rfl
@[simp] theorem State.advance_summary (s : State) (g : Progress) : (s.advance g).ex.summary = s.ex.summary := rfl
@[simp] theorem State.advance_enable (s : State) (g : Progress) : (s.advance g).ex.enable = s.ex.enable := rfl
@[simp] theorem State.advance_intake (s : State) (g : Progress) : (s.advance g).ex.intake = s.ex.intake := rfl
@[simp] theorem State.advance_writer (s : State) (g : Progress) : (s.advance g).ex.writer = s.ex.writer := rfl
@[simp] theorem State.advance_bus (s : State) (g : Progress) : (s.advance g).ex.bus = s.ex.bus := rfl
@[simp] theorem State.advance_read (s : State) (g : Progress) : (s.advance g).ex.read = s.ex.read := rfl
@[simp] theorem State.advance_choices (s : State) (g : Progress) : (s.advance g).ex.choices = s.ex.choices := rfl

/-! ### What an update sets -/

theorem State.setSub_account (s : State) (n : Nat) (u : Subscriber) :
    (s.setSub n u).account = { s.account with subscribers := Table.set Subscriber.powerOn n u s.account.subscribers } := rfl

@[simp] theorem State.setMsg_records (s : State) (i : Nat) (r : MessageRecord) :
    (s.setMsg i r).store.records = Table.set MessageRecord.powerOn i r s.store.records := rfl

@[simp] theorem State.enlist_records (s : State) (i : Nat) : (s.enlist i).store.records = s.store.records := rfl

@[simp] theorem State.delist_records (s : State) (i : Nat) : (s.delist i).store.records = s.store.records := rfl

/-- A controller that was set reads as set, and every other one as it was. -/
theorem State.link_setLink (s : State) (l m : Index8) (c : Link) :
    (s.setLink l c).link m = if m = l then c else s.link m := by
  show (s.links.set l.val c l.isLt)[m.val] = if m = l then c else s.links[m.val]
  rw [Vector.getElem_set]
  by_cases h : m = l
  · rw [if_pos (by rw [h]), if_pos h]
  · rw [if_neg fun e => h (Fin.ext e.symm), if_neg h]

/-- A receiver link that was set reads as set, and every other one as it was. -/
theorem State.receiver_setReceiver (s : State) (l m : Index8) (r : Receiver) :
    (s.setReceiver l r).receiver m = if m = l then r else s.receiver m := by
  show (s.tracker.receivers.set l.val r l.isLt)[m.val] = if m = l then r else s.tracker.receivers[m.val]
  rw [Vector.getElem_set]
  by_cases h : m = l
  · rw [if_pos (by rw [h]), if_pos h]
  · rw [if_neg fun e => h (Fin.ext e.symm), if_neg h]

/-- A subscriber record that was set reads as set, and every other one as it was. -/
theorem State.sub_setSub {s : State} (h : Table.wf Subscriber.powerOn s.account.subscribers = true) (n m : Nat)
    (u : Subscriber) : (s.setSub n u).sub m = if m = n then u else s.sub m := Table.get_set h n m u

/-- A message record that was set reads as set, and every other one as it was. -/
theorem State.msg_setMsg {s : State} (h : Table.wf MessageRecord.powerOn s.store.records = true) (i j : Nat)
    (r : MessageRecord) : (s.setMsg i r).msg j = if j = i then r else s.msg j := Table.get_set h i j r

end Sys2Proof.Machine
end

