-- ==== Sys2Proof/Laws/Reports.lean ====
section
/-! SUPPORT. What the report writer's operations can do to the exchange, said once: they write the report pages, the writer's
own state, PAGE CLOSED and mirror notices, and they may send the intake unit to its take. -/

namespace Sys2Proof.Machine

/-- At most one report page is FILLING. -/
def Writer.OneFilling (w : Writer) : Prop := ∀ p q, w.pages.get p = .filling → w.pages.get q = .filling → p = q

/-- No producer that holds a reservation has a request waiting. -/
def Writer.AskLaw (w : Writer) : Prop := ∀ p, p ∈ w.waiting → w.holds p = false

/-- What work of the report writer can do between two states of the exchange. -/
structure Exchange.Reported (x y : Exchange) : Prop where
  slots : y.slots = x.slots
  queue : y.queue = x.queue
  answered : y.answered = x.answered
  fence : y.fence = x.fence
  buffer : y.buffer = x.buffer
  enable : y.enable = x.enable
  bus : y.bus = x.bus
  read : y.read = x.read
  progress : y.progress = x.progress
  answers : y.summary.answers = x.summary.answers
  fenceBit : y.summary.fence = x.summary.fence
  linkBit : y.summary.link = x.summary.link
  referenceBit : y.summary.reference = x.summary.reference
  engineBit : y.summary.engine = x.summary.engine
  pageClosed : x.summary.pageClosed = true → y.summary.pageClosed = true
  intake : y.intake = x.intake ∨ y.intake = .taking
  notices : ∀ m, m ∈ x.notices → m ∈ y.notices
  wf : Memory.wf x.mem = true → Memory.wf y.mem = true
  one : x.writer.OneFilling → y.writer.OneFilling
  count : x.writer.count < Config.pageRecords → y.writer.count < Config.pageRecords
  asks : x.writer.AskLaw → y.writer.AskLaw
  mem : x.writer.count < Config.pageRecords → ∀ a, ¬ inPages a → Memory.read y.mem a = Memory.read x.mem a

theorem Exchange.Reported.refl (x : Exchange) : x.Reported x where
  slots := rfl
  queue := rfl
  answered := rfl
  fence := rfl
  buffer := rfl
  enable := rfl
  bus := rfl
  read := rfl
  progress := rfl
  answers := rfl
  fenceBit := rfl
  linkBit := rfl
  referenceBit := rfl
  engineBit := rfl
  pageClosed := id
  intake := .inl rfl
  notices := fun _ h => h
  wf := id
  one := id
  count := id
  asks := id
  mem := fun _ _ _ => rfl

theorem Exchange.Reported.trans {x y z : Exchange} (h : x.Reported y) (k : y.Reported z) : x.Reported z where
  slots := k.slots.trans h.slots
  queue := k.queue.trans h.queue
  answered := k.answered.trans h.answered
  fence := k.fence.trans h.fence
  buffer := k.buffer.trans h.buffer
  enable := k.enable.trans h.enable
  bus := k.bus.trans h.bus
  read := k.read.trans h.read
  progress := k.progress.trans h.progress
  answers := k.answers.trans h.answers
  fenceBit := k.fenceBit.trans h.fenceBit
  linkBit := k.linkBit.trans h.linkBit
  referenceBit := k.referenceBit.trans h.referenceBit
  engineBit := k.engineBit.trans h.engineBit
  pageClosed := fun e => k.pageClosed (h.pageClosed e)
  intake := by
    rcases k.intake with e | e
    · rw [e]; exact h.intake
    · exact .inr e
  notices := fun m a => k.notices m (h.notices m a)
  wf := fun e => k.wf (h.wf e)
  one := fun e => k.one (h.one e)
  count := fun e => k.count (h.count e)
  asks := fun e => k.asks (h.asks e)
  mem := fun e a out => (k.mem (h.count e) a out).trans (h.mem e a out)

theorem Exchange.Reported.law {x y : Exchange} (h : x.Reported y) (e : x.writer.PageLaw) : y.writer.PageLaw :=
  ⟨h.one e.one, h.count e.count, h.asks e.requests⟩

/-! ## The filling page -/

/-- The FILLING page found is FILLING. -/
theorem Writer.filling_spec {w : Writer} {p : Index8} (h : w.filling = some p) : w.pages.get p = .filling := by
  have := List.find?_some h
  simpa using this

/-- With no FILLING page found, no page is FILLING. -/
theorem Writer.filling_none {w : Writer} (h : w.filling = none) (p : Index8) : w.pages.get p ≠ .filling := by
  have := List.find?_eq_none.mp h p (List.mem_finRange p)
  simpa using this

/-- A page state that was set reads as set, and every other one as it was. -/
theorem pages_set (v : Vector PageState 8) (p q : Index8) (x : PageState) :
    (v.set p.val x p.isLt).get q = if q = p then x else v.get q := by
  show (v.set p.val x p.isLt)[q.val] = if q = p then x else v[q.val]
  rw [Vector.getElem_set]
  by_cases h : q = p
  · rw [if_pos (by rw [h]), if_pos h]
  · rw [if_neg fun e => h (Fin.ext e.symm), if_neg h]

/-- A page base lies in the report pages with its whole page. -/
theorem pageBase_range (p : Index8) : Config.pagesBase ≤ pageBase p ∧ pageBase p + 0x1000 ≤ Config.usedEnd := by
  unfold pageBase Config.pagesBase Config.usedEnd
  omega

/-- An offset outside the report pages lies outside each page. -/
theorem outside_page {a : Nat} (out : ¬ inPages a) (p : Index8) : a < pageBase p ∨ pageBase p + 0x1000 ≤ a := by
  have inside := pageBase_range p
  unfold inPages at out
  omega

/-- Words written within a page leave every byte outside the report pages alone. -/
theorem read_write_page {m : List Host.Cell} {a : Nat} (out : ¬ inPages a) (p : Index8) {k : Nat} {ws : List Word}
    (fits : k + 4 * ws.length ≤ 0x1000) : Memory.read (Memory.writeWords m (pageBase p + k) ws) a = Memory.read m a :=
  Memory.read_writeWords_other (by rcases outside_page out p with h | h <;> omega)

theorem Exchange.notice_mem {x : Exchange} {m k : Mirror} : k ∈ (x.notice m).notices ↔ k ∈ x.notices ∨ k = m := by
  unfold Exchange.notice
  by_cases h : m ∈ x.notices
  · simp only [h, if_true]
    constructor
    · exact .inl
    · rintro (e | rfl)
      · exact e
      · exact h
  · simp only [h, if_false, List.mem_append, List.mem_singleton]

/-! ## Each operation -/

/-- A mirror notice (R77). -/
theorem Exchange.notice_reported (x : Exchange) (m : Mirror) : x.Reported (x.notice m) where
  slots := rfl
  queue := rfl
  answered := rfl
  fence := rfl
  buffer := rfl
  enable := rfl
  bus := rfl
  read := rfl
  progress := rfl
  answers := rfl
  fenceBit := rfl
  linkBit := rfl
  referenceBit := rfl
  engineBit := rfl
  pageClosed := id
  intake := .inl rfl
  notices := fun _ h => Exchange.notice_mem.mpr (.inl h)
  wf := id
  one := id
  count := id
  asks := id
  mem := fun _ _ _ => rfl

/-- The exchange with a page closed, the two notices apart. -/
def Exchange.pageShut (x : Exchange) (st : Stamp) (cause : CloseCause) (p : Index8) : Exchange :=
  { x with
    mem := Memory.writeWords x.mem (pageBase p + 4)
      [word x.writer.count, x.writer.sequence, cause.code, word st.serial, word st.second, word st.day]
    summary.pageClosed := true
    writer := { x.writer with
      pages := x.writer.pages.set p.val .filled p.isLt
      count := 0
      age := 0
      due := false
      sequence := x.writer.sequence + 1
      lastIndex := p
      lastSequence := x.writer.sequence } }

theorem Exchange.closePage_eq (x : Exchange) (st : Stamp) (c : CloseCause) :
    x.closePage st c =
      match x.writer.filling with
      | none => x
      | some p => ((x.pageShut st c p).notice .lastPageIndex).notice .lastPageSequence := rfl

theorem Exchange.pageShut_mem (x : Exchange) (st : Stamp) (c : CloseCause) (p : Index8) :
    (x.pageShut st c p).mem = Memory.writeWords x.mem (pageBase p + 4)
      [word x.writer.count, x.writer.sequence, c.code, word st.serial, word st.second, word st.day] := by
  simp only [Exchange.pageShut]

/-- A page's closing header leaves every byte outside the report pages alone. -/
theorem Exchange.read_pageShut (x : Exchange) (st : Stamp) (c : CloseCause) (p : Index8) {a : Nat}
    (out : ¬ inPages a) : Memory.read (x.pageShut st c p).mem a = Memory.read x.mem a := by
  rw [Exchange.pageShut_mem]
  exact read_write_page out p (by simp only [List.length_cons, List.length_nil]; decide)

theorem Exchange.pageShut_reported (x : Exchange) (st : Stamp) (c : CloseCause) (p : Index8) :
    x.Reported (x.pageShut st c p) where
  slots := by simp only [Exchange.pageShut]
  queue := by simp only [Exchange.pageShut]
  answered := by simp only [Exchange.pageShut]
  fence := by simp only [Exchange.pageShut]
  buffer := by simp only [Exchange.pageShut]
  enable := by simp only [Exchange.pageShut]
  bus := by simp only [Exchange.pageShut]
  read := by simp only [Exchange.pageShut]
  progress := by simp only [Exchange.pageShut]
  answers := by simp only [Exchange.pageShut]
  fenceBit := by simp only [Exchange.pageShut]
  linkBit := by simp only [Exchange.pageShut]
  referenceBit := by simp only [Exchange.pageShut]
  engineBit := by simp only [Exchange.pageShut]
  pageClosed := fun _ => by simp only [Exchange.pageShut]
  intake := .inl (by simp only [Exchange.pageShut])
  notices := fun _ h => by simp only [Exchange.pageShut]; exact h
  wf := fun h => by rw [Exchange.pageShut_mem]; exact Memory.wf_writeWords h _ _
  one := by
    intro h q r hq hr
    simp only [Exchange.pageShut, pages_set] at hq hr
    split at hq
    · cases hq
    · split at hr
      · cases hr
      · exact h q r hq hr
  count := fun _ => by simp only [Exchange.pageShut]; decide
  asks := by
    intro h q m
    have e : (x.pageShut st c p).writer.waiting = x.writer.waiting := by simp only [Exchange.pageShut]
    have f : (x.pageShut st c p).writer.holds q = x.writer.holds q := by
      simp only [Exchange.pageShut, Writer.holds]
    rw [e] at m
    rw [f]
    exact h q m
  mem := fun _ _ out => x.read_pageShut st c p out

/-- A page close leaves every byte outside the report pages alone, whatever the record count. -/
theorem Exchange.read_closePage (x : Exchange) (st : Stamp) (c : CloseCause) {a : Nat} (out : ¬ inPages a) :
    Memory.read (x.closePage st c).mem a = Memory.read x.mem a := by
  rw [Exchange.closePage_eq]
  split
  · rfl
  · next p hp =>
    simp only [Exchange.notice]
    exact x.read_pageShut st c p out

theorem Exchange.closePage_reported (x : Exchange) (st : Stamp) (c : CloseCause) : x.Reported (x.closePage st c) := by
  rw [Exchange.closePage_eq]
  split
  · exact .refl x
  · next p hp =>
    exact ((x.pageShut_reported st c p).trans (Exchange.notice_reported _ _)).trans (Exchange.notice_reported _ _)

theorem Exchange.closeIfDue_reported (x : Exchange) (st : Stamp) : x.Reported (x.closeIfDue st) := by
  unfold Exchange.closeIfDue
  split
  · exact x.closePage_reported st .age
  · exact .refl x

theorem Exchange.openPage_reported {x : Exchange} (none : x.writer.filling = Option.none) : x.Reported x.openPage where
  slots := rfl
  queue := rfl
  answered := rfl
  fence := rfl
  buffer := rfl
  enable := rfl
  bus := rfl
  read := rfl
  progress := rfl
  answers := rfl
  fenceBit := rfl
  linkBit := rfl
  referenceBit := rfl
  engineBit := rfl
  pageClosed := id
  intake := .inl rfl
  notices := fun _ h => h
  wf := fun h => Memory.wf_writeWord h _ _
  one := by
    intro _ q r hq hr
    simp only [Exchange.openPage, pages_set] at hq hr
    split at hq
    · next e =>
      split at hr
      · next f => rw [e, f]
      · exact absurd hr (Writer.filling_none none r)
    · exact absurd hq (Writer.filling_none none q)
  count := fun _ => by show 0 < 63; decide
  asks := fun h => h
  mem := fun _ _ out => read_write_page (k := 4) (ws := [0]) out x.writer.next (by simp)

/-- After an opening the next page is FILLING. -/
theorem Exchange.openPage_filling (x : Exchange) : x.openPage.writer.pages.get x.writer.next = .filling := by
  simp only [Exchange.openPage, pages_set, if_true]

/-- A FILLING page is found. -/
theorem Writer.filling_isSome {w : Writer} {p : Index8} (h : w.pages.get p = .filling) : w.filling.isSome = true := by
  cases e : w.filling with
  | some q => rfl
  | none => exact absurd h (Writer.filling_none e p)

theorem Exchange.ensureOpen_reported (x : Exchange) : x.Reported x.ensureOpen := by
  unfold Exchange.ensureOpen
  split
  · exact .refl x
  · next none => exact Exchange.openPage_reported (by simpa using none)

/-- A page is FILLING once one has been opened where there was none. -/
theorem Exchange.ensureOpen_filling (x : Exchange) : x.ensureOpen.writer.filling.isSome = true := by
  unfold Exchange.ensureOpen
  split
  · assumption
  · exact Writer.filling_isSome x.openPage_filling

/-- The exchange with a record written at the next position of the FILLING page. -/
def Exchange.recorded (x : Exchange) (r : Record) : Exchange :=
  { x with
    mem := Memory.writeWords x.mem (recordBase (x.writer.filling.getD 0) (x.writer.count + 1)) r.padded
    writer.count := x.writer.count + 1 }

theorem Exchange.append_eq (x : Exchange) (st : Stamp) (r : Record) :
    x.append st r =
      if (x.ensureOpen.recorded r).writer.count = Config.pageRecords then
        (x.ensureOpen.recorded r).closePage st .count
      else x.ensureOpen.recorded r := rfl

theorem Record.padded_length (r : Record) : r.padded.length = 16 := by
  unfold Record.padded
  rw [List.length_take, List.length_append, List.length_replicate]
  omega

theorem Exchange.recorded_mem {x : Exchange} (c : x.writer.count < Config.pageRecords) (r : Record) {a : Nat}
    (out : ¬ inPages a) : Memory.read (x.recorded r).mem a = Memory.read x.mem a := by
  unfold Config.pageRecords at c
  simp only [Exchange.recorded, recordBase]
  exact read_write_page out (x.writer.filling.getD 0) (by rw [Record.padded_length]; omega)

/-- A record written and its full page closed, as one report. -/
theorem Exchange.recorded_closed_reported {x : Exchange} (some : x.writer.filling.isSome = true) (st : Stamp)
    (r : Record) : x.Reported ((x.recorded r).closePage st .count) := by
  have closed := (x.recorded r).closePage_reported st .count
  have zero : ((x.recorded r).closePage st .count).writer.count = 0 := by
    rw [Exchange.closePage_eq]
    have e : (x.recorded r).writer.filling = x.writer.filling := rfl
    rw [e]
    cases f : x.writer.filling with
    | none => rw [f] at some; cases some
    | some p => rfl
  exact
    { slots := closed.slots, queue := closed.queue, answered := closed.answered, fence := closed.fence
      buffer := closed.buffer, enable := closed.enable, bus := closed.bus, read := closed.read, progress := closed.progress
      answers := closed.answers, fenceBit := closed.fenceBit, linkBit := closed.linkBit
      referenceBit := closed.referenceBit, engineBit := closed.engineBit, pageClosed := closed.pageClosed
      intake := closed.intake, notices := closed.notices
      wf := fun w => closed.wf (by simp only [Exchange.recorded]; exact Memory.wf_writeWords w _ _)
      one := fun o => closed.one o
      count := fun _ => by rw [zero]; decide
      asks := closed.asks
      mem := by
        intro c a out
        rw [← Exchange.recorded_mem c r out]
        exact (x.recorded r).read_closePage st .count out }

theorem Exchange.recorded_reported {x : Exchange} (r : Record)
    (h : (x.recorded r).writer.count ≠ Config.pageRecords) : x.Reported (x.recorded r) where
  slots := rfl
  queue := rfl
  answered := rfl
  fence := rfl
  buffer := rfl
  enable := rfl
  bus := rfl
  read := rfl
  progress := rfl
  answers := rfl
  fenceBit := rfl
  linkBit := rfl
  referenceBit := rfl
  engineBit := rfl
  pageClosed := id
  intake := .inl rfl
  notices := fun _ h => h
  wf := fun w => Memory.wf_writeWords w _ _
  one := id
  count := by
    intro c
    change x.writer.count + 1 ≠ Config.pageRecords at h
    show x.writer.count + 1 < Config.pageRecords
    omega
  asks := id
  mem := fun c _ out => Exchange.recorded_mem c r out

/-- An append (R171, R172). -/
theorem Exchange.append_reported (x : Exchange) (st : Stamp) (r : Record) : x.Reported (x.append st r) := by
  rw [Exchange.append_eq]
  split
  · exact x.ensureOpen_reported.trans (Exchange.recorded_closed_reported x.ensureOpen_filling st r)
  · next h => exact x.ensureOpen_reported.trans (Exchange.recorded_reported r h)

/-- A change of the writer's reservations, waiting requests, age or due mark alone. -/
theorem Exchange.writer_reported {x : Exchange} (w : Writer) (pages : w.pages = x.writer.pages)
    (count : w.count = x.writer.count) (asks : x.writer.AskLaw → w.AskLaw) : x.Reported { x with writer := w } where
  slots := rfl
  queue := rfl
  answered := rfl
  fence := rfl
  buffer := rfl
  enable := rfl
  bus := rfl
  read := rfl
  progress := rfl
  answers := rfl
  fenceBit := rfl
  linkBit := rfl
  referenceBit := rfl
  engineBit := rfl
  pageClosed := id
  intake := .inl rfl
  notices := fun _ h => h
  wf := id
  one := by
    intro h p q a b
    exact h p q (by rw [← pages]; exact a) (by rw [← pages]; exact b)
  count := by intro h; show w.count < _; rw [count]; exact h
  asks := asks
  mem := fun _ _ _ => rfl

/-- Using a position leaves the producers that hold reservations. -/
theorem Writer.holds_use (w : Writer) (p q : Producer) : (w.use p).holds q = w.holds q := by
  unfold Writer.holds Writer.use
  simp only [List.any_map]
  congr 1
  funext h
  simp only [Function.comp]
  split <;> rfl

/-- A record handed under a reservation (R171, R173). -/
theorem Exchange.hand_reported (x : Exchange) (st : Stamp) (p : Producer) (r : Record) : x.Reported (x.hand st p r) :=
  ((Exchange.writer_reported (x.writer.use p) rfl rfl fun h q m => (x.writer.holds_use p q).trans (h q m)).trans (Exchange.append_reported _ st r)).trans
    (Exchange.closeIfDue_reported _ st)

theorem Exchange.grant_reported (x : Exchange) (p : Producer) : x.Reported (x.grant p) where
  slots := rfl
  queue := rfl
  answered := rfl
  fence := rfl
  buffer := rfl
  enable := rfl
  bus := rfl
  read := rfl
  progress := rfl
  answers := rfl
  fenceBit := rfl
  linkBit := rfl
  referenceBit := rfl
  engineBit := rfl
  pageClosed := id
  intake := by
    unfold Exchange.grant
    by_cases h : p = .intake
    · exact .inr (if_pos h)
    · exact .inl (if_neg h)
  notices := fun _ h => h
  wf := id
  one := id
  count := id
  asks := by
    intro h q m
    simp only [Exchange.grant, List.mem_filter, decide_eq_true_eq] at m
    simp only [Exchange.grant, Writer.holds, List.any_append, List.any_cons, List.any_nil, Bool.or_false]
    rw [Bool.or_eq_false_iff]
    exact ⟨h q m.1, by simpa using fun e => m.2 e.symm⟩
  mem := fun _ _ _ => rfl

theorem Exchange.judgeOne_reported (x : Exchange) (p : Producer) : x.Reported (x.judgeOne p) := by
  unfold Exchange.judgeOne
  split
  · exact x.grant_reported p
  · exact .refl x

/-- A judgement of the waiting requests (R170). -/
theorem Exchange.judge_reported (x : Exchange) : x.Reported x.judge := by
  unfold Exchange.judge
  generalize x.writer.judgeOrder = ps
  induction ps generalizing x with
  | nil => exact .refl x
  | cons p rest ih => exact (x.judgeOne_reported p).trans (ih _)

/-- A request made (R170). -/
theorem Exchange.request_reported (x : Exchange) (p : Producer) : x.Reported (x.request p) := by
  unfold Exchange.request
  split
  · exact .refl x
  · next no =>
    refine (Exchange.writer_reported { x.writer with waiting := x.writer.waiting ++ [p] } rfl rfl ?_).trans
      (Exchange.judge_reported _)
    intro h q m
    rcases List.mem_append.mp m with m | m
    · exact h q m
    · rw [List.mem_singleton.mp m]
      exact Bool.eq_false_iff.mpr fun e => no (.inr e)

/-- The exchange with the count of free values used raised is the same to every reader. -/
theorem Exchange.choices_reported (x : Exchange) (n : Nat) : x.Reported { x with choices := n } :=
  { Exchange.Reported.refl x with }

/-- Room that rises (R170, R173). -/
theorem Exchange.roomRose_reported (x : Exchange) (st : Stamp) : x.Reported (x.roomRose st) := by
  unfold Exchange.roomRose
  split
  · refine (x.choices_reported (x.choices + 1)).trans ?_
    simp only
    split
    · exact (Exchange.closeIfDue_reported _ st).trans (Exchange.judge_reported _)
    · exact (Exchange.judge_reported _).trans (Exchange.closeIfDue_reported _ st)
  · exact (Exchange.closeIfDue_reported _ st).trans (Exchange.judge_reported _)

/-- A reservation's unused part returned (R170). -/
theorem Exchange.giveBack_reported (x : Exchange) (st : Stamp) (p : Producer) : x.Reported (x.giveBack st p) :=
  (Exchange.writer_reported { x.writer with held := x.writer.held.filter fun h => decide (h.1 ≠ p) } rfl rfl (by
    intro h q m
    have old := h q m
    simp only [Writer.holds, List.any_eq_false, List.mem_filter] at old ⊢
    exact fun e he => old e he.1)).trans (Exchange.roomRose_reported _ st)

/-- The age count at a second boundary (R173). -/
theorem Exchange.ageStep_reported (x : Exchange) (st : Stamp) (flush : Nat) : x.Reported (x.ageStep st flush) := by
  unfold Exchange.ageStep
  split
  · exact (Exchange.writer_reported
      { x.writer with
        age := saturate 30 x.writer.age 1, due := x.writer.due || decide (flush ≤ saturate 30 x.writer.age 1) }
      rfl rfl id).trans (Exchange.closeIfDue_reported _ st)
  · exact .refl x

/-- A page state other than FILLING written over a page. -/
theorem Exchange.emptied_reported (x : Exchange) (p : Index8) :
    x.Reported { x with writer.pages := x.writer.pages.set p.val .empty p.isLt } :=
  { Exchange.Reported.refl x with
    one := by
      intro h q r hq hr
      simp only [pages_set] at hq hr
      split at hq
      · cases hq
      · split at hr
        · cases hr
        · exact h q r hq hr }

/-- A page returned by the host (R175). -/
theorem Exchange.returnPage_reported (x : Exchange) (st : Stamp) (p : Index8) : x.Reported (x.returnPage st p) :=
  (x.emptied_reported p).trans (Exchange.roomRose_reported _ st)

/-- An IDLE intake unit that finds the queue nonempty only asks room (R82). -/
theorem Exchange.wakeIntake_reported (x : Exchange) (loading : Bool) :
    (x.wakeIntake loading = x) ∨ ({ x with intake := .roomWait } : Exchange).Reported (x.wakeIntake loading) := by
  unfold Exchange.wakeIntake
  split
  · exact .inr (Exchange.request_reported _ _)
  · exact .inl rfl

/-! ## Where no record is handed -/

theorem Exchange.NoRecord.refl (x : Exchange) : x.NoRecord x :=
  ⟨fun _ _ _ => rfl, rfl, fun _ h => h, .inl ⟨rfl, rfl, rfl, rfl, rfl⟩⟩

theorem Exchange.NoRecord.trans {x y z : Exchange} (h : x.NoRecord y) (k : y.NoRecord z) : x.NoRecord z where
  records a i c := (k.records a i c).trans (h.records a i c)
  next := k.next.trans h.next
  held e m := k.held e (h.held e m)
  pages := by
    rcases h.pages with ⟨p, c, d, q, b⟩ | ⟨d, r, f, p, c, e, q, b⟩
    · rcases k.pages with ⟨p', c', d', q', b'⟩ | ⟨d', r, f, p', c', e, q', b'⟩
      · exact .inl ⟨p'.trans p, c'.trans c, d'.trans d, q'.trans q, b'.trans b⟩
      · exact .inr ⟨d ▸ d', r, p ▸ f, p ▸ p', c', e, by rw [q', q], b'⟩
    · rcases k.pages with ⟨p', c', d', q', b'⟩ | ⟨d', -⟩
      · exact .inr ⟨d, r, f, p'.trans p, c'.trans c, d'.trans e, q'.trans q, b'.trans b⟩
      · rw [e] at d'
        cases d'

theorem Exchange.notice_noRecord (x : Exchange) (m : Mirror) : x.NoRecord (x.notice m) :=
  ⟨fun _ _ _ => rfl, rfl, fun _ h => h, .inl ⟨rfl, rfl, rfl, rfl, rfl⟩⟩

/-- A due FILLING page shut. -/
theorem Exchange.pageShut_noRecord {x : Exchange} (due : x.writer.due = true) {p : Index8}
    (f : x.writer.pages.get p = .filling) (st : Stamp) (c : CloseCause) : x.NoRecord (x.pageShut st c p) where
  records a i r := by
    rw [Exchange.pageShut_mem]
    refine Memory.read_writeWords_other ?_
    unfold inPages Config.pagesBase at i
    unfold Config.pagesBase at r
    unfold pageBase Config.pagesBase
    simp only [List.length_cons, List.length_nil]
    omega
  next := by simp only [Exchange.pageShut]
  held h m := by simp only [Exchange.pageShut]; exact m
  pages := .inr ⟨due, p, f, by simp only [Exchange.pageShut], by simp only [Exchange.pageShut],
    by simp only [Exchange.pageShut], by simp only [Exchange.pageShut], by simp only [Exchange.pageShut]⟩

/-- A due page closed (R173, R174). -/
theorem Exchange.closePage_noRecord {x : Exchange} (due : x.writer.due = true) (st : Stamp) (c : CloseCause) :
    x.NoRecord (x.closePage st c) := by
  rw [Exchange.closePage_eq]
  split
  · exact .refl x
  · next p hp =>
    exact ((Exchange.pageShut_noRecord due (Writer.filling_spec hp) st c).trans (Exchange.notice_noRecord _ _)).trans
      (Exchange.notice_noRecord _ _)

theorem Exchange.closeIfDue_noRecord (x : Exchange) (st : Stamp) : x.NoRecord (x.closeIfDue st) := by
  unfold Exchange.closeIfDue
  split
  · next h => exact Exchange.closePage_noRecord h.1 st .age
  · exact .refl x

theorem Exchange.judge_noRecord (x : Exchange) : x.NoRecord x.judge := by
  unfold Exchange.judge
  generalize x.writer.judgeOrder = ps
  induction ps generalizing x with
  | nil => exact .refl x
  | cons p rest ih =>
    refine .trans ?_ (ih (x.judgeOne p))
    unfold Exchange.judgeOne
    split
    · exact ⟨fun _ _ _ => rfl, rfl, fun _ h => List.mem_append_left _ h, .inl ⟨rfl, rfl, rfl, rfl, rfl⟩⟩
    · exact .refl x

/-- A request made (R170). -/
theorem Exchange.request_noRecord (x : Exchange) (p : Producer) : x.NoRecord (x.request p) := by
  unfold Exchange.request
  split
  · exact .refl x
  · exact .trans (y := { x with writer.waiting := x.writer.waiting ++ [p] })
      ⟨fun _ _ _ => rfl, rfl, fun _ h => h, .inl ⟨rfl, rfl, rfl, rfl, rfl⟩⟩ (Exchange.judge_noRecord _)

/-- Room that rises (R170, R173). -/
theorem Exchange.roomRose_noRecord (x : Exchange) (st : Stamp) : x.NoRecord (x.roomRose st) := by
  unfold Exchange.roomRose
  split
  · refine .trans (y := { x with choices := x.choices + 1 })
      ⟨fun _ _ _ => rfl, rfl, fun _ h => h, .inl ⟨rfl, rfl, rfl, rfl, rfl⟩⟩ ?_
    simp only
    split
    · exact (Exchange.closeIfDue_noRecord _ st).trans (Exchange.judge_noRecord _)
    · exact (Exchange.judge_noRecord _).trans (Exchange.closeIfDue_noRecord _ st)
  · exact (Exchange.closeIfDue_noRecord _ st).trans (Exchange.judge_noRecord _)

/-- An IDLE intake unit that finds the queue nonempty hands no record (R82). -/
theorem Exchange.wakeIntake_noRecord (x : Exchange) (loading : Bool) : x.NoRecord (x.wakeIntake loading) := by
  unfold Exchange.wakeIntake
  split
  · exact .trans (y := { x with intake := .roomWait })
      ⟨fun _ _ _ => rfl, rfl, fun _ h => h, .inl ⟨rfl, rfl, rfl, rfl, rfl⟩⟩ (Exchange.request_noRecord _ _)
  · exact .refl x

/-! ## The same over State -/

theorem State.hand_reported (s : State) (p : Producer) (r : Record) : s.ex.Reported (s.hand p r).ex :=
  s.ex.hand_reported s.stamp p r

theorem State.giveBack_reported (s : State) (p : Producer) : s.ex.Reported (s.giveBack p).ex :=
  s.ex.giveBack_reported s.stamp p

theorem State.ask_reported (s : State) (p : Producer) : s.ex.Reported (s.ask p).ex := by
  unfold State.ask
  split
  · exact s.ex.request_reported p
  · exact .refl _

end Sys2Proof.Machine
end

