-- ==== Sys2Proof/Laws/Keep.lean ====
section
/-! SUPPORT. What the shared operations leave as it is: one lemma per field per operation, so that no later proof unfolds
them to know what they do not touch. -/

namespace Sys2Proof.Machine

/-- What every round of a fold leaves as it is, the fold leaves as it is. -/
theorem foldl_keeps {β γ : Type} (field : State → β) {f : State → γ → State}
    (h : ∀ t x, field (f t x) = field t) (xs : List γ) (s : State) : field (xs.foldl f s) = field s := by
  induction xs generalizing s with
  | nil => rfl
  | cons x rest ih => rw [List.foldl_cons, ih, h]

/-! ### ask -/

@[simp] theorem State.ask_pending (s : State) (p : Producer) : (s.ask p).pending = s.pending := by
  unfold State.ask
  try dsimp only
  (repeat' split) <;> simp
@[simp] theorem State.ask_engine (s : State) (p : Producer) : (s.ask p).engine = s.engine := by
  unfold State.ask
  try dsimp only
  (repeat' split) <;> simp
@[simp] theorem State.ask_air (s : State) (p : Producer) : (s.ask p).air = s.air := by
  unfold State.ask
  try dsimp only
  (repeat' split) <;> simp
@[simp] theorem State.ask_account (s : State) (p : Producer) : (s.ask p).account = s.account := by
  unfold State.ask
  try dsimp only
  (repeat' split) <;> simp
@[simp] theorem State.ask_store (s : State) (p : Producer) : (s.ask p).store = s.store := by
  unfold State.ask
  try dsimp only
  (repeat' split) <;> simp
@[simp] theorem State.ask_builder (s : State) (p : Producer) : (s.ask p).builder = s.builder := by
  unfold State.ask
  try dsimp only
  (repeat' split) <;> simp
@[simp] theorem State.ask_links (s : State) (p : Producer) : (s.ask p).links = s.links := by
  unfold State.ask
  try dsimp only
  (repeat' split) <;> simp
@[simp] theorem State.ask_frame (s : State) (p : Producer) : (s.ask p).frame = s.frame := by
  unfold State.ask
  try dsimp only
  (repeat' split) <;> simp
@[simp] theorem State.ask_tracker (s : State) (p : Producer) : (s.ask p).tracker = s.tracker := by
  unfold State.ask
  try dsimp only
  (repeat' split) <;> simp
@[simp] theorem State.ask_arbiter (s : State) (p : Producer) : (s.ask p).arbiter = s.arbiter := by
  unfold State.ask
  try dsimp only
  (repeat' split) <;> simp

/-! ### endUnit -/

@[simp] theorem State.endUnit_pending (s : State) (p : Producer) : (s.endUnit p).pending = s.pending := by
  simp [State.endUnit]
@[simp] theorem State.endUnit_engine (s : State) (p : Producer) : (s.endUnit p).engine = s.engine := by
  simp [State.endUnit]
@[simp] theorem State.endUnit_air (s : State) (p : Producer) : (s.endUnit p).air = s.air := by
  simp [State.endUnit]
@[simp] theorem State.endUnit_account (s : State) (p : Producer) : (s.endUnit p).account = s.account := by
  simp [State.endUnit]
@[simp] theorem State.endUnit_store (s : State) (p : Producer) : (s.endUnit p).store = s.store := by
  simp [State.endUnit]
@[simp] theorem State.endUnit_builder (s : State) (p : Producer) : (s.endUnit p).builder = s.builder := by
  simp [State.endUnit]
@[simp] theorem State.endUnit_links (s : State) (p : Producer) : (s.endUnit p).links = s.links := by
  simp [State.endUnit]
@[simp] theorem State.endUnit_frame (s : State) (p : Producer) : (s.endUnit p).frame = s.frame := by
  simp [State.endUnit]
@[simp] theorem State.endUnit_tracker (s : State) (p : Producer) : (s.endUnit p).tracker = s.tracker := by
  simp [State.endUnit]
@[simp] theorem State.endUnit_arbiter (s : State) (p : Producer) : (s.endUnit p).arbiter = s.arbiter := by
  simp [State.endUnit]

/-! ### setLow -/

@[simp] theorem State.setLow_pending (s : State) (n : Nat) : (s.setLow n).pending = s.pending := rfl
@[simp] theorem State.setLow_engine (s : State) (n : Nat) : (s.setLow n).engine = s.engine := rfl
@[simp] theorem State.setLow_air (s : State) (n : Nat) : (s.setLow n).air = s.air := rfl
@[simp] theorem State.setLow_store (s : State) (n : Nat) : (s.setLow n).store = s.store := rfl
@[simp] theorem State.setLow_builder (s : State) (n : Nat) : (s.setLow n).builder = s.builder := rfl
@[simp] theorem State.setLow_links (s : State) (n : Nat) : (s.setLow n).links = s.links := rfl
@[simp] theorem State.setLow_frame (s : State) (n : Nat) : (s.setLow n).frame = s.frame := rfl
@[simp] theorem State.setLow_tracker (s : State) (n : Nat) : (s.setLow n).tracker = s.tracker := rfl
@[simp] theorem State.setLow_arbiter (s : State) (n : Nat) : (s.setLow n).arbiter = s.arbiter := rfl
@[simp] theorem State.setLow_ex (s : State) (n : Nat) : (s.setLow n).ex = s.ex := rfl

/-! ### judgeLow -/

@[simp] theorem State.judgeLow_pending (s : State) (p : Producer) (n : Nat) (e : BalanceEvent) : (s.judgeLow p n e).pending = s.pending := by
  unfold State.judgeLow
  try dsimp only
  (repeat' split) <;> simp
@[simp] theorem State.judgeLow_engine (s : State) (p : Producer) (n : Nat) (e : BalanceEvent) : (s.judgeLow p n e).engine = s.engine := by
  unfold State.judgeLow
  try dsimp only
  (repeat' split) <;> simp
@[simp] theorem State.judgeLow_air (s : State) (p : Producer) (n : Nat) (e : BalanceEvent) : (s.judgeLow p n e).air = s.air := by
  unfold State.judgeLow
  try dsimp only
  (repeat' split) <;> simp
@[simp] theorem State.judgeLow_store (s : State) (p : Producer) (n : Nat) (e : BalanceEvent) : (s.judgeLow p n e).store = s.store := by
  unfold State.judgeLow
  try dsimp only
  (repeat' split) <;> simp
@[simp] theorem State.judgeLow_builder (s : State) (p : Producer) (n : Nat) (e : BalanceEvent) : (s.judgeLow p n e).builder = s.builder := by
  unfold State.judgeLow
  try dsimp only
  (repeat' split) <;> simp
@[simp] theorem State.judgeLow_links (s : State) (p : Producer) (n : Nat) (e : BalanceEvent) : (s.judgeLow p n e).links = s.links := by
  unfold State.judgeLow
  try dsimp only
  (repeat' split) <;> simp
@[simp] theorem State.judgeLow_frame (s : State) (p : Producer) (n : Nat) (e : BalanceEvent) : (s.judgeLow p n e).frame = s.frame := by
  unfold State.judgeLow
  try dsimp only
  (repeat' split) <;> simp
@[simp] theorem State.judgeLow_tracker (s : State) (p : Producer) (n : Nat) (e : BalanceEvent) : (s.judgeLow p n e).tracker = s.tracker := by
  unfold State.judgeLow
  try dsimp only
  (repeat' split) <;> simp
@[simp] theorem State.judgeLow_arbiter (s : State) (p : Producer) (n : Nat) (e : BalanceEvent) : (s.judgeLow p n e).arbiter = s.arbiter := by
  unfold State.judgeLow
  try dsimp only
  (repeat' split) <;> simp

/-! ### roll -/

@[simp] theorem State.roll_pending (s : State) (p : Producer) (n : Nat) (c : SummarySource) : (s.roll p n c).pending = s.pending := by
  simp [State.roll]
@[simp] theorem State.roll_engine (s : State) (p : Producer) (n : Nat) (c : SummarySource) : (s.roll p n c).engine = s.engine := by
  simp [State.roll]
@[simp] theorem State.roll_air (s : State) (p : Producer) (n : Nat) (c : SummarySource) : (s.roll p n c).air = s.air := by
  simp [State.roll]
@[simp] theorem State.roll_store (s : State) (p : Producer) (n : Nat) (c : SummarySource) : (s.roll p n c).store = s.store := by
  simp [State.roll]
@[simp] theorem State.roll_builder (s : State) (p : Producer) (n : Nat) (c : SummarySource) : (s.roll p n c).builder = s.builder := by
  simp [State.roll]
@[simp] theorem State.roll_links (s : State) (p : Producer) (n : Nat) (c : SummarySource) : (s.roll p n c).links = s.links := by
  simp [State.roll]
@[simp] theorem State.roll_frame (s : State) (p : Producer) (n : Nat) (c : SummarySource) : (s.roll p n c).frame = s.frame := by
  simp [State.roll]
@[simp] theorem State.roll_tracker (s : State) (p : Producer) (n : Nat) (c : SummarySource) : (s.roll p n c).tracker = s.tracker := by
  simp [State.roll]
@[simp] theorem State.roll_arbiter (s : State) (p : Producer) (n : Nat) (c : SummarySource) : (s.roll p n c).arbiter = s.arbiter := by
  simp [State.roll]

/-! ### rollIfStale -/

@[simp] theorem State.rollIfStale_pending (s : State) (n : Nat) : (s.rollIfStale n).pending = s.pending := by
  unfold State.rollIfStale
  try dsimp only
  (repeat' split) <;> simp
@[simp] theorem State.rollIfStale_engine (s : State) (n : Nat) : (s.rollIfStale n).engine = s.engine := by
  unfold State.rollIfStale
  try dsimp only
  (repeat' split) <;> simp
@[simp] theorem State.rollIfStale_air (s : State) (n : Nat) : (s.rollIfStale n).air = s.air := by
  unfold State.rollIfStale
  try dsimp only
  (repeat' split) <;> simp
@[simp] theorem State.rollIfStale_store (s : State) (n : Nat) : (s.rollIfStale n).store = s.store := by
  unfold State.rollIfStale
  try dsimp only
  (repeat' split) <;> simp
@[simp] theorem State.rollIfStale_builder (s : State) (n : Nat) : (s.rollIfStale n).builder = s.builder := by
  unfold State.rollIfStale
  try dsimp only
  (repeat' split) <;> simp
@[simp] theorem State.rollIfStale_links (s : State) (n : Nat) : (s.rollIfStale n).links = s.links := by
  unfold State.rollIfStale
  try dsimp only
  (repeat' split) <;> simp
@[simp] theorem State.rollIfStale_frame (s : State) (n : Nat) : (s.rollIfStale n).frame = s.frame := by
  unfold State.rollIfStale
  try dsimp only
  (repeat' split) <;> simp
@[simp] theorem State.rollIfStale_tracker (s : State) (n : Nat) : (s.rollIfStale n).tracker = s.tracker := by
  unfold State.rollIfStale
  try dsimp only
  (repeat' split) <;> simp
@[simp] theorem State.rollIfStale_arbiter (s : State) (n : Nat) : (s.rollIfStale n).arbiter = s.arbiter := by
  unfold State.rollIfStale
  try dsimp only
  (repeat' split) <;> simp

/-! ### refund -/

@[simp] theorem State.refund_pending (s : State) (p : Producer) (i : Nat) (r : MessageRecord) (o : CloseOutcome) : (s.refund p i r o).pending = s.pending := by
  simp [State.refund]
@[simp] theorem State.refund_engine (s : State) (p : Producer) (i : Nat) (r : MessageRecord) (o : CloseOutcome) : (s.refund p i r o).engine = s.engine := by
  simp [State.refund]
@[simp] theorem State.refund_air (s : State) (p : Producer) (i : Nat) (r : MessageRecord) (o : CloseOutcome) : (s.refund p i r o).air = s.air := by
  simp [State.refund]
@[simp] theorem State.refund_store (s : State) (p : Producer) (i : Nat) (r : MessageRecord) (o : CloseOutcome) : (s.refund p i r o).store = s.store := by
  simp [State.refund]
@[simp] theorem State.refund_builder (s : State) (p : Producer) (i : Nat) (r : MessageRecord) (o : CloseOutcome) : (s.refund p i r o).builder = s.builder := by
  simp [State.refund]
@[simp] theorem State.refund_links (s : State) (p : Producer) (i : Nat) (r : MessageRecord) (o : CloseOutcome) : (s.refund p i r o).links = s.links := by
  simp [State.refund]
@[simp] theorem State.refund_frame (s : State) (p : Producer) (i : Nat) (r : MessageRecord) (o : CloseOutcome) : (s.refund p i r o).frame = s.frame := by
  simp [State.refund]
@[simp] theorem State.refund_tracker (s : State) (p : Producer) (i : Nat) (r : MessageRecord) (o : CloseOutcome) : (s.refund p i r o).tracker = s.tracker := by
  simp [State.refund]
@[simp] theorem State.refund_arbiter (s : State) (p : Producer) (i : Nat) (r : MessageRecord) (o : CloseOutcome) : (s.refund p i r o).arbiter = s.arbiter := by
  simp [State.refund]

/-! ### applyCredit -/

@[simp] theorem State.applyCredit_pending (s : State) (n : Nat) (a : Int) : (s.applyCredit n a).pending = s.pending := by
  simp [State.applyCredit]
@[simp] theorem State.applyCredit_engine (s : State) (n : Nat) (a : Int) : (s.applyCredit n a).engine = s.engine := by
  simp [State.applyCredit]
@[simp] theorem State.applyCredit_air (s : State) (n : Nat) (a : Int) : (s.applyCredit n a).air = s.air := by
  simp [State.applyCredit]
@[simp] theorem State.applyCredit_store (s : State) (n : Nat) (a : Int) : (s.applyCredit n a).store = s.store := by
  simp [State.applyCredit]
@[simp] theorem State.applyCredit_builder (s : State) (n : Nat) (a : Int) : (s.applyCredit n a).builder = s.builder := by
  simp [State.applyCredit]
@[simp] theorem State.applyCredit_links (s : State) (n : Nat) (a : Int) : (s.applyCredit n a).links = s.links := by
  simp [State.applyCredit]
@[simp] theorem State.applyCredit_frame (s : State) (n : Nat) (a : Int) : (s.applyCredit n a).frame = s.frame := by
  simp [State.applyCredit]
@[simp] theorem State.applyCredit_tracker (s : State) (n : Nat) (a : Int) : (s.applyCredit n a).tracker = s.tracker := by
  simp [State.applyCredit]
@[simp] theorem State.applyCredit_arbiter (s : State) (n : Nat) (a : Int) : (s.applyCredit n a).arbiter = s.arbiter := by
  simp [State.applyCredit]

/-! ### walkVisit -/

@[simp] theorem State.walkVisit_pending (s : State) : (s.walkVisit).pending = s.pending := by
  unfold State.walkVisit
  try dsimp only
  (repeat' split) <;> simp
@[simp] theorem State.walkVisit_engine (s : State) : (s.walkVisit).engine = s.engine := by
  unfold State.walkVisit
  try dsimp only
  (repeat' split) <;> simp
@[simp] theorem State.walkVisit_air (s : State) : (s.walkVisit).air = s.air := by
  unfold State.walkVisit
  try dsimp only
  (repeat' split) <;> simp
@[simp] theorem State.walkVisit_store (s : State) : (s.walkVisit).store = s.store := by
  unfold State.walkVisit
  try dsimp only
  (repeat' split) <;> simp
@[simp] theorem State.walkVisit_builder (s : State) : (s.walkVisit).builder = s.builder := by
  unfold State.walkVisit
  try dsimp only
  (repeat' split) <;> simp
@[simp] theorem State.walkVisit_links (s : State) : (s.walkVisit).links = s.links := by
  unfold State.walkVisit
  try dsimp only
  (repeat' split) <;> simp
@[simp] theorem State.walkVisit_frame (s : State) : (s.walkVisit).frame = s.frame := by
  unfold State.walkVisit
  try dsimp only
  (repeat' split) <;> simp
@[simp] theorem State.walkVisit_tracker (s : State) : (s.walkVisit).tracker = s.tracker := by
  unfold State.walkVisit
  try dsimp only
  (repeat' split) <;> simp
@[simp] theorem State.walkVisit_arbiter (s : State) : (s.walkVisit).arbiter = s.arbiter := by
  unfold State.walkVisit
  try dsimp only
  (repeat' split) <;> simp

/-! ### walkEnd -/

@[simp] theorem State.walkEnd_pending (s : State) : (s.walkEnd).pending = s.pending := by
  simp [State.walkEnd]
@[simp] theorem State.walkEnd_engine (s : State) : (s.walkEnd).engine = s.engine := by
  simp [State.walkEnd]
@[simp] theorem State.walkEnd_air (s : State) : (s.walkEnd).air = s.air := by
  simp [State.walkEnd]
@[simp] theorem State.walkEnd_store (s : State) : (s.walkEnd).store = s.store := by
  simp [State.walkEnd]
@[simp] theorem State.walkEnd_builder (s : State) : (s.walkEnd).builder = s.builder := by
  simp [State.walkEnd]
@[simp] theorem State.walkEnd_links (s : State) : (s.walkEnd).links = s.links := by
  simp [State.walkEnd]
@[simp] theorem State.walkEnd_frame (s : State) : (s.walkEnd).frame = s.frame := by
  simp [State.walkEnd]
@[simp] theorem State.walkEnd_tracker (s : State) : (s.walkEnd).tracker = s.tracker := by
  simp [State.walkEnd]
@[simp] theorem State.walkEnd_arbiter (s : State) : (s.walkEnd).arbiter = s.arbiter := by
  simp [State.walkEnd]

/-! ### leaveCollections -/

@[simp] theorem State.leaveCollections_pending (s : State) (i : Nat) : (s.leaveCollections i).pending = s.pending := by
  unfold State.leaveCollections
  try dsimp only
  (repeat' split) <;> simp
@[simp] theorem State.leaveCollections_engine (s : State) (i : Nat) : (s.leaveCollections i).engine = s.engine := by
  unfold State.leaveCollections
  try dsimp only
  (repeat' split) <;> simp
@[simp] theorem State.leaveCollections_air (s : State) (i : Nat) : (s.leaveCollections i).air = s.air := by
  unfold State.leaveCollections
  try dsimp only
  (repeat' split) <;> simp
@[simp] theorem State.leaveCollections_account (s : State) (i : Nat) : (s.leaveCollections i).account = s.account := by
  unfold State.leaveCollections
  try dsimp only
  (repeat' split) <;> simp
@[simp] theorem State.leaveCollections_builder (s : State) (i : Nat) : (s.leaveCollections i).builder = s.builder := by
  unfold State.leaveCollections
  try dsimp only
  (repeat' split) <;> simp
@[simp] theorem State.leaveCollections_links (s : State) (i : Nat) : (s.leaveCollections i).links = s.links := by
  unfold State.leaveCollections
  try dsimp only
  (repeat' split) <;> simp
@[simp] theorem State.leaveCollections_frame (s : State) (i : Nat) : (s.leaveCollections i).frame = s.frame := by
  unfold State.leaveCollections
  try dsimp only
  (repeat' split) <;> simp
@[simp] theorem State.leaveCollections_arbiter (s : State) (i : Nat) : (s.leaveCollections i).arbiter = s.arbiter := by
  unfold State.leaveCollections
  try dsimp only
  (repeat' split) <;> simp
@[simp] theorem State.leaveCollections_ex (s : State) (i : Nat) : (s.leaveCollections i).ex = s.ex := by
  unfold State.leaveCollections
  try dsimp only
  (repeat' split) <;> simp

/-! ### freeRecord -/

@[simp] theorem State.freeRecord_pending (s : State) (i : Nat) : (s.freeRecord i).pending = s.pending := by
  simp [State.freeRecord]
@[simp] theorem State.freeRecord_engine (s : State) (i : Nat) : (s.freeRecord i).engine = s.engine := by
  simp [State.freeRecord]
@[simp] theorem State.freeRecord_air (s : State) (i : Nat) : (s.freeRecord i).air = s.air := by
  simp [State.freeRecord]
@[simp] theorem State.freeRecord_builder (s : State) (i : Nat) : (s.freeRecord i).builder = s.builder := by
  simp [State.freeRecord]
@[simp] theorem State.freeRecord_links (s : State) (i : Nat) : (s.freeRecord i).links = s.links := by
  simp [State.freeRecord]
@[simp] theorem State.freeRecord_frame (s : State) (i : Nat) : (s.freeRecord i).frame = s.frame := by
  simp [State.freeRecord]
@[simp] theorem State.freeRecord_arbiter (s : State) (i : Nat) : (s.freeRecord i).arbiter = s.arbiter := by
  simp [State.freeRecord]

/-! ### close -/

@[simp] theorem State.close_pending (s : State) (p : Producer) (i : Nat) (o : CloseOutcome) : (s.close p i o).pending = s.pending := by
  unfold State.close
  try dsimp only
  (repeat' split) <;> simp
@[simp] theorem State.close_engine (s : State) (p : Producer) (i : Nat) (o : CloseOutcome) : (s.close p i o).engine = s.engine := by
  unfold State.close
  try dsimp only
  (repeat' split) <;> simp
@[simp] theorem State.close_air (s : State) (p : Producer) (i : Nat) (o : CloseOutcome) : (s.close p i o).air = s.air := by
  unfold State.close
  try dsimp only
  (repeat' split) <;> simp
@[simp] theorem State.close_builder (s : State) (p : Producer) (i : Nat) (o : CloseOutcome) : (s.close p i o).builder = s.builder := by
  unfold State.close
  try dsimp only
  (repeat' split) <;> simp
@[simp] theorem State.close_links (s : State) (p : Producer) (i : Nat) (o : CloseOutcome) : (s.close p i o).links = s.links := by
  unfold State.close
  try dsimp only
  (repeat' split) <;> simp
@[simp] theorem State.close_frame (s : State) (p : Producer) (i : Nat) (o : CloseOutcome) : (s.close p i o).frame = s.frame := by
  unfold State.close
  try dsimp only
  (repeat' split) <;> simp
@[simp] theorem State.close_arbiter (s : State) (p : Producer) (i : Nat) (o : CloseOutcome) : (s.close p i o).arbiter = s.arbiter := by
  unfold State.close
  try dsimp only
  (repeat' split) <;> simp

/-! ### holdAll -/

@[simp] theorem State.holdAll_pending (s : State) (n : Nat) : (s.holdAll n).1.pending = s.pending := by
  unfold State.holdAll
  exact foldl_keeps (·.pending) (fun t x => by simp) _ _
@[simp] theorem State.holdAll_engine (s : State) (n : Nat) : (s.holdAll n).1.engine = s.engine := by
  unfold State.holdAll
  exact foldl_keeps (·.engine) (fun t x => by simp) _ _
@[simp] theorem State.holdAll_air (s : State) (n : Nat) : (s.holdAll n).1.air = s.air := by
  unfold State.holdAll
  exact foldl_keeps (·.air) (fun t x => by simp) _ _
@[simp] theorem State.holdAll_account (s : State) (n : Nat) : (s.holdAll n).1.account = s.account := by
  unfold State.holdAll
  exact foldl_keeps (·.account) (fun t x => by simp) _ _
@[simp] theorem State.holdAll_builder (s : State) (n : Nat) : (s.holdAll n).1.builder = s.builder := by
  unfold State.holdAll
  exact foldl_keeps (·.builder) (fun t x => by simp) _ _
@[simp] theorem State.holdAll_links (s : State) (n : Nat) : (s.holdAll n).1.links = s.links := by
  unfold State.holdAll
  exact foldl_keeps (·.links) (fun t x => by simp) _ _
@[simp] theorem State.holdAll_frame (s : State) (n : Nat) : (s.holdAll n).1.frame = s.frame := by
  unfold State.holdAll
  exact foldl_keeps (·.frame) (fun t x => by simp) _ _
@[simp] theorem State.holdAll_tracker (s : State) (n : Nat) : (s.holdAll n).1.tracker = s.tracker := by
  unfold State.holdAll
  exact foldl_keeps (·.tracker) (fun t x => by simp) _ _
@[simp] theorem State.holdAll_arbiter (s : State) (n : Nat) : (s.holdAll n).1.arbiter = s.arbiter := by
  unfold State.holdAll
  exact foldl_keeps (·.arbiter) (fun t x => by simp) _ _
@[simp] theorem State.holdAll_ex (s : State) (n : Nat) : (s.holdAll n).1.ex = s.ex := by
  unfold State.holdAll
  exact foldl_keeps (·.ex) (fun t x => by simp) _ _

/-! ### releaseAll -/

@[simp] theorem State.releaseAll_pending (s : State) (n : Nat) : (s.releaseAll n).1.pending = s.pending := by
  unfold State.releaseAll
  exact foldl_keeps (·.pending) (fun t x => by simp) _ _
@[simp] theorem State.releaseAll_engine (s : State) (n : Nat) : (s.releaseAll n).1.engine = s.engine := by
  unfold State.releaseAll
  exact foldl_keeps (·.engine) (fun t x => by simp) _ _
@[simp] theorem State.releaseAll_air (s : State) (n : Nat) : (s.releaseAll n).1.air = s.air := by
  unfold State.releaseAll
  exact foldl_keeps (·.air) (fun t x => by simp) _ _
@[simp] theorem State.releaseAll_builder (s : State) (n : Nat) : (s.releaseAll n).1.builder = s.builder := by
  unfold State.releaseAll
  exact foldl_keeps (·.builder) (fun t x => by simp) _ _
@[simp] theorem State.releaseAll_links (s : State) (n : Nat) : (s.releaseAll n).1.links = s.links := by
  unfold State.releaseAll
  exact foldl_keeps (·.links) (fun t x => by simp) _ _
@[simp] theorem State.releaseAll_frame (s : State) (n : Nat) : (s.releaseAll n).1.frame = s.frame := by
  unfold State.releaseAll
  exact foldl_keeps (·.frame) (fun t x => by simp) _ _
@[simp] theorem State.releaseAll_tracker (s : State) (n : Nat) : (s.releaseAll n).1.tracker = s.tracker := by
  unfold State.releaseAll
  exact foldl_keeps (·.tracker) (fun t x => by simp) _ _
@[simp] theorem State.releaseAll_arbiter (s : State) (n : Nat) : (s.releaseAll n).1.arbiter = s.arbiter := by
  unfold State.releaseAll
  exact foldl_keeps (·.arbiter) (fun t x => by simp) _ _
@[simp] theorem State.releaseAll_ex (s : State) (n : Nat) : (s.releaseAll n).1.ex = s.ex := by
  unfold State.releaseAll
  exact foldl_keeps (·.ex) (fun t x => by simp) _ _

/-! ### returnOne -/

@[simp] theorem State.returnOne_pending (s : State) (i : Nat) : (s.returnOne i).pending = s.pending := by
  unfold State.returnOne
  try dsimp only
  (repeat' split) <;> simp
@[simp] theorem State.returnOne_engine (s : State) (i : Nat) : (s.returnOne i).engine = s.engine := by
  unfold State.returnOne
  try dsimp only
  (repeat' split) <;> simp
@[simp] theorem State.returnOne_air (s : State) (i : Nat) : (s.returnOne i).air = s.air := by
  unfold State.returnOne
  try dsimp only
  (repeat' split) <;> simp
@[simp] theorem State.returnOne_account (s : State) (i : Nat) : (s.returnOne i).account = s.account := by
  unfold State.returnOne
  try dsimp only
  (repeat' split) <;> simp
@[simp] theorem State.returnOne_builder (s : State) (i : Nat) : (s.returnOne i).builder = s.builder := by
  unfold State.returnOne
  try dsimp only
  (repeat' split) <;> simp
@[simp] theorem State.returnOne_links (s : State) (i : Nat) : (s.returnOne i).links = s.links := by
  unfold State.returnOne
  try dsimp only
  (repeat' split) <;> simp
@[simp] theorem State.returnOne_frame (s : State) (i : Nat) : (s.returnOne i).frame = s.frame := by
  unfold State.returnOne
  try dsimp only
  (repeat' split) <;> simp
@[simp] theorem State.returnOne_tracker (s : State) (i : Nat) : (s.returnOne i).tracker = s.tracker := by
  unfold State.returnOne
  try dsimp only
  (repeat' split) <;> simp
@[simp] theorem State.returnOne_arbiter (s : State) (i : Nat) : (s.returnOne i).arbiter = s.arbiter := by
  unfold State.returnOne
  try dsimp only
  (repeat' split) <;> simp
@[simp] theorem State.returnOne_ex (s : State) (i : Nat) : (s.returnOne i).ex = s.ex := by
  unfold State.returnOne
  try dsimp only
  (repeat' split) <;> simp

/-! ### returnPlaced -/

@[simp] theorem State.returnPlaced_pending (s : State) (m : Nat) : (s.returnPlaced m).pending = s.pending := by
  unfold State.returnPlaced
  exact foldl_keeps (·.pending) (fun t x => by simp) _ _
@[simp] theorem State.returnPlaced_engine (s : State) (m : Nat) : (s.returnPlaced m).engine = s.engine := by
  unfold State.returnPlaced
  exact foldl_keeps (·.engine) (fun t x => by simp) _ _
@[simp] theorem State.returnPlaced_air (s : State) (m : Nat) : (s.returnPlaced m).air = s.air := by
  unfold State.returnPlaced
  exact foldl_keeps (·.air) (fun t x => by simp) _ _
@[simp] theorem State.returnPlaced_account (s : State) (m : Nat) : (s.returnPlaced m).account = s.account := by
  unfold State.returnPlaced
  exact foldl_keeps (·.account) (fun t x => by simp) _ _
@[simp] theorem State.returnPlaced_builder (s : State) (m : Nat) : (s.returnPlaced m).builder = s.builder := by
  unfold State.returnPlaced
  exact foldl_keeps (·.builder) (fun t x => by simp) _ _
@[simp] theorem State.returnPlaced_links (s : State) (m : Nat) : (s.returnPlaced m).links = s.links := by
  unfold State.returnPlaced
  exact foldl_keeps (·.links) (fun t x => by simp) _ _
@[simp] theorem State.returnPlaced_frame (s : State) (m : Nat) : (s.returnPlaced m).frame = s.frame := by
  unfold State.returnPlaced
  exact foldl_keeps (·.frame) (fun t x => by simp) _ _
@[simp] theorem State.returnPlaced_tracker (s : State) (m : Nat) : (s.returnPlaced m).tracker = s.tracker := by
  unfold State.returnPlaced
  exact foldl_keeps (·.tracker) (fun t x => by simp) _ _
@[simp] theorem State.returnPlaced_arbiter (s : State) (m : Nat) : (s.returnPlaced m).arbiter = s.arbiter := by
  unfold State.returnPlaced
  exact foldl_keeps (·.arbiter) (fun t x => by simp) _ _
@[simp] theorem State.returnPlaced_ex (s : State) (m : Nat) : (s.returnPlaced m).ex = s.ex := by
  unfold State.returnPlaced
  exact foldl_keeps (·.ex) (fun t x => by simp) _ _

/-! ### moveSlot -/

@[simp] theorem State.moveSlot_pending (s : State) (n : Nat) (slot : Fin 32) : (s.moveSlot n slot).pending = s.pending := by
  unfold State.moveSlot
  simp only
  rw [foldl_keeps (·.pending) (fun t x => by simp), State.setBilling_pending, foldl_keeps (·.pending) (fun t x => by simp)]
@[simp] theorem State.moveSlot_engine (s : State) (n : Nat) (slot : Fin 32) : (s.moveSlot n slot).engine = s.engine := by
  unfold State.moveSlot
  simp only
  rw [foldl_keeps (·.engine) (fun t x => by simp), State.setBilling_engine, foldl_keeps (·.engine) (fun t x => by simp)]
@[simp] theorem State.moveSlot_air (s : State) (n : Nat) (slot : Fin 32) : (s.moveSlot n slot).air = s.air := by
  unfold State.moveSlot
  simp only
  rw [foldl_keeps (·.air) (fun t x => by simp), State.setBilling_air, foldl_keeps (·.air) (fun t x => by simp)]
@[simp] theorem State.moveSlot_builder (s : State) (n : Nat) (slot : Fin 32) : (s.moveSlot n slot).builder = s.builder := by
  unfold State.moveSlot
  simp only
  rw [foldl_keeps (·.builder) (fun t x => by simp), State.setBilling_builder, foldl_keeps (·.builder) (fun t x => by simp)]
@[simp] theorem State.moveSlot_links (s : State) (n : Nat) (slot : Fin 32) : (s.moveSlot n slot).links = s.links := by
  unfold State.moveSlot
  simp only
  rw [foldl_keeps (·.links) (fun t x => by simp), State.setBilling_links, foldl_keeps (·.links) (fun t x => by simp)]
@[simp] theorem State.moveSlot_frame (s : State) (n : Nat) (slot : Fin 32) : (s.moveSlot n slot).frame = s.frame := by
  unfold State.moveSlot
  simp only
  rw [foldl_keeps (·.frame) (fun t x => by simp), State.setBilling_frame, foldl_keeps (·.frame) (fun t x => by simp)]
@[simp] theorem State.moveSlot_tracker (s : State) (n : Nat) (slot : Fin 32) : (s.moveSlot n slot).tracker = s.tracker := by
  unfold State.moveSlot
  simp only
  rw [foldl_keeps (·.tracker) (fun t x => by simp), State.setBilling_tracker, foldl_keeps (·.tracker) (fun t x => by simp)]
@[simp] theorem State.moveSlot_arbiter (s : State) (n : Nat) (slot : Fin 32) : (s.moveSlot n slot).arbiter = s.arbiter := by
  unfold State.moveSlot
  simp only
  rw [foldl_keeps (·.arbiter) (fun t x => by simp), State.setBilling_arbiter, foldl_keeps (·.arbiter) (fun t x => by simp)]
@[simp] theorem State.moveSlot_ex (s : State) (n : Nat) (slot : Fin 32) : (s.moveSlot n slot).ex = s.ex := by
  unfold State.moveSlot
  simp only
  rw [foldl_keeps (·.ex) (fun t x => by simp), State.setBilling_ex, foldl_keeps (·.ex) (fun t x => by simp)]

/-! ### settleRecord -/

@[simp] theorem State.settleRecord_pending (s : State) (e : SettleEntry) (r : MessageRecord) : (s.settleRecord e r).pending = s.pending := by
  unfold State.settleRecord
  try dsimp only
  (repeat' split) <;> simp
@[simp] theorem State.settleRecord_engine (s : State) (e : SettleEntry) (r : MessageRecord) : (s.settleRecord e r).engine = s.engine := by
  unfold State.settleRecord
  try dsimp only
  (repeat' split) <;> simp
@[simp] theorem State.settleRecord_air (s : State) (e : SettleEntry) (r : MessageRecord) : (s.settleRecord e r).air = s.air := by
  unfold State.settleRecord
  try dsimp only
  (repeat' split) <;> simp
@[simp] theorem State.settleRecord_builder (s : State) (e : SettleEntry) (r : MessageRecord) : (s.settleRecord e r).builder = s.builder := by
  unfold State.settleRecord
  try dsimp only
  (repeat' split) <;> simp
@[simp] theorem State.settleRecord_links (s : State) (e : SettleEntry) (r : MessageRecord) : (s.settleRecord e r).links = s.links := by
  unfold State.settleRecord
  try dsimp only
  (repeat' split) <;> simp
@[simp] theorem State.settleRecord_frame (s : State) (e : SettleEntry) (r : MessageRecord) : (s.settleRecord e r).frame = s.frame := by
  unfold State.settleRecord
  try dsimp only
  (repeat' split) <;> simp
@[simp] theorem State.settleRecord_arbiter (s : State) (e : SettleEntry) (r : MessageRecord) : (s.settleRecord e r).arbiter = s.arbiter := by
  unfold State.settleRecord
  try dsimp only
  (repeat' split) <;> simp

/-! ### heard -/

@[simp] theorem State.heard_pending (s : State) (n : Nat) (e : ReverseEntry) : (s.heard n e).pending = s.pending := by
  unfold State.heard
  try dsimp only
  (repeat' split) <;> simp
@[simp] theorem State.heard_engine (s : State) (n : Nat) (e : ReverseEntry) : (s.heard n e).engine = s.engine := by
  unfold State.heard
  try dsimp only
  (repeat' split) <;> simp
@[simp] theorem State.heard_air (s : State) (n : Nat) (e : ReverseEntry) : (s.heard n e).air = s.air := by
  unfold State.heard
  try dsimp only
  (repeat' split) <;> simp
@[simp] theorem State.heard_builder (s : State) (n : Nat) (e : ReverseEntry) : (s.heard n e).builder = s.builder := by
  unfold State.heard
  try dsimp only
  (repeat' split) <;> simp
@[simp] theorem State.heard_links (s : State) (n : Nat) (e : ReverseEntry) : (s.heard n e).links = s.links := by
  unfold State.heard
  try dsimp only
  (repeat' split) <;> simp
@[simp] theorem State.heard_frame (s : State) (n : Nat) (e : ReverseEntry) : (s.heard n e).frame = s.frame := by
  unfold State.heard
  try dsimp only
  (repeat' split) <;> simp
@[simp] theorem State.heard_tracker (s : State) (n : Nat) (e : ReverseEntry) : (s.heard n e).tracker = s.tracker := by
  unfold State.heard
  try dsimp only
  (repeat' split) <;> simp
@[simp] theorem State.heard_arbiter (s : State) (n : Nat) (e : ReverseEntry) : (s.heard n e).arbiter = s.arbiter := by
  unfold State.heard
  try dsimp only
  (repeat' split) <;> simp

/-! ### matchAck -/

@[simp] theorem State.matchAck_pending (s : State) (n : Nat) (e : ReverseEntry) : (s.matchAck n e).pending = s.pending := by
  unfold State.matchAck
  try dsimp only
  (repeat' split) <;> simp
@[simp] theorem State.matchAck_engine (s : State) (n : Nat) (e : ReverseEntry) : (s.matchAck n e).engine = s.engine := by
  unfold State.matchAck
  try dsimp only
  (repeat' split) <;> simp
@[simp] theorem State.matchAck_air (s : State) (n : Nat) (e : ReverseEntry) : (s.matchAck n e).air = s.air := by
  unfold State.matchAck
  try dsimp only
  (repeat' split) <;> simp
@[simp] theorem State.matchAck_builder (s : State) (n : Nat) (e : ReverseEntry) : (s.matchAck n e).builder = s.builder := by
  unfold State.matchAck
  try dsimp only
  (repeat' split) <;> simp
@[simp] theorem State.matchAck_links (s : State) (n : Nat) (e : ReverseEntry) : (s.matchAck n e).links = s.links := by
  unfold State.matchAck
  try dsimp only
  (repeat' split) <;> simp
@[simp] theorem State.matchAck_frame (s : State) (n : Nat) (e : ReverseEntry) : (s.matchAck n e).frame = s.frame := by
  unfold State.matchAck
  try dsimp only
  (repeat' split) <;> simp
@[simp] theorem State.matchAck_arbiter (s : State) (n : Nat) (e : ReverseEntry) : (s.matchAck n e).arbiter = s.arbiter := by
  unfold State.matchAck
  try dsimp only
  (repeat' split) <;> simp

/-! ### processReturn -/

@[simp] theorem State.processReturn_pending (s : State) (e : ReverseEntry) : (s.processReturn e).pending = s.pending := by
  unfold State.processReturn
  try dsimp only
  (repeat' split) <;> simp
@[simp] theorem State.processReturn_engine (s : State) (e : ReverseEntry) : (s.processReturn e).engine = s.engine := by
  unfold State.processReturn
  try dsimp only
  (repeat' split) <;> simp
@[simp] theorem State.processReturn_air (s : State) (e : ReverseEntry) : (s.processReturn e).air = s.air := by
  unfold State.processReturn
  try dsimp only
  (repeat' split) <;> simp
@[simp] theorem State.processReturn_builder (s : State) (e : ReverseEntry) : (s.processReturn e).builder = s.builder := by
  unfold State.processReturn
  try dsimp only
  (repeat' split) <;> simp
@[simp] theorem State.processReturn_links (s : State) (e : ReverseEntry) : (s.processReturn e).links = s.links := by
  unfold State.processReturn
  try dsimp only
  (repeat' split) <;> simp
@[simp] theorem State.processReturn_frame (s : State) (e : ReverseEntry) : (s.processReturn e).frame = s.frame := by
  unfold State.processReturn
  try dsimp only
  (repeat' split) <;> simp
@[simp] theorem State.processReturn_arbiter (s : State) (e : ReverseEntry) : (s.processReturn e).arbiter = s.arbiter := by
  unfold State.processReturn
  try dsimp only
  (repeat' split) <;> simp

/-! ### missLatch -/

@[simp] theorem State.missLatch_pending (s : State) (n : Nat) : (s.missLatch n).pending = s.pending := by
  unfold State.missLatch
  try dsimp only
  (repeat' split) <;> simp
@[simp] theorem State.missLatch_engine (s : State) (n : Nat) : (s.missLatch n).engine = s.engine := by
  unfold State.missLatch
  try dsimp only
  (repeat' split) <;> simp
@[simp] theorem State.missLatch_air (s : State) (n : Nat) : (s.missLatch n).air = s.air := by
  unfold State.missLatch
  try dsimp only
  (repeat' split) <;> simp
@[simp] theorem State.missLatch_builder (s : State) (n : Nat) : (s.missLatch n).builder = s.builder := by
  unfold State.missLatch
  try dsimp only
  (repeat' split) <;> simp
@[simp] theorem State.missLatch_links (s : State) (n : Nat) : (s.missLatch n).links = s.links := by
  unfold State.missLatch
  try dsimp only
  (repeat' split) <;> simp
@[simp] theorem State.missLatch_frame (s : State) (n : Nat) : (s.missLatch n).frame = s.frame := by
  unfold State.missLatch
  try dsimp only
  (repeat' split) <;> simp
@[simp] theorem State.missLatch_tracker (s : State) (n : Nat) : (s.missLatch n).tracker = s.tracker := by
  unfold State.missLatch
  try dsimp only
  (repeat' split) <;> simp
@[simp] theorem State.missLatch_arbiter (s : State) (n : Nat) : (s.missLatch n).arbiter = s.arbiter := by
  unfold State.missLatch
  try dsimp only
  (repeat' split) <;> simp

/-! ### deadlineFate -/

@[simp] theorem State.deadlineFate_pending (s : State) (i d : Nat) : (s.deadlineFate i d).pending = s.pending := by
  unfold State.deadlineFate
  try dsimp only
  (repeat' split) <;> simp
@[simp] theorem State.deadlineFate_engine (s : State) (i d : Nat) : (s.deadlineFate i d).engine = s.engine := by
  unfold State.deadlineFate
  try dsimp only
  (repeat' split) <;> simp
@[simp] theorem State.deadlineFate_air (s : State) (i d : Nat) : (s.deadlineFate i d).air = s.air := by
  unfold State.deadlineFate
  try dsimp only
  (repeat' split) <;> simp
@[simp] theorem State.deadlineFate_builder (s : State) (i d : Nat) : (s.deadlineFate i d).builder = s.builder := by
  unfold State.deadlineFate
  try dsimp only
  (repeat' split) <;> simp
@[simp] theorem State.deadlineFate_links (s : State) (i d : Nat) : (s.deadlineFate i d).links = s.links := by
  unfold State.deadlineFate
  try dsimp only
  (repeat' split) <;> simp
@[simp] theorem State.deadlineFate_frame (s : State) (i d : Nat) : (s.deadlineFate i d).frame = s.frame := by
  unfold State.deadlineFate
  try dsimp only
  (repeat' split) <;> simp
@[simp] theorem State.deadlineFate_arbiter (s : State) (i d : Nat) : (s.deadlineFate i d).arbiter = s.arbiter := by
  unfold State.deadlineFate
  try dsimp only
  (repeat' split) <;> simp

/-! ### place -/

@[simp] theorem State.place_pending (s : State) (n i : Nat) (t : Option (Fin 8)) (z : ZoneSet) : (s.place n i t z).pending = s.pending := by
  simp [State.place]
@[simp] theorem State.place_engine (s : State) (n i : Nat) (t : Option (Fin 8)) (z : ZoneSet) : (s.place n i t z).engine = s.engine := by
  simp [State.place]
@[simp] theorem State.place_air (s : State) (n i : Nat) (t : Option (Fin 8)) (z : ZoneSet) : (s.place n i t z).air = s.air := by
  simp [State.place]
@[simp] theorem State.place_links (s : State) (n i : Nat) (t : Option (Fin 8)) (z : ZoneSet) : (s.place n i t z).links = s.links := by
  simp [State.place]
@[simp] theorem State.place_frame (s : State) (n i : Nat) (t : Option (Fin 8)) (z : ZoneSet) : (s.place n i t z).frame = s.frame := by
  simp [State.place]
@[simp] theorem State.place_tracker (s : State) (n i : Nat) (t : Option (Fin 8)) (z : ZoneSet) : (s.place n i t z).tracker = s.tracker := by
  simp [State.place]
@[simp] theorem State.place_arbiter (s : State) (n i : Nat) (t : Option (Fin 8)) (z : ZoneSet) : (s.place n i t z).arbiter = s.arbiter := by
  simp [State.place]
@[simp] theorem State.place_ex (s : State) (n i : Nat) (t : Option (Fin 8)) (z : ZoneSet) : (s.place n i t z).ex = s.ex := by
  simp [State.place]

/-! ### endBuild -/

@[simp] theorem State.endBuild_pending (s : State) (lit : Nat → ZoneSet) : (s.endBuild lit).pending = s.pending := by
  unfold State.endBuild
  try dsimp only
  (repeat' split) <;> simp
@[simp] theorem State.endBuild_engine (s : State) (lit : Nat → ZoneSet) : (s.endBuild lit).engine = s.engine := by
  unfold State.endBuild
  try dsimp only
  (repeat' split) <;> simp
@[simp] theorem State.endBuild_air (s : State) (lit : Nat → ZoneSet) : (s.endBuild lit).air = s.air := by
  unfold State.endBuild
  try dsimp only
  (repeat' split) <;> simp
@[simp] theorem State.endBuild_account (s : State) (lit : Nat → ZoneSet) : (s.endBuild lit).account = s.account := by
  unfold State.endBuild
  try dsimp only
  (repeat' split) <;> simp
@[simp] theorem State.endBuild_store (s : State) (lit : Nat → ZoneSet) : (s.endBuild lit).store = s.store := by
  unfold State.endBuild
  try dsimp only
  (repeat' split) <;> simp
@[simp] theorem State.endBuild_links (s : State) (lit : Nat → ZoneSet) : (s.endBuild lit).links = s.links := by
  unfold State.endBuild
  try dsimp only
  (repeat' split) <;> simp
@[simp] theorem State.endBuild_frame (s : State) (lit : Nat → ZoneSet) : (s.endBuild lit).frame = s.frame := by
  unfold State.endBuild
  try dsimp only
  (repeat' split) <;> simp
@[simp] theorem State.endBuild_tracker (s : State) (lit : Nat → ZoneSet) : (s.endBuild lit).tracker = s.tracker := by
  unfold State.endBuild
  try dsimp only
  (repeat' split) <;> simp
@[simp] theorem State.endBuild_arbiter (s : State) (lit : Nat → ZoneSet) : (s.endBuild lit).arbiter = s.arbiter := by
  unfold State.endBuild
  try dsimp only
  (repeat' split) <;> simp
@[simp] theorem State.endBuild_ex (s : State) (lit : Nat → ZoneSet) : (s.endBuild lit).ex = s.ex := by
  unfold State.endBuild
  try dsimp only
  (repeat' split) <;> simp

/-! ### cutBuild -/

@[simp] theorem State.cutBuild_pending (s : State) (m : Nat) (lit : Nat → ZoneSet) : (s.cutBuild m lit).pending = s.pending := by
  unfold State.cutBuild
  try dsimp only
  (repeat' split) <;> simp
@[simp] theorem State.cutBuild_engine (s : State) (m : Nat) (lit : Nat → ZoneSet) : (s.cutBuild m lit).engine = s.engine := by
  unfold State.cutBuild
  try dsimp only
  (repeat' split) <;> simp
@[simp] theorem State.cutBuild_air (s : State) (m : Nat) (lit : Nat → ZoneSet) : (s.cutBuild m lit).air = s.air := by
  unfold State.cutBuild
  try dsimp only
  (repeat' split) <;> simp
@[simp] theorem State.cutBuild_account (s : State) (m : Nat) (lit : Nat → ZoneSet) : (s.cutBuild m lit).account = s.account := by
  unfold State.cutBuild
  try dsimp only
  (repeat' split) <;> simp
@[simp] theorem State.cutBuild_store (s : State) (m : Nat) (lit : Nat → ZoneSet) : (s.cutBuild m lit).store = s.store := by
  unfold State.cutBuild
  try dsimp only
  (repeat' split) <;> simp
@[simp] theorem State.cutBuild_links (s : State) (m : Nat) (lit : Nat → ZoneSet) : (s.cutBuild m lit).links = s.links := by
  unfold State.cutBuild
  try dsimp only
  (repeat' split) <;> simp
@[simp] theorem State.cutBuild_frame (s : State) (m : Nat) (lit : Nat → ZoneSet) : (s.cutBuild m lit).frame = s.frame := by
  unfold State.cutBuild
  try dsimp only
  (repeat' split) <;> simp
@[simp] theorem State.cutBuild_tracker (s : State) (m : Nat) (lit : Nat → ZoneSet) : (s.cutBuild m lit).tracker = s.tracker := by
  unfold State.cutBuild
  try dsimp only
  (repeat' split) <;> simp
@[simp] theorem State.cutBuild_arbiter (s : State) (m : Nat) (lit : Nat → ZoneSet) : (s.cutBuild m lit).arbiter = s.arbiter := by
  unfold State.cutBuild
  try dsimp only
  (repeat' split) <;> simp
@[simp] theorem State.cutBuild_ex (s : State) (m : Nat) (lit : Nat → ZoneSet) : (s.cutBuild m lit).ex = s.ex := by
  unfold State.cutBuild
  try dsimp only
  (repeat' split) <;> simp

/-! ### buildDue -/

@[simp] theorem State.buildDue_pending (s : State) (m : Nat) (lit : Nat → ZoneSet) : (s.buildDue m lit).pending = s.pending := by
  unfold State.buildDue
  try dsimp only
  (repeat' split) <;> simp
@[simp] theorem State.buildDue_engine (s : State) (m : Nat) (lit : Nat → ZoneSet) : (s.buildDue m lit).engine = s.engine := by
  unfold State.buildDue
  try dsimp only
  (repeat' split) <;> simp
@[simp] theorem State.buildDue_air (s : State) (m : Nat) (lit : Nat → ZoneSet) : (s.buildDue m lit).air = s.air := by
  unfold State.buildDue
  try dsimp only
  (repeat' split) <;> simp
@[simp] theorem State.buildDue_account (s : State) (m : Nat) (lit : Nat → ZoneSet) : (s.buildDue m lit).account = s.account := by
  unfold State.buildDue
  try dsimp only
  (repeat' split) <;> simp
@[simp] theorem State.buildDue_store (s : State) (m : Nat) (lit : Nat → ZoneSet) : (s.buildDue m lit).store = s.store := by
  unfold State.buildDue
  try dsimp only
  (repeat' split) <;> simp
@[simp] theorem State.buildDue_links (s : State) (m : Nat) (lit : Nat → ZoneSet) : (s.buildDue m lit).links = s.links := by
  unfold State.buildDue
  try dsimp only
  (repeat' split) <;> simp
@[simp] theorem State.buildDue_frame (s : State) (m : Nat) (lit : Nat → ZoneSet) : (s.buildDue m lit).frame = s.frame := by
  unfold State.buildDue
  try dsimp only
  (repeat' split) <;> simp
@[simp] theorem State.buildDue_tracker (s : State) (m : Nat) (lit : Nat → ZoneSet) : (s.buildDue m lit).tracker = s.tracker := by
  unfold State.buildDue
  try dsimp only
  (repeat' split) <;> simp
@[simp] theorem State.buildDue_arbiter (s : State) (m : Nat) (lit : Nat → ZoneSet) : (s.buildDue m lit).arbiter = s.arbiter := by
  unfold State.buildDue
  try dsimp only
  (repeat' split) <;> simp
@[simp] theorem State.buildDue_ex (s : State) (m : Nat) (lit : Nat → ZoneSet) : (s.buildDue m lit).ex = s.ex := by
  unfold State.buildDue
  try dsimp only
  (repeat' split) <;> simp

/-! ### handReport -/

@[simp] theorem State.handReport_pending (s : State) : (s.handReport).pending = s.pending := by
  unfold State.handReport
  try dsimp only
  (repeat' split) <;> simp
@[simp] theorem State.handReport_engine (s : State) : (s.handReport).engine = s.engine := by
  unfold State.handReport
  try dsimp only
  (repeat' split) <;> simp
@[simp] theorem State.handReport_air (s : State) : (s.handReport).air = s.air := by
  unfold State.handReport
  try dsimp only
  (repeat' split) <;> simp
@[simp] theorem State.handReport_account (s : State) : (s.handReport).account = s.account := by
  unfold State.handReport
  try dsimp only
  (repeat' split) <;> simp
@[simp] theorem State.handReport_store (s : State) : (s.handReport).store = s.store := by
  unfold State.handReport
  try dsimp only
  (repeat' split) <;> simp
@[simp] theorem State.handReport_builder (s : State) : (s.handReport).builder = s.builder := by
  unfold State.handReport
  try dsimp only
  (repeat' split) <;> simp
@[simp] theorem State.handReport_links (s : State) : (s.handReport).links = s.links := by
  unfold State.handReport
  try dsimp only
  (repeat' split) <;> simp
@[simp] theorem State.handReport_frame (s : State) : (s.handReport).frame = s.frame := by
  unfold State.handReport
  try dsimp only
  (repeat' split) <;> simp
@[simp] theorem State.handReport_arbiter (s : State) : (s.handReport).arbiter = s.arbiter := by
  unfold State.handReport
  try dsimp only
  (repeat' split) <;> simp
@[simp] theorem State.handReport_ex (s : State) : (s.handReport).ex = s.ex := by
  unfold State.handReport
  try dsimp only
  (repeat' split) <;> simp

/-! ### offerStatus -/

@[simp] theorem State.offerStatus_pending (s : State) (l : Index8) : (s.offerStatus l).pending = s.pending := by
  unfold State.offerStatus
  try dsimp only
  (repeat' split) <;> simp
@[simp] theorem State.offerStatus_engine (s : State) (l : Index8) : (s.offerStatus l).engine = s.engine := by
  unfold State.offerStatus
  try dsimp only
  (repeat' split) <;> simp
@[simp] theorem State.offerStatus_air (s : State) (l : Index8) : (s.offerStatus l).air = s.air := by
  unfold State.offerStatus
  try dsimp only
  (repeat' split) <;> simp
@[simp] theorem State.offerStatus_account (s : State) (l : Index8) : (s.offerStatus l).account = s.account := by
  unfold State.offerStatus
  try dsimp only
  (repeat' split) <;> simp
@[simp] theorem State.offerStatus_store (s : State) (l : Index8) : (s.offerStatus l).store = s.store := by
  unfold State.offerStatus
  try dsimp only
  (repeat' split) <;> simp
@[simp] theorem State.offerStatus_builder (s : State) (l : Index8) : (s.offerStatus l).builder = s.builder := by
  unfold State.offerStatus
  try dsimp only
  (repeat' split) <;> simp
@[simp] theorem State.offerStatus_frame (s : State) (l : Index8) : (s.offerStatus l).frame = s.frame := by
  unfold State.offerStatus
  try dsimp only
  (repeat' split) <;> simp
@[simp] theorem State.offerStatus_tracker (s : State) (l : Index8) : (s.offerStatus l).tracker = s.tracker := by
  unfold State.offerStatus
  try dsimp only
  (repeat' split) <;> simp
@[simp] theorem State.offerStatus_arbiter (s : State) (l : Index8) : (s.offerStatus l).arbiter = s.arbiter := by
  unfold State.offerStatus
  try dsimp only
  (repeat' split) <;> simp

/-! ### appendLinkReport -/

@[simp] theorem State.appendLinkReport_pending (s : State) (l : Index8) : (s.appendLinkReport l).pending = s.pending := by
  unfold State.appendLinkReport
  try dsimp only
  (repeat' split) <;> simp
@[simp] theorem State.appendLinkReport_engine (s : State) (l : Index8) : (s.appendLinkReport l).engine = s.engine := by
  unfold State.appendLinkReport
  try dsimp only
  (repeat' split) <;> simp
@[simp] theorem State.appendLinkReport_air (s : State) (l : Index8) : (s.appendLinkReport l).air = s.air := by
  unfold State.appendLinkReport
  try dsimp only
  (repeat' split) <;> simp
@[simp] theorem State.appendLinkReport_account (s : State) (l : Index8) : (s.appendLinkReport l).account = s.account := by
  unfold State.appendLinkReport
  try dsimp only
  (repeat' split) <;> simp
@[simp] theorem State.appendLinkReport_store (s : State) (l : Index8) : (s.appendLinkReport l).store = s.store := by
  unfold State.appendLinkReport
  try dsimp only
  (repeat' split) <;> simp
@[simp] theorem State.appendLinkReport_builder (s : State) (l : Index8) : (s.appendLinkReport l).builder = s.builder := by
  unfold State.appendLinkReport
  try dsimp only
  (repeat' split) <;> simp
@[simp] theorem State.appendLinkReport_frame (s : State) (l : Index8) : (s.appendLinkReport l).frame = s.frame := by
  unfold State.appendLinkReport
  try dsimp only
  (repeat' split) <;> simp
@[simp] theorem State.appendLinkReport_tracker (s : State) (l : Index8) : (s.appendLinkReport l).tracker = s.tracker := by
  unfold State.appendLinkReport
  try dsimp only
  (repeat' split) <;> simp
@[simp] theorem State.appendLinkReport_arbiter (s : State) (l : Index8) : (s.appendLinkReport l).arbiter = s.arbiter := by
  unfold State.appendLinkReport
  try dsimp only
  (repeat' split) <;> simp

/-! ### startSweep -/

@[simp] theorem State.startSweep_pending (s : State) (m : Nat) : (s.startSweep m).pending = s.pending := by
  unfold State.startSweep
  try dsimp only
  (repeat' split) <;> simp
@[simp] theorem State.startSweep_engine (s : State) (m : Nat) : (s.startSweep m).engine = s.engine := by
  unfold State.startSweep
  try dsimp only
  (repeat' split) <;> simp
@[simp] theorem State.startSweep_air (s : State) (m : Nat) : (s.startSweep m).air = s.air := by
  unfold State.startSweep
  try dsimp only
  (repeat' split) <;> simp
@[simp] theorem State.startSweep_account (s : State) (m : Nat) : (s.startSweep m).account = s.account := by
  unfold State.startSweep
  try dsimp only
  (repeat' split) <;> simp
@[simp] theorem State.startSweep_builder (s : State) (m : Nat) : (s.startSweep m).builder = s.builder := by
  unfold State.startSweep
  try dsimp only
  (repeat' split) <;> simp
@[simp] theorem State.startSweep_links (s : State) (m : Nat) : (s.startSweep m).links = s.links := by
  unfold State.startSweep
  try dsimp only
  (repeat' split) <;> simp
@[simp] theorem State.startSweep_frame (s : State) (m : Nat) : (s.startSweep m).frame = s.frame := by
  unfold State.startSweep
  try dsimp only
  (repeat' split) <;> simp
@[simp] theorem State.startSweep_tracker (s : State) (m : Nat) : (s.startSweep m).tracker = s.tracker := by
  unfold State.startSweep
  try dsimp only
  (repeat' split) <;> simp
@[simp] theorem State.startSweep_arbiter (s : State) (m : Nat) : (s.startSweep m).arbiter = s.arbiter := by
  unfold State.startSweep
  try dsimp only
  (repeat' split) <;> simp
@[simp] theorem State.startSweep_ex (s : State) (m : Nat) : (s.startSweep m).ex = s.ex := by
  unfold State.startSweep
  try dsimp only
  (repeat' split) <;> simp

/-! ### setMonitor -/

@[simp] theorem State.setMonitor_pending (s : State) (m : Monitor) : (s.setMonitor m).pending = s.pending := rfl
@[simp] theorem State.setMonitor_account (s : State) (m : Monitor) : (s.setMonitor m).account = s.account := rfl
@[simp] theorem State.setMonitor_store (s : State) (m : Monitor) : (s.setMonitor m).store = s.store := rfl
@[simp] theorem State.setMonitor_builder (s : State) (m : Monitor) : (s.setMonitor m).builder = s.builder := rfl
@[simp] theorem State.setMonitor_links (s : State) (m : Monitor) : (s.setMonitor m).links = s.links := rfl
@[simp] theorem State.setMonitor_frame (s : State) (m : Monitor) : (s.setMonitor m).frame = s.frame := rfl
@[simp] theorem State.setMonitor_tracker (s : State) (m : Monitor) : (s.setMonitor m).tracker = s.tracker := rfl
@[simp] theorem State.setMonitor_arbiter (s : State) (m : Monitor) : (s.setMonitor m).arbiter = s.arbiter := rfl

/-! ### tick -/

@[simp] theorem State.tick_pending (s : State) (mark : Bool) : (s.tick mark).pending = s.pending := by
  unfold State.tick
  try dsimp only
  (repeat' split) <;> simp
@[simp] theorem State.tick_engine (s : State) (mark : Bool) : (s.tick mark).engine = s.engine := by
  unfold State.tick
  try dsimp only
  (repeat' split) <;> simp
@[simp] theorem State.tick_account (s : State) (mark : Bool) : (s.tick mark).account = s.account := by
  unfold State.tick
  try dsimp only
  (repeat' split) <;> simp
@[simp] theorem State.tick_store (s : State) (mark : Bool) : (s.tick mark).store = s.store := by
  unfold State.tick
  try dsimp only
  (repeat' split) <;> simp
@[simp] theorem State.tick_builder (s : State) (mark : Bool) : (s.tick mark).builder = s.builder := by
  unfold State.tick
  try dsimp only
  (repeat' split) <;> simp
@[simp] theorem State.tick_links (s : State) (mark : Bool) : (s.tick mark).links = s.links := by
  unfold State.tick
  try dsimp only
  (repeat' split) <;> simp
@[simp] theorem State.tick_frame (s : State) (mark : Bool) : (s.tick mark).frame = s.frame := by
  unfold State.tick
  try dsimp only
  (repeat' split) <;> simp
@[simp] theorem State.tick_tracker (s : State) (mark : Bool) : (s.tick mark).tracker = s.tracker := by
  unfold State.tick
  try dsimp only
  (repeat' split) <;> simp
@[simp] theorem State.tick_arbiter (s : State) (mark : Bool) : (s.tick mark).arbiter = s.arbiter := by
  unfold State.tick
  try dsimp only
  (repeat' split) <;> simp

/-! ### airSteps -/

@[simp] theorem State.airSteps_pending (s : State) (mark : Bool) : (s.airSteps mark).pending = s.pending := by
  simp [State.airSteps]
@[simp] theorem State.airSteps_account (s : State) (mark : Bool) : (s.airSteps mark).account = s.account := by
  simp [State.airSteps]
@[simp] theorem State.airSteps_store (s : State) (mark : Bool) : (s.airSteps mark).store = s.store := by
  simp [State.airSteps]
@[simp] theorem State.airSteps_builder (s : State) (mark : Bool) : (s.airSteps mark).builder = s.builder := by
  simp [State.airSteps]
@[simp] theorem State.airSteps_links (s : State) (mark : Bool) : (s.airSteps mark).links = s.links := by
  simp [State.airSteps]
@[simp] theorem State.airSteps_frame (s : State) (mark : Bool) : (s.airSteps mark).frame = s.frame := by
  simp [State.airSteps]
@[simp] theorem State.airSteps_tracker (s : State) (mark : Bool) : (s.airSteps mark).tracker = s.tracker := by
  simp [State.airSteps]
@[simp] theorem State.airSteps_arbiter (s : State) (mark : Bool) : (s.airSteps mark).arbiter = s.arbiter := by
  simp [State.airSteps]

/-! ### beginFrame -/

@[simp] theorem State.beginFrame_pending (s : State) (m : Nat) (lit : Nat → ZoneSet) : (s.beginFrame m lit).pending = s.pending := by
  simp [State.beginFrame]
@[simp] theorem State.beginFrame_engine (s : State) (m : Nat) (lit : Nat → ZoneSet) : (s.beginFrame m lit).engine = s.engine := by
  simp [State.beginFrame]
@[simp] theorem State.beginFrame_air (s : State) (m : Nat) (lit : Nat → ZoneSet) : (s.beginFrame m lit).air = s.air := by
  simp [State.beginFrame]
@[simp] theorem State.beginFrame_account (s : State) (m : Nat) (lit : Nat → ZoneSet) : (s.beginFrame m lit).account = s.account := by
  simp [State.beginFrame]
@[simp] theorem State.beginFrame_links (s : State) (m : Nat) (lit : Nat → ZoneSet) : (s.beginFrame m lit).links = s.links := by
  simp [State.beginFrame]
@[simp] theorem State.beginFrame_tracker (s : State) (m : Nat) (lit : Nat → ZoneSet) : (s.beginFrame m lit).tracker = s.tracker := by
  simp [State.beginFrame]
@[simp] theorem State.beginFrame_arbiter (s : State) (m : Nat) (lit : Nat → ZoneSet) : (s.beginFrame m lit).arbiter = s.arbiter := by
  simp [State.beginFrame]

/-! ### endStopping -/

@[simp] theorem State.endStopping_pending (s : State) (m : Nat) : (s.endStopping m).pending = s.pending := by
  simp [State.endStopping]
@[simp] theorem State.endStopping_air (s : State) (m : Nat) : (s.endStopping m).air = s.air := by
  simp [State.endStopping]
@[simp] theorem State.endStopping_account (s : State) (m : Nat) : (s.endStopping m).account = s.account := by
  simp [State.endStopping]
@[simp] theorem State.endStopping_links (s : State) (m : Nat) : (s.endStopping m).links = s.links := by
  simp [State.endStopping]
@[simp] theorem State.endStopping_tracker (s : State) (m : Nat) : (s.endStopping m).tracker = s.tracker := by
  simp [State.endStopping]
@[simp] theorem State.endStopping_arbiter (s : State) (m : Nat) : (s.endStopping m).arbiter = s.arbiter := by
  simp [State.endStopping]

/-! ### takeMark -/

@[simp] theorem State.takeMark_pending (s : State) : (s.takeMark).pending = s.pending := by
  unfold State.takeMark
  try dsimp only
  (repeat' split) <;> simp
@[simp] theorem State.takeMark_air (s : State) : (s.takeMark).air = s.air := by
  unfold State.takeMark
  try dsimp only
  (repeat' split) <;> simp
@[simp] theorem State.takeMark_account (s : State) : (s.takeMark).account = s.account := by
  unfold State.takeMark
  try dsimp only
  (repeat' split) <;> simp
@[simp] theorem State.takeMark_arbiter (s : State) : (s.takeMark).arbiter = s.arbiter := by
  unfold State.takeMark
  try dsimp only
  (repeat' split) <;> simp

/-! ### takeItem -/

@[simp] theorem State.takeItem_pending (s : State) (i : ReportItem) : (s.takeItem i).pending = s.pending := by
  cases i <;> simp [State.takeItem]
@[simp] theorem State.takeItem_engine (s : State) (i : ReportItem) : (s.takeItem i).engine = s.engine := by
  cases i <;> simp [State.takeItem]
@[simp] theorem State.takeItem_air (s : State) (i : ReportItem) : (s.takeItem i).air = s.air := by
  cases i <;> simp [State.takeItem]
@[simp] theorem State.takeItem_account (s : State) (i : ReportItem) : (s.takeItem i).account = s.account := by
  cases i <;> simp [State.takeItem]
@[simp] theorem State.takeItem_store (s : State) (i : ReportItem) : (s.takeItem i).store = s.store := by
  cases i <;> simp [State.takeItem]
@[simp] theorem State.takeItem_builder (s : State) (i : ReportItem) : (s.takeItem i).builder = s.builder := by
  cases i <;> simp [State.takeItem]
@[simp] theorem State.takeItem_frame (s : State) (i : ReportItem) : (s.takeItem i).frame = s.frame := by
  cases i <;> simp [State.takeItem]
@[simp] theorem State.takeItem_tracker (s : State) (i : ReportItem) : (s.takeItem i).tracker = s.tracker := by
  cases i <;> simp [State.takeItem]
@[simp] theorem State.takeItem_arbiter (s : State) (i : ReportItem) : (s.takeItem i).arbiter = s.arbiter := by
  cases i <;> simp [State.takeItem]

/-! ### reportSteps -/

@[simp] theorem State.reportSteps_pending (s : State) (o : List Index8) : (s.reportSteps o).pending = s.pending := by
  unfold State.reportSteps
  exact foldl_keeps (·.pending) (fun t x => by simp) _ _
@[simp] theorem State.reportSteps_engine (s : State) (o : List Index8) : (s.reportSteps o).engine = s.engine := by
  unfold State.reportSteps
  exact foldl_keeps (·.engine) (fun t x => by simp) _ _
@[simp] theorem State.reportSteps_air (s : State) (o : List Index8) : (s.reportSteps o).air = s.air := by
  unfold State.reportSteps
  exact foldl_keeps (·.air) (fun t x => by simp) _ _
@[simp] theorem State.reportSteps_account (s : State) (o : List Index8) : (s.reportSteps o).account = s.account := by
  unfold State.reportSteps
  exact foldl_keeps (·.account) (fun t x => by simp) _ _
@[simp] theorem State.reportSteps_store (s : State) (o : List Index8) : (s.reportSteps o).store = s.store := by
  unfold State.reportSteps
  exact foldl_keeps (·.store) (fun t x => by simp) _ _
@[simp] theorem State.reportSteps_builder (s : State) (o : List Index8) : (s.reportSteps o).builder = s.builder := by
  unfold State.reportSteps
  exact foldl_keeps (·.builder) (fun t x => by simp) _ _
@[simp] theorem State.reportSteps_frame (s : State) (o : List Index8) : (s.reportSteps o).frame = s.frame := by
  unfold State.reportSteps
  exact foldl_keeps (·.frame) (fun t x => by simp) _ _
@[simp] theorem State.reportSteps_tracker (s : State) (o : List Index8) : (s.reportSteps o).tracker = s.tracker := by
  unfold State.reportSteps
  exact foldl_keeps (·.tracker) (fun t x => by simp) _ _
@[simp] theorem State.reportSteps_arbiter (s : State) (o : List Index8) : (s.reportSteps o).arbiter = s.arbiter := by
  unfold State.reportSteps
  exact foldl_keeps (·.arbiter) (fun t x => by simp) _ _

/-! ### boundary -/

@[simp] theorem State.boundary_pending (s : State) : (s.boundary).pending = s.pending := by
  unfold State.boundary
  try dsimp only
  (repeat' split) <;> simp
@[simp] theorem State.boundary_account (s : State) : (s.boundary).account = s.account := by
  unfold State.boundary
  try dsimp only
  (repeat' split) <;> simp
@[simp] theorem State.boundary_arbiter (s : State) : (s.boundary).arbiter = s.arbiter := by
  unfold State.boundary
  try dsimp only
  (repeat' split) <;> simp

/-! ### answer -/

@[simp] theorem State.answer_pending (s : State) (c : AnswerCode) (d : List Word) : (s.answer c d).pending = s.pending := by
  unfold State.answer
  try dsimp only
  (repeat' split) <;> simp
@[simp] theorem State.answer_engine (s : State) (c : AnswerCode) (d : List Word) : (s.answer c d).engine = s.engine := by
  unfold State.answer
  try dsimp only
  (repeat' split) <;> simp
@[simp] theorem State.answer_air (s : State) (c : AnswerCode) (d : List Word) : (s.answer c d).air = s.air := by
  unfold State.answer
  try dsimp only
  (repeat' split) <;> simp
@[simp] theorem State.answer_account (s : State) (c : AnswerCode) (d : List Word) : (s.answer c d).account = s.account := by
  unfold State.answer
  try dsimp only
  (repeat' split) <;> simp
@[simp] theorem State.answer_store (s : State) (c : AnswerCode) (d : List Word) : (s.answer c d).store = s.store := by
  unfold State.answer
  try dsimp only
  (repeat' split) <;> simp
@[simp] theorem State.answer_builder (s : State) (c : AnswerCode) (d : List Word) : (s.answer c d).builder = s.builder := by
  unfold State.answer
  try dsimp only
  (repeat' split) <;> simp
@[simp] theorem State.answer_links (s : State) (c : AnswerCode) (d : List Word) : (s.answer c d).links = s.links := by
  unfold State.answer
  try dsimp only
  (repeat' split) <;> simp
@[simp] theorem State.answer_frame (s : State) (c : AnswerCode) (d : List Word) : (s.answer c d).frame = s.frame := by
  unfold State.answer
  try dsimp only
  (repeat' split) <;> simp
@[simp] theorem State.answer_tracker (s : State) (c : AnswerCode) (d : List Word) : (s.answer c d).tracker = s.tracker := by
  unfold State.answer
  try dsimp only
  (repeat' split) <;> simp
@[simp] theorem State.answer_arbiter (s : State) (c : AnswerCode) (d : List Word) : (s.answer c d).arbiter = s.arbiter := by
  unfold State.answer
  try dsimp only
  (repeat' split) <;> simp

/-! ### malformed -/

@[simp] theorem State.malformed_pending (s : State) (w : Word) (k : Nat) : (s.malformed w k).pending = s.pending := by
  simp [State.malformed]
@[simp] theorem State.malformed_engine (s : State) (w : Word) (k : Nat) : (s.malformed w k).engine = s.engine := by
  simp [State.malformed]
@[simp] theorem State.malformed_air (s : State) (w : Word) (k : Nat) : (s.malformed w k).air = s.air := by
  simp [State.malformed]
@[simp] theorem State.malformed_account (s : State) (w : Word) (k : Nat) : (s.malformed w k).account = s.account := by
  simp [State.malformed]
@[simp] theorem State.malformed_store (s : State) (w : Word) (k : Nat) : (s.malformed w k).store = s.store := by
  simp [State.malformed]
@[simp] theorem State.malformed_builder (s : State) (w : Word) (k : Nat) : (s.malformed w k).builder = s.builder := by
  simp [State.malformed]
@[simp] theorem State.malformed_links (s : State) (w : Word) (k : Nat) : (s.malformed w k).links = s.links := by
  simp [State.malformed]
@[simp] theorem State.malformed_frame (s : State) (w : Word) (k : Nat) : (s.malformed w k).frame = s.frame := by
  simp [State.malformed]
@[simp] theorem State.malformed_tracker (s : State) (w : Word) (k : Nat) : (s.malformed w k).tracker = s.tracker := by
  simp [State.malformed]
@[simp] theorem State.malformed_arbiter (s : State) (w : Word) (k : Nat) : (s.malformed w k).arbiter = s.arbiter := by
  simp [State.malformed]

/-! ### refuseSubscriber -/

@[simp] theorem State.refuseSubscriber_pending (s : State) (c : AnswerCode) (n : Nat) : (s.refuseSubscriber c n).pending = s.pending := by
  simp [State.refuseSubscriber]
@[simp] theorem State.refuseSubscriber_engine (s : State) (c : AnswerCode) (n : Nat) : (s.refuseSubscriber c n).engine = s.engine := by
  simp [State.refuseSubscriber]
@[simp] theorem State.refuseSubscriber_air (s : State) (c : AnswerCode) (n : Nat) : (s.refuseSubscriber c n).air = s.air := by
  simp [State.refuseSubscriber]
@[simp] theorem State.refuseSubscriber_account (s : State) (c : AnswerCode) (n : Nat) : (s.refuseSubscriber c n).account = s.account := by
  simp [State.refuseSubscriber]
@[simp] theorem State.refuseSubscriber_store (s : State) (c : AnswerCode) (n : Nat) : (s.refuseSubscriber c n).store = s.store := by
  simp [State.refuseSubscriber]
@[simp] theorem State.refuseSubscriber_builder (s : State) (c : AnswerCode) (n : Nat) : (s.refuseSubscriber c n).builder = s.builder := by
  simp [State.refuseSubscriber]
@[simp] theorem State.refuseSubscriber_links (s : State) (c : AnswerCode) (n : Nat) : (s.refuseSubscriber c n).links = s.links := by
  simp [State.refuseSubscriber]
@[simp] theorem State.refuseSubscriber_frame (s : State) (c : AnswerCode) (n : Nat) : (s.refuseSubscriber c n).frame = s.frame := by
  simp [State.refuseSubscriber]
@[simp] theorem State.refuseSubscriber_tracker (s : State) (c : AnswerCode) (n : Nat) : (s.refuseSubscriber c n).tracker = s.tracker := by
  simp [State.refuseSubscriber]
@[simp] theorem State.refuseSubscriber_arbiter (s : State) (c : AnswerCode) (n : Nat) : (s.refuseSubscriber c n).arbiter = s.arbiter := by
  simp [State.refuseSubscriber]

/-! ### refuseState -/

@[simp] theorem State.refuseState_pending (s : State) (c : AnswerCode) : (s.refuseState c).pending = s.pending := by
  simp [State.refuseState]
@[simp] theorem State.refuseState_engine (s : State) (c : AnswerCode) : (s.refuseState c).engine = s.engine := by
  simp [State.refuseState]
@[simp] theorem State.refuseState_air (s : State) (c : AnswerCode) : (s.refuseState c).air = s.air := by
  simp [State.refuseState]
@[simp] theorem State.refuseState_account (s : State) (c : AnswerCode) : (s.refuseState c).account = s.account := by
  simp [State.refuseState]
@[simp] theorem State.refuseState_store (s : State) (c : AnswerCode) : (s.refuseState c).store = s.store := by
  simp [State.refuseState]
@[simp] theorem State.refuseState_builder (s : State) (c : AnswerCode) : (s.refuseState c).builder = s.builder := by
  simp [State.refuseState]
@[simp] theorem State.refuseState_links (s : State) (c : AnswerCode) : (s.refuseState c).links = s.links := by
  simp [State.refuseState]
@[simp] theorem State.refuseState_frame (s : State) (c : AnswerCode) : (s.refuseState c).frame = s.frame := by
  simp [State.refuseState]
@[simp] theorem State.refuseState_tracker (s : State) (c : AnswerCode) : (s.refuseState c).tracker = s.tracker := by
  simp [State.refuseState]
@[simp] theorem State.refuseState_arbiter (s : State) (c : AnswerCode) : (s.refuseState c).arbiter = s.arbiter := by
  simp [State.refuseState]

/-! ### answerFitted -/

@[simp] theorem State.answerFitted_pending (s : State) (a b : List Word) : (s.answerFitted a b).pending = s.pending := by
  simp [State.answerFitted]
@[simp] theorem State.answerFitted_engine (s : State) (a b : List Word) : (s.answerFitted a b).engine = s.engine := by
  simp [State.answerFitted]
@[simp] theorem State.answerFitted_air (s : State) (a b : List Word) : (s.answerFitted a b).air = s.air := by
  simp [State.answerFitted]
@[simp] theorem State.answerFitted_account (s : State) (a b : List Word) : (s.answerFitted a b).account = s.account := by
  simp [State.answerFitted]
@[simp] theorem State.answerFitted_store (s : State) (a b : List Word) : (s.answerFitted a b).store = s.store := by
  simp [State.answerFitted]
@[simp] theorem State.answerFitted_builder (s : State) (a b : List Word) : (s.answerFitted a b).builder = s.builder := by
  simp [State.answerFitted]
@[simp] theorem State.answerFitted_links (s : State) (a b : List Word) : (s.answerFitted a b).links = s.links := by
  simp [State.answerFitted]
@[simp] theorem State.answerFitted_frame (s : State) (a b : List Word) : (s.answerFitted a b).frame = s.frame := by
  simp [State.answerFitted]
@[simp] theorem State.answerFitted_tracker (s : State) (a b : List Word) : (s.answerFitted a b).tracker = s.tracker := by
  simp [State.answerFitted]
@[simp] theorem State.answerFitted_arbiter (s : State) (a b : List Word) : (s.answerFitted a b).arbiter = s.arbiter := by
  simp [State.answerFitted]

/-! ### commit -/

@[simp] theorem State.commit_pending (s : State) (d : Draft) (c : Nat) (r : Bool) : (s.commit d c r).pending = s.pending := by
  unfold State.commit
  try dsimp only
  (repeat' split) <;> simp
@[simp] theorem State.commit_engine (s : State) (d : Draft) (c : Nat) (r : Bool) : (s.commit d c r).engine = s.engine := by
  unfold State.commit
  try dsimp only
  (repeat' split) <;> simp
@[simp] theorem State.commit_air (s : State) (d : Draft) (c : Nat) (r : Bool) : (s.commit d c r).air = s.air := by
  unfold State.commit
  try dsimp only
  (repeat' split) <;> simp
@[simp] theorem State.commit_builder (s : State) (d : Draft) (c : Nat) (r : Bool) : (s.commit d c r).builder = s.builder := by
  unfold State.commit
  try dsimp only
  (repeat' split) <;> simp
@[simp] theorem State.commit_links (s : State) (d : Draft) (c : Nat) (r : Bool) : (s.commit d c r).links = s.links := by
  unfold State.commit
  try dsimp only
  (repeat' split) <;> simp
@[simp] theorem State.commit_frame (s : State) (d : Draft) (c : Nat) (r : Bool) : (s.commit d c r).frame = s.frame := by
  unfold State.commit
  try dsimp only
  (repeat' split) <;> simp
@[simp] theorem State.commit_tracker (s : State) (d : Draft) (c : Nat) (r : Bool) : (s.commit d c r).tracker = s.tracker := by
  unfold State.commit
  try dsimp only
  (repeat' split) <;> simp
@[simp] theorem State.commit_arbiter (s : State) (d : Draft) (c : Nat) (r : Bool) : (s.commit d c r).arbiter = s.arbiter := by
  unfold State.commit
  try dsimp only
  (repeat' split) <;> simp

/-! ### applyCharge -/

@[simp] theorem State.applyCharge_pending (s : State) (n : Nat) (r : Rating) : (s.applyCharge n r).pending = s.pending := by
  simp [State.applyCharge]
@[simp] theorem State.applyCharge_engine (s : State) (n : Nat) (r : Rating) : (s.applyCharge n r).engine = s.engine := by
  simp [State.applyCharge]
@[simp] theorem State.applyCharge_air (s : State) (n : Nat) (r : Rating) : (s.applyCharge n r).air = s.air := by
  simp [State.applyCharge]
@[simp] theorem State.applyCharge_store (s : State) (n : Nat) (r : Rating) : (s.applyCharge n r).store = s.store := by
  simp [State.applyCharge]
@[simp] theorem State.applyCharge_builder (s : State) (n : Nat) (r : Rating) : (s.applyCharge n r).builder = s.builder := by
  simp [State.applyCharge]
@[simp] theorem State.applyCharge_links (s : State) (n : Nat) (r : Rating) : (s.applyCharge n r).links = s.links := by
  simp [State.applyCharge]
@[simp] theorem State.applyCharge_frame (s : State) (n : Nat) (r : Rating) : (s.applyCharge n r).frame = s.frame := by
  simp [State.applyCharge]
@[simp] theorem State.applyCharge_tracker (s : State) (n : Nat) (r : Rating) : (s.applyCharge n r).tracker = s.tracker := by
  simp [State.applyCharge]
@[simp] theorem State.applyCharge_arbiter (s : State) (n : Nat) (r : Rating) : (s.applyCharge n r).arbiter = s.arbiter := by
  simp [State.applyCharge]
@[simp] theorem State.applyCharge_ex (s : State) (n : Nat) (r : Rating) : (s.applyCharge n r).ex = s.ex := by
  simp [State.applyCharge]

/-! ### charged -/

@[simp] theorem State.charged_pending (s : State) (d : Draft) : (s.charged d).pending = s.pending := by
  unfold State.charged
  dsimp only
  split <;> simp
@[simp] theorem State.charged_engine (s : State) (d : Draft) : (s.charged d).engine = s.engine := by
  unfold State.charged
  dsimp only
  split <;> simp
@[simp] theorem State.charged_air (s : State) (d : Draft) : (s.charged d).air = s.air := by
  unfold State.charged
  dsimp only
  split <;> simp
@[simp] theorem State.charged_store (s : State) (d : Draft) : (s.charged d).store = s.store := by
  unfold State.charged
  dsimp only
  split <;> simp
@[simp] theorem State.charged_builder (s : State) (d : Draft) : (s.charged d).builder = s.builder := by
  unfold State.charged
  dsimp only
  split <;> simp
@[simp] theorem State.charged_links (s : State) (d : Draft) : (s.charged d).links = s.links := by
  unfold State.charged
  dsimp only
  split <;> simp
@[simp] theorem State.charged_frame (s : State) (d : Draft) : (s.charged d).frame = s.frame := by
  unfold State.charged
  dsimp only
  split <;> simp
@[simp] theorem State.charged_tracker (s : State) (d : Draft) : (s.charged d).tracker = s.tracker := by
  unfold State.charged
  dsimp only
  split <;> simp
@[simp] theorem State.charged_arbiter (s : State) (d : Draft) : (s.charged d).arbiter = s.arbiter := by
  unfold State.charged
  dsimp only
  split <;> simp
@[simp] theorem State.charged_ex (s : State) (d : Draft) : (s.charged d).ex = s.ex := by
  unfold State.charged
  dsimp only
  split <;> simp

/-! ### rateMessage -/

@[simp] theorem State.rateMessage_pending (s : State) (d : Draft) : (s.rateMessage d).pending = s.pending := by
  unfold State.rateMessage
  try dsimp only
  (repeat' split) <;> simp
@[simp] theorem State.rateMessage_engine (s : State) (d : Draft) : (s.rateMessage d).engine = s.engine := by
  unfold State.rateMessage
  try dsimp only
  (repeat' split) <;> simp
@[simp] theorem State.rateMessage_air (s : State) (d : Draft) : (s.rateMessage d).air = s.air := by
  unfold State.rateMessage
  try dsimp only
  (repeat' split) <;> simp
@[simp] theorem State.rateMessage_store (s : State) (d : Draft) : (s.rateMessage d).store = s.store := by
  unfold State.rateMessage
  try dsimp only
  (repeat' split) <;> simp
@[simp] theorem State.rateMessage_builder (s : State) (d : Draft) : (s.rateMessage d).builder = s.builder := by
  unfold State.rateMessage
  try dsimp only
  (repeat' split) <;> simp
@[simp] theorem State.rateMessage_links (s : State) (d : Draft) : (s.rateMessage d).links = s.links := by
  unfold State.rateMessage
  try dsimp only
  (repeat' split) <;> simp
@[simp] theorem State.rateMessage_frame (s : State) (d : Draft) : (s.rateMessage d).frame = s.frame := by
  unfold State.rateMessage
  try dsimp only
  (repeat' split) <;> simp
@[simp] theorem State.rateMessage_tracker (s : State) (d : Draft) : (s.rateMessage d).tracker = s.tracker := by
  unfold State.rateMessage
  try dsimp only
  (repeat' split) <;> simp
@[simp] theorem State.rateMessage_arbiter (s : State) (d : Draft) : (s.rateMessage d).arbiter = s.arbiter := by
  unfold State.rateMessage
  try dsimp only
  (repeat' split) <;> simp

/-! ### commitMessage -/

@[simp] theorem State.commitMessage_pending (s : State) (d : Draft) (c : Charged) : (s.commitMessage d c).pending = s.pending := by
  simp [State.commitMessage]
@[simp] theorem State.commitMessage_engine (s : State) (d : Draft) (c : Charged) : (s.commitMessage d c).engine = s.engine := by
  simp [State.commitMessage]
@[simp] theorem State.commitMessage_air (s : State) (d : Draft) (c : Charged) : (s.commitMessage d c).air = s.air := by
  simp [State.commitMessage]
@[simp] theorem State.commitMessage_builder (s : State) (d : Draft) (c : Charged) : (s.commitMessage d c).builder = s.builder := by
  simp [State.commitMessage]
@[simp] theorem State.commitMessage_links (s : State) (d : Draft) (c : Charged) : (s.commitMessage d c).links = s.links := by
  simp [State.commitMessage]
@[simp] theorem State.commitMessage_frame (s : State) (d : Draft) (c : Charged) : (s.commitMessage d c).frame = s.frame := by
  simp [State.commitMessage]
@[simp] theorem State.commitMessage_tracker (s : State) (d : Draft) (c : Charged) : (s.commitMessage d c).tracker = s.tracker := by
  simp [State.commitMessage]
@[simp] theorem State.commitMessage_arbiter (s : State) (d : Draft) (c : Charged) : (s.commitMessage d c).arbiter = s.arbiter := by
  simp [State.commitMessage]

/-! ### reportMessage -/

@[simp] theorem State.reportMessage_pending (s : State) (d : Draft) (c : Charged) (e : Entered) : (s.reportMessage d c e).pending = s.pending := by
  unfold State.reportMessage
  try dsimp only
  (repeat' split) <;> simp
@[simp] theorem State.reportMessage_engine (s : State) (d : Draft) (c : Charged) (e : Entered) : (s.reportMessage d c e).engine = s.engine := by
  unfold State.reportMessage
  try dsimp only
  (repeat' split) <;> simp
@[simp] theorem State.reportMessage_air (s : State) (d : Draft) (c : Charged) (e : Entered) : (s.reportMessage d c e).air = s.air := by
  unfold State.reportMessage
  try dsimp only
  (repeat' split) <;> simp
@[simp] theorem State.reportMessage_account (s : State) (d : Draft) (c : Charged) (e : Entered) : (s.reportMessage d c e).account = s.account := by
  unfold State.reportMessage
  try dsimp only
  (repeat' split) <;> simp
@[simp] theorem State.reportMessage_store (s : State) (d : Draft) (c : Charged) (e : Entered) : (s.reportMessage d c e).store = s.store := by
  unfold State.reportMessage
  try dsimp only
  (repeat' split) <;> simp
@[simp] theorem State.reportMessage_builder (s : State) (d : Draft) (c : Charged) (e : Entered) : (s.reportMessage d c e).builder = s.builder := by
  unfold State.reportMessage
  try dsimp only
  (repeat' split) <;> simp
@[simp] theorem State.reportMessage_links (s : State) (d : Draft) (c : Charged) (e : Entered) : (s.reportMessage d c e).links = s.links := by
  unfold State.reportMessage
  try dsimp only
  (repeat' split) <;> simp
@[simp] theorem State.reportMessage_frame (s : State) (d : Draft) (c : Charged) (e : Entered) : (s.reportMessage d c e).frame = s.frame := by
  unfold State.reportMessage
  try dsimp only
  (repeat' split) <;> simp
@[simp] theorem State.reportMessage_tracker (s : State) (d : Draft) (c : Charged) (e : Entered) : (s.reportMessage d c e).tracker = s.tracker := by
  unfold State.reportMessage
  try dsimp only
  (repeat' split) <;> simp
@[simp] theorem State.reportMessage_arbiter (s : State) (d : Draft) (c : Charged) (e : Entered) : (s.reportMessage d c e).arbiter = s.arbiter := by
  unfold State.reportMessage
  try dsimp only
  (repeat' split) <;> simp

/-! ### checkMessage -/

@[simp] theorem State.checkMessage_pending (s : State) (p : Posting) : (s.checkMessage p).pending = s.pending := by
  unfold State.checkMessage
  split <;> rfl
@[simp] theorem State.checkMessage_engine (s : State) (p : Posting) : (s.checkMessage p).engine = s.engine := by
  unfold State.checkMessage
  split <;> rfl
@[simp] theorem State.checkMessage_air (s : State) (p : Posting) : (s.checkMessage p).air = s.air := by
  unfold State.checkMessage
  split <;> rfl
@[simp] theorem State.checkMessage_account (s : State) (p : Posting) : (s.checkMessage p).account = s.account := by
  unfold State.checkMessage
  split <;> rfl
@[simp] theorem State.checkMessage_store (s : State) (p : Posting) : (s.checkMessage p).store = s.store := by
  unfold State.checkMessage
  split <;> rfl
@[simp] theorem State.checkMessage_builder (s : State) (p : Posting) : (s.checkMessage p).builder = s.builder := by
  unfold State.checkMessage
  split <;> rfl
@[simp] theorem State.checkMessage_links (s : State) (p : Posting) : (s.checkMessage p).links = s.links := by
  unfold State.checkMessage
  split <;> rfl
@[simp] theorem State.checkMessage_frame (s : State) (p : Posting) : (s.checkMessage p).frame = s.frame := by
  unfold State.checkMessage
  split <;> rfl
@[simp] theorem State.checkMessage_tracker (s : State) (p : Posting) : (s.checkMessage p).tracker = s.tracker := by
  unfold State.checkMessage
  split <;> rfl
@[simp] theorem State.checkMessage_arbiter (s : State) (p : Posting) : (s.checkMessage p).arbiter = s.arbiter := by
  unfold State.checkMessage
  split <;> rfl

end Sys2Proof.Machine
end

