-- ==== Sys2Proof/Laws/Room.lean ====
section
/-! SUPPORT. The law of R169 through the report writer's operations: what an append, a close, a grant, a return and a page
return do to room and to the reserved total, and what a producer may still hand in the middle of its unit of work. -/

namespace Sys2Proof.Machine

/-! ## The run of EMPTY pages (R169) -/

/-- A page that is not EMPTY before and after a change leaves the run. -/
theorem emptyRun_set_other {v : Vector PageState 8} {p : Index8} {x : PageState} (was : v.get p ≠ .empty)
    (is : x ≠ .empty) (n : Nat) (q : Index8) : emptyRun (v.set p.val x p.isLt) n q = emptyRun v n q := by
  induction n generalizing q with
  | zero => rfl
  | succ n ih =>
    unfold emptyRun
    rw [pages_set, ih]
    by_cases e : q = p
    · subst e
      rw [if_pos rfl, if_neg is, if_neg was]
    · rw [if_neg e]

/-- A page that becomes EMPTY never shortens the run (R175). -/
theorem emptyRun_set_empty (v : Vector PageState 8) (p : Index8) (n : Nat) (q : Index8) :
    emptyRun v n q ≤ emptyRun (v.set p.val .empty p.isLt) n q := by
  induction n generalizing q with
  | zero => exact Nat.le_refl _
  | succ n ih =>
    unfold emptyRun
    rw [pages_set]
    by_cases e : q = p
    · rw [if_pos e, if_pos rfl]
      split
      · exact Nat.add_le_add_left (ih _) 1
      · exact Nat.zero_le _
    · rw [if_neg e]
      split
      · exact Nat.add_le_add_left (ih _) 1
      · exact Nat.le_refl _

/-- The run from a page that lies `n` pages before a page that is opened (R171). -/
theorem emptyRun_open_from (v : Vector PageState 8) (q : Index8) (n : Nat) (small : n ≤ 7) (r : Index8)
    (ahead : (r.val + n) % 8 = q.val) : emptyRun (v.set q.val .filling q.isLt) (n + 1) r = emptyRun v n r := by
  induction n generalizing r with
  | zero =>
    have e : r = q := Fin.ext (by omega)
    unfold emptyRun
    rw [pages_set, if_pos e, if_neg (by decide)]
  | succ n ih =>
    have e : r ≠ q := fun e => by rw [e] at ahead; omega
    have next : ((r + 1).val + n) % 8 = q.val := by
      rw [Fin.val_add]
      show ((r.val + 1) % 8 + n) % 8 = q.val
      omega
    rw [emptyRun, pages_set, if_neg e, ih (by omega) (r + 1) next]
    rfl

/-- Opening the EMPTY next page takes one page off the run (R171). -/
theorem emptyRun_open {v : Vector PageState 8} {q : Index8} (empty : v.get q = .empty) :
    emptyRun (v.set q.val .filling q.isLt) 8 (q + 1) + 1 = emptyRun v 8 q := by
  rw [emptyRun_open_from v q 7 (by decide) (q + 1) (by rw [Fin.val_add]; show ((q.val + 1) % 8 + 7) % 8 = q.val; omega)]
  conv => rhs; unfold emptyRun
  rw [if_pos empty, Nat.add_comm]

/-! ## Room (R169) -/

/-- Room is what the pages, the record count and the next page make it. -/
theorem Writer.room_congr {w u : Writer} (pages : u.pages = w.pages) (count : u.count = w.count) (next : u.next = w.next) :
    u.room = w.room := by
  unfold Writer.room Writer.freePositions Writer.run Writer.filling
  rw [pages, count, next]

/-- The FILLING page found is the only one. -/
theorem Writer.filling_eq {w : Writer} (one : w.OneFilling) {p : Index8} (h : w.pages.get p = .filling) :
    w.filling = some p := by
  cases e : w.filling with
  | none => exact absurd h (Writer.filling_none e p)
  | some q => rw [one q p (Writer.filling_spec e) h]

/-- With no FILLING page, none is found. -/
theorem Writer.filling_eq_none {w : Writer} (h : ∀ p, w.pages.get p ≠ .filling) : w.filling = none := by
  cases e : w.filling with
  | none => rfl
  | some q => exact absurd (Writer.filling_spec e) (h q)

/-- The writer after a page close. -/
theorem Exchange.closePage_writer {x : Exchange} {p : Index8} (f : x.writer.filling = some p) (st : Stamp)
    (c : CloseCause) :
    (x.closePage st c).writer.pages = x.writer.pages.set p.val .filled p.isLt ∧ (x.closePage st c).writer.count = 0 ∧
      (x.closePage st c).writer.next = x.writer.next := by
  rw [Exchange.closePage_eq, f]
  exact ⟨rfl, rfl, rfl⟩

/-- A page close leaves reservations and requests. -/
theorem Exchange.closePage_asks (x : Exchange) (st : Stamp) (c : CloseCause) :
    (x.closePage st c).writer.held = x.writer.held ∧ (x.closePage st c).writer.waiting = x.writer.waiting := by
  rw [Exchange.closePage_eq]
  split <;> exact ⟨rfl, rfl⟩

/-- A close leaves room at 63 times the run (R173). -/
theorem Exchange.closePage_room {x : Exchange} (one : x.writer.OneFilling) {p : Index8} (f : x.writer.filling = some p)
    (st : Stamp) (c : CloseCause) : (x.closePage st c).writer.room = Config.pageRecords * x.writer.run := by
  obtain ⟨pages, -, next⟩ := Exchange.closePage_writer f st c
  have was := Writer.filling_spec f
  have none : (x.closePage st c).writer.filling = none := by
    refine Writer.filling_eq_none fun q h => ?_
    rw [pages, pages_set] at h
    split at h
    · cases h
    · next n => exact n (one q p h was)
  unfold Writer.room Writer.freePositions Writer.run
  rw [none, pages, next, emptyRun_set_other (by rw [was]; decide) (by decide)]
  simp

/-- The reserved total is what the reservations make it. -/
theorem Writer.reserved_congr {w u : Writer} (held : u.held = w.held) : u.reserved = w.reserved := by
  unfold Writer.reserved
  rw [held]

/-- A close by age keeps the reserved total at or below room (R173). -/
theorem Exchange.closeIfDue_within {x : Exchange} (one : x.writer.OneFilling) (h : x.writer.reserved ≤ x.writer.room)
    (st : Stamp) :
    (x.closeIfDue st).writer.reserved ≤ (x.closeIfDue st).writer.room ∧
      (x.closeIfDue st).writer.held = x.writer.held ∧ (x.closeIfDue st).writer.waiting = x.writer.waiting := by
  unfold Exchange.closeIfDue
  split
  · next due =>
    refine ⟨?_, x.closePage_asks st .age⟩
    cases f : x.writer.filling with
    | none => rw [Exchange.closePage_eq, f]; exact h
    | some p => rw [Exchange.closePage_room one f, Writer.reserved_congr (x.closePage_asks st .age).1]; exact due.2
  · exact ⟨h, rfl, rfl⟩

/-- Where room is left, the next page is EMPTY if none is FILLING, and an opening leaves room (R171). -/
theorem Exchange.ensureOpen_room {x : Exchange} (some : 0 < x.writer.room) :
    x.ensureOpen.writer.room = x.writer.room ∧ x.ensureOpen.writer.held = x.writer.held ∧
      x.ensureOpen.writer.waiting = x.writer.waiting := by
  unfold Exchange.ensureOpen
  split
  · exact ⟨rfl, rfl, rfl⟩
  · next none =>
    have none : x.writer.filling = Option.none := by simpa using none
    refine ⟨?_, rfl, rfl⟩
    have room : x.writer.room = Config.pageRecords * emptyRun x.writer.pages 8 x.writer.next := by
      unfold Writer.room Writer.freePositions Writer.run
      rw [none]
      simp
    have empty : x.writer.pages.get x.writer.next = .empty := by
      by_contra n
      rw [room, emptyRun, if_neg n] at some
      exact absurd some (by decide)
    have after := emptyRun_open empty
    rw [room]
    unfold Writer.room Writer.freePositions Writer.run
    rw [Writer.filling_isSome x.openPage_filling]
    show Config.pageRecords - 0 + Config.pageRecords *
      emptyRun (x.writer.pages.set x.writer.next.val .filling x.writer.next.isLt) 8 (x.writer.next + 1) = _
    rw [← after]
    unfold Config.pageRecords
    omega

/-- An append takes one position and leaves reservations and requests (R171, R172). -/
theorem Exchange.append_room {x : Exchange} (law : x.writer.PageLaw) (some : 0 < x.writer.room) (st : Stamp)
    (r : Record) :
    (x.append st r).writer.room + 1 = x.writer.room ∧ (x.append st r).writer.held = x.writer.held ∧
      (x.append st r).writer.waiting = x.writer.waiting := by
  obtain ⟨room, held, waiting⟩ := Exchange.ensureOpen_room some
  have open_ := x.ensureOpen_filling
  have law := x.ensureOpen_reported.law law
  rw [Exchange.append_eq, ← room, ← held, ← waiting]
  generalize x.ensureOpen = y at *
  obtain ⟨p, f⟩ := Option.isSome_iff_exists.mp open_
  have small := law.count
  have before : y.writer.room = (Config.pageRecords - y.writer.count) + Config.pageRecords * y.writer.run := by
    unfold Writer.room Writer.freePositions
    rw [f]
    rfl
  split
  · next full =>
    have f' : (y.recorded r).writer.filling = Option.some p := f
    have run : (y.recorded r).writer.run = y.writer.run := rfl
    refine ⟨?_, (y.recorded r).closePage_asks st .count⟩
    rw [Exchange.closePage_room (x := y.recorded r) law.one f', run, before]
    change y.writer.count + 1 = Config.pageRecords at full
    omega
  · next more =>
    refine ⟨?_, rfl, rfl⟩
    have after : (y.recorded r).writer.room =
        (Config.pageRecords - (y.writer.count + 1)) + Config.pageRecords * y.writer.run := by
      unfold Writer.room Writer.freePositions
      have f' : (y.recorded r).writer.filling = Option.some p := f
      rw [f']
      rfl
    rw [after, before]
    unfold Config.pageRecords at *
    omega

/-! ## Reservations (R170) -/

/-- The law of R169 in the middle of a unit of work of producer `p`, which may hand `n` more records. -/
structure Writer.Owes (w : Writer) (p : Producer) (n : Nat) : Prop where
  law : w.PageLaw
  within : w.reserved ≤ w.room
  once : (w.held.map (·.1)).Nodup
  asked : w.waiting.Nodup
  stands : ∀ h, h ∈ w.held → h.1 ≠ p → Producer.Stands h
  left : ∃ m, (p, m) ∈ w.held ∧ n ≤ m ∧ m ≤ p.amount

/-- Fewer records may be handed too. -/
theorem Writer.Owes.fewer {w : Writer} {p : Producer} {n k : Nat} (h : w.Owes p n) (le : k ≤ n) : w.Owes p k :=
  { h with left := by obtain ⟨m, i, a, b⟩ := h.left; exact ⟨m, i, by omega, b⟩ }

/-- A producer that holds a reservation has an entry. -/
theorem Writer.holds_iff {w : Writer} {p : Producer} : w.holds p = true ↔ ∃ m, (p, m) ∈ w.held := by
  unfold Writer.holds
  rw [List.any_eq_true]
  constructor
  · rintro ⟨⟨q, m⟩, i, e⟩
    exact ⟨m, by rw [← of_decide_eq_true e]; exact i⟩
  · rintro ⟨m, i⟩
    exact ⟨_, i, by simp⟩

/-- What is left of a producer's reservation is its one entry. -/
theorem Writer.left_eq {w : Writer} (once : (w.held.map (·.1)).Nodup) {p : Producer} {m : Nat} (i : (p, m) ∈ w.held) :
    w.left p = m := by
  unfold Writer.left
  generalize w.held = held at *
  induction held with
  | nil => cases i
  | cons h rest ih =>
    rw [List.map_cons, List.nodup_cons] at once
    rcases List.mem_cons.mp i with e | i
    · have none : rest.filter (fun h => decide (h.1 = p)) = [] := by
        refine List.filter_eq_nil_iff.mpr fun k j => ?_
        refine fun c => once.1 ?_
        rw [← e, ← of_decide_eq_true c]
        exact List.mem_map.mpr ⟨k, j, rfl⟩
      rw [← e, List.filter_cons_of_pos (by simp), none]
      rfl
    · have other : h.1 ≠ p := fun c => once.1 (by rw [c]; exact List.mem_map.mpr ⟨_, i, rfl⟩)
      rw [List.filter_cons_of_neg (by simpa using other)]
      exact ih once.2 i

/-- A unit of work begins: a producer that holds its reservation may hand the records that are left at least. -/
theorem Writer.RoomLaw.owes {w : Writer} (h : w.RoomLaw) (law : w.PageLaw) {p : Producer} (holds : w.holds p = true) :
    w.Owes p p.least := by
  obtain ⟨m, i⟩ := Writer.holds_iff.mp holds
  exact ⟨law, h.within, h.once, h.asked, fun e j _ => h.stands e j, m, i, h.stands _ i⟩

/-- One position used of a list of reservations. -/
theorem sum_use {p : Producer} {m : Nat} (held : List (Producer × Nat)) (once : (held.map (·.1)).Nodup)
    (i : (p, m + 1) ∈ held) :
    ((held.map fun h => if h.1 = p then (h.1, h.2 - 1) else h).map (·.2)).sum + 1 = (held.map (·.2)).sum := by
  induction held with
  | nil => cases i
  | cons h rest ih =>
    rw [List.map_cons, List.nodup_cons] at once
    rw [List.map_cons, List.map_cons, List.map_cons, List.sum_cons, List.sum_cons]
    rcases List.mem_cons.mp i with e | i
    · have keep : rest.map (fun h => if h.1 = p then (h.1, h.2 - 1) else h) = rest := by
        conv => rhs; rw [← List.map_id rest]
        refine List.map_congr_left fun k j => if_neg fun c => once.1 ?_
        rw [← e, ← c]
        exact List.mem_map.mpr ⟨k, j, rfl⟩
      rw [keep, ← e]
      simp
      omega
    · have other : h.1 ≠ p := fun c => once.1 (by rw [c]; exact List.mem_map.mpr ⟨_, i, rfl⟩)
      have := ih once.2 i
      rw [if_neg other]
      omega

/-- A record handed under a reservation with a position left (R171, R173). -/
theorem Exchange.hand_owes {x : Exchange} {p : Producer} {n : Nat} (h : x.writer.Owes p (n + 1)) (st : Stamp)
    (r : Record) : (x.hand st p r).writer.Owes p n := by
  obtain ⟨m, i, le, most⟩ := h.left
  obtain ⟨m, rfl⟩ : ∃ k, m = k + 1 := ⟨m - 1, by omega⟩
  have law := (x.hand_reported st p r).law h.law
  have used : (x.writer.use p).PageLaw :=
    ⟨h.law.one, h.law.count, fun q j => (x.writer.holds_use p q).trans (h.law.requests q j)⟩
  have sum : (x.writer.use p).reserved + 1 = x.writer.reserved := sum_use _ h.once i
  have room : (x.writer.use p).room = x.writer.room := Writer.room_congr rfl rfl rfl
  unfold Exchange.hand
  generalize e : ({ x with writer := x.writer.use p } : Exchange) = y
  have ew : y.writer = x.writer.use p := by rw [← e]
  have within := h.within
  obtain ⟨room', held, waiting⟩ := Exchange.append_room (x := y) (by rw [ew]; exact used) (by rw [ew, room]; omega) st r
  have law' := (y.append_reported st r).law (by rw [ew]; exact used)
  obtain ⟨within', held', waiting'⟩ := Exchange.closeIfDue_within (x := y.append st r) law'.one (by
    rw [Writer.reserved_congr held, ew]
    rw [ew, room] at room'
    omega) st
  have heldEq : ((y.append st r).closeIfDue st).writer.held =
      x.writer.held.map fun h => if h.1 = p then (h.1, h.2 - 1) else h := by
    rw [held', held, ew]; rfl
  have waitEq : ((y.append st r).closeIfDue st).writer.waiting = x.writer.waiting := by
    rw [waiting', waiting, ew]; rfl
  refine ⟨((y.append st r).closeIfDue_reported st).law law', within', ?_, ?_, ?_, ?_⟩
  · rw [heldEq, List.map_map]
    have : ((fun h : Producer × Nat => h.1) ∘ fun h => if h.1 = p then (h.1, h.2 - 1) else h) = (·.1) := by
      funext h
      simp only [Function.comp]
      split <;> rfl
    rw [this]
    exact h.once
  · rw [waitEq]; exact h.asked
  · intro k j ne
    rw [heldEq] at j
    obtain ⟨g, j, rfl⟩ := List.mem_map.mp j
    by_cases c : g.1 = p
    · simp only [if_pos c] at ne; exact absurd c ne
    · simp only [if_neg c]; exact h.stands g ‹_› c
  · refine ⟨m, ?_, by omega, by omega⟩
    rw [heldEq]
    exact List.mem_map.mpr ⟨_, i, by simp⟩

/-! ## Grants and returns (R170, R175) -/

/-- The reserved total is the sum of the amounts. -/
theorem Writer.reserved_append (w : Writer) (p : Producer) (n : Nat) :
    ({ w with held := w.held ++ [(p, n)] } : Writer).reserved = w.reserved + n := by
  unfold Writer.reserved
  simp

/-- A whole reservation stands between commands. -/
theorem Producer.stands_amount (p : Producer) : Producer.Stands (p, p.amount) := by
  exact ⟨by cases p <;> decide, Nat.le_refl _⟩

/-- The law of R169 with `ok` said of each reservation. -/
structure Writer.RoomOk (ok : Producer × Nat → Prop) (w : Writer) : Prop where
  within : w.reserved ≤ w.room
  once : (w.held.map (·.1)).Nodup
  asked : w.waiting.Nodup
  each : ∀ h, h ∈ w.held → ok h

theorem Writer.RoomLaw.ok {w : Writer} (h : w.RoomLaw) : w.RoomOk Producer.Stands := ⟨h.within, h.once, h.asked, h.stands⟩

theorem Writer.RoomOk.law {w : Writer} (h : w.RoomOk Producer.Stands) : w.RoomLaw := ⟨h.within, h.once, h.asked, h.each⟩

/-- One waiting request judged keeps the law (R170). -/
theorem Exchange.judgeOne_room {ok : Producer × Nat → Prop} (whole : ∀ q, ok (q, q.amount)) {x : Exchange} {p : Producer}
    (h : x.writer.RoomOk ok) (free : x.writer.holds p = false) : (x.judgeOne p).writer.RoomOk ok := by
  unfold Exchange.judgeOne
  split
  · next fits =>
    refine ⟨?_, ?_, ?_, ?_⟩
    · have e : (x.grant p).writer.reserved = x.writer.reserved + p.amount := x.writer.reserved_append p p.amount
      have r : (x.grant p).writer.room = x.writer.room := Writer.room_congr rfl rfl rfl
      have within := h.within
      rw [e, r]
      unfold Writer.unreserved at fits
      omega
    · show ((x.writer.held ++ [(p, p.amount)]).map (·.1)).Nodup
      rw [List.map_append, List.map_singleton]
      refine List.Nodup.append h.once (List.nodup_singleton _) ?_
      intro q a b
      rw [List.mem_singleton.mp b] at a
      obtain ⟨⟨g, m⟩, i, e⟩ := List.mem_map.mp a
      simp only at e
      subst e
      rw [Writer.holds_iff.mpr ⟨m, i⟩] at free
      cases free
    · exact h.asked.filter _
    · intro g i
      rcases List.mem_append.mp i with i | i
      · exact h.each g i
      · rw [List.mem_singleton.mp i]; exact whole p
  · exact h

/-- A judgement of another producer leaves whether a producer holds a reservation. -/
theorem Exchange.judgeOne_holds (x : Exchange) {p q : Producer} (ne : p ≠ q) :
    (x.judgeOne p).writer.holds q = x.writer.holds q := by
  unfold Exchange.judgeOne
  split
  · simp only [Exchange.grant, Writer.holds, List.any_append, List.any_cons, List.any_nil, Bool.or_false]
    rw [decide_eq_false ne, Bool.or_false]
  · rfl

/-- The order of a judgement holds the waiting requests, each once. -/
theorem Writer.judgeOrder_spec {w : Writer} (h : w.waiting.Nodup) :
    w.judgeOrder.Nodup ∧ ∀ p, p ∈ w.judgeOrder → p ∈ w.waiting := by
  unfold Writer.judgeOrder
  constructor
  · refine List.Nodup.append (List.Nodup.append (h.filter _) (h.filter _) ?_) (h.filter _) ?_
    · intro p a b
      simp only [List.mem_filter, decide_eq_true_eq] at a b
      omega
    · intro p a b
      simp only [List.mem_append, List.mem_filter, decide_eq_true_eq] at a b
      omega
  · intro p i
    simp only [List.mem_append, List.mem_filter] at i
    rcases i with (i | i) | i <;> exact i.1

/-- A judgement keeps the law (R170). -/
theorem Exchange.judge_ok {ok : Producer × Nat → Prop} (whole : ∀ q, ok (q, q.amount)) {x : Exchange}
    (h : x.writer.RoomOk ok) (law : x.writer.PageLaw) : x.judge.writer.RoomOk ok := by
  unfold Exchange.judge
  obtain ⟨once, waits⟩ := Writer.judgeOrder_spec h.asked
  have free : ∀ p, p ∈ x.writer.judgeOrder → x.writer.holds p = false := fun p i => law.requests p (waits p i)
  clear waits law
  generalize x.writer.judgeOrder = ps at *
  induction ps generalizing x with
  | nil => exact h
  | cons p rest ih =>
    rw [List.nodup_cons] at once
    refine ih (Exchange.judgeOne_room whole h (free p (List.mem_cons_self ..))) once.2 fun q i => ?_
    rw [Exchange.judgeOne_holds x fun e => once.1 (by rw [e]; exact i)]
    exact free q (List.mem_cons_of_mem _ i)

theorem Exchange.judge_room {x : Exchange} (h : x.writer.RoomLaw) (law : x.writer.PageLaw) : x.judge.writer.RoomLaw :=
  (Exchange.judge_ok Producer.stands_amount h.ok law).law

/-- A request keeps the law (R170). -/
theorem Exchange.request_ok {ok : Producer × Nat → Prop} (whole : ∀ q, ok (q, q.amount)) {x : Exchange}
    (h : x.writer.RoomOk ok) (law : x.writer.PageLaw) (p : Producer) : (x.request p).writer.RoomOk ok := by
  unfold Exchange.request
  split
  · exact h
  · next no =>
    refine Exchange.judge_ok whole (x := { x with writer.waiting := x.writer.waiting ++ [p] })
      ⟨h.within, h.once, List.Nodup.append h.asked (List.nodup_singleton _) fun q a b => ?_, h.each⟩
      ⟨law.one, law.count, fun q m => ?_⟩
    · rw [List.mem_singleton.mp b] at a
      exact no (.inl a)
    · rcases List.mem_append.mp m with m | m
      · exact law.requests q m
      · rw [List.mem_singleton.mp m]
        exact Bool.eq_false_iff.mpr fun e => no (.inr e)

theorem Exchange.request_room {x : Exchange} (h : x.writer.RoomLaw) (law : x.writer.PageLaw) (p : Producer) :
    (x.request p).writer.RoomLaw := (Exchange.request_ok Producer.stands_amount h.ok law p).law

/-- A request of another producer in the middle of a unit of work. -/
theorem Exchange.request_owes {x : Exchange} {p : Producer} {n : Nat} (h : x.writer.Owes p n) (q : Producer) :
    (x.request q).writer.Owes p n := by
  obtain ⟨within, once, asked, each⟩ := Exchange.request_ok (ok := fun g => g.1 ≠ p → Producer.Stands g)
    (fun r _ => r.stands_amount) ⟨h.within, h.once, h.asked, h.stands⟩ h.law q
  obtain ⟨m, i, a, b⟩ := h.left
  exact ⟨(x.request_reported q).law h.law, within, once, asked, each, m, (x.request_noRecord q).held _ i, a, b⟩

/-- A due page closed keeps the law (R173). -/
theorem Exchange.closeIfDue_room {x : Exchange} (h : x.writer.RoomLaw) (law : x.writer.PageLaw) (st : Stamp) :
    (x.closeIfDue st).writer.RoomLaw := by
  obtain ⟨within, held, waiting⟩ := Exchange.closeIfDue_within law.one h.within st
  exact ⟨within, by rw [held]; exact h.once, by rw [waiting]; exact h.asked, by rw [held]; exact h.stands⟩

/-- Room that rises keeps the law (R170, R173). -/
theorem Exchange.roomRose_room {x : Exchange} (h : x.writer.RoomLaw) (law : x.writer.PageLaw) (st : Stamp) :
    (x.roomRose st).writer.RoomLaw := by
  unfold Exchange.roomRose
  split
  · simp only
    split
    · exact Exchange.judge_room (Exchange.closeIfDue_room (x := { x with choices := x.choices + 1 }) h law st)
        ((Exchange.closeIfDue_reported _ st).law law)
    · exact Exchange.closeIfDue_room (Exchange.judge_room (x := { x with choices := x.choices + 1 }) h law)
        ((Exchange.judge_reported { x with choices := x.choices + 1 }).law law) st
  · exact Exchange.judge_room (Exchange.closeIfDue_room h law st) ((x.closeIfDue_reported st).law law)

/-- The reserved total falls with reservations taken out. -/
theorem sum_filter_le (held : List (Producer × Nat)) (f : Producer × Nat → Bool) :
    ((held.filter f).map (·.2)).sum ≤ (held.map (·.2)).sum := by
  induction held with
  | nil => exact Nat.le_refl _
  | cons h rest ih =>
    rw [List.filter_cons]
    split
    · rw [List.map_cons, List.map_cons, List.sum_cons, List.sum_cons]; omega
    · rw [List.map_cons, List.sum_cons]; omega

/-- A unit of work ends with its reservation returned (R170). -/
theorem Exchange.giveBack_room {x : Exchange} {p : Producer} {n : Nat} (h : x.writer.Owes p n) (st : Stamp) :
    (x.giveBack st p).writer.RoomLaw := by
  refine Exchange.roomRose_room (x := { x with writer := { x.writer with held := x.writer.held.filter fun h => decide (h.1 ≠ p) } })
    ⟨?_, ?_, h.asked, ?_⟩ ⟨h.law.one, h.law.count, fun q m => ?_⟩ st
  · have r : ({ x.writer with held := x.writer.held.filter fun h => decide (h.1 ≠ p) } : Writer).room = x.writer.room :=
      Writer.room_congr rfl rfl rfl
    show Writer.reserved _ ≤ _
    rw [r]
    exact Nat.le_trans (sum_filter_le _ _) h.within
  · exact h.once.sublist (List.filter_sublist.map _)
  · intro g i
    obtain ⟨i, ne⟩ := List.mem_filter.mp i
    exact h.stands g i (of_decide_eq_true ne)
  · have old := h.law.requests q m
    simp only [Writer.holds, List.any_eq_false, List.mem_filter] at old ⊢
    exact fun e he => old e he.1

/-- A page returned by the host keeps the law (R175). -/
theorem Exchange.returnPage_room {x : Exchange} (h : x.writer.RoomLaw) (law : x.writer.PageLaw) {p : Index8}
    (filled : x.writer.pages.get p = .filled) (st : Stamp) : (x.returnPage st p).writer.RoomLaw := by
  refine Exchange.roomRose_room (x := { x with writer.pages := x.writer.pages.set p.val .empty p.isLt })
    ⟨?_, h.once, h.asked, h.stands⟩ ((x.emptied_reported p).law law) st
  refine Nat.le_trans h.within ?_
  have run := emptyRun_set_empty x.writer.pages p 8 x.writer.next
  have free : x.writer.freePositions = ({ x.writer with pages := x.writer.pages.set p.val .empty p.isLt } : Writer).freePositions := by
    unfold Writer.freePositions
    have e : ({ x.writer with pages := x.writer.pages.set p.val .empty p.isLt } : Writer).filling.isSome = x.writer.filling.isSome := by
      have same : ∀ q, (x.writer.pages.set p.val .empty p.isLt).get q = .filling ↔ x.writer.pages.get q = .filling := by
        intro q
        rw [pages_set]
        by_cases c : q = p
        · rw [if_pos c, c, filled]; decide
        · rw [if_neg c]
      unfold Writer.filling
      simp only [same]
    rw [e]
  unfold Writer.room
  rw [free]
  exact Nat.add_le_add_left (Nat.mul_le_mul_left _ run) _

/-- The age count at a second boundary keeps the law (R173). -/
theorem Exchange.ageStep_room {x : Exchange} (h : x.writer.RoomLaw) (law : x.writer.PageLaw) (st : Stamp) (flush : Nat) :
    (x.ageStep st flush).writer.RoomLaw := by
  unfold Exchange.ageStep
  split
  · exact Exchange.closeIfDue_room
      (x := { x with writer := { x.writer with age := saturate 30 x.writer.age 1, due := x.writer.due || decide (flush ≤ saturate 30 x.writer.age 1) } })
      ⟨h.within, h.once, h.asked, h.stands⟩ ⟨law.one, law.count, law.requests⟩ st
  · exact h

/-- A writer after either reset keeps the law. -/
theorem Writer.reset_room : Writer.reset.RoomLaw :=
  ⟨by decide, by decide, by decide, fun _ i => by cases i⟩

/-! ## The same over State -/

theorem State.hand_owes {s : State} {p : Producer} {n : Nat} (h : s.ex.writer.Owes p (n + 1)) (r : Record) :
    (s.hand p r).ex.writer.Owes p n := Exchange.hand_owes h s.stamp r

theorem State.giveBack_room {s : State} {p : Producer} {n : Nat} (h : s.ex.writer.Owes p n) :
    (s.giveBack p).ex.writer.RoomLaw := Exchange.giveBack_room h s.stamp

theorem State.ask_room {s : State} (h : s.ex.writer.RoomLaw) (law : s.ex.writer.PageLaw) (p : Producer) :
    (s.ask p).ex.writer.RoomLaw := by
  unfold State.ask
  split
  · exact Exchange.request_room h law p
  · exact h

/-- A unit of work ends, and the producer may ask again (R170). -/
theorem State.endUnit_room {s : State} {p : Producer} {n : Nat} (h : s.ex.writer.Owes p n) :
    (s.endUnit p).ex.writer.RoomLaw :=
  State.ask_room (State.giveBack_room h) ((s.giveBack_reported p).law h.law) p

/-- A LINK STATUS offered keeps the law: it takes a position only where no reserved one is lost (R171). -/
theorem State.offerStatus_room {s : State} (h : s.ex.writer.RoomLaw) (law : s.ex.writer.PageLaw) (l : Index8) :
    (s.offerStatus l).ex.writer.RoomLaw := by
  unfold State.offerStatus
  split
  · next some =>
    unfold Writer.unreserved at some
    have within := h.within
    show ((s.ex.append s.stamp (recordLinkStatus l (s.link l) s.air.serial)).closeIfDue s.stamp).writer.RoomLaw
    generalize recordLinkStatus l (s.link l) s.air.serial = r
    obtain ⟨room, held, waiting⟩ := Exchange.append_room law (by omega) s.stamp r
    refine Exchange.closeIfDue_room ⟨?_, ?_, ?_, ?_⟩ ((s.ex.append_reported s.stamp r).law law) s.stamp
    · rw [Writer.reserved_congr held]; omega
    · rw [held]; exact h.once
    · rw [waiting]; exact h.asked
    · rw [held]; exact h.stands
  · exact h

theorem State.ask_owes {s : State} {p : Producer} {n : Nat} (h : s.ex.writer.Owes p n) (q : Producer) :
    (s.ask q).ex.writer.Owes p n := by
  unfold State.ask
  split
  · exact Exchange.request_owes h q
  · exact h

/-! ## What the accounts hand -/

/-- The low-balance flag judged: at most one record (R50). -/
theorem State.judgeLow_owes {s : State} {p : Producer} {n : Nat} (h : s.ex.writer.Owes p (n + 1)) (k : Nat)
    (e : BalanceEvent) : (s.judgeLow p k e).ex.writer.Owes p n := by
  unfold State.judgeLow
  simp only
  split
  · exact h.fewer (Nat.le_succ n)
  · exact State.hand_owes (s := s.setBilling k _) h _

/-- A roll: one record (R57). -/
theorem State.roll_owes {s : State} {p : Producer} {n : Nat} (h : s.ex.writer.Owes p (n + 1)) (k : Nat)
    (source : SummarySource) : (s.roll p k source).ex.writer.Owes p n := State.hand_owes h _

theorem State.rollIfStale_owes {s : State} {n : Nat} (h : s.ex.writer.Owes .intake (n + 1)) (k : Nat) :
    (s.rollIfStale k).ex.writer.Owes .intake n := by
  unfold State.rollIfStale
  split
  · exact State.roll_owes h k .intake
  · exact h.fewer (Nat.le_succ n)

/-- A refund: at most two records (R54). -/
theorem State.refund_owes {s : State} {p : Producer} {n : Nat} (h : s.ex.writer.Owes p (n + 2)) (i : Nat)
    (r : MessageRecord) (o : CloseOutcome) : (s.refund p i r o).ex.writer.Owes p n :=
  State.judgeLow_owes (State.hand_owes (s := s.setBilling r.subscriber _) h _) _ _

/-- A credit: at most two records (R52). -/
theorem State.applyCredit_owes {s : State} {n : Nat} (h : s.ex.writer.Owes .intake (n + 2)) (k : Nat) (amount : Int) :
    (s.applyCredit k amount).ex.writer.Owes .intake n :=
  State.judgeLow_owes (State.hand_owes (s := s.setBilling k _) h _) _ _

/-- A visit of the roll walk: at most one record (R61). -/
theorem State.walkVisit_owes {s : State} {n : Nat} (h : s.ex.writer.Owes .rollWalk (n + 1)) :
    s.walkVisit.ex.writer.Owes .rollWalk n := by
  unfold State.walkVisit
  simp only
  split
  · exact State.roll_owes h _ .walk
  · exact h.fewer (Nat.le_succ n)

/-! ## What the message store and the tracker hand -/

theorem State.freeRecord_writer (s : State) (i : Nat) : (s.freeRecord i).ex.writer = s.ex.writer := by
  have e : (s.freeRecord i).ex.writer = (s.leaveCollections i).ex.writer := rfl
  rw [e, State.leaveCollections_ex]

/-- A close hands its OUTCOME record, and a refund's records where it refunds: at most three (R107). -/
theorem State.close_owes {s : State} {p : Producer} {n : Nat} (h : s.ex.writer.Owes p (n + 3)) (i : Nat)
    (o : CloseOutcome) : (s.close p i o).ex.writer.Owes p n := by
  have t := State.hand_owes (s := s.freeRecord i) (by rw [State.freeRecord_writer]; exact h)
    (recordOutcome i (s.msg i) o s.air.serial)
  unfold State.close
  simp only
  split
  · exact State.refund_owes t _ _ _
  · exact t.fewer (by omega)

/-- A DELIVERED close hands its OUTCOME record alone (R53). -/
theorem State.close_delivered_owes {s : State} {p : Producer} {n : Nat} (h : s.ex.writer.Owes p (n + 1)) (i : Nat) :
    (s.close p i .delivered).ex.writer.Owes p n := by
  have t := State.hand_owes (s := s.freeRecord i) (by rw [State.freeRecord_writer]; exact h)
    (recordOutcome i (s.msg i) .delivered s.air.serial)
  unfold State.close
  simp only
  rw [if_neg (by unfold MessageRecord.refunded; simp)]
  exact t

/-- The fate of a settled record: at most a close (R158). -/
theorem State.settleRecord_owes {s : State} {n : Nat} (h : s.ex.writer.Owes .tracker (n + 3)) (e : SettleEntry)
    (r : MessageRecord) : (s.settleRecord e r).ex.writer.Owes .tracker n := by
  have same : ∀ {t : State}, t.ex.writer = s.ex.writer → t.ex.writer.Owes .tracker n :=
    fun e => by rw [e]; exact h.fewer (by omega)
  unfold State.settleRecord
  simp only
  repeat' split
  all_goals first | exact State.close_owes h _ _ | exact same rfl | exact State.close_owes (s := s.setMsg _ _) h _ _

/-- A message heard: at most SUBSCRIBER RELEASED and MOVED (R160, R161). -/
theorem State.heard_owes {s : State} {n : Nat} (h : s.ex.writer.Owes .tracker (n + 2)) (k : Nat) (e : ReverseEntry) :
    (s.heard k e).ex.writer.Owes .tracker n := by
  unfold State.heard
  simp only
  generalize hu : (if (((s.setReach k { (s.sub k).reach with missCount := 0 }).sub k).reach.unreachable) = true then
    State.hand ((s.setReach k { (s.sub k).reach with missCount := 0 }).releaseAll k).1 .tracker
      (recordReleased k ((s.setReach k { (s.sub k).reach with missCount := 0 }).releaseAll k).2 e.arrival)
    else s.setReach k { (s.sub k).reach with missCount := 0 }) = u
  have t : u.ex.writer.Owes .tracker (n + 1) := by
    rw [← hu]
    split
    · exact State.hand_owes (by rw [State.releaseAll_ex]; exact h) _
    · exact h.fewer (Nat.le_succ _)
  split
  · exact State.hand_owes (s := u.setReach k _) t _
  · exact t.fewer (Nat.le_succ n)

/-- An acknowledgement: one record at most (R159). -/
theorem State.matchAck_owes {s : State} {n : Nat} (h : s.ex.writer.Owes .tracker (n + 1)) (k : Nat) (e : ReverseEntry) :
    (s.matchAck k e).ex.writer.Owes .tracker n := by
  unfold State.matchAck
  split
  · exact State.hand_owes h _
  · simp only
    split
    · exact h.fewer (Nat.le_succ n)
    · exact State.close_delivered_owes h _

/-- One return message: at most three records (R159, R160). -/
theorem State.processReturn_owes {s : State} {n : Nat} (h : s.ex.writer.Owes .tracker (n + 3)) (e : ReverseEntry) :
    (s.processReturn e).ex.writer.Owes .tracker n := by
  unfold State.processReturn
  simp only
  split
  · split
    · exact (State.hand_owes h _).fewer (by omega)
    · exact h.fewer (by omega)
  · split
    · exact State.heard_owes (State.matchAck_owes h _ _) _ _
    · exact State.heard_owes (h.fewer (by omega)) _ _

/-- A miss latch: at most SUBSCRIBER HELD (R163). -/
theorem State.missLatch_owes {s : State} {n : Nat} (h : s.ex.writer.Owes .tracker (n + 1)) (k : Nat) :
    (s.missLatch k).ex.writer.Owes .tracker n := by
  unfold State.missLatch
  simp only
  split
  · exact State.hand_owes (by rw [State.holdAll_ex]; exact h) _
  · exact h.fewer (Nat.le_succ n)

/-- The fate of a missed deadline: at most a close (R164). -/
theorem State.deadlineFate_owes {s : State} {n : Nat} (h : s.ex.writer.Owes .tracker (n + 3)) (i d : Nat) :
    (s.deadlineFate i d).ex.writer.Owes .tracker n := by
  have same : ∀ {t : State}, t.ex.writer = s.ex.writer → t.ex.writer.Owes .tracker n :=
    fun e => by rw [e]; exact h.fewer (by omega)
  unfold State.deadlineFate
  simp only
  repeat' split
  all_goals first | exact State.close_owes h _ _ | exact same rfl

/-- A link report: one record (R143). -/
theorem State.appendLinkReport_owes {s : State} {n : Nat} (h : s.ex.writer.Owes .linkUnit (n + 1)) (l : Index8) :
    (s.appendLinkReport l).ex.writer.Owes .linkUnit n := by
  unfold State.appendLinkReport
  simp only
  repeat' split
  all_goals first | exact State.hand_owes h _ | exact h.fewer (Nat.le_succ n)

/-! ## The intake unit (R83, R95) -/

theorem Exchange.wakeIntake_room {x : Exchange} (h : x.writer.RoomLaw) (law : x.writer.PageLaw) (loading : Bool) :
    (x.wakeIntake loading).writer.RoomLaw := by
  unfold Exchange.wakeIntake
  split
  · exact Exchange.request_room (x := { x with intake := .roomWait }) h law .intake
  · exact h

/-- An answer returns the reservation (R95). -/
theorem Exchange.answer_room {x : Exchange} {n : Nat} (h : x.writer.Owes .intake n) (st : Stamp) (loading : Bool) (k : Nat)
    (posting : Word) (code : AnswerCode) (data : List Word) :
    (x.answer st loading k posting code data).writer.RoomLaw := by
  obtain ⟨y, same, e⟩ : ∃ y : Exchange, x.answer st loading k posting code data =
      Exchange.wakeIntake { y.giveBack st .intake with intake := .idle } loading ∧ y.writer = x.writer := ⟨_, rfl, rfl⟩
  rw [same]
  rw [← e] at h
  exact Exchange.wakeIntake_room (x := { y.giveBack st .intake with intake := .idle }) (Exchange.giveBack_room h st)
    ((y.giveBack_reported st .intake).law h.law) loading

theorem State.answer_room {s : State} {n : Nat} (h : s.ex.writer.Owes .intake n) {k : Nat} {p : Posting}
    (working : s.ex.intake = .working k p) (code : AnswerCode) (data : List Word) :
    (s.answer code data).ex.writer.RoomLaw := by
  unfold State.answer
  rw [working]
  exact Exchange.answer_room h _ _ _ _ _ _

/-! ## The posting in hand stays while records are handed -/

theorem Exchange.closePage_intake (x : Exchange) (st : Stamp) (c : CloseCause) : (x.closePage st c).intake = x.intake := by
  rw [Exchange.closePage_eq]
  split
  · rfl
  · simp only [Exchange.notice, Exchange.pageShut]

theorem Exchange.closeIfDue_intake (x : Exchange) (st : Stamp) : (x.closeIfDue st).intake = x.intake := by
  unfold Exchange.closeIfDue
  split
  · exact x.closePage_intake st .age
  · rfl

theorem Exchange.append_intake (x : Exchange) (st : Stamp) (r : Record) : (x.append st r).intake = x.intake := by
  have open_ : x.ensureOpen.intake = x.intake := by
    unfold Exchange.ensureOpen
    split <;> rfl
  rw [Exchange.append_eq]
  split
  · exact ((x.ensureOpen.recorded r).closePage_intake st .count).trans open_
  · exact open_

theorem State.hand_intake (s : State) (p : Producer) (r : Record) : (s.hand p r).ex.intake = s.ex.intake := by
  show (((({ s.ex with writer := s.ex.writer.use p } : Exchange).append s.stamp r).closeIfDue s.stamp)).intake = _
  rw [Exchange.closeIfDue_intake, Exchange.append_intake]

theorem Exchange.judge_intake {x : Exchange} (h : Producer.intake ∉ x.writer.waiting) : x.judge.intake = x.intake := by
  unfold Exchange.judge
  have other : ∀ p, p ∈ x.writer.judgeOrder → p ≠ .intake := by
    intro p i e
    refine h (e ▸ ?_)
    unfold Writer.judgeOrder at i
    simp only [List.mem_append, List.mem_filter] at i
    rcases i with (i | i) | i <;> exact i.1
  clear h
  generalize x.writer.judgeOrder = ps at *
  induction ps generalizing x with
  | nil => rfl
  | cons p rest ih =>
    rw [List.foldl_cons, ih fun q i => other q (List.mem_cons_of_mem _ i)]
    unfold Exchange.judgeOne
    split
    · exact if_neg (other p (List.mem_cons_self ..))
    · rfl

/-- Another producer's request leaves the posting in hand, since the intake unit holds its reservation (R83). -/
theorem State.ask_intake {s : State} {n : Nat} (h : s.ex.writer.Owes .intake n) {q : Producer} (ne : q ≠ .intake) :
    (s.ask q).ex.intake = s.ex.intake := by
  unfold State.ask
  split
  · show (s.ex.request q).intake = _
    unfold Exchange.request
    split
    · rfl
    · rw [Exchange.judge_intake]
      intro i
      rcases List.mem_append.mp i with i | i
      · obtain ⟨m, j, -⟩ := h.left
        have free := h.law.requests _ i
        rw [Writer.holds_iff.mpr ⟨m, j⟩] at free
        cases free
      · exact ne (List.mem_singleton.mp i).symm
  · rfl

theorem State.judgeLow_intake (s : State) (p : Producer) (n : Nat) (e : BalanceEvent) :
    (s.judgeLow p n e).ex.intake = s.ex.intake := by
  unfold State.judgeLow
  simp only
  split
  · rfl
  · exact State.hand_intake _ _ _

theorem State.rollIfStale_intake (s : State) (n : Nat) : (s.rollIfStale n).ex.intake = s.ex.intake := by
  unfold State.rollIfStale
  split
  · exact State.hand_intake s _ _
  · rfl

theorem State.applyCredit_intake (s : State) (n : Nat) (a : Int) : (s.applyCredit n a).ex.intake = s.ex.intake :=
  (State.judgeLow_intake _ _ _ _).trans (State.hand_intake _ _ _)

theorem State.close_intake (s : State) (p : Producer) (i : Nat) (o : CloseOutcome) :
    (s.close p i o).ex.intake = s.ex.intake := by
  have free : (s.freeRecord i).ex.intake = s.ex.intake := by
    have e : (s.freeRecord i).ex.intake = (s.leaveCollections i).ex.intake := rfl
    rw [e, State.leaveCollections_ex]
  unfold State.close
  simp only
  split
  · exact ((State.judgeLow_intake _ _ _ _).trans (State.hand_intake _ _ _)).trans ((State.hand_intake _ _ _).trans free)
  · exact (State.hand_intake _ _ _).trans free

theorem State.commit_writer (s : State) (d : Draft) (c : Nat) (b : Bool) :
    (s.commit d c b).ex.writer = s.ex.writer ∧ (s.commit d c b).ex.intake = s.ex.intake := by
  unfold State.commit
  simp only
  split <;> exact ⟨rfl, rfl⟩

/-- The report of a committed message hands two records at most (R91). -/
theorem State.reportMessage_owes {s : State} {n : Nat} (h : s.ex.writer.Owes .intake (n + 2)) (d : Draft) (c : Charged)
    (e : Entered) : (s.reportMessage d c e).ex.writer.Owes .intake n ∧ (s.reportMessage d c e).ex.intake = s.ex.intake := by
  have t := State.hand_owes h (recordAdmit d c e)
  unfold State.reportMessage
  dsimp only
  rw [State.advance_writer, State.advance_intake]
  cases c.alertRecord d.subscriber with
  | none => exact ⟨t.fewer (Nat.le_succ n), State.hand_intake _ _ _⟩
  | some r => exact ⟨State.hand_owes t r, (State.hand_intake _ _ _).trans (State.hand_intake _ _ _)⟩

/-! ## A second boundary (R1, R4) -/

theorem State.airSteps_writer (s : State) (m : Bool) : (s.airSteps m).ex.writer = s.ex.writer := by
  show (s.tick m).ex.writer = _
  unfold State.tick
  simp only
  split <;> rfl

/-- A frame mark leaves the report writer. -/
theorem State.takeMark_writer (s : State) : s.takeMark.ex.writer = s.ex.writer := by
  have marked : s.handReport.linksTakeMark.ex.writer = s.ex.writer := by
    show s.handReport.ex.writer = _
    rw [State.handReport_ex]
  unfold State.takeMark
  simp only
  split
  · unfold State.beginFrame
    simp only [State.startSweep_ex, State.buildDue_ex, State.cutBuild_ex]
    exact marked
  · unfold State.endStopping
    simp only [State.startSweep_ex]
    have bit : ∀ t : State, t.setEngineBit.ex.writer = t.ex.writer := fun _ => rfl
    rw [bit]
    simp only [State.emptyPages, State.stopBuild, State.returnPlaced_ex, State.cutBuild_ex]
    exact marked

/-- A piece of work at a boundary keeps the laws of the report writer. -/
theorem State.takeItem_room {s : State} (h : s.ex.writer.RoomLaw) (law : s.ex.writer.PageLaw) (i : ReportItem) :
    (s.takeItem i).ex.writer.RoomLaw ∧ (s.takeItem i).ex.writer.PageLaw := by
  cases i with
  | age => exact ⟨Exchange.ageStep_room h law _ _, (Exchange.ageStep_reported _ _ _).law law⟩
  | ask p => exact ⟨State.ask_room h law p, (State.ask_reported s p).law law⟩
  | offer l =>
    refine ⟨State.offerStatus_room h law l, ?_⟩
    show (s.offerStatus l).ex.writer.PageLaw
    unfold State.offerStatus
    split
    · exact (Exchange.closeIfDue_reported _ _).law ((Exchange.append_reported _ _ _).law law)
    · exact law

end Sys2Proof.Machine
end

