-- ==== Sys2Proof/Laws/Intake.lean ====
section
/-! SUPPORT. The posting in hand through the work of the other producers (R83, R84): while the intake unit asks for no
reservation, what the others ask, hand and return leaves the posting, the point it has come to and what is left of its
reservation, which only a grant makes anew. -/

namespace Sys2Proof.Machine

/-- What the work of the other producers leaves of the intake unit. -/
structure Exchange.SparesIntake (x y : Exchange) : Prop where
  progress : y.progress = x.progress
  waiting : .intake ∉ x.writer.waiting → .intake ∉ y.writer.waiting
  held : ∀ k, (.intake, k) ∈ y.writer.held → (.intake, k) ∈ x.writer.held ∨ k = 8
  intake : .intake ∉ x.writer.waiting → y.intake = x.intake

theorem Exchange.SparesIntake.refl (x : Exchange) : x.SparesIntake x := ⟨rfl, id, fun _ => .inl, fun _ => rfl⟩

theorem Exchange.SparesIntake.trans {x y z : Exchange} (h : x.SparesIntake y) (k : y.SparesIntake z) : x.SparesIntake z :=
  ⟨k.progress.trans h.progress, fun f => k.waiting (h.waiting f), fun n i => (k.held n i).elim (h.held n) .inr,
    fun f => (k.intake (h.waiting f)).trans (h.intake f)⟩

/-- Where the writer's requests and reservations and the intake unit read the same. -/
theorem Exchange.SparesIntake.same {x y : Exchange} (p : y.progress = x.progress) (w : y.writer.waiting = x.writer.waiting)
    (h : y.writer.held = x.writer.held) (i : y.intake = x.intake) : x.SparesIntake y :=
  ⟨p, by rw [w]; exact id, fun k => by rw [h]; exact .inl, fun _ => i⟩

/-- The reservation of the intake unit, where it holds one, is whole. -/
abbrev Writer.IntakeWhole (w : Writer) : Prop := ∀ k, (.intake, k) ∈ w.held → 8 ≤ k

theorem Progress.least_le (g : Progress) : 5 ≤ g.least ∧ g.least ≤ 8 := by cases g <;> exact ⟨by simp [least], by simp [least]⟩

theorem Exchange.least_le (x : Exchange) : x.least ≤ 8 := by
  unfold Exchange.least
  split
  · split
    · exact (Progress.least_le _).2
    · exact Nat.le_refl 8
  · exact Nat.le_refl 8

/-- A whole reservation keeps the law at every point of a posting. -/
theorem Writer.IntakeWhole.law {x : Exchange} (h : x.writer.IntakeWhole) : x.IntakeLaw :=
  fun k i => Nat.le_trans x.least_le (h k i)

/-- The law of R83 stands through the work of the other producers: the reservation of a posting in hand is as it was, and one
granted anew is whole. -/
theorem Exchange.SparesIntake.law {x y : Exchange} (h : x.SparesIntake y) (asks : x.writer.AskLaw) (law : x.IntakeLaw) :
    y.IntakeLaw := by
  intro k i
  rcases h.held k i with i | e
  · have free : .intake ∉ x.writer.waiting := fun w => by
      have none := asks _ w
      rw [Writer.holds_iff.mpr ⟨k, i⟩] at none
      cases none
    have e : y.least = x.least := by unfold Exchange.least; rw [h.intake free, h.progress]
    rw [e]
    exact law k i
  · rw [e]
    exact y.least_le

/-! ## The report writer's operations -/

theorem Exchange.closePage_spares (x : Exchange) (st : Stamp) (c : CloseCause) : x.SparesIntake (x.closePage st c) :=
  .same (x.closePage_reported st c).progress (x.closePage_asks st c).2 (x.closePage_asks st c).1 (x.closePage_intake st c)

theorem Exchange.closeIfDue_spares (x : Exchange) (st : Stamp) : x.SparesIntake (x.closeIfDue st) := by
  unfold Exchange.closeIfDue
  split
  · exact x.closePage_spares st .age
  · exact .refl x

theorem Exchange.append_spares (x : Exchange) (st : Stamp) (r : Record) : x.SparesIntake (x.append st r) := by
  have opened : x.SparesIntake x.ensureOpen := by
    unfold Exchange.ensureOpen
    split
    · exact .refl x
    · exact .same rfl rfl rfl rfl
  have recorded : x.SparesIntake (x.ensureOpen.recorded r) := opened.trans (.same rfl rfl rfl rfl)
  rw [Exchange.append_eq]
  split
  · exact recorded.trans (Exchange.closePage_spares _ st .count)
  · exact recorded

theorem Exchange.use_spares (x : Exchange) {p : Producer} (ne : p ≠ .intake) :
    x.SparesIntake { x with writer := x.writer.use p } := by
  refine ⟨rfl, id, fun k i => .inl ?_, fun _ => rfl⟩
  obtain ⟨g, j, e⟩ := List.mem_map.mp i
  by_cases c : g.1 = p
  · rw [if_pos c] at e
    exact absurd (c.symm.trans (Prod.ext_iff.mp e).1) ne
  · rw [if_neg c] at e
    exact e ▸ j

theorem Exchange.hand_spares (x : Exchange) (st : Stamp) {p : Producer} (ne : p ≠ .intake) (r : Record) :
    x.SparesIntake (x.hand st p r) :=
  ((x.use_spares ne).trans (Exchange.append_spares _ st r)).trans (Exchange.closeIfDue_spares _ st)

/-- A grant to another producer. -/
theorem Exchange.judgeOne_spares (x : Exchange) {p : Producer} (ne : p ≠ .intake) : x.SparesIntake (x.judgeOne p) := by
  unfold Exchange.judgeOne
  split
  · refine ⟨rfl, fun f i => f (List.mem_filter.mp i).1, fun k i => ?_, fun _ => if_neg ne⟩
    rcases List.mem_append.mp i with i | i
    · exact .inl i
    · exact absurd (congrArg Prod.fst (List.mem_singleton.mp i)).symm ne
  · exact .refl x

theorem Exchange.judgeOne_held (x : Exchange) (p : Producer) (k : Nat) (i : (.intake, k) ∈ (x.judgeOne p).writer.held) :
    (.intake, k) ∈ x.writer.held ∨ k = 8 := by
  unfold Exchange.judgeOne at i
  split at i
  · rcases List.mem_append.mp i with i | i
    · exact .inl i
    · cases List.mem_singleton.mp i
      exact .inr rfl
  · exact .inl i

theorem Exchange.judge_spares (x : Exchange) : x.SparesIntake x.judge := by
  have held : ∀ (ps : List Producer) (y : Exchange) (k : Nat), (.intake, k) ∈ (ps.foldl Exchange.judgeOne y).writer.held →
      (.intake, k) ∈ y.writer.held ∨ k = 8 := by
    intro ps
    induction ps with
    | nil => exact fun _ _ => .inl
    | cons p rest ih => exact fun y k i => (ih _ k i).elim (y.judgeOne_held p k) .inr
  have all : ∀ (ps : List Producer) (y : Exchange), (∀ p, p ∈ ps → p ≠ .intake) → y.SparesIntake (ps.foldl Exchange.judgeOne y) := by
    intro ps
    induction ps with
    | nil => exact fun y _ => .refl y
    | cons p rest ih =>
      exact fun y f => (y.judgeOne_spares (f p (List.mem_cons_self ..))).trans
        (ih _ fun q i => f q (List.mem_cons_of_mem _ i))
  have other : .intake ∉ x.writer.waiting → ∀ p, p ∈ x.writer.judgeOrder → p ≠ .intake := by
    rintro f p i rfl
    refine f ?_
    unfold Writer.judgeOrder at i
    simp only [List.mem_append, List.mem_filter] at i
    rcases i with (i | i) | i <;> exact i.1
  have h := fun f => all x.writer.judgeOrder x (other f)
  exact ⟨x.judge_reported.progress, fun f => (h f).waiting f, held _ x, fun f => (h f).intake f⟩

theorem Exchange.request_spares (x : Exchange) {p : Producer} (ne : p ≠ .intake) : x.SparesIntake (x.request p) := by
  unfold Exchange.request
  split
  · exact .refl x
  · refine .trans (y := { x with writer.waiting := x.writer.waiting ++ [p] })
      ⟨rfl, fun f i => ?_, fun _ => .inl, fun _ => rfl⟩ (Exchange.judge_spares _)
    rcases List.mem_append.mp i with i | i
    · exact f i
    · exact ne (List.mem_singleton.mp i).symm

theorem Exchange.roomRose_spares (x : Exchange) (st : Stamp) : x.SparesIntake (x.roomRose st) := by
  have next : x.SparesIntake { x with choices := x.choices + 1 } := .same rfl rfl rfl rfl
  unfold Exchange.roomRose
  split
  · simp only
    split
    · exact (next.trans (Exchange.closeIfDue_spares _ st)).trans (Exchange.judge_spares _)
    · exact (next.trans (Exchange.judge_spares _)).trans (Exchange.closeIfDue_spares _ st)
  · exact (x.closeIfDue_spares st).trans (Exchange.judge_spares _)

theorem Exchange.giveBack_spares (x : Exchange) (st : Stamp) (p : Producer) : x.SparesIntake (x.giveBack st p) :=
  .trans (y := { x with writer.held := x.writer.held.filter fun h => decide (h.1 ≠ p) })
    ⟨rfl, id, fun _ i => .inl (List.mem_filter.mp i).1, fun _ => rfl⟩ (Exchange.roomRose_spares _ st)

theorem Exchange.ageStep_spares (x : Exchange) (st : Stamp) (flush : Nat) : x.SparesIntake (x.ageStep st flush) := by
  unfold Exchange.ageStep
  split
  · exact .trans (y := { x with writer := { x.writer with
      age := saturate 30 x.writer.age 1, due := x.writer.due || decide (flush ≤ saturate 30 x.writer.age 1) } })
      (.same rfl rfl rfl rfl) (Exchange.closeIfDue_spares _ st)
  · exact .refl x

theorem Exchange.returnPage_spares (x : Exchange) (st : Stamp) (p : Index8) : x.SparesIntake (x.returnPage st p) :=
  .trans (y := { x with writer.pages := x.writer.pages.set p.val .empty p.isLt }) (.same rfl rfl rfl rfl)
    (Exchange.roomRose_spares _ st)

/-! ## The same over State -/

/-- The exchange of `t` spares the posting in hand of `s`. -/
abbrev State.Spares (s t : State) : Prop := s.ex.SparesIntake t.ex

/-- A state whose exchange reads the same. -/
theorem State.Spares.of {s t : State} (e : t.ex = s.ex) : s.Spares t := by
  show s.ex.SparesIntake t.ex
  rw [e]
  exact .refl _

theorem State.hand_spares (s : State) {p : Producer} (ne : p ≠ .intake) (r : Record) : s.Spares (s.hand p r) :=
  s.ex.hand_spares s.stamp ne r

theorem State.ask_spares (s : State) {p : Producer} (ne : p ≠ .intake) : s.Spares (s.ask p) := by
  unfold State.ask
  split
  · exact s.ex.request_spares ne
  · exact .refl _

theorem State.endUnit_spares (s : State) {p : Producer} (ne : p ≠ .intake) : s.Spares (s.endUnit p) :=
  .trans (y := (s.giveBack p).ex) (s.ex.giveBack_spares s.stamp p) ((s.giveBack p).ask_spares ne)

theorem State.offerStatus_spares (s : State) (l : Index8) : s.Spares (s.offerStatus l) := by
  unfold State.offerStatus
  split
  · exact (Exchange.append_spares _ _ _).trans (Exchange.closeIfDue_spares _ _)
  · exact .refl _

theorem State.judgeLow_spares (s : State) {p : Producer} (ne : p ≠ .intake) (n : Nat) (e : BalanceEvent) :
    s.Spares (s.judgeLow p n e) := by
  unfold State.judgeLow
  simp only
  split
  · exact .refl _
  · exact State.hand_spares _ ne _

theorem State.refund_spares (s : State) {p : Producer} (ne : p ≠ .intake) (i : Nat) (r : MessageRecord) (o : CloseOutcome) :
    s.Spares (s.refund p i r o) :=
  .trans (y := (State.hand (s.setBilling r.subscriber _) p _).ex) (State.hand_spares (s.setBilling r.subscriber _) ne _)
    (State.judgeLow_spares _ ne _ _)

theorem State.walkVisit_spares (s : State) : s.Spares s.walkVisit := by
  unfold State.walkVisit
  simp only
  split
  · exact State.hand_spares s (p := .rollWalk) (by decide) _
  · exact .refl _

theorem State.close_spares (s : State) {p : Producer} (ne : p ≠ .intake) (i : Nat) (o : CloseOutcome) :
    s.Spares (s.close p i o) := by
  have free : s.Spares (s.freeRecord i) := by
    have e : (s.freeRecord i).ex = (s.leaveCollections i).ex.notice .freeRecords := rfl
    show s.ex.SparesIntake _
    rw [e, State.leaveCollections_ex]
    exact .same rfl rfl rfl rfl
  unfold State.close
  simp only
  have out := free.trans (State.hand_spares (s.freeRecord i) ne (recordOutcome i (s.msg i) o s.air.serial))
  split
  · exact out.trans (State.refund_spares _ ne _ _ _)
  · exact out

theorem State.settleRecord_spares (s : State) (e : SettleEntry) (r : MessageRecord) : s.Spares (s.settleRecord e r) := by
  unfold State.settleRecord
  simp only
  repeat' split
  all_goals first
    | exact State.close_spares s (by decide) _ _
    | exact .refl _
    | exact State.close_spares (s.setMsg _ _) (by decide) _ _

theorem State.heard_spares (s : State) (n : Nat) (e : ReverseEntry) : s.Spares (s.heard n e) := by
  unfold State.heard
  simp only
  generalize hu : (if (((s.setReach n { (s.sub n).reach with missCount := 0 }).sub n).reach.unreachable) = true then
    State.hand ((s.setReach n { (s.sub n).reach with missCount := 0 }).releaseAll n).1 .tracker
      (recordReleased n ((s.setReach n { (s.sub n).reach with missCount := 0 }).releaseAll n).2 e.arrival)
    else s.setReach n { (s.sub n).reach with missCount := 0 }) = u
  have t : s.Spares u := by
    rw [← hu]
    split
    · refine .trans ?_ (State.hand_spares _ (by decide) _)
      exact State.Spares.of (by rw [State.releaseAll_ex]; rfl)
    · exact .refl _
  split
  · exact t.trans (State.hand_spares (u.setReach n _) (by decide) _)
  · exact t

theorem State.matchAck_spares (s : State) (n : Nat) (e : ReverseEntry) : s.Spares (s.matchAck n e) := by
  unfold State.matchAck
  split
  · exact State.hand_spares _ (by decide) _
  · simp only
    split
    · exact .refl _
    · exact State.close_spares _ (by decide) _ _

theorem State.processReturn_spares (s : State) (e : ReverseEntry) : s.Spares (s.processReturn e) := by
  unfold State.processReturn
  simp only
  split
  · split
    · exact State.hand_spares _ (by decide) _
    · exact .refl _
  · split
    · exact (State.matchAck_spares _ _ _).trans (State.heard_spares _ _ _)
    · exact State.heard_spares _ _ _

theorem State.missLatch_spares (s : State) (n : Nat) : s.Spares (s.missLatch n) := by
  unfold State.missLatch
  simp only
  split
  · refine .trans ?_ (State.hand_spares _ (by decide) _)
    exact State.Spares.of (by rw [State.holdAll_ex]; rfl)
  · exact .refl _

theorem State.deadlineFate_spares (s : State) (i d : Nat) : s.Spares (s.deadlineFate i d) := by
  unfold State.deadlineFate
  simp only
  repeat' split
  all_goals first | exact State.close_spares _ (by decide) _ _ | exact .refl _

theorem State.appendLinkReport_spares (s : State) (l : Index8) : s.Spares (s.appendLinkReport l) := by
  unfold State.appendLinkReport
  simp only
  repeat' split
  all_goals first | exact State.hand_spares s (by decide) _ | exact .refl _

theorem State.takeItem_spares (s : State) {i : ReportItem} (ne : i ≠ .ask .intake) : s.Spares (s.takeItem i) := by
  cases i with
  | age => exact Exchange.ageStep_spares _ _ _
  | ask p => exact State.ask_spares s fun e => ne (by rw [e])
  | offer l => exact State.offerStatus_spares s l

/-! ## The intake unit's own reservation (R83, R95) -/

/-- A request of the intake unit is granted whole (R170). -/
theorem Exchange.request_whole {x : Exchange} (h : x.writer.RoomLaw) (law : x.writer.PageLaw) (whole : x.writer.IntakeWhole)
    (p : Producer) : (x.request p).writer.IntakeWhole := fun k i =>
  (Exchange.request_ok (ok := fun g => g.1 = .intake → 8 ≤ g.2) (fun q e => by cases (show q = .intake from e); decide)
    ⟨h.within, h.once, h.asked, fun g j e => whole g.2 (e ▸ j)⟩ law p).each (.intake, k) i rfl

theorem Exchange.wakeIntake_whole {x : Exchange} (h : x.writer.RoomLaw) (law : x.writer.PageLaw) (whole : x.writer.IntakeWhole)
    (loading : Bool) : (x.wakeIntake loading).writer.IntakeWhole := by
  unfold Exchange.wakeIntake
  split
  · exact Exchange.request_whole (x := { x with intake := .roomWait }) h law whole .intake
  · exact whole

/-- A reservation returned leaves the intake unit none. -/
theorem Exchange.giveBack_whole (x : Exchange) (st : Stamp) : (x.giveBack st .intake).writer.IntakeWhole := by
  intro k i
  rcases (Exchange.roomRose_spares
    { x with writer.held := x.writer.held.filter fun g => decide (g.1 ≠ .intake) } st).held k i with i | e
  · exact absurd rfl (of_decide_eq_true (List.mem_filter.mp i).2)
  · exact Nat.le_of_eq e.symm

/-- An answer leaves the intake unit no reservation but one it has asked for anew (R82, R95). -/
theorem State.answer_whole {s : State} {n : Nat} (h : s.ex.writer.Owes .intake n) {k : Nat} {p : Posting}
    (working : s.ex.intake = .working k p) (code : AnswerCode) (data : List Word) :
    (s.answer code data).ex.writer.IntakeWhole := by
  unfold State.answer
  rw [working]
  obtain ⟨y, same, e⟩ : ∃ y : Exchange, s.ex.answer s.stamp s.loading k (Posting.code p) code data =
      Exchange.wakeIntake { y.giveBack s.stamp .intake with intake := .idle } s.loading ∧ y.writer = s.ex.writer :=
    ⟨_, rfl, rfl⟩
  show (s.ex.answer s.stamp s.loading k (Posting.code p) code data).writer.IntakeWhole
  rw [same]
  rw [← e] at h
  exact Exchange.wakeIntake_whole (x := { y.giveBack s.stamp .intake with intake := .idle }) (Exchange.giveBack_room h _)
    ((y.giveBack_reported s.stamp .intake).law h.law) (y.giveBack_whole _) _

end Sys2Proof.Machine
end

