-- ==== Sys2Proof/Laws/Store.lean ====
section
/-! SUPPORT. The laws of the message store (R105, R106) through the steps that change a record, a store group or a frame
list: one lemma for a record replaced, and one for each change of the frame lists. -/

namespace Sys2Proof.Machine

/-- One where a Bool is true. -/
def share (b : Bool) : Nat := if b then 1 else 0

/-- The sparse tables of the message records and the subscribers are in canonical form. -/
structure State.Canon (s : State) : Prop where
  subscribers : Table.wf Subscriber.powerOn s.account.subscribers = true
  records : Table.wf MessageRecord.powerOn s.store.records = true

theorem State.Tidy.canon {s : State} (h : s.Tidy) : s.Canon := ⟨h.subscribers, h.records⟩

theorem State.Canon.setMsg {s : State} (h : s.Canon) (i : Nat) (r : MessageRecord) : (s.setMsg i r).Canon :=
  ⟨h.subscribers, Table.wf_set h.records i r⟩

theorem State.Canon.setSub {s : State} (h : s.Canon) (n : Nat) (u : Subscriber) : (s.setSub n u).Canon :=
  ⟨Table.wf_set h.subscribers n u, h.records⟩

/-! ## One record replaced (R105) -/

/-- What a step that replaces record `i` by `r` must keep of its subscriber's store group, the count of FREE records and
the records held for an air-stop close. -/
structure State.Replaces (s t : State) (i : Nat) (r : MessageRecord) : Prop where
  records : t.store.records = Table.set MessageRecord.powerOn i r s.store.records
  range : r.state ≠ .free → i < Config.records
  owner : (s.msg i).state ≠ .free → (s.msg i).subscriber = r.subscriber
  others : ∀ m, m ≠ r.subscriber → (t.sub m).store = (s.sub m).store
  open_ : (t.sub r.subscriber).store.openCount + share (s.msg i).occupied =
    (s.sub r.subscriber).store.openCount + share r.occupied
  limit : (t.sub r.subscriber).store.openCount ≤ Config.openLimit
  vacancy : ∀ m, (t.sub m).billing.state = .vacant → (s.sub m).billing.state = .vacant
  occupies : (s.msg i).state = .free → r.state ≠ .free → (t.sub r.subscriber).billing.state ≠ .vacant
  tags : ∀ k : Fin 8, (t.sub r.subscriber).store.tags.getLsbD k.val = true ↔
    ((s.sub r.subscriber).store.tags.getLsbD k.val = true ∧ ¬ ((s.msg i).state ≠ .free ∧ (s.msg i).tag = some k)) ∨
      (r.state ≠ .free ∧ r.tag = some k)
  fresh : ∀ k : Fin 8, r.state ≠ .free → r.tag = some k →
    ((s.msg i).state ≠ .free ∧ (s.msg i).tag = some k) ∨ (s.sub r.subscriber).store.tags.getLsbD k.val = false
  flight : r.flying r.subscriber = true →
    (s.msg i).flying r.subscriber = true ∨ s.countMsgs (MessageRecord.flying r.subscriber) < Config.flightLimit
  free : t.store.freeCount + share r.occupied = s.store.freeCount + share (s.msg i).occupied
  rising : t.store.airStop.Pairwise (· < ·)
  stopped : ∀ j, j ∈ t.store.airStop → (j ∈ s.store.airStop ∧ j ≠ i) ∨ (j = i ∧ r.state = .placed ∧ (r.ackedPending = true ∨ r.cancelPending = true))

theorem MessageRecord.occupied_iff {r : MessageRecord} : r.occupied = true ↔ r.state ≠ .free := by
  unfold MessageRecord.occupied
  exact decide_eq_true_iff

/-- A count moves by the old record's and the new record's share. -/
theorem State.countMsgs_set {s t : State} (h : s.Canon) {i : Nat} {r : MessageRecord}
    (records : t.store.records = Table.set MessageRecord.powerOn i r s.store.records) {p : MessageRecord → Bool}
    (none : p MessageRecord.powerOn = false) :
    t.countMsgs p + share (p (s.msg i)) = s.countMsgs p + share (p r) := by
  unfold State.countMsgs
  rw [records]
  exact Table.countWhere_set none h.records i r

/-- A count is the number of indexes the store lists for it. -/
theorem State.countMsgs_eq (s : State) (p : MessageRecord → Bool) : s.countMsgs p = (s.msgsWhere p).length := by
  unfold State.countMsgs State.msgsWhere Table.countWhere Table.keysWhere
  rw [List.length_map]

/-- The indexes the store lists for a condition are those whose records satisfy it. -/
theorem State.mem_msgsWhere {s : State} (h : s.Canon) {p : MessageRecord → Bool} (none : p MessageRecord.powerOn = false)
    (i : Nat) : i ∈ s.msgsWhere p ↔ p (s.msg i) = true :=
  Table.mem_keysWhere (p := fun _ => p) (fun _ => none) h.records i

/-- A record that satisfies a condition is counted. -/
theorem State.countMsgs_pos {s : State} (h : s.Canon) {p : MessageRecord → Bool} (none : p MessageRecord.powerOn = false)
    {i : Nat} (here : p (s.msg i) = true) : 0 < s.countMsgs p := by
  rw [State.countMsgs_eq]
  exact List.length_pos_of_mem ((State.mem_msgsWhere h none i).mpr here)

/-- A step that replaces one record as `Replaces` says keeps the laws of R105. -/
theorem State.StoreLaw.replace {s t : State} (h : s.StoreLaw) (c : s.Canon) {i : Nat} {r : MessageRecord}
    (e : s.Replaces t i r) : t.StoreLaw := by
  have msg : ∀ j, t.msg j = if j = i then r else s.msg j := fun j => by
    unfold State.msg
    rw [e.records]
    exact Table.get_set c.records i j r
  have here : t.msg i = r := by rw [msg, if_pos rfl]
  have there : ∀ {j}, j ≠ i → t.msg j = s.msg j := fun ne => by rw [msg, if_neg ne]
  -- the counts
  have counted : ∀ n, t.countMsgs (MessageRecord.ofSubscriber n) + share ((s.msg i).ofSubscriber n) =
      s.countMsgs (MessageRecord.ofSubscriber n) + share (r.ofSubscriber n) :=
    fun n => State.countMsgs_set c e.records rfl
  have flown : ∀ n, t.countMsgs (MessageRecord.flying n) + share ((s.msg i).flying n) =
      s.countMsgs (MessageRecord.flying n) + share (r.flying n) :=
    fun n => State.countMsgs_set c e.records (by unfold MessageRecord.flying MessageRecord.powerOn; simp)
  have owner : ∀ {n}, n ≠ r.subscriber → (s.msg i).ofSubscriber n = false := fun {n} ne => by
    unfold MessageRecord.ofSubscriber
    cases o : (s.msg i).occupied with
    | false => rfl
    | true =>
      rw [e.owner (MessageRecord.occupied_iff.mp o)]
      simpa using fun a => ne a.symm
  have mine : (s.msg i).ofSubscriber r.subscriber = (s.msg i).occupied := by
    unfold MessageRecord.ofSubscriber
    cases o : (s.msg i).occupied with
    | false => rfl
    | true => rw [e.owner (MessageRecord.occupied_iff.mp o)]; simp
  have its : r.ofSubscriber r.subscriber = r.occupied := by unfold MessageRecord.ofSubscriber; simp
  have not_its : ∀ {n}, n ≠ r.subscriber → r.ofSubscriber n = false := fun {n} ne => by
    unfold MessageRecord.ofSubscriber
    simpa using fun _ a => ne a.symm
  have openNow : ∀ n, (t.sub n).store.openCount = t.countMsgs (MessageRecord.ofSubscriber n) := by
    intro n
    have a := counted n
    have b := h.open_ n
    by_cases eq : n = r.subscriber
    · subst eq
      have o := e.open_
      rw [mine, its] at a
      omega
    · rw [owner eq, not_its eq] at a
      rw [e.others n eq]
      omega
  have tagged : ∀ n (k : Fin 8), (t.sub n).store.tags.getLsbD k.val = true ↔
      ∃ j, (t.msg j).state ≠ .free ∧ (t.msg j).subscriber = n ∧ (t.msg j).tag = some k := by
    intro n k
    by_cases eq : n = r.subscriber
    · subst eq
      rw [e.tags, h.tags]
      constructor
      · rintro (⟨⟨j, o, m, g⟩, no⟩ | ⟨o, g⟩)
        · have ne : j ≠ i := fun a => no (a ▸ ⟨o, g⟩)
          exact ⟨j, by rw [there ne]; exact ⟨o, m, g⟩⟩
        · exact ⟨i, by rw [here]; exact ⟨o, rfl, g⟩⟩
      · rintro ⟨j, o, m, g⟩
        by_cases a : j = i
        · rw [a, here] at o g
          exact .inr ⟨o, g⟩
        · rw [there a] at o m g
          refine .inl ⟨⟨j, o, m, g⟩, fun b => a ?_⟩
          exact h.distinct j i k o b.1 (m.trans (e.owner b.1).symm) g b.2
    · rw [e.others n eq, h.tags]
      constructor
      · rintro ⟨j, o, m, g⟩
        have ne : j ≠ i := fun a => eq (by rw [← m, a]; exact e.owner (a ▸ o))
        exact ⟨j, by rw [there ne]; exact ⟨o, m, g⟩⟩
      · rintro ⟨j, o, m, g⟩
        have ne : j ≠ i := fun a => eq (by rw [← m, a, here])
        rw [there ne] at o m g
        exact ⟨j, o, m, g⟩
  -- a record other than `i` that shares subscriber and tag with the new one
  have apart : ∀ j k, j ≠ i → r.state ≠ .free → (s.msg j).state ≠ .free → r.subscriber = (s.msg j).subscriber →
      r.tag = some k → (s.msg j).tag = some k → False := by
    intro j k ne o p m g l
    rcases e.fresh k o g with b | b
    · exact ne (h.distinct j i k p b.1 (m.symm.trans (e.owner b.1).symm) l b.2)
    · rw [(h.tags r.subscriber k).mpr ⟨j, p, m.symm, l⟩] at b
      cases b
  refine ⟨fun j o => ?_, openNow, fun n => ?_, fun n v => ?_, tagged, fun j l k o p m g q => ?_, fun n => ?_, ?_, e.rising,
    fun j o => ?_⟩
  · by_cases a : j = i
    · rw [a, here] at o
      rw [a]
      exact e.range o
    · exact h.range j (by rw [← there a]; exact o)
  · by_cases eq : n = r.subscriber
    · rw [eq]; exact e.limit
    · rw [e.others n eq]; exact h.limit n
  · have was := h.vacant n (e.vacancy n v)
    by_cases eq : n = r.subscriber
    · subst eq
      have o := e.open_
      cases x : (s.msg i).occupied with
      | true =>
        have one := counted r.subscriber
        rw [mine, x, its] at one
        have zero := h.open_ r.subscriber
        rw [x] at o
        unfold share at o one
        simp only [if_true] at o one
        -- an occupied record names the subscriber, so its open count is not 0
        have some : 0 < s.countMsgs (MessageRecord.ofSubscriber r.subscriber) :=
          State.countMsgs_pos c rfl (by rw [mine, x])
        omega
      | false =>
        cases y : r.occupied with
        | true =>
          have free : (s.msg i).state = .free := by
            by_contra a
            rw [MessageRecord.occupied_iff.mpr a] at x
            cases x
          exact absurd v (e.occupies free (MessageRecord.occupied_iff.mp y))
        | false =>
          rw [x, y] at o
          omega
    · rw [e.others n eq]; exact was
  · by_cases a : j = i
    · by_cases b : l = i
      · rw [a, b]
      · rw [a, here] at o m g
        rw [there b] at p m q
        exact (apart l k b o p m g q).elim
    · rw [there a] at o m g
      by_cases b : l = i
      · rw [b, here] at p m q
        exact (apart j k a p o m.symm q g).elim
      · rw [there b] at p m q
        exact h.distinct j l k o p m g q
  · have a := flown n
    have b := h.flight n
    by_cases f : r.flying n = true
    · have eq : r.subscriber = n := by
        unfold MessageRecord.flying at f
        exact (of_decide_eq_true f).1
      subst eq
      rw [f] at a
      rcases e.flight f with d | d
      · rw [d] at a
        omega
      · unfold share at a
        simp only [if_true] at a
        omega
    · have f' : r.flying n = false := by simpa using f
      rw [f'] at a
      unfold share at a
      simp only [Bool.false_eq_true, if_false] at a
      omega
  · have a := State.countMsgs_set c e.records (p := MessageRecord.occupied) rfl
    have b := h.free
    have d := e.free
    omega
  · rcases e.stopped j o with ⟨m, ne⟩ | ⟨eq, p⟩
    · rw [there ne]; exact h.stopped j m
    · rw [eq, here]; exact p

/-! ## The steps of the message store that replace a record -/

/-- A step that leaves the records, the store groups, the count of FREE records and the records held for an air-stop close
keeps the laws, where no subscriber with open messages becomes VACANT. -/
theorem State.StoreLaw.same {s t : State} (h : s.StoreLaw) (records : t.store.records = s.store.records)
    (groups : ∀ n, (t.sub n).store = (s.sub n).store)
    (vacancy : ∀ n, (t.sub n).billing.state = .vacant → (s.sub n).billing.state = .vacant ∨ (s.sub n).store.openCount = 0)
    (free : t.store.freeCount = s.store.freeCount) (airStop : t.store.airStop = s.store.airStop) : t.StoreLaw := by
  have msg : ∀ i, t.msg i = s.msg i := fun i => by unfold State.msg; rw [records]
  have count : ∀ p, t.countMsgs p = s.countMsgs p := fun p => by unfold State.countMsgs; rw [records]
  refine ⟨?_, ?_, ?_, ?_, ?_, ?_, ?_, ?_, ?_, ?_⟩
  · simpa only [msg] using h.range
  · simpa only [groups, count] using h.open_
  · simpa only [groups] using h.limit
  · intro n v
    rw [groups]
    exact (vacancy n v).elim (h.vacant n) id
  · simpa only [msg, groups] using h.tags
  · simpa only [msg] using h.distinct
  · simpa only [count] using h.flight
  · rw [free, count]; exact h.free
  · rw [airStop]; exact h.rising
  · rw [airStop]; simpa only [msg] using h.stopped

/-- An occupied record replaced by an occupied one of the same subscriber and tag. -/
theorem State.StoreLaw.keep {s t : State} (h : s.StoreLaw) (c : s.Canon) {i : Nat} {r : MessageRecord}
    (records : t.store.records = Table.set MessageRecord.powerOn i r s.store.records) (subs : ∀ n, t.sub n = s.sub n)
    (free : t.store.freeCount = s.store.freeCount) (was : (s.msg i).state ≠ .free) (is : r.state ≠ .free)
    (owner : r.subscriber = (s.msg i).subscriber) (tag : r.tag = (s.msg i).tag)
    (flight : r.flying r.subscriber = true → (s.msg i).flying r.subscriber = true)
    (airStop : t.store.airStop = s.store.airStop) (stopped : i ∈ s.store.airStop → r.state = .placed ∧ (r.ackedPending = true ∨ r.cancelPending = true)) : t.StoreLaw :=
  h.replace c (i := i) (r := r)
    { records := records
      range := fun _ => h.range i was
      owner := fun _ => owner.symm
      others := fun m _ => by rw [subs]
      open_ := by rw [subs, MessageRecord.occupied_iff.mpr was, MessageRecord.occupied_iff.mpr is]
      limit := by rw [subs]; exact h.limit _
      vacancy := fun m v => by rw [← subs]; exact v
      occupies := fun a => absurd a was
      tags := fun k => by
        rw [subs]
        constructor
        · intro b
          by_cases a : r.tag = some k
          · exact .inr ⟨is, a⟩
          · exact .inl ⟨b, fun d => a (tag.trans d.2)⟩
        · rintro (⟨b, -⟩ | ⟨-, b⟩)
          · exact b
          · exact (h.tags _ k).mpr ⟨i, was, owner.symm, tag.symm.trans b⟩
      fresh := fun k _ a => .inl ⟨was, tag.symm.trans a⟩
      flight := fun a => .inl (flight a)
      free := by rw [free, MessageRecord.occupied_iff.mpr was, MessageRecord.occupied_iff.mpr is]
      rising := by rw [airStop]; exact h.rising
      stopped := fun j m => by
        rw [airStop] at m
        by_cases a : j = i
        · exact .inr ⟨a, stopped (a ▸ m)⟩
        · exact .inl ⟨m, a⟩ }

/-- A tag's bit. -/
theorem tagBit_getLsbD (t k : Fin 8) : (tagBit t).getLsbD k.val = decide (k = t) := by
  revert t k
  decide

/-- The lowest tag not in the set is not in it (R105). -/
theorem lowestTag_spec {tags : TagSet} {t : Fin 8} (h : lowestTag tags = some t) : tags.getLsbD t.val = false := by
  have := List.find?_some h
  simpa using this

/-- A store group replaced reads so. -/
theorem State.store_setStoreGroup {s : State} (c : s.Canon) (n m : Nat) (g : StoreGroup) :
    ((s.setStoreGroup n g).sub m).store = if m = n then g else (s.sub m).store := by
  unfold State.setStoreGroup
  rw [State.sub_setSub c.subscribers]
  split <;> rfl

/-- A store group replaced leaves the billing groups. -/
theorem State.billing_setStoreGroup {s : State} (c : s.Canon) (n m : Nat) (g : StoreGroup) :
    ((s.setStoreGroup n g).sub m).billing = (s.sub m).billing := by
  unfold State.setStoreGroup
  rw [State.sub_setSub c.subscribers]
  split
  · next e => rw [e]
  · rfl

/-- A WAITING record placed: it keeps its tag, or takes one that is in no set (R102, R105, R123). -/
theorem State.StoreLaw.place {s : State} (h : s.StoreLaw) (c : s.Canon) {serial i : Nat} {tag : Option (Fin 8)}
    (targets : ZoneSet) (was : (s.msg i).state = .waiting)
    (few : s.inFlight (s.msg i).subscriber < Config.flightLimit)
    (given : tag = (s.msg i).tag ∨ ((s.msg i).tag = none ∧
      ∃ k, tag = some k ∧ lowestTag (s.sub (s.msg i).subscriber).store.tags = some k)) :
    (s.place serial i tag targets).StoreLaw := by
  have occ : (s.msg i).state ≠ .free := by rw [was]; decide
  have idle : i ∉ s.store.airStop := fun m => by
    have := (h.stopped i m).1
    rw [was] at this
    cases this
  let r : MessageRecord :=
    { s.msg i with state := .placed, tag := tag, placedSerial := some serial, placedZones := targets }
  let u : State := (s.delist i).setMsg i r
  have cu : u.Canon := State.Canon.setMsg (s := s.delist i) ⟨c.subscribers, c.records⟩ i r
  have g := fun m => State.store_setStoreGroup cu (s.msg i).subscriber m
    { (s.sub (s.msg i).subscriber).store with
      tags := (s.sub (s.msg i).subscriber).store.tags ||| tag.elim 0 tagBit }
  have b := fun m => State.billing_setStoreGroup cu (s.msg i).subscriber m
    { (s.sub (s.msg i).subscriber).store with
      tags := (s.sub (s.msg i).subscriber).store.tags ||| tag.elim 0 tagBit }
  have mine : ((s.place serial i tag targets).sub (s.msg i).subscriber).store =
      { (s.sub (s.msg i).subscriber).store with
        tags := (s.sub (s.msg i).subscriber).store.tags ||| tag.elim 0 tagBit } :=
    (g (s.msg i).subscriber).trans (if_pos rfl)
  have bit : ∀ k : Fin 8, (tag.elim 0 tagBit : TagSet).getLsbD k.val = decide (tag = some k) := by
    intro k
    cases tag with
    | none => simp
    | some t =>
      show (tagBit t).getLsbD k.val = _
      rw [tagBit_getLsbD]
      exact decide_eq_decide.mpr ⟨fun e => by rw [e], fun e => by injection e with e; exact e.symm⟩
  refine h.replace c (i := i) (r := r)
    { records := rfl
      range := fun _ => h.range i occ
      owner := fun _ => rfl
      others := fun m ne => (g m).trans (if_neg ne)
      open_ := ?_
      limit := ?_
      vacancy := fun m v => by rw [show ((s.place serial i tag targets).sub m).billing = (s.sub m).billing from b m] at v; exact v
      occupies := fun a => absurd a occ
      tags := fun k => ?_
      fresh := fun k _ a => ?_
      flight := fun _ => .inr ?_
      free := ?_
      rising := h.rising
      stopped := fun j m => .inl ⟨m, fun e => idle (e ▸ m)⟩ }
  · show ((s.place serial i tag targets).sub (s.msg i).subscriber).store.openCount + _ = _
    rw [mine, MessageRecord.occupied_iff.mpr occ]
    rfl
  · show ((s.place serial i tag targets).sub (s.msg i).subscriber).store.openCount ≤ _
    rw [mine]
    exact h.limit _
  · show ((s.place serial i tag targets).sub (s.msg i).subscriber).store.tags.getLsbD k.val = true ↔
      ((s.sub (s.msg i).subscriber).store.tags.getLsbD k.val = true ∧ _) ∨ (_ ∧ tag = some k)
    rw [mine, BitVec.getLsbD_or, bit, Bool.or_eq_true, decide_eq_true_eq]
    constructor
    · rintro (a | a)
      · by_cases d : tag = some k
        · exact .inr ⟨nofun, d⟩
        · refine .inl ⟨a, fun e => d ?_⟩
          rcases given with q | ⟨q, -⟩
          · exact q.trans e.2
          · rw [e.2] at q; cases q
      · exact .inr ⟨nofun, a⟩
    · rintro (⟨a, -⟩ | ⟨-, a⟩)
      · exact .inl a
      · exact .inr a
  · have a : tag = some k := a
    rcases given with q | ⟨-, j, q, low⟩
    · exact .inl ⟨occ, q.symm.trans a⟩
    · rw [q] at a
      injection a with a
      rw [a] at low
      exact .inr (lowestTag_spec low)
  · rw [State.countMsgs_eq]
    exact few
  · show s.store.freeCount + _ = s.store.freeCount + _
    rw [MessageRecord.occupied_iff.mpr occ]
    rfl

/-- A record taken out of its collections stands as it was, and so do the store's counts. -/
theorem State.leaveCollections_store (s : State) (i : Nat) :
    (s.leaveCollections i).store.records = s.store.records ∧ (s.leaveCollections i).account = s.account ∧
      (s.leaveCollections i).store.freeCount = s.store.freeCount ∧
      (s.leaveCollections i).store.airStop = s.store.airStop := by
  unfold State.leaveCollections
  split <;> exact ⟨rfl, rfl, rfl, rfl⟩

/-- The close's step on an occupied record, with the records held for an air-stop close that then stay (R107, R109). -/
theorem State.StoreLaw.freeRecord {s : State} (h : s.StoreLaw) (c : s.Canon) {i : Nat} (occ : (s.msg i).state ≠ .free)
    {held : List Nat} (rising : held.Pairwise (· < ·)) (stay : ∀ j, j ∈ held → j ∈ s.store.airStop ∧ j ≠ i) {t : State}
    (store : t.store = { (s.freeRecord i).store with airStop := held })
    (account : t.account = (s.freeRecord i).account) : t.StoreLaw := by
  obtain ⟨records, accounts, frees, -⟩ := s.leaveCollections_store i
  let n := (s.msg i).subscriber
  let r : MessageRecord := { s.msg i with state := .free, deadline := none, cancelPending := false, ackedPending := false }
  let u : State := (s.leaveCollections i).setMsg i r
  have cu : u.Canon := State.Canon.setMsg ⟨by rw [accounts]; exact c.subscribers, by rw [records]; exact c.records⟩ i r
  have subs : ∀ m, u.sub m = s.sub m := fun m => by
    show Table.get _ (s.leaveCollections i).account.subscribers m = _
    rw [accounts]
    rfl
  let tags : TagSet := match (s.msg i).tag with
    | some k => (u.sub n).store.tags &&& ~~~ tagBit k
    | none => (u.sub n).store.tags
  have g := fun m => State.store_setStoreGroup cu n m ⟨(u.sub n).store.openCount - 1, tags⟩
  have b := fun m => State.billing_setStoreGroup cu n m ⟨(u.sub n).store.openCount - 1, tags⟩
  have same : ∀ m, t.sub m = (u.setStoreGroup n ⟨(u.sub n).store.openCount - 1, tags⟩).sub m := fun m => by
    unfold State.sub
    rw [account]
    rfl
  have mine : (t.sub n).store = ⟨(s.sub n).store.openCount - 1, tags⟩ := by
    rw [same, g n, if_pos rfl, subs]
  have pos : 0 < (s.sub n).store.openCount := by
    rw [h.open_]
    refine State.countMsgs_pos c rfl (i := i) ?_
    unfold MessageRecord.ofSubscriber
    rw [MessageRecord.occupied_iff.mpr occ]
    simp [n]
  refine h.replace c (i := i) (r := r)
    { records := ?_
      range := fun a => absurd rfl a
      owner := fun _ => rfl
      others := fun m ne => by rw [same, g m, if_neg ne, subs]
      open_ := ?_
      limit := ?_
      vacancy := fun m v => by rw [same, b m, subs] at v; exact v
      occupies := fun _ a => absurd rfl a
      tags := fun k => ?_
      fresh := fun _ a => absurd rfl a
      flight := fun a => ?_
      free := ?_
      rising := by rw [store]; exact rising
      stopped := fun j m => .inl (stay j (by rw [store] at m; exact m)) }
  · rw [store]
    show Table.set _ i r (s.leaveCollections i).store.records = _
    rw [records]
  · show (t.sub n).store.openCount + _ = (s.sub n).store.openCount + 0
    rw [mine, MessageRecord.occupied_iff.mpr occ]
    show (s.sub n).store.openCount - 1 + 1 = _
    omega
  · show (t.sub n).store.openCount ≤ _
    rw [mine]
    exact Nat.le_trans (Nat.sub_le _ 1) (h.limit n)
  · show (t.sub n).store.tags.getLsbD k.val = true ↔ ((s.sub n).store.tags.getLsbD k.val = true ∧ _) ∨ _
    rw [mine]
    have none : ¬ (r.state ≠ .free ∧ r.tag = some k) := fun a => a.1 rfl
    rw [or_iff_left none]
    show tags.getLsbD k.val = true ↔ _
    have old : (u.sub n).store.tags = (s.sub n).store.tags := by rw [subs]
    cases e : (s.msg i).tag with
    | none =>
      have : tags = (s.sub n).store.tags := by simp only [tags, e, old]
      rw [this]
      exact ⟨fun a => ⟨a, fun d => by cases d.2⟩, fun a => a.1⟩
    | some j =>
      have : tags = (s.sub n).store.tags &&& ~~~ tagBit j := by simp only [tags, e, old]
      rw [this, BitVec.getLsbD_and, BitVec.getLsbD_not, tagBit_getLsbD, Bool.and_eq_true]
      constructor
      · rintro ⟨a, d⟩
        refine ⟨a, fun q => ?_⟩
        injection q.2 with q
        rw [q] at d
        simp at d
      · rintro ⟨a, d⟩
        refine ⟨a, ?_⟩
        have ne : ¬ k = j := fun q => d ⟨occ, by rw [q]⟩
        simp [ne]
  · unfold MessageRecord.flying at a
    rcases (of_decide_eq_true a).2 with q | q | q <;> cases q
  · rw [store]
    show (s.leaveCollections i).store.freeCount + 1 + 0 = _
    rw [frees, MessageRecord.occupied_iff.mpr occ]
    rfl

/-! ## Admissions (R89, R101) -/

/-- The lowest FREE record is FREE and in the search. -/
theorem State.freeFrom_some {s : State} {n i j : Nat} (h : s.freeFrom i n = some j) :
    (s.msg j).state = .free ∧ i ≤ j ∧ j < i + n := by
  induction n generalizing i with
  | zero => cases h
  | succ n ih =>
    unfold State.freeFrom at h
    split at h
    · next f =>
      injection h with h
      rw [← h]
      exact ⟨f, Nat.le_refl _, by omega⟩
    · obtain ⟨f, a, b⟩ := ih h
      exact ⟨f, by omega, by omega⟩

/-- With no FREE record found, every record of the search is occupied. -/
theorem State.freeFrom_none {s : State} {n i : Nat} (h : s.freeFrom i n = none) :
    ∀ j, i ≤ j → j < i + n → (s.msg j).state ≠ .free := by
  induction n generalizing i with
  | zero => intro j a b; omega
  | succ n ih =>
    unfold State.freeFrom at h
    split at h
    · cases h
    · next f =>
      intro j a b
      by_cases e : j = i
      · rw [e]; exact f
      · exact ih h j (by omega) (by omega)

/-- Where the count of FREE records is above 0, an admission occupies a FREE record of the store. -/
theorem State.StoreLaw.commitIndex {s : State} (h : s.StoreLaw) (c : s.Canon) (some : s.store.freeCount ≠ 0) :
    (s.msg s.commitIndex).state = .free ∧ s.commitIndex < Config.records := by
  unfold State.commitIndex State.lowestFree
  cases e : s.freeFrom 0 Config.records with
  | some i =>
    obtain ⟨f, -, b⟩ := State.freeFrom_some e
    exact ⟨f, by simpa using b⟩
  | none =>
    have all := State.freeFrom_none e
    have sub : (List.range Config.records) ⊆ s.msgsWhere MessageRecord.occupied := by
      intro i m
      refine (State.mem_msgsWhere c rfl i).mpr (MessageRecord.occupied_iff.mpr (all i (Nat.zero_le _) ?_))
      simpa using List.mem_range.mp m
    have le := (List.nodup_range.subperm sub).length_le
    rw [List.length_range, ← State.countMsgs_eq] at le
    have := h.free
    omega

/-- A commit keeps the laws (R89, R105). -/
theorem State.StoreLaw.commit {s : State} (h : s.StoreLaw) (c : s.Canon) (d : Draft) (charge : Nat) (refundable : Bool)
    (some : s.store.freeCount ≠ 0) (few : (s.sub d.subscriber).store.openCount < Config.openLimit)
    (known : (s.sub d.subscriber).billing.state ≠ .vacant) : (s.commit d charge refundable).StoreLaw := by
  obtain ⟨free, inside⟩ := h.commitIndex c some
  let i := s.commitIndex
  let g : StoreGroup := { (s.sub d.subscriber).store with openCount := (s.sub d.subscriber).store.openCount + 1 }
  have idle : i ∉ s.store.airStop := fun m => by
    have := (h.stopped i m).1
    rw [free] at this
    cases this
  obtain ⟨r, records, subs, freeCount, airStop, owner, tag, occ, grounded⟩ : ∃ r : MessageRecord,
      (s.commit d charge refundable).store.records = Table.set MessageRecord.powerOn i r s.store.records ∧
      (s.commit d charge refundable).account = (s.setStoreGroup d.subscriber g).account ∧
      (s.commit d charge refundable).store.freeCount = s.store.freeCount - 1 ∧
      (s.commit d charge refundable).store.airStop = s.store.airStop ∧ r.subscriber = d.subscriber ∧ r.tag = none ∧
      r.state ≠ .free ∧ r.flying d.subscriber = false := by
    unfold State.commit
    simp only
    split
    · exact ⟨_, rfl, rfl, rfl, rfl, rfl, rfl, nofun, by unfold MessageRecord.flying; simp⟩
    · exact ⟨_, rfl, rfl, rfl, rfl, rfl, rfl, nofun, by unfold MessageRecord.flying; simp⟩
  have same : ∀ m, (s.commit d charge refundable).sub m = (s.setStoreGroup d.subscriber g).sub m := fun m => by
    unfold State.sub
    rw [subs]
  have mine : ((s.commit d charge refundable).sub d.subscriber).store = g := by
    rw [same, State.store_setStoreGroup c, if_pos rfl]
  have not : ¬ (s.msg i).state ≠ .free := fun a => a free
  have none : (s.msg i).occupied = false := by
    cases o : (s.msg i).occupied with
    | false => rfl
    | true => exact absurd (MessageRecord.occupied_iff.mp o) not
  refine h.replace c (i := i) (r := r)
    { records := records
      range := fun _ => inside
      owner := fun a => absurd a not
      others := fun m ne => by rw [same, State.store_setStoreGroup c, if_neg (by rw [← owner]; exact ne)]
      open_ := ?_
      limit := ?_
      vacancy := fun m v => by rw [same, State.billing_setStoreGroup c] at v; exact v
      occupies := fun _ _ v => by
        rw [owner, same, State.billing_setStoreGroup c] at v
        exact known v
      tags := fun k => ?_
      fresh := fun k _ a => by rw [tag] at a; cases a
      flight := fun a => by rw [owner, grounded] at a; cases a
      free := ?_
      rising := by rw [airStop]; exact h.rising
      stopped := fun j m => .inl ⟨by rw [← airStop]; exact m, fun e => idle (by rw [← e, ← airStop]; exact m)⟩ }
  · rw [owner, mine, none, MessageRecord.occupied_iff.mpr occ]
    rfl
  · rw [owner, mine]
    exact few
  · rw [owner, mine]
    constructor
    · exact fun a => .inl ⟨a, fun b => not b.1⟩
    · rintro (a | a)
      · exact a.1
      · rw [tag] at a; cases a.2
  · rw [freeCount, none, MessageRecord.occupied_iff.mpr occ]
    show s.store.freeCount - 1 + 1 = s.store.freeCount + 0
    omega

/-! ## The store as a reset leaves it, and the airing request -/

/-- With every record FREE no record is counted. -/
theorem State.countMsgs_zero {s : State} (c : s.Canon) (free : ∀ i, (s.msg i).state = .free) {p : MessageRecord → Bool}
    (none : ∀ r : MessageRecord, r.state = .free → p r = false) : s.countMsgs p = 0 := by
  rw [State.countMsgs_eq, List.length_eq_zero_iff, List.eq_nil_iff_forall_not_mem]
  intro i m
  rw [State.mem_msgsWhere c (none _ rfl), none _ (free i)] at m
  cases m

/-- A store with every record FREE, every store group at its reset values and no record held keeps the laws. -/
theorem State.StoreLaw.empty {s : State} (c : s.Canon) (free : ∀ i, (s.msg i).state = .free)
    (groups : ∀ n, (s.sub n).store = StoreGroup.reset) (count : s.store.freeCount = Config.records)
    (airStop : s.store.airStop = []) : s.StoreLaw where
  range i o := absurd (free i) o
  open_ n := by
    rw [groups, State.countMsgs_zero c free]
    · rfl
    · intro r f; unfold MessageRecord.ofSubscriber MessageRecord.occupied; simp [f]
  limit n := by rw [groups]; decide
  vacant n _ := by rw [groups]; rfl
  tags n k := by
    rw [groups]
    constructor
    · intro a
      have zero : (StoreGroup.reset.tags).getLsbD k.val = false := by revert k; decide
      rw [zero] at a
      cases a
    · rintro ⟨i, o, -⟩; exact absurd (free i) o
  distinct i j k o := absurd (free i) o
  flight n := by
    rw [State.countMsgs_zero c free]
    · decide
    · intro r f; unfold MessageRecord.flying; simp [f]
  free := by
    rw [count, State.countMsgs_zero c free fun r f => by unfold MessageRecord.occupied; simp [f], Nat.add_zero]
  rising := by rw [airStop]; exact List.Pairwise.nil
  stopped i m := by rw [airStop] at m; cases m

/-- A count over records changed in place. -/
theorem Table.countWhere_mapValues {α : Type} [DecidableEq α] {d : α} {f : Nat → α → α} {p : α → Bool} (t : Table α)
    (none : p d = false) (same : ∀ k v, p (f k v) = p v) :
    Table.countWhere p (Table.mapValues d f t) = Table.countWhere p t := by
  unfold Table.countWhere
  induction t with
  | nil => rfl
  | cons e rest ih =>
    unfold Table.mapValues
    split
    · next eq =>
      have : p e.2 = false := by rw [← same e.1, eq, none]
      rw [ih, List.filter_cons_of_neg (by simp [this])]
    · rw [List.filter_cons, List.filter_cons, same]
      split
      · rw [List.length_cons, List.length_cons, ih]
      · exact ih

/-- The airing request keeps the laws (R102, R105). -/
theorem State.StoreLaw.airing {s : State} (h : s.StoreLaw) (c : s.Canon) (serial : Nat) : (s.airing serial).StoreLaw := by
  have msg : ∀ i, (s.airing serial).msg i =
      if (s.msg i).state = .placed ∧ (s.msg i).placedSerial = some serial ∧ i ∉ s.store.airStop then
        { s.msg i with state := .onAir }
      else s.msg i := fun i =>
    Table.get_mapValues (f := fun i (r : MessageRecord) =>
      if r.state = .placed ∧ r.placedSerial = some serial ∧ i ∉ s.store.airStop then { r with state := .onAir } else r)
      (fun k => if_neg fun a => by cases a.1) c.records i
  have occ : ∀ i, ((s.airing serial).msg i).state ≠ .free ↔ (s.msg i).state ≠ .free := fun i => by
    rw [msg]
    split
    · next a => rw [a.1]; exact ⟨nofun, nofun⟩
    · exact Iff.rfl
  have owner : ∀ i, ((s.airing serial).msg i).subscriber = (s.msg i).subscriber := fun i => by rw [msg]; split <;> rfl
  have tag : ∀ i, ((s.airing serial).msg i).tag = (s.msg i).tag := fun i => by rw [msg]; split <;> rfl
  have count : ∀ p : MessageRecord → Bool, p MessageRecord.powerOn = false →
      (∀ r : MessageRecord, r.state = .placed → p { r with state := .onAir } = p r) →
      (s.airing serial).countMsgs p = s.countMsgs p := fun p none same =>
    Table.countWhere_mapValues _ none fun k v => by
      split
      · next a => exact same v a.1
      · rfl
  refine ⟨fun i o => h.range i ((occ i).mp o), fun n => ?_, h.limit, h.vacant, fun n k => ?_, ?_, fun n => ?_, ?_, h.rising,
    fun i m => ?_⟩
  · rw [count _ rfl fun r a => by unfold MessageRecord.ofSubscriber MessageRecord.occupied; simp [a]]
    exact h.open_ n
  · simp only [occ, owner, tag]
    exact h.tags n k
  · simp only [occ, owner, tag]
    exact h.distinct
  · rw [count _ (by unfold MessageRecord.flying MessageRecord.powerOn; simp) fun r a => by
      unfold MessageRecord.flying; simp [a]]
    exact h.flight n
  · rw [count _ rfl fun r a => by unfold MessageRecord.occupied; simp [a]]
    exact h.free
  · rw [msg, if_neg fun a => a.2.2 m]
    exact h.stopped i m

end Sys2Proof.Machine
end

