-- ==== Sys2Proof/Laws/Lists.lean ====
section
/-! SUPPORT. The law of the frame lists (R106) through an insertion, a removal and the steps between them, and both laws of
the message store through each of its requests. -/

namespace Sys2Proof.Machine

/-! ## Keys in order (R101, R106) -/

theorem OrderKey.before_asymm {a b : OrderKey} (h : a.before b = true) : b.before a = false := by
  unfold OrderKey.before at h ⊢
  by_cases e : a.urgent = b.urgent
  · rw [if_pos e, decide_eq_true_eq] at h
    rw [if_pos e.symm, decide_eq_false_iff_not]
    exact fun k => absurd (BitVec.lt_def.mp h) (Nat.not_lt.mpr (Nat.le_of_lt (BitVec.lt_def.mp k)))
  · rw [if_neg e] at h
    rw [if_neg fun k => e k.symm]
    cases b' : b.urgent with
    | false => rfl
    | true => exact absurd (h.trans b'.symm) e

theorem OrderKey.before_trans {a b c : OrderKey} (h : a.before b = true) (k : b.before c = true) : a.before c = true := by
  unfold OrderKey.before at *
  by_cases e : a.urgent = b.urgent
  · rw [if_pos e, decide_eq_true_eq] at h
    by_cases f : b.urgent = c.urgent
    · rw [if_pos f, decide_eq_true_eq] at k
      rw [if_pos (e.trans f), decide_eq_true_eq]
      exact BitVec.lt_def.mpr (Nat.lt_trans (BitVec.lt_def.mp h) (BitVec.lt_def.mp k))
    · rw [if_neg f] at k
      rw [if_neg fun g => f (e.symm.trans g), e]
      exact k
  · rw [if_neg e] at h
    have low : b.urgent = false := by
      cases b' : b.urgent with
      | false => rfl
      | true => exact absurd (h.trans b'.symm) e
    by_cases f : b.urgent = c.urgent
    · rw [if_neg fun g => e (g.trans f.symm)]
      exact h
    · rw [if_neg f, low] at k
      cases k

/-- In key order: no later entry's key comes before an earlier one's. -/
def InOrder (key : Nat → OrderKey) (xs : List Nat) : Prop := xs.Pairwise fun i j => (key j).before (key i) = false

theorem mem_insertByKey {key : Nat → OrderKey} {i j : Nat} {xs : List Nat} :
    j ∈ insertByKey key i xs ↔ j = i ∨ j ∈ xs := by
  induction xs with
  | nil => simp [insertByKey]
  | cons x rest ih =>
    unfold insertByKey
    split
    · exact List.mem_cons
    · rw [List.mem_cons, ih, List.mem_cons]
      tauto

theorem nodup_insertByKey {key : Nat → OrderKey} {i : Nat} {xs : List Nat} (h : xs.Nodup) (new : i ∉ xs) :
    (insertByKey key i xs).Nodup := by
  induction xs with
  | nil => exact List.nodup_singleton i
  | cons x rest ih =>
    unfold insertByKey
    rw [List.nodup_cons] at h
    split
    · exact List.nodup_cons.mpr ⟨new, List.nodup_cons.mpr h⟩
    · refine List.nodup_cons.mpr ⟨fun m => ?_, ih h.2 fun m => new (List.mem_cons_of_mem _ m)⟩
      rcases mem_insertByKey.mp m with e | m
      · exact new (by rw [← e]; exact List.mem_cons_self ..)
      · exact h.1 m

/-- An insertion by key keeps the order (R106). -/
theorem inOrder_insertByKey {key : Nat → OrderKey} {xs : List Nat} (h : InOrder key xs) (i : Nat) :
    InOrder key (insertByKey key i xs) := by
  induction xs with
  | nil => exact List.pairwise_singleton _ i
  | cons x rest ih =>
    unfold InOrder at *
    rw [List.pairwise_cons] at h
    unfold insertByKey
    split
    · next before =>
      refine List.pairwise_cons.mpr ⟨fun y m => ?_, List.pairwise_cons.mpr h⟩
      rcases List.mem_cons.mp m with e | m
      · rw [e]; exact OrderKey.before_asymm before
      · cases z : (key y).before (key i) with
        | false => rfl
        | true =>
          have := h.1 y m
          rw [OrderKey.before_trans z before] at this
          cases this
    · next after =>
      refine List.pairwise_cons.mpr ⟨fun y m => ?_, ih h.2⟩
      rcases mem_insertByKey.mp m with e | m
      · rw [e]; simpa using after
      · exact h.1 y m

/-! ## The lists with some WAITING records out of them -/

/-- The law of R106 with the WAITING records that `off` names in no list. -/
structure State.Listing (s : State) (off : Nat → Prop) : Prop where
  listed : ∀ (f : Fin 32) i, i ∈ s.store.lists.get f ↔
    ((s.msg i).state = .waiting ∧ ¬ off i) ∧ (s.sub (s.msg i).subscriber).billing.slot = f
  once : ∀ f : Fin 32, (s.store.lists.get f).Nodup
  order : ∀ f : Fin 32, InOrder (fun j => (s.msg j).key) (s.store.lists.get f)

theorem State.listLaw_iff {s : State} : s.ListLaw ↔ s.Listing fun _ => False := by
  constructor
  · exact fun h => ⟨fun f i => by rw [h.listed]; simp, h.once, h.order⟩
  · exact fun h => ⟨fun f i => by rw [h.listed]; simp, h.once, h.order⟩

/-- A step that leaves the lists and, of the records in them, the slots and the keys. -/
theorem State.Listing.congr {s t : State} {off out : Nat → Prop} (h : s.Listing off) (lists : t.store.lists = s.store.lists)
    (listed : ∀ i, ((t.msg i).state = .waiting ∧ ¬ out i) ↔ ((s.msg i).state = .waiting ∧ ¬ off i))
    (kept : ∀ i, (s.msg i).state = .waiting → ¬ off i →
      (t.sub (t.msg i).subscriber).billing.slot = (s.sub (s.msg i).subscriber).billing.slot ∧
        (t.msg i).key = (s.msg i).key) : t.Listing out where
  listed f i := by
    rw [lists, h.listed, listed]
    constructor
    · rintro ⟨a, e⟩; exact ⟨a, (kept i a.1 a.2).1.trans e⟩
    · rintro ⟨a, e⟩; exact ⟨a, (kept i a.1 a.2).1.symm.trans e⟩
  once f := by rw [lists]; exact h.once f
  order f := by
    rw [lists]
    refine List.Pairwise.imp_of_mem (fun {i j} a b r => ?_) (h.order f)
    have ka := (kept i ((h.listed f i).mp a).1.1 ((h.listed f i).mp a).1.2).2
    have kb := (kept j ((h.listed f j).mp b).1.1 ((h.listed f j).mp b).1.2).2
    simp only at r ⊢
    rw [ka, kb]
    exact r

/-- A frame list that was set reads as set, and every other one as it was. -/
theorem lists_set (v : Vector (List Nat) 32) (p q : Fin 32) (x : List Nat) :
    (v.set p.val x p.isLt).get q = if q = p then x else v.get q := by
  show (v.set p.val x p.isLt)[q.val] = if q = p then x else v[q.val]
  rw [Vector.getElem_set]
  by_cases h : q = p
  · rw [if_pos (by rw [h]), if_pos h]
  · rw [if_neg fun e => h (Fin.ext e.symm), if_neg h]

/-- A WAITING record that stands in no list enters the list of its subscriber's slot (R106). -/
theorem State.Listing.enlist {s : State} {off : Nat → Prop} (h : s.Listing off) {i : Nat}
    (waiting : (s.msg i).state = .waiting) (out : off i) : (s.enlist i).Listing fun j => off j ∧ j ≠ i := by
  have nowhere : ∀ f : Fin 32, i ∉ s.store.lists.get f := fun f m => ((h.listed f i).mp m).1.2 out
  have list : ∀ f : Fin 32, (s.enlist i).store.lists.get f =
      if f = (s.sub (s.msg i).subscriber).billing.slot then
        insertByKey (fun j => (s.msg j).key) i (s.store.lists.get (s.sub (s.msg i).subscriber).billing.slot)
      else s.store.lists.get f := fun f => lists_set _ _ f _
  refine ⟨fun f j => ?_, fun f => ?_, fun f => ?_⟩
  · show _ ↔ ((s.msg j).state = .waiting ∧ ¬ (off j ∧ j ≠ i)) ∧ (s.sub (s.msg j).subscriber).billing.slot = f
    rw [list]
    split
    · next e =>
      rw [mem_insertByKey, ← e, h.listed]
      constructor
      · rintro (rfl | ⟨⟨w, o⟩, k⟩)
        · exact ⟨⟨waiting, fun a => a.2 rfl⟩, e.symm⟩
        · exact ⟨⟨w, fun a => o a.1⟩, k⟩
      · rintro ⟨⟨w, o⟩, k⟩
        by_cases a : j = i
        · exact .inl a
        · exact .inr ⟨⟨w, fun b => o ⟨b, a⟩⟩, k⟩
    · next e =>
      rw [h.listed]
      constructor
      · rintro ⟨⟨w, o⟩, k⟩
        exact ⟨⟨w, fun a => o a.1⟩, k⟩
      · rintro ⟨⟨w, o⟩, k⟩
        have a : j ≠ i := fun a => e (by rw [← k, a])
        exact ⟨⟨w, fun b => o ⟨b, a⟩⟩, k⟩
  · rw [list]
    split
    · exact nodup_insertByKey (h.once _) (nowhere _)
    · exact h.once f
  · rw [list]
    show InOrder (fun j => (s.msg j).key) _
    split
    · exact inOrder_insertByKey (h.order _) i
    · exact h.order f

/-- A record leaves the list it stands in (R106). -/
theorem State.Listing.delist {s : State} {off : Nat → Prop} (h : s.Listing off) (i : Nat) :
    (s.delist i).Listing fun j => off j ∨ j = i := by
  have list : ∀ f : Fin 32, (s.delist i).store.lists.get f =
      if f = (s.sub (s.msg i).subscriber).billing.slot then
        (s.store.lists.get (s.sub (s.msg i).subscriber).billing.slot).filter fun j => decide (j ≠ i)
      else s.store.lists.get f := fun f => lists_set _ _ f _
  refine ⟨fun f j => ?_, fun f => ?_, fun f => ?_⟩
  · show _ ↔ ((s.msg j).state = .waiting ∧ ¬ (off j ∨ j = i)) ∧ (s.sub (s.msg j).subscriber).billing.slot = f
    rw [list]
    split
    · next e =>
      rw [List.mem_filter, ← e, h.listed, decide_eq_true_eq]
      tauto
    · next e =>
      rw [h.listed]
      constructor
      · rintro ⟨⟨w, o⟩, k⟩
        refine ⟨⟨w, fun a => ?_⟩, k⟩
        rcases a with a | a
        · exact o a
        · exact e (by rw [← k, a])
      · rintro ⟨⟨w, o⟩, k⟩
        exact ⟨⟨w, fun a => o (.inl a)⟩, k⟩
  · rw [list]
    split
    · exact (h.once _).filter _
    · exact h.once f
  · rw [list]
    show InOrder (fun j => (s.msg j).key) _
    split
    · exact List.Pairwise.filter _ (h.order _)
    · exact h.order f

/-- A record in no list, before and after, is replaced. -/
theorem State.Listing.setMsg {s : State} {off out : Nat → Prop} (h : s.Listing off) (c : s.Canon) {i : Nat}
    {r : MessageRecord} (was : (s.msg i).state = .waiting → off i) (is : r.state = .waiting → out i)
    (others : ∀ j, j ≠ i → (out j ↔ off j)) : (s.setMsg i r).Listing out := by
  have msg := fun j => State.msg_setMsg c.records i j r
  refine h.congr rfl (fun j => ?_) fun j w o => ?_
  · rw [msg]
    by_cases e : j = i
    · rw [if_pos e, e]
      exact ⟨fun a => absurd (is a.1) a.2, fun a => absurd (was a.1) a.2⟩
    · rw [if_neg e, others j e]
  · have e : j ≠ i := fun e => o (by rw [e] at w ⊢; exact was w)
    rw [msg, if_neg e]
    exact ⟨rfl, rfl⟩

/-! ## Both laws, through the requests -/

/-- The laws of the message store, over tables in canonical form. -/
structure State.Stocked (s : State) : Prop where
  canon : s.Canon
  store : s.StoreLaw
  lists : s.ListLaw

/-- A step that leaves the store, and of the subscribers their store groups, slots and vacancy. -/
theorem State.Stocked.congr {s t : State} (h : s.Stocked) (c : t.Canon) (store : t.store = s.store)
    (subs : ∀ n, (t.sub n).store = (s.sub n).store ∧ (t.sub n).billing.slot = (s.sub n).billing.slot ∧
      ((t.sub n).billing.state = .vacant → (s.sub n).billing.state = .vacant)) : t.Stocked where
  canon := c
  store := h.store.same (by rw [store]) (fun n => (subs n).1) (fun n v => .inl ((subs n).2.2 v)) (by rw [store])
    (by rw [store])
  lists := by
    have msg : ∀ i, t.msg i = s.msg i := fun i => by unfold State.msg; rw [store]
    refine State.listLaw_iff.mpr ((State.listLaw_iff.mp h.lists).congr (by rw [store]) (fun i => by rw [msg]) fun i _ _ => ?_)
    rw [msg]
    exact ⟨(subs _).2.1, rfl⟩

/-- A step that leaves the store and the subscribers. -/
theorem State.Stocked.of_eq {s t : State} (h : s.Stocked) (store : t.store = s.store)
    (account : t.account.subscribers = s.account.subscribers) : t.Stocked :=
  h.congr ⟨by rw [account]; exact h.canon.subscribers, by rw [store]; exact h.canon.records⟩ store fun n => by
    have : t.sub n = s.sub n := by unfold State.sub; rw [account]
    rw [this]
    exact ⟨rfl, rfl, id⟩

/-- A billing group replaced, its slot and its vacancy kept. -/
theorem State.Stocked.setBilling {s : State} (h : s.Stocked) (n : Nat) {b : Billing} (slot : b.slot = (s.sub n).billing.slot)
    (state : b.state = .vacant → (s.sub n).billing.state = .vacant) : (s.setBilling n b).Stocked := by
  refine h.congr (h.canon.setSub n _) rfl fun m => ?_
  have := State.sub_setSub h.canon.subscribers n m { s.sub n with billing := b }
  rw [show (s.setBilling n b).sub m = _ from this]
  split
  · next e => rw [e]; exact ⟨rfl, slot, state⟩
  · exact ⟨rfl, rfl, id⟩

/-- A reach group replaced. -/
theorem State.Stocked.setReach {s : State} (h : s.Stocked) (n : Nat) (r : Reach) : (s.setReach n r).Stocked := by
  refine h.congr (h.canon.setSub n _) rfl fun m => ?_
  have := State.sub_setSub h.canon.subscribers n m { s.sub n with reach := r }
  rw [show (s.setReach n r).sub m = _ from this]
  split
  · next e => rw [e]; exact ⟨rfl, rfl, id⟩
  · exact ⟨rfl, rfl, id⟩

/-- What a request keeps of the record it replaces. -/
structure MessageRecord.Same (old r : MessageRecord) : Prop where
  subscriber : r.subscriber = old.subscriber
  tag : r.tag = old.tag
  key : r.key = old.key

theorem MessageRecord.flying_eq_false {r : MessageRecord} {n : Nat}
    (h : ¬ (r.state = .placed ∨ r.state = .onAir ∨ r.state = .awaitingAck)) : r.flying n = false := by
  unfold MessageRecord.flying
  exact decide_eq_false fun a => h a.2

/-- A record in no list replaced by one in no list: a mark set, or HELD or AWAITING ACK entered. -/
theorem State.Stocked.setMsg {s : State} (h : s.Stocked) {i : Nat} {r : MessageRecord} (same : (s.msg i).Same r)
    (was : (s.msg i).state ≠ .free) (idle : (s.msg i).state ≠ .waiting) (is : r.state ≠ .free) (out : r.state ≠ .waiting)
    (flight : r.flying r.subscriber = true → (s.msg i).flying r.subscriber = true)
    (stopped : i ∈ s.store.airStop → r.state = .placed ∧ (r.ackedPending = true ∨ r.cancelPending = true)) :
    (s.setMsg i r).Stocked where
  canon := h.canon.setMsg i r
  store := h.store.keep h.canon rfl (fun _ => rfl) rfl was is same.subscriber same.tag flight rfl stopped
  lists := State.listLaw_iff.mpr
    ((State.listLaw_iff.mp h.lists).setMsg h.canon (fun a => absurd a idle) (fun a => absurd a out) fun _ _ => Iff.rfl)

/-- An occupied record that is not WAITING becomes WAITING and enters its list (R102, R103). -/
theorem State.Stocked.makeWaiting {s : State} (h : s.Stocked) {i : Nat} {r : MessageRecord} (same : (s.msg i).Same r)
    (was : (s.msg i).state ≠ .free) (idle : (s.msg i).state ≠ .waiting) (free : i ∉ s.store.airStop) :
    (s.makeWaiting i r).Stocked := by
  let q : MessageRecord := { r with state := .waiting, deadline := none, cancelPending := false, ackedPending := false }
  have c := h.canon.setMsg i q
  have store : (s.setMsg i q).StoreLaw := h.store.keep h.canon rfl (fun _ => rfl) rfl was nofun same.subscriber same.tag
    (fun a => by
      have none : q.flying q.subscriber = false := MessageRecord.flying_eq_false (by rintro (a | a | a) <;> cases a)
      rw [none] at a
      cases a) rfl fun a => absurd a free
  have here : ((s.setMsg i q).msg i).state = .waiting := by rw [State.msg_setMsg h.canon.records, if_pos rfl]
  have lists := ((State.listLaw_iff.mp h.lists).setMsg (r := q) (out := fun j => j = i) h.canon (fun a => absurd a idle)
    (fun _ => rfl) fun j e => by simp [e]).enlist here rfl
  refine ⟨⟨c.subscribers, c.records⟩, store.same rfl (fun _ => rfl) (fun _ v => .inl v) rfl rfl, State.listLaw_iff.mpr ?_⟩
  refine State.Listing.congr lists rfl (fun j => ?_) fun _ _ _ => ⟨rfl, rfl⟩
  exact and_congr_right fun _ => not_congr ⟨fun a => a.elim, fun a => a.2 a.1⟩

/-- A record that is not WAITING becomes HELD (R102, R103). -/
theorem State.Stocked.makeHeld {s : State} (h : s.Stocked) {i : Nat} {r : MessageRecord} (same : (s.msg i).Same r)
    (was : (s.msg i).state ≠ .free) (idle : (s.msg i).state ≠ .waiting) (free : i ∉ s.store.airStop) :
    (s.makeHeld i r).Stocked :=
  State.Stocked.setMsg h (r := { r with state := .held, deadline := none, cancelPending := false, ackedPending := false })
    ⟨same.subscriber, same.tag, same.key⟩ was idle nofun nofun
    (fun a => by
      rw [MessageRecord.flying_eq_false (by rintro (a | a | a) <;> cases a)] at a
      cases a) fun a => absurd a free

/-- A record in flight becomes AWAITING ACK (R102). -/
theorem State.Stocked.makeAwaiting {s : State} (h : s.Stocked) {i d : Nat} {r : MessageRecord} (same : (s.msg i).Same r)
    (was : (s.msg i).state = .onAir) : (s.makeAwaiting i r d).Stocked := by
  have free : i ∉ s.store.airStop := fun m => by
    have := (h.store.stopped i m).1
    rw [was] at this
    cases this
  have t := State.Stocked.setMsg h (i := i)
    (r := { r with state := .awaitingAck, deadline := some d, cancelPending := false, ackedPending := false })
    ⟨same.subscriber, same.tag, same.key⟩ (by rw [was]; nofun) (by rw [was]; nofun) nofun nofun
    (fun _ => by
      unfold MessageRecord.flying
      exact decide_eq_true ⟨same.subscriber.symm, .inr (.inl was)⟩) fun a => absurd a free
  exact t.of_eq rfl rfl

/-- A WAITING record leaves its list and becomes HELD (R103). -/
theorem State.Stocked.hold {s : State} (h : s.Stocked) {i : Nat} (was : (s.msg i).state = .waiting) :
    ((s.delist i).makeHeld i (s.msg i)).Stocked := by
  let q : MessageRecord :=
    { s.msg i with state := .held, deadline := none, cancelPending := false, ackedPending := false }
  have free : i ∉ s.store.airStop := fun m => by
    have := (h.store.stopped i m).1
    rw [was] at this
    cases this
  have c : (s.delist i).Canon := ⟨h.canon.subscribers, h.canon.records⟩
  refine ⟨State.Canon.setMsg c i q, ?_, State.listLaw_iff.mpr ?_⟩
  · exact h.store.keep (t := (s.delist i).setMsg i q) h.canon rfl (fun _ => rfl) rfl (by rw [was]; nofun) nofun rfl rfl
      (fun a => by
        have none : q.flying q.subscriber = false := MessageRecord.flying_eq_false (by rintro (a | a | a) <;> cases a)
        rw [none] at a
        cases a) rfl fun a => absurd a free
  · refine ((State.listLaw_iff.mp h.lists).delist i).setMsg c (fun _ => .inr rfl) nofun fun j e => ?_
    simp [e]

/-- The placement of a WAITING record (R102, R123). -/
theorem State.Stocked.place {s : State} (h : s.Stocked) {serial i : Nat} {tag : Option (Fin 8)} (targets : ZoneSet)
    (was : (s.msg i).state = .waiting) (few : s.inFlight (s.msg i).subscriber < Config.flightLimit)
    (given : tag = (s.msg i).tag ∨ ((s.msg i).tag = none ∧
      ∃ k, tag = some k ∧ lowestTag (s.sub (s.msg i).subscriber).store.tags = some k)) :
    (s.place serial i tag targets).Stocked := by
  let r : MessageRecord :=
    { s.msg i with state := .placed, tag := tag, placedSerial := some serial, placedZones := targets }
  have c : (s.delist i).Canon := ⟨h.canon.subscribers, h.canon.records⟩
  have cu := State.Canon.setMsg c i r
  have b := fun m => State.billing_setStoreGroup cu (s.msg i).subscriber m
    { (s.sub (s.msg i).subscriber).store with
      tags := (s.sub (s.msg i).subscriber).store.tags ||| tag.elim 0 tagBit }
  refine ⟨⟨(cu.setSub (s.msg i).subscriber _).subscribers, cu.records⟩, h.store.place h.canon targets was few given,
    State.listLaw_iff.mpr ?_⟩
  have l := ((State.listLaw_iff.mp h.lists).delist i).setMsg (r := r) (out := fun _ => False) c (fun _ => .inr rfl) nofun ?_
  · refine State.Listing.congr l rfl (fun _ => Iff.rfl) fun j _ _ => ⟨?_, rfl⟩
    exact congrArg Billing.slot (b _)
  · intro j e
    simp [e]

/-- A close's step on an occupied record, with the records held for an air-stop close that then stay (R107, R109). -/
theorem State.Stocked.freeRecord {s : State} (h : s.Stocked) {i : Nat} (occ : (s.msg i).state ≠ .free) {held : List Nat}
    (rising : held.Pairwise (· < ·)) (stay : ∀ j, j ∈ held → j ∈ s.store.airStop ∧ j ≠ i) {t : State}
    (store : t.store = { (s.freeRecord i).store with airStop := held })
    (account : t.account = (s.freeRecord i).account) : t.Stocked := by
  obtain ⟨records, accounts, -, -⟩ := s.leaveCollections_store i
  let r : MessageRecord := { s.msg i with state := .free, deadline := none, cancelPending := false, ackedPending := false }
  have c : (s.leaveCollections i).Canon :=
    ⟨by rw [accounts]; exact h.canon.subscribers, by rw [records]; exact h.canon.records⟩
  have cu := State.Canon.setMsg c i r
  -- the lists: the record leaves the one it stands in, and is replaced
  have left : (s.leaveCollections i).Listing fun j => (s.msg i).state = .waiting ∧ j = i := by
    unfold State.leaveCollections
    split
    · next w =>
      exact State.Listing.congr ((State.listLaw_iff.mp h.lists).delist i) rfl
        (fun j => and_congr_right fun _ => not_congr (by simp [w])) fun _ _ _ => ⟨rfl, rfl⟩
    · next w =>
      exact State.Listing.congr (State.listLaw_iff.mp h.lists) rfl
        (fun j => and_congr_right fun _ => not_congr (by simp [w])) fun _ _ _ => ⟨rfl, rfl⟩
    · next w _ =>
      exact State.Listing.congr (State.listLaw_iff.mp h.lists) rfl
        (fun j => and_congr_right fun _ => not_congr ⟨fun a => w a.1, fun a => a.elim⟩) fun _ _ _ => ⟨rfl, rfl⟩
  have msg : ∀ j, (s.leaveCollections i).msg j = s.msg j := fun j => by unfold State.msg; rw [records]
  have l := left.setMsg (r := r) (out := fun _ => False) c (fun a => ⟨by rw [msg] at a; exact a, rfl⟩) nofun fun j e => by
    simp [e]
  let n := (s.msg i).subscriber
  let u : State := (s.leaveCollections i).setMsg i r
  have canon : t.Canon := by
    refine ⟨?_, ?_⟩
    · rw [account]
      exact (State.Canon.setSub cu n _).subscribers
    · rw [store]
      exact cu.records
  refine ⟨canon, h.store.freeRecord h.canon occ rising stay store account, State.listLaw_iff.mpr ?_⟩
  let tags : TagSet := match (s.msg i).tag with
    | some k => (u.sub n).store.tags &&& ~~~ tagBit k
    | none => (u.sub n).store.tags
  have same : ∀ m, t.sub m = (u.setStoreGroup n ⟨(u.sub n).store.openCount - 1, tags⟩).sub m := fun m => by
    unfold State.sub
    rw [account]
    rfl
  have msgs : ∀ j, t.msg j = u.msg j := fun j => by
    unfold State.msg
    rw [store]
    rfl
  refine State.Listing.congr l (by rw [store]; rfl) (fun j => by rw [msgs]) fun j _ _ => ?_
  rw [msgs]
  refine ⟨?_, rfl⟩
  rw [same, State.billing_setStoreGroup cu]

/-- A record freed that is not held for an air-stop close. -/
theorem State.Stocked.freed {s : State} (h : s.Stocked) {i : Nat} (occ : (s.msg i).state ≠ .free)
    (free : i ∉ s.store.airStop) : (s.freeRecord i).Stocked := by
  obtain ⟨-, -, -, airStop⟩ := s.leaveCollections_store i
  refine h.freeRecord occ h.store.rising (fun j m => ⟨m, fun e => free (e ▸ m)⟩) ?_ rfl
  have e : (s.freeRecord i).store.airStop = (s.leaveCollections i).store.airStop := rfl
  rw [← airStop, ← e]

/-! ## Steps of the account unit (R48 to R57) -/

/-- A step that leaves the store, and each subscriber's store group, slot and state. -/
structure State.Quiet (s t : State) : Prop where
  store : t.store = s.store
  canon : s.Canon → t.Canon
  subs : s.Canon → ∀ n, (t.sub n).store = (s.sub n).store ∧ (t.sub n).billing.slot = (s.sub n).billing.slot ∧
    (t.sub n).billing.state = (s.sub n).billing.state

theorem State.Quiet.trans {s t u : State} (h : s.Quiet t) (k : t.Quiet u) : s.Quiet u where
  store := k.store.trans h.store
  canon c := k.canon (h.canon c)
  subs c n :=
    let a := h.subs c n
    let b := k.subs (h.canon c) n
    ⟨b.1.trans a.1, b.2.1.trans a.2.1, b.2.2.trans a.2.2⟩

theorem State.Quiet.of_eq {s t : State} (store : t.store = s.store)
    (account : t.account.subscribers = s.account.subscribers) : s.Quiet t where
  store := store
  canon c := ⟨by rw [account]; exact c.subscribers, by rw [store]; exact c.records⟩
  subs _ n := by
    have : t.sub n = s.sub n := by unfold State.sub; rw [account]
    rw [this]
    exact ⟨rfl, rfl, rfl⟩

theorem State.Stocked.quiet {s t : State} (h : s.Stocked) (q : s.Quiet t) : t.Stocked :=
  h.congr (q.canon h.canon) q.store fun n =>
    let a := q.subs h.canon n
    ⟨a.1, a.2.1, fun v => a.2.2.symm.trans v⟩

theorem State.hand_quiet (s : State) (p : Producer) (r : Record) : s.Quiet (s.hand p r) := .of_eq rfl rfl

theorem State.setBilling_quiet {s : State} (n : Nat) {b : Billing} (slot : b.slot = (s.sub n).billing.slot)
    (state : b.state = (s.sub n).billing.state) : s.Quiet (s.setBilling n b) where
  store := rfl
  canon c := c.setSub n _
  subs c m := by
    have := State.sub_setSub c.subscribers n m { s.sub n with billing := b }
    rw [show (s.setBilling n b).sub m = _ from this]
    split
    · next e => rw [e]; exact ⟨rfl, slot, state⟩
    · exact ⟨rfl, rfl, rfl⟩

theorem State.judgeLow_quiet (s : State) (p : Producer) (n : Nat) (e : BalanceEvent) : s.Quiet (s.judgeLow p n e) := by
  have t := s.setBilling_quiet n (b := { (s.sub n).billing with
    lowBalance := lowBalanceAfter (s.planOf n) (s.sub n).billing.lowBalance (s.sub n).billing.balance }) rfl rfl
  unfold State.judgeLow
  simp only
  split
  · exact t
  · exact t.trans (State.hand_quiet _ _ _)

theorem State.refund_quiet (s : State) (p : Producer) (i : Nat) (r : MessageRecord) (o : CloseOutcome) :
    s.Quiet (s.refund p i r o) := by
  refine State.Quiet.trans ?_ (State.judgeLow_quiet _ _ _ _)
  refine State.Quiet.trans ?_ (State.hand_quiet _ _ _)
  exact s.setBilling_quiet _ rfl rfl

theorem State.roll_quiet (s : State) (p : Producer) (n : Nat) (source : SummarySource) : s.Quiet (s.roll p n source) :=
  (s.hand_quiet _ _).trans (State.setBilling_quiet (s := s.hand p _) n rfl rfl)

theorem State.rollIfStale_quiet (s : State) (n : Nat) : s.Quiet (s.rollIfStale n) := by
  unfold State.rollIfStale
  split
  · exact s.roll_quiet _ n _
  · exact .of_eq rfl rfl

theorem State.applyCredit_quiet (s : State) (n : Nat) (a : Int) : s.Quiet (s.applyCredit n a) := by
  refine State.Quiet.trans ?_ (State.judgeLow_quiet _ _ _ _)
  refine State.Quiet.trans ?_ (State.hand_quiet _ _ _)
  exact s.setBilling_quiet _ rfl rfl

theorem State.applyCharge_quiet (s : State) (n : Nat) (r : Rating) : s.Quiet (s.applyCharge n r) :=
  s.setBilling_quiet n rfl rfl

theorem State.walkVisit_quiet (s : State) : s.Quiet s.walkVisit := by
  unfold State.walkVisit
  simp only
  split
  · exact (s.roll_quiet .rollWalk s.account.walk.next .walk).trans (.of_eq rfl rfl)
  · exact .of_eq rfl rfl

theorem State.close_quiet (s : State) (p : Producer) (i : Nat) (o : CloseOutcome) : (s.freeRecord i).Quiet (s.close p i o) := by
  unfold State.close
  simp only
  split
  · exact (State.hand_quiet _ _ _).trans (State.refund_quiet _ _ _ _ _)
  · exact State.hand_quiet _ _ _

/-- A close of an occupied record, with the records held for an air-stop close that then stay (R107, R109). -/
theorem State.Stocked.closeHolding {s : State} (h : s.Stocked) (p : Producer) {i : Nat} (o : CloseOutcome)
    (occ : (s.msg i).state ≠ .free) {held : List Nat} (rising : held.Pairwise (· < ·))
    (stay : ∀ j, j ∈ held → j ∈ s.store.airStop ∧ j ≠ i) {t : State}
    (store : t.store = { (s.close p i o).store with airStop := held }) (account : t.account = (s.close p i o).account) :
    t.Stocked := by
  let f : State := { s.freeRecord i with store.airStop := held }
  have hf : f.Stocked := h.freeRecord occ rising stay rfl rfl
  have q := s.close_quiet p i o
  have cf : (s.freeRecord i).Canon := ⟨hf.canon.subscribers, hf.canon.records⟩
  have ct := q.canon cf
  refine hf.congr ⟨by rw [account]; exact ct.subscribers, by rw [store]; exact ct.records⟩ ?_ fun n => ?_
  · rw [store, q.store]
  · have e : t.sub n = (s.close p i o).sub n := by unfold State.sub; rw [account]
    have a := q.subs cf n
    rw [e]
    exact ⟨a.1, a.2.1, fun v => a.2.2.symm.trans v⟩

/-- A close of an occupied record that is not held for an air-stop close. -/
theorem State.Stocked.close {s : State} (h : s.Stocked) (p : Producer) {i : Nat} (o : CloseOutcome)
    (occ : (s.msg i).state ≠ .free) (free : i ∉ s.store.airStop) : (s.close p i o).Stocked :=
  (h.freed occ free).quiet (s.close_quiet p i o)

/-- A record that is not PLACED is not held for an air-stop close. -/
theorem State.Stocked.notStopped {s : State} (h : s.Stocked) {i : Nat} (ne : (s.msg i).state ≠ .placed) :
    i ∉ s.store.airStop := fun m => ne (h.store.stopped i m).1

/-- A commit (R89). -/
theorem State.Stocked.commit {s : State} (h : s.Stocked) (d : Draft) (charge : Nat) (refundable : Bool)
    (some : s.store.freeCount ≠ 0) (few : (s.sub d.subscriber).store.openCount < Config.openLimit)
    (known : (s.sub d.subscriber).billing.state ≠ .vacant) : (s.commit d charge refundable).Stocked := by
  obtain ⟨free, -⟩ := h.store.commitIndex h.canon some
  let i := s.commitIndex
  let r := s.admitted (s.msg i) d charge refundable
  let g : StoreGroup := { (s.sub d.subscriber).store with openCount := (s.sub d.subscriber).store.openCount + 1 }
  let u : State := State.notice
    { s.setStoreGroup d.subscriber g with store.sequence := s.store.sequence + 1, store.freeCount := s.store.freeCount - 1 }
      .freeRecords
  have cu : u.Canon := ⟨(h.canon.setSub d.subscriber _).subscribers, h.canon.records⟩
  have lu : u.Listing fun _ => False := by
    refine State.Listing.congr (State.listLaw_iff.mp h.lists) rfl (fun _ => Iff.rfl) fun j _ _ => ⟨?_, rfl⟩
    exact congrArg Billing.slot (State.billing_setStoreGroup h.canon d.subscriber _ g)
  have store := h.store.commit h.canon d charge refundable some few known
  have idle : (u.msg i).state = .waiting → False := fun a => by
    have : (s.msg i).state = .waiting := a
    rw [show (s.msg i).state = .free from free] at this
    cases this
  have both : s.commit d charge refundable =
      if (u.sub d.subscriber).reach.unreachable then u.makeHeld i r else u.makeWaiting i r := rfl
  have lists : (s.commit d charge refundable).Listing (fun _ => False) ∧ (s.commit d charge refundable).Canon := by
    rw [both]
    split
    · exact ⟨lu.setMsg cu idle nofun fun _ _ => Iff.rfl, State.Canon.setMsg cu i _⟩
    · let q : MessageRecord := { r with state := .waiting, deadline := none, cancelPending := false, ackedPending := false }
      have here : ((u.setMsg i q).msg i).state = .waiting := by rw [State.msg_setMsg cu.records, if_pos rfl]
      have l := (lu.setMsg (r := q) (out := fun j => j = i) cu idle (fun _ => rfl) fun j e => by simp [e]).enlist here rfl
      refine ⟨State.Listing.congr l rfl (fun j => ?_) fun _ _ _ => ⟨rfl, rfl⟩, (State.Canon.setMsg cu i q).subscribers,
        (State.Canon.setMsg cu i q).records⟩
      exact and_congr_right fun _ => not_congr ⟨fun a => a.elim, fun a => a.2 a.1⟩
  exact ⟨lists.2, store, State.listLaw_iff.mpr lists.1⟩

/-- The airing request (R102). -/
theorem State.Stocked.airing {s : State} (h : s.Stocked) (serial : Nat) : (s.airing serial).Stocked := by
  have msg : ∀ i, (s.airing serial).msg i =
      if (s.msg i).state = .placed ∧ (s.msg i).placedSerial = some serial ∧ i ∉ s.store.airStop then
        { s.msg i with state := .onAir }
      else s.msg i := fun i =>
    Table.get_mapValues (f := fun i (r : MessageRecord) =>
      if r.state = .placed ∧ r.placedSerial = some serial ∧ i ∉ s.store.airStop then { r with state := .onAir } else r)
      (fun k => if_neg fun a => by cases a.1) h.canon.records i
  refine ⟨⟨h.canon.subscribers, Table.wf_mapValues _ h.canon.records⟩, h.store.airing h.canon serial, State.listLaw_iff.mpr ?_⟩
  refine (State.listLaw_iff.mp h.lists).congr rfl (fun i => ?_) fun i w _ => ?_
  · rw [msg]
    split
    · next a => rw [a.1]; simp
    · exact Iff.rfl
  · rw [msg, if_neg fun a => by rw [a.1] at w; cases w]
    exact ⟨rfl, rfl⟩

/-- A fold over the indexes of records each of which is replaced, the others being left (R103). -/
theorem State.Stocked.foldl {f : State → Nat → State} {p : MessageRecord → Prop} {is : List Nat} (once : is.Nodup)
    {s : State} (h : s.Stocked) (all : ∀ i, i ∈ is → p (s.msg i))
    (step : ∀ t : State, t.Stocked → ∀ i, p (t.msg i) → (f t i).Stocked)
    (others : ∀ t : State, t.Stocked → ∀ i, p (t.msg i) → ∀ j, j ≠ i → (f t i).msg j = t.msg j) :
    (is.foldl f s).Stocked := by
  induction is generalizing s with
  | nil => exact h
  | cons i rest ih =>
    rw [List.nodup_cons] at once
    have here := all i (List.mem_cons_self ..)
    refine ih once.2 (step s h i here) fun j m => ?_
    rw [others s h i here j fun e => once.1 (by rw [← e]; exact m)]
    exact all j (List.mem_cons_of_mem _ m)

/-- The indexes the store lists for a condition come once each. -/
theorem State.nodup_msgsWhere {s : State} (c : s.Canon) (p : MessageRecord → Bool) : (s.msgsWhere p).Nodup := by
  have rising : ∀ (t : Table MessageRecord) low, Table.wfFrom MessageRecord.powerOn low t = true →
      (t.map (·.1)).Pairwise (· < ·) ∧ ∀ k, k ∈ t.map (·.1) → low ≤ k := by
    intro t
    induction t with
    | nil => intro low _; exact ⟨List.Pairwise.nil, fun k m => by cases m⟩
    | cons e rest ih =>
      intro low w
      simp only [Table.wfFrom, Bool.and_eq_true, decide_eq_true_eq] at w
      obtain ⟨a, b⟩ := ih _ w.2
      refine ⟨List.pairwise_cons.mpr ⟨fun k m => b k m, a⟩, fun k m => ?_⟩
      rcases List.mem_cons.mp m with q | m
      · rw [q]; exact w.1.1
      · have := b k m; have := w.1.1; omega
  unfold State.msgsWhere Table.keysWhere
  exact ((rising _ 0 c.records).1.imp fun lt => Nat.ne_of_lt lt).sublist (List.filter_sublist.map _)

/-- The hold request (R103). -/
theorem State.Stocked.holdAll {s : State} (h : s.Stocked) (n : Nat) : (s.holdAll n).1.Stocked := by
  refine State.Stocked.foldl (p := fun r => r.state = .waiting) (State.nodup_msgsWhere h.canon _) h (fun i m => ?_)
    (fun t ht i w => ht.hold w) fun t ht i _ j ne => ?_
  · rw [State.mem_msgsWhere h.canon (by unfold MessageRecord.powerOn; simp)] at m
    exact (of_decide_eq_true m).2
  · exact (State.msg_setMsg (s := t.delist i) ht.canon.records i j _).trans (if_neg ne)

/-- The release of a subscriber (R165). -/
theorem State.Stocked.releaseAll {s : State} (h : s.Stocked) (n : Nat) : (s.releaseAll n).1.Stocked := by
  have ht := h.setReach n { (s.sub n).reach with unreachable := false, missCount := 0 }
  refine State.Stocked.foldl (p := fun r => r.state = .held) (State.nodup_msgsWhere h.canon _) ht (fun i m => ?_)
    (fun t ht i w => ht.makeWaiting ⟨rfl, rfl, rfl⟩ (by rw [w]; nofun) (by rw [w]; nofun) (ht.notStopped (by rw [w]; nofun)))
    fun t ht i _ j ne => ?_
  · rw [State.mem_msgsWhere h.canon (by unfold MessageRecord.powerOn; simp)] at m
    exact (of_decide_eq_true m).2
  · exact (State.msg_setMsg ht.canon.records i j _).trans (if_neg ne)

/-! ## Air stop and slot moves (R27, R102, R109) -/

theorem mem_insertRising {i j : Nat} {xs : List Nat} : j ∈ insertRising i xs ↔ j = i ∨ j ∈ xs := by
  induction xs with
  | nil => simp [insertRising]
  | cons x rest ih =>
    unfold insertRising
    split
    · exact List.mem_cons
    · split
      · next e => rw [e, List.mem_cons]; tauto
      · rw [List.mem_cons, ih, List.mem_cons]; tauto

theorem rising_insertRising {xs : List Nat} (h : xs.Pairwise (· < ·)) (i : Nat) : (insertRising i xs).Pairwise (· < ·) := by
  induction xs with
  | nil => exact List.pairwise_singleton _ i
  | cons x rest ih =>
    have h' := List.pairwise_cons.mp h
    unfold insertRising
    split
    · next lt =>
      refine List.pairwise_cons.mpr ⟨fun y m => ?_, h⟩
      rcases List.mem_cons.mp m with e | m
      · rw [e]; exact lt
      · exact Nat.lt_trans lt (h'.1 y m)
    · split
      · exact h
      · next a b =>
        refine List.pairwise_cons.mpr ⟨fun y m => ?_, ih h'.2⟩
        rcases mem_insertRising.mp m with e | m
        · omega
        · exact h'.1 y m

/-- One record of the return request (R102, R109). -/
theorem State.Stocked.returnOne {s : State} (h : s.Stocked) {i : Nat} (was : (s.msg i).state = .placed) :
    (s.returnOne i).Stocked := by
  unfold State.returnOne
  simp only
  split
  · next marked =>
    refine ⟨⟨h.canon.subscribers, h.canon.records⟩, ?_, ⟨h.lists.listed, h.lists.once, h.lists.order⟩⟩
    have l := h.store
    refine ⟨l.range, l.open_, l.limit, l.vacant, l.tags, l.distinct, l.flight, l.free, rising_insertRising l.rising i, ?_⟩
    intro j m
    rcases mem_insertRising.mp m with e | m
    · rw [e]; exact ⟨was, marked⟩
    · exact l.stopped j m
  · next plain =>
    have free : i ∉ s.store.airStop := fun m => plain (h.store.stopped i m).2
    split
    · exact h.makeHeld ⟨rfl, rfl, rfl⟩ (by rw [was]; nofun) (by rw [was]; nofun) free
    · exact h.makeWaiting ⟨rfl, rfl, rfl⟩ (by rw [was]; nofun) (by rw [was]; nofun) free

/-- The return request (R102): each PLACED record of the two serials is held for an air-stop close, or becomes WAITING or
HELD. -/
theorem State.Stocked.returnPlaced {s : State} (h : s.Stocked) (m : Nat) : (s.returnPlaced m).Stocked := by
  refine State.Stocked.foldl (p := fun r => r.state = .placed) (State.nodup_msgsWhere h.canon _) h (fun i j => ?_)
    (fun t ht i w => ht.returnOne w) fun t ht i w j ne => ?_
  · rw [State.mem_msgsWhere h.canon (by unfold MessageRecord.powerOn; simp)] at j
    exact (of_decide_eq_true j).1
  · unfold State.returnOne
    simp only
    split
    · rfl
    · split
      · exact (State.msg_setMsg ht.canon.records i j _).trans (if_neg ne)
      · exact (State.msg_setMsg ht.canon.records i j _).trans (if_neg ne)

/-- Records taken out of their lists, one after the other. -/
theorem State.Listing.delistAll {is : List Nat} {s : State} {off : Nat → Prop} (h : s.Listing off) :
    (is.foldl State.delist s).Listing fun j => off j ∨ j ∈ is := by
  induction is generalizing s off with
  | nil => exact State.Listing.congr h rfl (fun _ => by simp) fun _ _ _ => ⟨rfl, rfl⟩
  | cons i rest ih =>
    refine State.Listing.congr (ih (h.delist i)) rfl (fun j => and_congr_right fun _ => not_congr ?_) fun _ _ _ => ⟨rfl, rfl⟩
    rw [List.mem_cons, or_assoc]

/-- WAITING records that stand in no list entered in their lists, one after the other. -/
theorem State.Listing.enlistAll {is : List Nat} (once : is.Nodup) {s : State} {off : Nat → Prop} (h : s.Listing off)
    (all : ∀ i, i ∈ is → (s.msg i).state = .waiting ∧ off i) :
    (is.foldl State.enlist s).Listing fun j => off j ∧ j ∉ is := by
  induction is generalizing s off with
  | nil => exact State.Listing.congr h rfl (fun _ => by simp) fun _ _ _ => ⟨rfl, rfl⟩
  | cons i rest ih =>
    rw [List.nodup_cons] at once
    have here := all i (List.mem_cons_self ..)
    refine State.Listing.congr (ih once.2 (h.enlist here.1 here.2) fun j m => ?_) rfl
      (fun j => and_congr_right fun _ => not_congr ?_) fun _ _ _ => ⟨rfl, rfl⟩
    · have a := all j (List.mem_cons_of_mem _ m)
      exact ⟨a.1, a.2, fun e => once.1 (by rw [← e]; exact m)⟩
    · rw [List.mem_cons, not_or, and_assoc]

/-- The lists alone change at a fold of removals or insertions. -/
theorem State.foldl_lists {f : State → Nat → State} (only : ∀ t i, (f t i) = { t with store.lists := (f t i).store.lists })
    (is : List Nat) (s : State) : ∃ lists, is.foldl f s = { s with store.lists := lists } := by
  induction is generalizing s with
  | nil => exact ⟨_, rfl⟩
  | cons i rest ih =>
    obtain ⟨l, e⟩ := ih (f s i)
    refine ⟨l, ?_⟩
    rw [List.foldl_cons, e, only s i]

/-- A slot move (R27): the subscriber's WAITING records leave the one list and enter the other with the new slot. -/
theorem State.Stocked.moveSlot {s : State} (h : s.Stocked) (n : Nat) (slot : Fin 32) : (s.moveSlot n slot).Stocked := by
  unfold State.moveSlot
  simp only
  generalize ei : (s.msgsWhere fun r => decide (r.subscriber = n ∧ r.state = .waiting)) = is
  have mem : ∀ i, i ∈ is ↔ (s.msg i).subscriber = n ∧ (s.msg i).state = .waiting := fun i => by
    rw [← ei, State.mem_msgsWhere h.canon (by unfold MessageRecord.powerOn; simp), decide_eq_true_eq]
  have once : is.Nodup := ei ▸ State.nodup_msgsWhere h.canon _
  obtain ⟨l1, e1⟩ := State.foldl_lists (f := State.delist) (fun _ _ => rfl) is s
  have out := (State.listLaw_iff.mp h.lists).delistAll (is := is)
  rw [e1] at out ⊢
  generalize ho : ({ s with store.lists := l1 } : State) = o at *
  have sub : ∀ m, o.sub m = s.sub m := fun m => by rw [← ho]; rfl
  have msg : ∀ i, o.msg i = s.msg i := fun i => by rw [← ho]; rfl
  have co : o.Canon := by rw [← ho]; exact ⟨h.canon.subscribers, h.canon.records⟩
  generalize hm : o.setBilling n { (o.sub n).billing with slot := slot } = t
  have ts : ∀ m, t.sub m = if m = n then { o.sub n with billing := { (o.sub n).billing with slot := slot } } else o.sub m := fun m => by
    rw [← hm]
    exact State.sub_setSub co.subscribers n m _
  have tm : ∀ i, t.msg i = o.msg i := fun i => by rw [← hm]; rfl
  have ct : t.Canon := by rw [← hm]; exact co.setSub n _
  have moved : t.Listing fun j => False ∨ j ∈ is := by
    refine out.congr (by rw [← hm]; rfl) (fun i => by rw [tm]) fun i w no => ?_
    rw [tm]
    refine ⟨?_, rfl⟩
    have ne : (o.msg i).subscriber ≠ n := fun e => no (.inr ((mem i).mpr (by rw [← msg]; exact ⟨e, w⟩)))
    rw [ts, if_neg ne]
  have back := moved.enlistAll once fun i m => ⟨by rw [tm, msg]; exact ((mem i).mp m).2, .inr m⟩
  obtain ⟨l2, e2⟩ := State.foldl_lists (f := State.enlist) (fun _ _ => rfl) is t
  rw [e2] at back ⊢
  refine ⟨⟨ct.subscribers, ct.records⟩, ?_, State.listLaw_iff.mpr ?_⟩
  · have store : t.store = { s.store with lists := l1 } := by rw [← hm, ← ho]; rfl
    refine h.store.same (by rw [show (_ : State).store.records = t.store.records from rfl, store]) (fun m => ?_) (fun m v => ?_)
      (by rw [show (_ : State).store.freeCount = t.store.freeCount from rfl, store])
      (by rw [show (_ : State).store.airStop = t.store.airStop from rfl, store])
    · show (t.sub m).store = _
      rw [ts]
      split
      · next e => rw [e, sub]
      · rw [sub]
    · left
      change (t.sub m).billing.state = _ at v
      rw [ts] at v
      split at v
      · next e => rw [e, ← sub]; exact v
      · rw [← sub]; exact v
  · exact back.congr rfl (fun j => and_congr_right fun _ => not_congr (by tauto)) fun _ _ _ => ⟨rfl, rfl⟩

/-! ## Subscriber records written whole (R24, R30) -/

/-- A subscriber with no open message has no occupied record. -/
theorem State.Stocked.noneOpen {s : State} (h : s.Stocked) {n : Nat} (none : (s.sub n).store.openCount = 0) (i : Nat)
    (m : (s.msg i).subscriber = n) : (s.msg i).state = .free := by
  by_contra occ
  have pos : 0 < s.countMsgs (MessageRecord.ofSubscriber n) := by
    refine State.countMsgs_pos h.canon rfl (i := i) ?_
    unfold MessageRecord.ofSubscriber
    rw [MessageRecord.occupied_iff.mpr occ]
    simp [m]
  rw [← h.store.open_, none] at pos
  exact absurd pos (Nat.lt_irrefl 0)

/-- A subscriber with no open message takes any record whose open count is 0 and whose tag set is empty. -/
theorem State.Stocked.setSub {s : State} (h : s.Stocked) {n : Nat} (none : (s.sub n).store.openCount = 0) {u : Subscriber}
    (group : u.store = StoreGroup.reset) : (s.setSub n u).Stocked := by
  have sub := fun m => State.sub_setSub h.canon.subscribers n m u
  have empty := fun i => h.noneOpen none i
  have l := h.store
  refine ⟨h.canon.setSub n u, ⟨l.range, fun m => ?_, fun m => ?_, fun m v => ?_, fun m k => ?_, l.distinct, l.flight, l.free,
    l.rising, l.stopped⟩, ?_⟩
  · rw [sub]
    split
    · next e =>
      rw [group, e]
      show 0 = s.countMsgs _
      rw [← l.open_, none]
    · exact l.open_ m
  · rw [sub]
    split
    · rw [group]; decide
    · exact l.limit m
  · rw [sub] at v ⊢
    split
    · rw [group]; rfl
    · next e => rw [if_neg e] at v; exact l.vacant m v
  · rw [sub]
    split
    · next e =>
      rw [group]
      have zero : (StoreGroup.reset.tags).getLsbD k.val = false := by revert k; decide
      rw [zero]
      refine ⟨fun a => (by cases a), fun ⟨i, o, j, _⟩ => absurd (empty i (j.trans e)) o⟩
    · exact l.tags m k
  · refine State.listLaw_iff.mpr ((State.listLaw_iff.mp h.lists).congr rfl (fun _ => Iff.rfl) fun i w _ => ⟨?_, rfl⟩)
    have ne : (s.msg i).subscriber ≠ n := fun e => by
      rw [empty i e] at w
      cases w
    show ((s.setSub n u).sub (s.msg i).subscriber).billing.slot = _
    rw [sub, if_neg ne]

/-- A store with every record FREE, every store group at its reset values and every list empty keeps both laws. -/
theorem State.Stocked.empty {s : State} (c : s.Canon) (free : ∀ i, (s.msg i).state = .free)
    (groups : ∀ n, (s.sub n).store = StoreGroup.reset) (count : s.store.freeCount = Config.records)
    (airStop : s.store.airStop = []) (lists : ∀ f : Fin 32, s.store.lists.get f = []) : s.Stocked where
  canon := c
  store := .empty c free groups count airStop
  lists :=
    { listed := fun f i => by
        rw [lists, free]
        exact ⟨nofun, fun a => by cases a.1⟩
      once := fun f => by rw [lists]; exact List.nodup_nil
      order := fun f => by rw [lists]; exact List.Pairwise.nil }

/-! ## The tracker's items (R158 to R164) -/

/-- An airing report settled on its record, ON AIR (R158). -/
theorem State.Stocked.settleRecord {s : State} (h : s.Stocked) {e : SettleEntry} (was : (s.msg e.record).state = .onAir) :
    (s.settleRecord e (s.msg e.record)).Stocked := by
  have occ : (s.msg e.record).state ≠ .free := by rw [was]; nofun
  have idle : (s.msg e.record).state ≠ .waiting := by rw [was]; nofun
  have free := h.notStopped (i := e.record) (by rw [was]; nofun)
  unfold State.settleRecord
  simp only
  repeat' split
  all_goals first
    | exact h.close .tracker _ occ free
    | exact h.makeHeld ⟨rfl, rfl, rfl⟩ occ idle free
    | exact h.makeWaiting ⟨rfl, rfl, rfl⟩ occ idle free
    | exact h.makeAwaiting ⟨rfl, rfl, rfl⟩ was
    | skip
  -- SENT: the record with its attempts raised, then the close
  have same := fun j => State.msg_setMsg h.canon.records e.record j
    { s.msg e.record with
      attempts := saturate 15 (s.msg e.record).attempts 1, airedZones := (s.msg e.record).placedZones &&& e.zones }
  refine State.Stocked.close (s := s.setMsg _ _) ?_ .tracker .sent ?_ free
  · exact h.setMsg ⟨rfl, rfl, rfl⟩ occ idle occ idle (fun a => by
      unfold MessageRecord.flying at a ⊢
      exact a) fun m => absurd m free
  · rw [same, if_pos rfl]
    exact occ

/-- A miss latch (R163). -/
theorem State.Stocked.missLatch {s : State} (h : s.Stocked) (n : Nat) : (s.missLatch n).Stocked := by
  unfold State.missLatch
  simp only
  split
  · exact ((h.setReach n _).holdAll n).quiet (State.hand_quiet _ _ _)
  · exact h.setReach n _

/-- The fate of an AWAITING ACK record whose deadline fell (R164). -/
theorem State.Stocked.deadlineFate {s : State} (h : s.Stocked) {i d : Nat} (was : (s.msg i).state = .awaitingAck) :
    (s.deadlineFate i d).Stocked := by
  have occ : (s.msg i).state ≠ .free := by rw [was]; nofun
  have idle : (s.msg i).state ≠ .waiting := by rw [was]; nofun
  have free := h.notStopped (i := i) (by rw [was]; nofun)
  have dropped : (s.dropDeadline i).Stocked := h.of_eq rfl rfl
  unfold State.deadlineFate
  simp only
  repeat' split
  all_goals first
    | exact h.close .tracker _ occ free
    | exact dropped.makeHeld ⟨rfl, rfl, rfl⟩ occ idle free
    | exact dropped.makeWaiting ⟨rfl, rfl, rfl⟩ occ idle free

/-- A message heard (R160, R161). -/
theorem State.Stocked.heard {s : State} (h : s.Stocked) (n : Nat) (e : ReverseEntry) : (s.heard n e).Stocked := by
  have first := h.setReach n { (s.sub n).reach with missCount := 0 }
  unfold State.heard
  simp only
  generalize hu : (if (((s.setReach n { (s.sub n).reach with missCount := 0 }).sub n).reach.unreachable) = true then
    State.hand ((s.setReach n { (s.sub n).reach with missCount := 0 }).releaseAll n).1 .tracker
      (recordReleased n ((s.setReach n { (s.sub n).reach with missCount := 0 }).releaseAll n).2 e.arrival)
    else s.setReach n { (s.sub n).reach with missCount := 0 }) = u
  have t : u.Stocked := by
    rw [← hu]
    split
    · exact (first.releaseAll n).quiet (State.hand_quiet _ _ _)
    · exact first
  split
  · exact (t.setReach n _).quiet (State.hand_quiet _ _ _)
  · exact t.setReach n _

/-- The record an acknowledgement finds holds its tag and is occupied (R103). -/
theorem State.findTag_spec {s : State} (c : s.Canon) {n i : Nat} {tag : Fin 8} (h : s.findTag n tag = some i) :
    (s.msg i).state ≠ .free ∧ (s.msg i).subscriber = n ∧ (s.msg i).tag = some tag := by
  have m := List.mem_of_mem_head? h
  rw [State.mem_msgsWhere c rfl, Bool.and_eq_true, decide_eq_true_eq] at m
  exact ⟨MessageRecord.occupied_iff.mp m.1, m.2⟩

/-- An acknowledgement (R103, R159). -/
theorem State.Stocked.matchAck {s : State} (h : s.Stocked) (n : Nat) (e : ReverseEntry) : (s.matchAck n e).Stocked := by
  unfold State.matchAck
  split
  · exact h.quiet (State.hand_quiet _ _ _)
  · next i f =>
    have occ := (State.findTag_spec h.canon f).1
    simp only
    split
    · next a =>
      refine h.setMsg ⟨rfl, rfl, rfl⟩ occ (fun w => ?_) occ (fun w => ?_) id fun m => ⟨(h.store.stopped i m).1, .inl rfl⟩
      all_goals
        have w : (s.msg i).state = .waiting := w
        rw [w] at a
        rcases a with a | a <;> cases a
    · next a => exact h.close .tracker _ occ (h.notStopped fun p => a (.inl p))

/-- One return message (R159, R160). -/
theorem State.Stocked.processReturn {s : State} (h : s.Stocked) (e : ReverseEntry) : (s.processReturn e).Stocked := by
  unfold State.processReturn
  simp only
  split
  · split
    · exact h.quiet (State.hand_quiet _ _ _)
    · exact h
  · split
    · exact (h.matchAck _ e).heard _ e
    · exact h.heard _ e

/-! ## The sections of the frame pages (R116) -/

/-- A page's words are its cost (R14 to R16). -/
theorem MessageRecord.pageWords_length (r : MessageRecord) (office : Fin 64) : (r.pageWords office).length = r.cost := by
  unfold MessageRecord.pageWords MessageRecord.cost MessageRecord.blocks
  rw [List.length_cons, List.length_cons]
  have text : (textData r.kind r.text).length = textBlocks r.kind r.text.length := by
    unfold textData
    cases r.kind with
    | tone => rfl
    | numeric => simp
    | alpha => simp
  rw [text]
  omega

/-- A frame page that was set reads as set, and every other one as it was. -/
theorem framePages_set (v : Vector FramePage 4) (p q : Fin 4) (x : FramePage) :
    (v.set p.val x p.isLt).get q = if q = p then x else v.get q := by
  show (v.set p.val x p.isLt)[q.val] = if q = p then x else v[q.val]
  rw [Vector.getElem_set]
  by_cases h : q = p
  · rw [if_pos (by rw [h]), if_pos h]
  · rw [if_neg fun e => h (Fin.ext e.symm), if_neg h]

/-- A placement within the room of each target zone's section keeps the sections' bounds (R122, R123). -/
theorem State.SectionLaw.place {s : State} (h : s.SectionLaw) {serial i : Nat} {tag : Option (Fin 8)} {targets : ZoneSet}
    (room : ∀ z : Zone, targets.getLsbD z.val = true →
      fits ((s.builder.pages.get (pageOf serial)).get z) (s.msg i).cost = true) : (s.place serial i tag targets).SectionLaw := by
  intro k z
  let r : MessageRecord :=
    { s.msg i with state := .placed, tag := tag, placedSerial := some serial, placedZones := targets }
  let e : PageEntry := ⟨i, r.generation, r.pageWords s.engine.office.code⟩
  have page : (s.place serial i tag targets).builder.pages.get k =
      if k = pageOf serial then placeEntry (s.builder.pages.get (pageOf serial)) targets e else s.builder.pages.get k :=
    framePages_set _ (pageOf serial) k _
  rw [page]
  split
  · have sec : (placeEntry (s.builder.pages.get (pageOf serial)) targets e).get z =
        if targets.getLsbD z.val then (s.builder.pages.get (pageOf serial)).get z ++ [e]
        else (s.builder.pages.get (pageOf serial)).get z := by
      unfold placeEntry
      show (Vector.ofFn _)[z.val] = _
      rw [Vector.getElem_ofFn]
    rw [sec]
    split
    · next t =>
      have f := of_decide_eq_true (room z t)
      constructor
      · rw [List.length_append]
        exact f.1
      · unfold sectionBlocks at f ⊢
        rw [List.map_append, List.sum_append]
        show _ + ((r.pageWords s.engine.office.code).length + 0) ≤ _
        rw [MessageRecord.pageWords_length]
        exact f.2
    · exact h _ z
  · exact h k z

/-- A step that leaves the sections. -/
theorem State.SectionLaw.of_eq {s t : State} (h : s.SectionLaw) (pages : t.builder.pages = s.builder.pages) :
    t.SectionLaw := by
  unfold State.SectionLaw
  rw [pages]
  exact h

/-- A frame page emptied (R115). -/
theorem State.SectionLaw.emptyPage {s : State} (h : s.SectionLaw) (serial : Nat) : (s.emptyPage serial).SectionLaw := by
  intro k z
  unfold State.emptyPage
  rw [framePages_set]
  split
  · revert z; decide
  · exact h k z

/-- Every section empty (R126, R127). -/
theorem State.SectionLaw.empty {s : State} (pages : s.builder.pages = Vector.replicate 4 (Vector.replicate 4 [])) :
    s.SectionLaw := by
  unfold State.SectionLaw
  rw [pages]
  decide

/-- What check 5 finds: room for the page in the section of each target zone (R122). -/
theorem FramePage.admits_iff {page : FramePage} {targets : ZoneSet} {cost : Nat} :
    page.admits targets cost = true ↔ ∀ z : Zone, targets.getLsbD z.val = true → fits (page.get z) cost = true := by
  unfold FramePage.admits
  simp only [List.all_eq_true, List.mem_finRange, true_implies, Bool.or_eq_true, Bool.not_eq_true']
  refine forall_congr' fun z => ?_
  cases targets.getLsbD z.val <;> simp

/-- What the candidate checks leave: a record with room in flight, and room in the section of each target zone (R120,
R122). -/
theorem State.candidateTargets_spec {s : State} {b : Build} {i : Nat} {targets : ZoneSet}
    (h : s.candidateTargets b i = some targets) :
    s.inFlight (s.msg i).subscriber < Config.flightLimit ∧
      ∀ z : Zone, targets.getLsbD z.val = true →
        fits ((s.builder.pages.get (pageOf b.serial)).get z) (s.msg i).cost = true := by
  unfold State.candidateTargets at h
  simp only at h
  repeat' split at h
  all_goals first | (cases h; done) | skip
  next few _ _ room =>
    injection h with h
    subst h
    exact ⟨Nat.not_le.mp few, FramePage.admits_iff.mp room⟩

/-- What an accepted place request leaves: a WAITING record, room for it in flight and in its target zones, and its tag or
the lowest free one (R120, R122, R123). -/
theorem State.judgePlace_spec {s : State} {serial : Nat} {c : Candidate} {targets : ZoneSet} {tag : Option (Fin 8)}
    (h : s.judgePlace serial c targets = .accepted tag) :
    (s.msg c.record).state = .waiting ∧ s.inFlight (s.msg c.record).subscriber < Config.flightLimit ∧
      (∀ z : Zone, targets.getLsbD z.val = true →
        fits ((s.builder.pages.get (pageOf serial)).get z) (s.msg c.record).cost = true) ∧
      (tag = (s.msg c.record).tag ∨ ((s.msg c.record).tag = none ∧
        ∃ k, tag = some k ∧ lowestTag (s.sub (s.msg c.record).subscriber).store.tags = some k)) := by
  have room : s.hasPlace serial c.record targets ≠ false → s.inFlight (s.msg c.record).subscriber < Config.flightLimit ∧
      ∀ z : Zone, targets.getLsbD z.val = true →
        fits ((s.builder.pages.get (pageOf serial)).get z) (s.msg c.record).cost = true := fun a => by
    unfold State.hasPlace at a
    simp only [ne_eq, Bool.not_eq_false, Bool.and_eq_true, decide_eq_true_eq] at a
    exact ⟨a.1, FramePage.admits_iff.mp a.2⟩
  unfold State.judgePlace at h
  simp only at h
  repeat' split at h
  all_goals first | (cases h; done) | skip
  · next judged _ has none _ k lowest =>
    injection h with h
    exact ⟨Decidable.not_not.mp (not_or.mp judged).2, (room has).1, (room has).2, .inr ⟨none.2, k, h.symm, lowest⟩⟩
  · next judged _ has _ =>
    injection h with h
    exact ⟨Decidable.not_not.mp (not_or.mp judged).2, (room has).1, (room has).2, .inl h.symm⟩

/-- What an act of the builder can do: it changes the build in hand and the due one alone, or it places its candidate (R118,
R123, R128). -/
theorem execBuildCandidate_cases {s t : State} (h : execBuildCandidate s = .next t) :
    t = { s with builder := { s.builder with inHand := t.builder.inHand, due := t.builder.due } } ∨
      ∃ b c targets tag, s.builder.inHand = some b ∧ b.candidate = some c ∧ c.targets = some targets ∧
        s.judgePlace b.serial c targets = .accepted tag ∧
        t = (s.setBuild { b with candidate := none }).place b.serial c.record tag targets := by
  unfold execBuildCandidate at h
  split at h
  · exact .inl (by injection h with h; rw [← h])
  · next b hb =>
    split at h
    · injection h with h
      subst h
      unfold State.readCandidate State.endBuild State.stopBuild State.setBuild
      repeat' split
      all_goals exact .inl rfl
    · next c hc =>
      split at h
      · injection h with h
        subst h
        exact .inl rfl
      · next targets ht =>
        injection h with h
        subst h
        unfold State.placeCandidate
        split
        · next tag ok => exact .inr ⟨b, c, targets, tag, hb, hc, ht, ok, rfl⟩
        all_goals exact .inl rfl

/-- An act of the builder keeps the laws of the message store (R105, R106). -/
theorem State.Stocked.buildCandidate {s t : State} (h : s.Stocked) (e : execBuildCandidate s = .next t) : t.Stocked := by
  rcases execBuildCandidate_cases e with a | ⟨b, c, targets, tag, -, -, -, ok, rfl⟩
  · exact h.of_eq (by rw [a]) (by rw [a])
  · obtain ⟨was, few, -, given⟩ := State.judgePlace_spec ok
    exact State.Stocked.place (s := s.setBuild { b with candidate := none }) (h.of_eq rfl rfl) targets was few given

/-- An act of the builder keeps the bounds of the sections (R116). -/
theorem State.SectionLaw.buildCandidate {s t : State} (h : s.SectionLaw) (e : execBuildCandidate s = .next t) :
    t.SectionLaw := by
  rcases execBuildCandidate_cases e with a | ⟨b, c, targets, tag, -, -, -, ok, rfl⟩
  · exact h.of_eq (by rw [a])
  · obtain ⟨-, -, room, -⟩ := State.judgePlace_spec ok
    exact State.SectionLaw.place (s := s.setBuild { b with candidate := none }) h room

/-! ## A second boundary (R1, R4) -/

/-- A step that changes of the store at most the sweep and the commit sequence, and no subscriber. -/
theorem State.Stocked.swept {s t : State} (h : s.Stocked) (records : t.store.records = s.store.records)
    (lists : t.store.lists = s.store.lists) (free : t.store.freeCount = s.store.freeCount)
    (airStop : t.store.airStop = s.store.airStop) (account : t.account.subscribers = s.account.subscribers) : t.Stocked := by
  have sub : ∀ n, t.sub n = s.sub n := fun n => by unfold State.sub; rw [account]
  have msg : ∀ n, t.msg n = s.msg n := fun n => by unfold State.msg; rw [records]
  refine ⟨⟨by rw [account]; exact h.canon.subscribers, by rw [records]; exact h.canon.records⟩, ?_, ?_⟩
  · exact h.store.same records (fun n => by rw [sub]) (fun n v => .inl (by rw [← sub]; exact v)) free airStop
  · refine State.listLaw_iff.mpr ((State.listLaw_iff.mp h.lists).congr lists (fun i => by rw [msg]) fun i _ _ => ?_)
    rw [msg, sub]
    exact ⟨rfl, rfl⟩

theorem State.startSweep_stocked {s : State} (h : s.Stocked) (m : Nat) : (s.startSweep m).Stocked := by
  unfold State.startSweep
  split
  · exact h.swept rfl rfl rfl rfl rfl
  · exact h

/-- A frame mark keeps the laws of the message store (R102). -/
theorem State.takeMark_stocked {s : State} (h : s.Stocked) : s.takeMark.Stocked := by
  have marked : s.handReport.linksTakeMark.Stocked := h.of_eq (by simp) (by simp)
  unfold State.takeMark
  simp only
  split
  · exact State.startSweep_stocked ((marked.airing s.air.serial).of_eq (by simp) (by simp)) _
  · refine State.startSweep_stocked ?_ _
    have cut : (s.handReport.linksTakeMark.cutBuild s.air.serial fun _ => 0).stopBuild.Stocked :=
      marked.of_eq (by simp) (by simp)
    exact (cut.returnPlaced s.air.serial).of_eq rfl rfl

end Sys2Proof.Machine
end

