-- ==== Sys2Proof/Laws/Admission.lean ====
section
/-! SUPPORT. What each request of a message posting does (R87 to R89): the checks passed, and then the roll, the charge and the
commit; and the law of R87 through the work that other commands do between two of them. -/

namespace Sys2Proof.Machine

/-! ## Checks 1 to 7 (R85 to R87) -/

/-- Checks 4 to 7 refuse nothing. -/
theorem State.refusal_none {s : State} {d : Draft} : s.refusal d = none ↔
    (s.sub d.subscriber).billing.state = .active ∧ (d.kind = .alpha → (s.classOf d.subscriber).alphaAllowed = true) ∧
      (s.sub d.subscriber).store.openCount < Config.openLimit ∧ s.store.freeCount ≠ 0 := by
  unfold State.refusal
  simp only
  cases (s.sub d.subscriber).billing.state
  · simp
  · simp only [reduceCtorEq, if_false, true_and]
    (repeat' split) <;> simp_all
  · simp

/-- A posting that passes checks 1 to 7, and the draft it gives. -/
theorem State.checked_passed {s : State} {p : Posting} {d : Draft} : s.checked p = .passed d ↔
    ∃ kind, kindOf (p.param 2) = some kind ∧ lengthOk kind (p.param 4) = true ∧ s.refusal d = none ∧
      d = ⟨p.subscriber, kind, decide (p.param 3 ≠ 0), replacedText kind (p.postedText kind), p.param 5,
        replacedCount kind (p.postedText kind)⟩ := by
  unfold State.checked
  simp only
  cases kindOf (p.param 2) with
  | none => simp
  | some kind =>
    simp only
    constructor
    · intro h
      split at h
      · cases h
      · next ok =>
        split at h
        · cases h
        · next free =>
          cases h
          exact ⟨kind, rfl, by simpa using ok, free, rfl⟩
    · rintro ⟨k, e, ok, free, rfl⟩
      cases e
      rw [if_neg (by rw [ok]; simp), free]

/-! ## The roll and the charge -/

/-- The billing group a roll at an intake request leaves (R57, R58). -/
def State.rolled (s : State) (n : Nat) : Billing :=
  { (s.sub n).billing with
    counters := if s.stale n then Counters.zero else (s.sub n).billing.counters
    period := s.account.period }

/-- A billing group that was set reads as set, and every other one as it was. -/
theorem State.sub_setBilling {s : State} (c : s.Canon) (n m : Nat) (b : Billing) :
    (s.setBilling n b).sub m = if m = n then { s.sub n with billing := b } else s.sub m :=
  State.sub_setSub c.subscribers n m _

/-- What a roll at an intake request does to the subscriber table (R57, R58). -/
theorem State.sub_rollIfStale {s : State} (c : s.Canon) (n m : Nat) :
    (s.rollIfStale n).sub m = if m = n then { s.sub n with billing := s.rolled n } else s.sub m := by
  unfold State.rollIfStale State.rolled
  split
  · next old =>
    simp only
    exact State.sub_setBilling (s := s.hand .intake _) ⟨c.subscribers, c.records⟩ n m _
  · next current =>
    simp only
    split
    · next e =>
      have p : s.account.period = (s.sub n).billing.period := by
        unfold State.stale at current
        exact (Decidable.not_not.mp fun k => current (decide_eq_true k)).symm
      rw [e, p]
    · rfl

/-- A record that is not stale is not rolled (R58). -/
theorem State.rollIfStale_current {s : State} {n : Nat} (current : s.stale n = false) : s.rollIfStale n = s := by
  unfold State.rollIfStale
  rw [if_neg (by rw [current]; simp)]

theorem State.rollIfStale_reported (s : State) (n : Nat) : s.ex.Reported (s.rollIfStale n).ex := by
  unfold State.rollIfStale
  split
  · exact s.hand_reported _ _
  · exact .refl _

/-- Of the account unit only the subscriber table is touched by a roll at an intake request. -/
theorem State.rollIfStale_account (s : State) (n : Nat) :
    (s.rollIfStale n).account = { s.account with subscribers := (s.rollIfStale n).account.subscribers } := by
  unfold State.rollIfStale
  split <;> rfl

/-- Step 10 whole in the subscriber table (R48, R49). -/
theorem State.sub_charged {s : State} (c : s.Canon) (d : Draft) (m : Nat) :
    (s.charged d).sub m =
      if m = d.subscriber then
        let b := (s.sub d.subscriber).billing
        let r := s.rating d
        { s.sub d.subscriber with
          billing := { b with
            balance := b.balance - r.charge
            lowBalance :=
              if 0 < r.charge then lowBalanceAfter (s.planOf d.subscriber) b.lowBalance (b.balance - r.charge)
              else b.lowBalance
            counters := b.counters.countAdmission r.blocks r.charge } }
      else s.sub m := by
  have a := fun m => State.sub_setBilling c d.subscriber m
    { (s.sub d.subscriber).billing with
      balance := (s.sub d.subscriber).billing.balance - (s.rating d).charge
      counters := (s.sub d.subscriber).billing.counters.countAdmission (s.rating d).blocks (s.rating d).charge }
  have e : s.applyCharge d.subscriber (s.rating d) = s.setBilling d.subscriber _ := rfl
  unfold State.charged
  simp only
  rw [e]
  generalize hu : s.setBilling d.subscriber _ = u at a ⊢
  have cu : u.Canon := by rw [← hu]; exact c.setSub _ _
  have plans : u.account.plans = s.account.plans := by rw [← hu]; rfl
  split
  · unfold State.setLow
    rw [State.sub_setBilling cu]
    unfold State.planOf
    rw [plans, a d.subscriber, if_pos rfl, a m]
    split <;> rfl
  · exact a m

theorem State.charged_account (s : State) (d : Draft) :
    (s.charged d).account = { s.account with subscribers := (s.charged d).account.subscribers } := by
  unfold State.charged
  simp only
  split <;> rfl

theorem State.charged_canon {s : State} (c : s.Canon) (d : Draft) : (s.charged d).Canon := by
  unfold State.charged
  simp only
  split
  · exact (c.setSub _ _).setSub _ _
  · exact c.setSub _ _

/-! ## The commit -/

/-- A commit leaves the exchange as it is, with the FREE records notice given (R89). -/
theorem State.commit_ex (s : State) (d : Draft) (charge : Nat) (refundable : Bool) :
    (s.commit d charge refundable).ex = s.ex.notice .freeRecords := by
  unfold State.commit
  simp only
  split <;> rfl

theorem State.commit_account (s : State) (d : Draft) (charge : Nat) (refundable : Bool) :
    (s.commit d charge refundable).account =
      { s.account with subscribers := (s.commit d charge refundable).account.subscribers } := by
  unfold State.commit
  simp only
  split <;> rfl

/-- A commit touches no billing group (R89). -/
theorem State.billing_commit {s : State} (c : s.Canon) (d : Draft) (charge : Nat) (refundable : Bool) (m : Nat) :
    ((s.commit d charge refundable).sub m).billing = (s.sub m).billing := by
  refine Eq.trans ?_ (State.billing_setStoreGroup c d.subscriber m
    { (s.sub d.subscriber).store with openCount := (s.sub d.subscriber).store.openCount + 1 })
  unfold State.commit
  simp only
  split <;> rfl

/-- A commit advances the generation of the record it occupies, and of no other (R89). -/
theorem State.generation_commit {s : State} (c : s.Canon) (d : Draft) (charge : Nat) (refundable : Bool) (j : Nat) :
    ((s.commit d charge refundable).msg j).generation =
      (s.msg j).generation + if j = s.commitIndex then 1 else 0 := by
  have a := fun r : MessageRecord => State.msg_setMsg (s := s) c.records s.commitIndex j r
  have same : ∃ r : MessageRecord, r.generation = (s.msg s.commitIndex).generation + 1 ∧
      (s.commit d charge refundable).msg j = (s.setMsg s.commitIndex r).msg j := by
    unfold State.commit
    simp only
    split
    · exact ⟨_, rfl, rfl⟩
    · exact ⟨_, rfl, rfl⟩
  obtain ⟨r, g, e⟩ := same
  rw [e, a]
  split
  · next k => rw [g, k]
  · exact (BitVec.add_zero _).symm

theorem State.commit_canon {s : State} (c : s.Canon) (d : Draft) (charge : Nat) (refundable : Bool) :
    (s.commit d charge refundable).Canon := by
  have u := c.setSub d.subscriber { s.sub d.subscriber with
    store := { (s.sub d.subscriber).store with openCount := (s.sub d.subscriber).store.openCount + 1 } }
  unfold State.commit
  simp only
  split
  · exact ⟨u.subscribers, Table.wf_set c.records _ _⟩
  · exact ⟨u.subscribers, Table.wf_set c.records _ _⟩

/-- The record a commit occupies is the lowest FREE one (R89). -/
theorem State.commitIndex_lowest {s : State} {i : Nat} (free : (s.msg i).state = .free) (lt : i < Config.records)
    (low : ∀ j, j < i → (s.msg j).state ≠ .free) : s.commitIndex = i := by
  have go : ∀ n k, k ≤ i → i < k + n → s.freeFrom k n = some i := by
    intro n
    induction n with
    | zero => intro k a b; omega
    | succ n ih =>
      intro k a b
      unfold State.freeFrom
      split
      · next f =>
        rcases Nat.lt_or_eq_of_le a with h | h
        · exact absurd f (low k h)
        · rw [h]
      · next f =>
        refine ih (k + 1) (Nat.lt_of_le_of_ne a fun e => f (by rw [e]; exact free)) (by omega)
  unfold State.commitIndex State.lowestFree
  rw [go _ 0 (Nat.zero_le _) (by omega)]
  rfl

/-! ## The law of R87 through the work of other commands -/

/-- A step that takes no room from a message past its checks: no FREE record is taken, no open count rises, and no subscriber
becomes VACANT. -/
structure State.Ebbs (s t : State) : Prop where
  canon : s.Canon → t.Canon
  free : s.store.freeCount ≤ t.store.freeCount
  subs : s.Canon → ∀ n, (t.sub n).store.openCount ≤ (s.sub n).store.openCount ∧
    ((t.sub n).billing.state = .vacant → (s.sub n).billing.state = .vacant)

theorem State.Ebbs.trans {s t u : State} (h : s.Ebbs t) (k : t.Ebbs u) : s.Ebbs u where
  canon c := k.canon (h.canon c)
  free := Nat.le_trans h.free k.free
  subs c n :=
    let a := h.subs c n
    let b := k.subs (h.canon c) n
    ⟨Nat.le_trans b.1 a.1, fun v => a.2 (b.2 v)⟩

/-- A step that leaves the subscribers, the FREE records' count and the canonical form of the records. -/
theorem State.Ebbs.of_eq {s t : State} (free : t.store.freeCount = s.store.freeCount)
    (account : t.account.subscribers = s.account.subscribers)
    (records : s.Canon → Table.wf MessageRecord.powerOn t.store.records = true) : s.Ebbs t where
  canon c := ⟨by rw [account]; exact c.subscribers, records c⟩
  free := Nat.le_of_eq free.symm
  subs _ n := by
    have : t.sub n = s.sub n := by unfold State.sub; rw [account]
    rw [this]
    exact ⟨Nat.le_refl _, id⟩

theorem State.Ebbs.store {s t : State} (store : t.store = s.store)
    (account : t.account.subscribers = s.account.subscribers) : s.Ebbs t :=
  .of_eq (by rw [store]) account fun c => by rw [store]; exact c.records

theorem State.Ebbs.refl (s : State) : s.Ebbs s := .store rfl rfl

theorem State.Quiet.ebbs {s t : State} (q : s.Quiet t) : s.Ebbs t where
  canon := q.canon
  free := Nat.le_of_eq (by rw [q.store])
  subs c n := by
    have a := q.subs c n
    rw [a.1, a.2.2]
    exact ⟨Nat.le_refl _, id⟩

theorem State.setReach_ebbs (s : State) (n : Nat) (r : Reach) : s.Ebbs (s.setReach n r) where
  canon c := c.setSub n _
  free := Nat.le_refl _
  subs c m := by
    rw [show (s.setReach n r).sub m = _ from State.sub_setSub c.subscribers n m { s.sub n with reach := r }]
    split
    · next e => rw [e]; exact ⟨Nat.le_refl _, id⟩
    · exact ⟨Nat.le_refl _, id⟩

theorem State.setMsg_ebbs (s : State) (i : Nat) (r : MessageRecord) : s.Ebbs (s.setMsg i r) :=
  .of_eq rfl rfl fun c => (c.setMsg i r).records

theorem State.makeWaiting_ebbs (s : State) (i : Nat) (r : MessageRecord) : s.Ebbs (s.makeWaiting i r) :=
  (s.setMsg_ebbs i _).trans (.of_eq rfl rfl fun c => c.records)

theorem State.makeAwaiting_ebbs (s : State) (i : Nat) (r : MessageRecord) (d : Nat) : s.Ebbs (s.makeAwaiting i r d) :=
  (s.setMsg_ebbs i _).trans (.of_eq rfl rfl fun c => c.records)

/-- A record freed gives room back (R107). -/
theorem State.freeRecord_ebbs (s : State) (i : Nat) : s.Ebbs (s.freeRecord i) := by
  have left : s.Ebbs (s.leaveCollections i) := by
    unfold State.leaveCollections
    split
    · exact .of_eq rfl rfl fun c => c.records
    · exact .store rfl rfl
    · exact .refl s
  unfold State.freeRecord
  simp only
  generalize s.leaveCollections i = l at left
  refine left.trans ((l.setMsg_ebbs i { s.msg i with
    state := .free, deadline := none, cancelPending := false, ackedPending := false }).trans ?_)
  generalize l.setMsg i _ = u
  refine ⟨fun c => ⟨(c.setSub _ _).subscribers, c.records⟩, Nat.le_succ _, fun c n => ?_⟩
  let g : StoreGroup := ⟨(u.sub (s.msg i).subscriber).store.openCount - 1, match (s.msg i).tag with
    | some t => (u.sub (s.msg i).subscriber).store.tags &&& ~~~ tagBit t
    | none => (u.sub (s.msg i).subscriber).store.tags⟩
  show ((u.setStoreGroup (s.msg i).subscriber g).sub n).store.openCount ≤ _ ∧
    (((u.setStoreGroup (s.msg i).subscriber g).sub n).billing.state = .vacant → _)
  rw [State.store_setStoreGroup c, State.billing_setStoreGroup c]
  refine ⟨?_, id⟩
  split
  · next e => rw [e]; exact Nat.sub_le _ _
  · exact Nat.le_refl _

theorem State.close_ebbs (s : State) (p : Producer) (i : Nat) (o : CloseOutcome) : s.Ebbs (s.close p i o) :=
  (s.freeRecord_ebbs i).trans (s.close_quiet p i o).ebbs

/-- Requests folded over records. -/
theorem State.Ebbs.foldl {f : State → Nat → State} (each : ∀ (s : State) i, s.Ebbs (f s i)) (is : List Nat) (s : State) :
    s.Ebbs (is.foldl f s) := by
  induction is generalizing s with
  | nil => exact .refl s
  | cons i rest ih => exact (each s i).trans (ih _)

theorem State.holdAll_ebbs (s : State) (n : Nat) : s.Ebbs (s.holdAll n).1 :=
  .foldl (fun t i => .trans (t := t.delist i) (.of_eq rfl rfl fun c => c.records) (State.setMsg_ebbs _ _ _)) _ s

theorem State.releaseAll_ebbs (s : State) (n : Nat) : s.Ebbs (s.releaseAll n).1 :=
  (s.setReach_ebbs n _).trans (.foldl (fun t i => t.makeWaiting_ebbs i _) _ _)

theorem State.returnPlaced_ebbs (s : State) (m : Nat) : s.Ebbs (s.returnPlaced m) := by
  refine .foldl (fun t i => ?_) _ s
  unfold State.returnOne
  simp only
  split
  · exact .of_eq rfl rfl fun c => c.records
  · split
    · exact t.setMsg_ebbs i _
    · exact t.makeWaiting_ebbs i _

theorem State.settleRecord_ebbs (s : State) (e : SettleEntry) (r : MessageRecord) : s.Ebbs (s.settleRecord e r) := by
  unfold State.settleRecord
  simp only
  repeat' split
  all_goals first
    | exact s.close_ebbs _ _ _
    | exact s.makeWaiting_ebbs _ _
    | exact s.makeAwaiting_ebbs _ _ _
    | exact s.setMsg_ebbs _ _
    | exact (s.setMsg_ebbs _ _).trans (State.close_ebbs _ _ _ _)

theorem State.heard_ebbs (s : State) (n : Nat) (e : ReverseEntry) : s.Ebbs (s.heard n e) := by
  unfold State.heard
  simp only
  generalize hu : (if (((s.setReach n { (s.sub n).reach with missCount := 0 }).sub n).reach.unreachable) = true then
    State.hand ((s.setReach n { (s.sub n).reach with missCount := 0 }).releaseAll n).1 .tracker
      (recordReleased n ((s.setReach n { (s.sub n).reach with missCount := 0 }).releaseAll n).2 e.arrival)
    else s.setReach n { (s.sub n).reach with missCount := 0 }) = u
  have t : s.Ebbs u := by
    rw [← hu]
    split
    · exact ((s.setReach_ebbs n _).trans (State.releaseAll_ebbs _ n)).trans (State.hand_quiet _ _ _).ebbs
    · exact s.setReach_ebbs n _
  split
  · exact (t.trans (u.setReach_ebbs n _)).trans (State.hand_quiet _ _ _).ebbs
  · exact t.trans (u.setReach_ebbs n _)

theorem State.matchAck_ebbs (s : State) (n : Nat) (e : ReverseEntry) : s.Ebbs (s.matchAck n e) := by
  unfold State.matchAck
  split
  · exact (s.hand_quiet _ _).ebbs
  · simp only
    split
    · exact s.setMsg_ebbs _ _
    · exact s.close_ebbs _ _ _

theorem State.processReturn_ebbs (s : State) (e : ReverseEntry) : s.Ebbs (s.processReturn e) := by
  unfold State.processReturn
  simp only
  repeat' split
  · exact (s.hand_quiet _ _).ebbs
  · exact .refl s
  · exact (s.matchAck_ebbs _ _).trans (State.heard_ebbs _ _ _)
  · exact s.heard_ebbs _ _

theorem State.missLatch_ebbs (s : State) (n : Nat) : s.Ebbs (s.missLatch n) := by
  unfold State.missLatch
  simp only
  split
  · exact ((s.setReach_ebbs n _).trans (State.holdAll_ebbs _ n)).trans (State.hand_quiet _ _ _).ebbs
  · exact s.setReach_ebbs n _

theorem State.deadlineFate_ebbs (s : State) (i d : Nat) : s.Ebbs (s.deadlineFate i d) := by
  have dropped : s.Ebbs (s.dropDeadline i) := .store rfl rfl
  unfold State.deadlineFate
  simp only
  repeat' split
  · exact s.close_ebbs _ _ _
  · exact s.close_ebbs _ _ _
  · exact dropped.trans (State.setMsg_ebbs _ _ _)
  · exact dropped.trans (State.makeWaiting_ebbs _ _ _)

/-- A placement takes a tag and no room (R123). -/
theorem State.place_ebbs (s : State) (serial i : Nat) (tag : Option (Fin 8)) (targets : ZoneSet) :
    s.Ebbs (s.place serial i tag targets) := by
  let r : MessageRecord := { s.msg i with state := .placed, tag := tag, placedSerial := some serial, placedZones := targets }
  let t := (s.delist i).setMsg i r
  have a : s.Ebbs t := .trans (t := s.delist i) (.of_eq rfl rfl fun c => c.records) (State.setMsg_ebbs _ i r)
  let g : StoreGroup := ⟨(t.sub r.subscriber).store.openCount, (t.sub r.subscriber).store.tags ||| tag.elim 0 tagBit⟩
  refine a.trans ⟨fun c => ⟨(c.setSub _ _).subscribers, c.records⟩, Nat.le_refl _, fun c n => ?_⟩
  show ((t.setStoreGroup r.subscriber g).sub n).store.openCount ≤ _ ∧
    (((t.setStoreGroup r.subscriber g).sub n).billing.state = .vacant → _)
  rw [State.store_setStoreGroup c, State.billing_setStoreGroup c]
  refine ⟨?_, id⟩
  split
  · next e => rw [e]
  · exact Nat.le_refl _

/-- The law of R87 stands through the work of other commands, which leaves the posting in hand and takes no room. -/
theorem State.AdmissionLaw.ebbs {s t : State} (h : s.AdmissionLaw) (c : s.Canon) (spares : s.Spares t)
    (free : .intake ∉ s.ex.writer.waiting) (e : s.Ebbs t) : t.AdmissionLaw := by
  intro d draft
  rw [spares.progress] at draft
  obtain ⟨hand, known, few, some⟩ := h d draft
  have sub := e.subs c d.subscriber
  have le := e.free
  refine ⟨by rw [spares.intake free]; exact hand, fun v => known (sub.2 v), by omega, by omega⟩

/-- A posting that has no draft is under no such law. -/
theorem State.AdmissionLaw.none {s : State} (h : s.ex.progress.draft = none) : s.AdmissionLaw := fun d e => by
  rw [h] at e
  cases e

end Sys2Proof.Machine
end

