-- ==== Sys2Proof/Laws/Age.lean ====
section
/-! SUPPORT. The age count of the FILLING page (R173): what each piece of work that reaches the report writer at a second
boundary does to a FILLING or FILLED page. -/

namespace Sys2Proof.Machine

/-- The free value arranges the elements and adds or loses none (log entry 11). -/
theorem arrange_perm {β : Type} (c : Nat) (xs : List β) : (arrange c xs.length xs).Perm xs := by
  suffices ∀ n (xs : List β) c, xs.length = n → (arrange c n xs).Perm xs from this _ _ _ rfl
  intro n
  induction n with
  | zero => intro xs c h; rw [List.eq_nil_of_length_eq_zero h]; exact .refl _
  | succ n ih =>
    intro xs c h
    match xs with
    | [x] => exact .refl _
    | x :: y :: rest =>
      let k := Config.pick c % ((y :: rest).length + 1)
      have lt : k < (x :: y :: rest).length := Nat.mod_lt _ (Nat.succ_pos _)
      have e : arrange c (n + 1) (x :: y :: rest) =
          (x :: y :: rest).getD k x :: arrange (c + 1) n ((x :: y :: rest).eraseIdx k) := rfl
      rw [e, List.getD_eq_getElem _ _ lt]
      refine ((ih _ (c + 1) ?_).cons _).trans (List.getElem_cons_eraseIdx_perm lt)
      rw [List.length_eraseIdx_of_lt lt, h]
      rfl

/-- A page of a step of the report writer that no host return reaches: FILLED stays FILLED; and FILLING stays FILLING with these
age count and due mark, or becomes FILLED. -/
structure Writer.Ages (v w : Writer) (page : Index8) (age : Nat) (due : Bool) : Prop where
  filled : v.pages.get page = .filled → w.pages.get page = .filled
  filling : v.pages.get page = .filling →
    (w.pages.get page = .filling ∧ w.age = age ∧ w.due = due) ∨ w.pages.get page = .filled

theorem Writer.Ages.of_eq {v w : Writer} {page : Index8} (pages : w.pages = v.pages) : v.Ages w page w.age w.due :=
  ⟨fun h => by rw [pages, h], fun h => .inl ⟨by rw [pages, h], rfl, rfl⟩⟩

/-- A page close fills the FILLING page and leaves a FILLED one (R174). -/
theorem Exchange.closePage_ages {x : Exchange} (one : x.writer.OneFilling) (st : Stamp) (c : CloseCause) (page : Index8) :
    x.writer.Ages (x.closePage st c).writer page x.writer.age x.writer.due := by
  rw [Exchange.closePage_eq]
  cases h : x.writer.filling with
  | none => exact .of_eq rfl
  | some p =>
    have fp := Writer.filling_spec h
    have pages : (((x.pageShut st c p).notice .lastPageIndex).notice .lastPageSequence).writer.pages =
        x.writer.pages.set p.val .filled p.isLt := by simp only [Exchange.notice, Exchange.pageShut]
    constructor
    · intro f
      simp only [pages, pages_set]
      split
      · rfl
      · exact f
    · intro f
      right
      simp only [pages, pages_set, if_pos (one page p f fp)]

theorem Exchange.closeIfDue_ages {x : Exchange} (one : x.writer.OneFilling) (st : Stamp) (page : Index8) :
    x.writer.Ages (x.closeIfDue st).writer page x.writer.age x.writer.due := by
  unfold Exchange.closeIfDue
  split
  · exact x.closePage_ages one st .age page
  · exact .of_eq rfl

/-- A step whose second half ages a page as its first half left it. -/
theorem Writer.Ages.trans {u v w : Writer} {page : Index8} {age : Nat} {due : Bool} (h : u.Ages v page age due)
    (k : v.Ages w page v.age v.due) : u.Ages w page age due where
  filled f := k.filled (h.filled f)
  filling f := by
    rcases h.filling f with ⟨a, b, c⟩ | a
    · rw [← b, ← c]
      exact k.filling a
    · exact .inr (k.filled a)

/-- With room above 0 and no page FILLING, the next page is EMPTY (R169). -/
theorem Writer.next_empty {w : Writer} (none : w.filling.isSome = false) (room : 0 < w.room) :
    w.pages.get w.next = .empty := by
  unfold Writer.room Writer.freePositions Writer.run at room
  rw [none] at room
  unfold emptyRun at room
  by_contra h
  rw [if_neg h] at room
  exact absurd room (Nat.lt_irrefl 0)

/-- A record appended where there is room (R171). -/
theorem Exchange.append_ages {x : Exchange} (one : x.writer.OneFilling) (room : 0 < x.writer.room) (st : Stamp) (r : Record)
    (page : Index8) : x.writer.Ages (x.append st r).writer page x.writer.age x.writer.due := by
  have opened : x.writer.Ages x.ensureOpen.writer page x.writer.age x.writer.due := by
    unfold Exchange.ensureOpen
    split
    · exact .of_eq rfl
    · next none =>
      have none : x.writer.filling.isSome = false := by simpa using none
      have e := Writer.next_empty none room
      refine ⟨fun f => ?_, fun f => ?_⟩
      · show (x.writer.pages.set x.writer.next.val .filling x.writer.next.isLt).get page = .filled
        rw [pages_set, if_neg fun k => by rw [k, e] at f; cases f]
        exact f
      · have := Writer.filling_isSome f
        rw [none] at this
        cases this
  have recorded : x.ensureOpen.writer.Ages (x.ensureOpen.recorded r).writer page x.ensureOpen.writer.age
      x.ensureOpen.writer.due := .of_eq rfl
  have one' : (x.ensureOpen.recorded r).writer.OneFilling := x.ensureOpen_reported.one one
  rw [Exchange.append_eq]
  split
  · exact (opened.trans recorded).trans ((x.ensureOpen.recorded r).closePage_ages one' st .count page)
  · exact opened.trans recorded

/-- A request leaves every page, the age count and the due mark alone (R170). -/
theorem Exchange.request_pages (x : Exchange) (p : Producer) : (x.request p).writer.pages = x.writer.pages ∧
    (x.request p).writer.age = x.writer.age ∧ (x.request p).writer.due = x.writer.due := by
  have go : ∀ (ps : List Producer) (y : Exchange), (ps.foldl Exchange.judgeOne y).writer.pages = y.writer.pages ∧
      (ps.foldl Exchange.judgeOne y).writer.age = y.writer.age ∧ (ps.foldl Exchange.judgeOne y).writer.due = y.writer.due := by
    intro ps
    induction ps with
    | nil => exact fun _ => ⟨rfl, rfl, rfl⟩
    | cons q rest ih =>
      intro y
      have one : (y.judgeOne q).writer.pages = y.writer.pages ∧ (y.judgeOne q).writer.age = y.writer.age ∧
          (y.judgeOne q).writer.due = y.writer.due := by
        unfold Exchange.judgeOne
        split <;> exact ⟨rfl, rfl, rfl⟩
      have rest := ih (y.judgeOne q)
      exact ⟨rest.1.trans one.1, rest.2.1.trans one.2.1, rest.2.2.trans one.2.2⟩
  unfold Exchange.request
  split
  · exact ⟨rfl, rfl, rfl⟩
  · exact go _ _

/-- The age step of a FILLING page (R173). -/
theorem Exchange.ageStep_ages {x : Exchange} (one : x.writer.OneFilling) (st : Stamp) (flush : Nat) (page : Index8) :
    x.writer.Ages (x.ageStep st flush).writer page (saturate 30 x.writer.age 1)
      (x.writer.due || decide (flush ≤ saturate 30 x.writer.age 1)) := by
  unfold Exchange.ageStep
  split
  · let y : Exchange := { x with writer := { x.writer with
      age := saturate 30 x.writer.age 1, due := x.writer.due || decide (flush ≤ saturate 30 x.writer.age 1) } }
    have k := Exchange.closeIfDue_ages (x := y) one st page
    exact ⟨k.filled, k.filling⟩
  · next none =>
    refine ⟨id, fun f => ?_⟩
    exact absurd (Writer.filling_isSome f) none

/-- One piece of work at a second boundary: the age step alone moves the age count of a page that stays FILLING (R173). -/
theorem State.takeItem_ages {s : State} (law : s.ex.writer.PageLaw) (i : ReportItem) (page : Index8) :
    s.ex.writer.Ages (s.takeItem i).ex.writer page
      (if i = .age then saturate 30 s.ex.writer.age 1 else s.ex.writer.age)
      (if i = .age then s.ex.writer.due || decide (s.engine.office.flushInterval ≤ saturate 30 s.ex.writer.age 1)
        else s.ex.writer.due) := by
  cases i with
  | age => exact Exchange.ageStep_ages law.one _ _ page
  | ask p =>
    rw [if_neg (by simp), if_neg (by simp)]
    show s.ex.writer.Ages (s.ask p).ex.writer page _ _
    unfold State.ask
    split
    · have a := s.ex.request_pages p
      rw [← a.2.1, ← a.2.2]
      exact .of_eq a.1
    · exact .of_eq rfl
  | offer l =>
    rw [if_neg (by simp), if_neg (by simp)]
    show s.ex.writer.Ages (s.offerStatus l).ex.writer page _ _
    unfold State.offerStatus
    simp only
    split
    · next room =>
      have appended := Exchange.append_ages law.one (by unfold Writer.unreserved at room; omega) s.stamp
        (recordLinkStatus l (s.link l) s.air.serial) page
      exact appended.trans (Exchange.closeIfDue_ages ((s.ex.append_reported _ _).one law.one) s.stamp page)
    · exact .of_eq rfl

end Sys2Proof.Machine
end

