-- ==== Sys2Proof/Laws/Air.lean ====
section
/-! SUPPORT. The air format said once (R12 to R18) and the entry list of a frame page (R146): that a check byte is the
remainder of the block's data, what the 120 codewords of a zone frame are, and which entries an airing report names. -/

namespace Sys2Proof.Machine

/-! ## The check byte (R17) -/

/-- Multiples of the generator add up. -/
theorem timesGenerator_xor (a b : Word) : timesGenerator (a ^^^ b) = timesGenerator a ^^^ timesGenerator b := by
  simp only [timesGenerator, BitVec.shiftLeft_xor_distrib]
  ac_rfl

/-- A multiple of the generator times x. -/
theorem timesGenerator_shift (a : Word) : timesGenerator (a <<< 1) = timesGenerator a <<< 1 := by
  simp only [timesGenerator, BitVec.shiftLeft_xor_distrib, ← BitVec.shiftLeft_add]

set_option maxRecDepth 100000 in
/-- A remainder times x with one more data bit at x^8, divided by the generator: the quotient bit and the next remainder. -/
theorem crcStep_remainder : ∀ (r : BitVec 8) (b : Bool),
    (r.setWidth 32 : Word) <<< 1 ^^^ BitVec.setWidth 32 (BitVec.ofBool b) <<< 8 =
      timesGenerator (BitVec.setWidth 32 (BitVec.ofBool (r.msb ^^ b))) ^^^ (crcStep r b).setWidth 32 := by
  decide

/-- One data bit taken, where `p` is a multiple of the generator plus the remainder. -/
theorem crcStep_divides {p q : Word} {r : Byte} (h : p = timesGenerator q ^^^ r.setWidth 32) (b : Bool) :
    p <<< 1 ^^^ BitVec.setWidth 32 (BitVec.ofBool b) <<< 8 =
      timesGenerator (q <<< 1 ^^^ BitVec.setWidth 32 (BitVec.ofBool (r.msb ^^ b))) ^^^ (crcStep r b).setWidth 32 := by
  rw [h, timesGenerator_xor, timesGenerator_shift, BitVec.shiftLeft_xor_distrib, BitVec.xor_assoc, crcStep_remainder,
    BitVec.xor_assoc]

/-- A quotient grows by one bit. -/
theorem double_lt {q : Word} {n : Nat} (h : q.toNat < 2 ^ n) (b : Bool) :
    (q <<< 1 ^^^ BitVec.setWidth 32 (BitVec.ofBool b)).toNat < 2 ^ (n + 1) := by
  rw [BitVec.toNat_xor]
  refine Nat.xor_lt_two_pow ?_ ?_
  · have := Nat.mod_le (q.toNat <<< 1) (2 ^ 32)
    rw [BitVec.toNat_shiftLeft]
    rw [Nat.shiftLeft_eq] at *
    rw [Nat.pow_succ]
    omega
  · have : 1 < 2 ^ (n + 1) := Nat.one_lt_two_pow (by omega)
    cases b <;> simp

/-- The data above its `n` low bits, times x^8, being a multiple of the generator plus a remainder, so is the whole data with
the remainder the check leaves. -/
theorem crcFrom_divides (d : BlockData) : ∀ (n : Nat) (q : Word) (r : Byte), n ≤ 24 → q.toNat < 2 ^ (24 - n) →
    (d.setWidth 32 >>> n) <<< 8 = timesGenerator q ^^^ r.setWidth 32 →
    ∃ q', q'.toNat < 2 ^ 24 ∧ (d.setWidth 32 : Word) <<< 8 = timesGenerator q' ^^^ (crcFrom d n r).setWidth 32
  | 0, q, r, _, lt, h => ⟨q, lt, by simpa [crcFrom] using h⟩
  | n + 1, q, r, le, lt, h => by
    refine crcFrom_divides d n _ _ (by omega) ?_ (.trans ?_ (crcStep_divides h (d.getLsbD n)))
    · rw [show 24 - n = 24 - (n + 1) + 1 by omega]
      exact double_lt lt _
    apply BitVec.eq_of_getLsbD_eq
    intro i hi
    simp only [BitVec.getLsbD_shiftLeft, BitVec.getLsbD_ushiftRight, BitVec.getLsbD_setWidth, BitVec.getLsbD_xor, BitVec.getLsbD_ofBool]
    rcases Nat.lt_trichotomy i 8 with k | rfl | k
    · simp [k]
      omega
    · simp; omega
    · have e : i - 8 ≠ 0 := by omega
      have f : n + (i - 8) = n + 1 + (i - 1 - 8) := by omega
      simp [e, f, show ¬ i < 8 by omega, show ¬ i - 1 < 8 by omega, show ¬ i < 1 by omega,hi, show i - 1 < 32 by omega]

/-- The check byte is the remainder of the data (R17): a codeword with 55h taken from its check byte is a multiple of the
generator. -/
theorem codeword_divides (d : BlockData) :
    ∃ q : Word, q.toNat < 2 ^ 24 ∧ codeword d ^^^ 0x55 = timesGenerator q := by
  obtain ⟨q, lt, h⟩ := crcFrom_divides d 24 0 0 (by omega) (by decide) (by
    apply BitVec.eq_of_getLsbD_eq
    intro i hi
    simp [timesGenerator])
  refine ⟨q, lt, ?_⟩
  have e : timesGenerator q = (d.setWidth 32 : Word) <<< 8 ^^^ (crcFrom d 24 0).setWidth 32 := by
    rw [h, BitVec.xor_assoc, BitVec.xor_self, BitVec.xor_zero]
  rw [e, show (0x55 : Word) = (0x55 : Byte).setWidth 32 by decide]
  apply BitVec.eq_of_getLsbD_eq
  intro i hi
  simp only [codeword, checkByte, BitVec.getLsbD_xor, BitVec.getLsbD_append, BitVec.getLsbD_shiftLeft, BitVec.getLsbD_setWidth]
  by_cases k : i < 8
  · simp only [k, hi, decide_true, Bool.true_and, Bool.not_true, Bool.false_and, Bool.false_xor, if_true, Bool.xor_assoc,
      Bool.xor_self, Bool.xor_false]
  · have z (x : Byte) : x.getLsbD i = false := BitVec.getLsbD_of_ge _ _ (by omega)
    simp only [k, hi, z, decide_false, decide_true, Bool.true_and, Bool.and_false, Bool.not_false, Bool.xor_false, if_false,
      show i - 8 < 32 by omega]

/-! ## Whitening and the zone frame (R12, R13, R18) -/

/-- The register after `n` whitening bits. -/
theorem whiteningBits_register (n : Nat) (r : BitVec 15) (acc : Word) :
    (whiteningBits n r acc).2 = whiteningStep^[n] r := by
  induction n generalizing r acc with
  | zero => rfl
  | succ n ih => exact ih _ _

/-- Each of `n` whitening bits is bit 14 of the register at its step, the first the most significant. -/
theorem whiteningBits_bit (n : Nat) (r : BitVec 15) (acc : Word) {j : Nat} (lt : j < 32) :
    (whiteningBits n r acc).1.getLsbD j =
      if j < n then (whiteningStep^[n - 1 - j] r).getLsbD 14 else acc.getLsbD (j - n) := by
  induction n generalizing r acc with
  | zero => rfl
  | succ n ih =>
    refine (ih _ _).trans ?_
    by_cases h : j < n
    · rw [if_pos h, if_pos (by omega), ← Function.iterate_succ_apply whiteningStep]
      congr 2
      omega
    · rw [if_neg h]
      by_cases k : j = n
      · subst k
        simp
      · rw [if_neg (by omega)]
        have a : j - n - 1 = j - (n + 1) := by omega
        simp only [BitVec.getLsbD_or, BitVec.getLsbD_shiftLeft, BitVec.getLsbD_setWidth, BitVec.getLsbD_ofBool, a,
          show j - n < 32 by omega, show ¬ j - n < 1 by omega, show j - n ≠ 0 by omega, decide_true, decide_false, Bool.not_false,
          Bool.true_and, Bool.false_and, Bool.or_false]

/-- Whitening keeps the number of codewords. -/
theorem whiten_length (r : BitVec 15) (ws : List Word) : (whiten r ws).length = ws.length := by
  induction ws generalizing r with
  | nil => rfl
  | cons w rest ih => simp [whiten, ih]

/-- Codeword k is whitened with the 32 bits from step 32k on. -/
theorem whiten_get (r : BitVec 15) (ws : List Word) (k : Nat) :
    (whiten r ws)[k]? = ws[k]?.map fun w => w ^^^ (whiteningBits 32 (whiteningStep^[32 * k] r) 0).1 := by
  induction ws generalizing r k with
  | nil => rfl
  | cons w rest ih =>
    cases k with
    | zero => rfl
    | succ k =>
      simp only [whiten, List.getElem?_cons_succ]
      rw [ih, whiteningBits_register, ← Function.iterate_add_apply, show 32 * k + 32 = 32 * (k + 1) by omega]

/-- The bits of the register after a step (R18). -/
theorem whiteningStep_bit (r : BitVec 15) {i : Nat} (lt : i < 15) :
    (whiteningStep r).getLsbD i = if i = 0 then r.getLsbD 14 ^^ r.getLsbD 13 else r.getLsbD (i - 1) := by
  unfold whiteningStep
  cases i with
  | zero => simp
  | succ i =>
    simp only [BitVec.getLsbD_or, BitVec.getLsbD_shiftLeft, BitVec.getLsbD_setWidth, BitVec.getLsbD_ofBool, lt,
      Nat.add_sub_cancel, show ¬ i + 1 < 1 by omega, show i + 1 ≠ 0 by omega, decide_true, decide_false, Bool.not_false,
      Bool.true_and, Bool.and_false, Bool.false_and, Bool.or_false, if_false]

/-- Block k of the body: a payload block, and idle from the payload's end on (R12). -/
theorem bodyBlocks_get {sec : Section} (fits : sectionBlocks sec ≤ 118) {k : Nat} (lt : k < 118) :
    (bodyBlocks sec)[k]? = some ((sec.flatMap (·.words)).getD k idleBlock) := by
  have len : (sec.flatMap (·.words)).length = sectionBlocks sec := by
    simp [sectionBlocks, List.length_flatMap]
  unfold bodyBlocks
  by_cases h : k < sectionBlocks sec
  · rw [List.getElem?_append_left (by omega)]
    simp [len, h]
  · rw [List.getElem?_append_right (by omega), List.getElem?_replicate]
    simp [len, Config.sectionBlocks, show k - sectionBlocks sec < 118 - sectionBlocks sec by omega, h]

/-- What a zone frame is, of a section within R116's limit of blocks (R12, R13, R18). -/
theorem zoneFrame_spec (office : Fin 64) (serial : Nat) (zone : Zone) {sec : Section} (fits : sectionBlocks sec ≤ 118) :
    (zoneFrame office serial zone sec).length = 120 ∧
    (zoneFrame office serial zone sec)[0]? = some (codeword (headerBlock1 office serial zone)) ∧
    (zoneFrame office serial zone sec)[1]? = some (codeword (headerBlock2 sec)) ∧
    ∀ k i, k < 118 → i < 32 → ∃ w, (zoneFrame office serial zone sec)[k + 2]? = some w ∧
      w.getLsbD (31 - i) =
        ((codeword ((sec.flatMap (·.words)).getD k idleBlock)).getLsbD (31 - i) ^^
          (whiteningStep^[32 * k + i] (whiteningSeed serial)).getLsbD 14) := by
  refine ⟨?_, rfl, rfl, fun k i lk li => ?_⟩
  · have len : (sec.flatMap (·.words)).length = sectionBlocks sec := by
      simp [sectionBlocks, List.length_flatMap]
    simp [zoneFrame, whiten_length, bodyBlocks, len, Config.sectionBlocks]
    omega
  · refine ⟨codeword ((sec.flatMap (·.words)).getD k idleBlock) ^^^
      (whiteningBits 32 (whiteningStep^[32 * k] (whiteningSeed serial)) 0).1, ?_, ?_⟩
    · show (whiten (whiteningSeed serial) ((bodyBlocks sec).map codeword))[k]? = _
      rw [whiten_get, List.getElem?_map, bodyBlocks_get fits lk]
      rfl
    · rw [BitVec.getLsbD_xor, whiteningBits_bit _ _ _ (by omega), if_pos (by omega), ← Function.iterate_add_apply]
      congr 3
      omega


/-! ## The entry list (R146) -/

/-- One entry taken into the entry list. -/
def listEntry (acc : List (Nat × BitVec 8)) (e : Nat × BitVec 8) : List (Nat × BitVec 8) :=
  if acc.any fun f => f.1 == e.1 then acc else acc ++ [e]

/-- One more entry taken. -/
theorem listsOnce_snoc {all acc : List (Nat × BitVec 8)} (h : ListsOnce all acc) (e : Nat × BitVec 8) :
    ListsOnce (all ++ [e]) (listEntry acc e) := by
  have old (a : Nat) (m : a ∈ acc.map (·.1)) : ((all ++ [e]).map (·.1)).idxOf a = (all.map (·.1)).idxOf a := by
    rw [List.map_append, List.idxOf_append_of_mem ((h.records a).mp m)]
  have found (f : Nat × BitVec 8) (m : f ∈ acc) : (all ++ [e]).find? (fun g => g.1 == f.1) = some f := by
    rw [List.find?_append, h.first f m]
    rfl
  have order : (acc.map (·.1)).Pairwise fun a b =>
      ((all ++ [e]).map (·.1)).idxOf a < ((all ++ [e]).map (·.1)).idxOf b :=
    h.order.imp_of_mem fun ma mb lt => by rwa [old _ ma, old _ mb]
  unfold listEntry
  split
  · next seen =>
    obtain ⟨f, m, k⟩ := List.any_eq_true.mp seen
    have k : f.1 = e.1 := by simpa using k
    refine ⟨fun i => ?_, order, found⟩
    rw [h.records, List.map_append, List.mem_append]
    refine ⟨.inl, fun c => c.elim id fun c => ?_⟩
    have c : i = e.1 := by simpa using c
    rw [c, ← k, ← h.records]
    exact List.mem_map_of_mem m
  · next unseen =>
    have new : e.1 ∉ acc.map (·.1) := by
      intro c
      obtain ⟨f, m, k⟩ := List.mem_map.mp c
      exact unseen (List.any_eq_true.mpr ⟨f, m, by simpa using k⟩)
    have new' : e.1 ∉ all.map (·.1) := fun c => new ((h.records _).mpr c)
    have last : ((all ++ [e]).map (·.1)).idxOf e.1 = all.length := by
      rw [List.map_append, List.idxOf_append_of_notMem new']
      simp
    refine ⟨fun i => ?_, ?_, ?_⟩
    · rw [List.map_append, List.mem_append, List.map_append, List.mem_append, h.records]
    · rw [show (acc ++ [e]).map (·.1) = acc.map (·.1) ++ [e.1] by simp, List.pairwise_append]
      refine ⟨order, by simp, fun a ma b mb => ?_⟩
      have mb : b = e.1 := by simpa using mb
      rw [mb, last, old a ma, ← List.length_map (f := fun x : Nat × BitVec 8 => x.1) (as := all)]
      exact List.idxOf_lt_length_of_mem ((h.records a).mp ma)
    · intro f m
      rcases List.mem_append.mp m with m | m
      · exact found f m
      · have m : f = e := by simpa using m
        subst m
        rw [List.find?_append, List.find?_eq_none.mpr]
        · simp
        · intro g mg c
          exact new' (List.mem_map.mpr ⟨g, mg, by simpa using c⟩)

/-- The entry list names every record of the page once, in order of first appearance through the sections of zones 0 to 3,
with the generation it first appears with (R146). -/
theorem entryList_spec (page : FramePage) :
    ListsOnce ((page.get 0 ++ page.get 1 ++ page.get 2 ++ page.get 3).map fun e => (e.record, e.generation))
      (entryList page) := by
  have fold (all : List (Nat × BitVec 8)) : ListsOnce all (all.foldl listEntry []) := by
    induction all using List.reverseRecOn with
    | nil => exact ⟨by simp, by simp, by simp⟩
    | append_singleton all e ih =>
      rw [List.foldl_append]
      exact listsOnce_snoc ih e
  exact fold _

/-! ## Text blocks (R15) -/

/-- The symbol of each character of a numeric block, the first in the most significant bits. -/
theorem numericBlock_symbol (t : List Byte) {j : Nat} (h : j < 6) :
    (numericBlock t).extractLsb' (20 - 4 * j) 4 = numericSymbol (t.getD j 0x20) := by
  unfold numericBlock
  apply BitVec.eq_of_getLsbD_eq
  intro i hi
  interval_cases j <;> interval_cases i <;>
    (rw [BitVec.getLsbD_extractLsb']; simp only [BitVec.getLsbD_append]; rfl)

/-- The code of each character of an alpha block, the first in the most significant bits. -/
theorem alphaBlock_code (t : List Byte) {j : Nat} (h : j < 3) : (alphaBlock t).extractLsb' (16 - 8 * j) 8 = t.getD j 0 := by
  unfold alphaBlock
  apply BitVec.eq_of_getLsbD_eq
  intro i hi
  interval_cases j <;> interval_cases i <;>
    (rw [BitVec.getLsbD_extractLsb']; simp only [BitVec.getLsbD_append]; rfl)

end Sys2Proof.Machine
end

