-- ==== Sys2Proof/Laws/Answer.lean ====
section
/-! SUPPORT. What answering a posting does, said once (R74, R95): the lemma every order's statement cites. -/

namespace Sys2Proof.Machine

/-- Answering touches the exchange alone. -/
theorem State.answer_eq (s : State) (code : AnswerCode) (data : List Word) :
    s.answer code data = { s with ex := (s.answer code data).ex } := by
  unfold State.answer
  split <;> rfl

/-- A report writer's work touches the exchange alone. -/
theorem State.hand_eq (s : State) (p : Producer) (r : Record) : s.hand p r = { s with ex := (s.hand p r).ex } := rfl

/-- An order's meaning on the posting in hand, where the posting carries the order's code. -/
theorem State.order_inHand {s : State} {n : Nat} {p : Posting} {code : Nat} (h : s.InHand n p code)
    (f : Posting → State) : s.order code f = .next (f p) := by
  simp [State.order, State.posting, h.intake, h.code]

/-- An answer's body has 63 words. -/
theorem answerBody_length (code : AnswerCode) (posting : Word) (data : List Word) :
    (answerBody code posting data).length = 63 := by
  simp [answerBody, bodyWords]

/-- A slot's body lies in the posting board. -/
theorem slotBase_range {n : Nat} (h : n < 512) : 0x1000 ≤ slotBase n ∧ slotBase n + 0x100 ≤ 0x21000 := by
  unfold slotBase Config.boardBase
  omega

/-- What an answer leaves (R74, R95): `Answered`, for a posting of a slot of the board. -/
theorem State.answer_spec {s : State} {n : Nat} {p : Posting} (intake : s.ex.intake = .working n p) (slot : n < 512)
    (mem : Memory.wf s.ex.mem = true) (slots : Table.wf SlotState.free s.ex.slots = true) (pages : s.ex.writer.PageLaw)
    (code : AnswerCode) (data : List Word) :
    Answered s (s.answer code data) n (Posting.code p) code data := by
  have range := slotBase_range slot
  have len := answerBody_length code (Posting.code p) data
  -- the exchange as marked, and what the report writer then does to it
  let written := Memory.writeWords s.ex.mem (slotBase n + 4) (answerBody code (Posting.code p) data)
  let marked : Exchange :=
    { ((({ s.ex with mem := written } : Exchange).setSlot n .answered).setAnswered (s.ex.answered + 1)) with
      summary := { s.ex.summary with answers := true }, intake := .answering n, progress := .begun }
  have memMarked : marked.mem = Memory.writeWord written 0 (word (s.ex.answered + 1)) := rfl
  have wfWritten : Memory.wf written = true := Memory.wf_writeWords mem _ _
  have returned := marked.giveBack_reported s.stamp .intake
  let idle : Exchange := { marked.giveBack s.stamp .intake with intake := .idle }
  have answer : (s.answer code data).ex = idle.wakeIntake s.loading := by
    unfold State.answer
    rw [intake]
    rfl
  -- every field the waking leaves
  have awake : (∃ y : Exchange, (y = idle ∨ y = { idle with intake := .roomWait }) ∧ y.Reported (idle.wakeIntake s.loading)) := by
    rcases idle.wakeIntake_reported s.loading with e | e
    · exact ⟨idle, .inl rfl, by rw [e]; exact .refl _⟩
    · exact ⟨_, .inr rfl, e⟩
  obtain ⟨y, hy, rep⟩ := awake
  have count : marked.writer.count < Config.pageRecords := pages.count
  have yMem : y.mem = (marked.giveBack s.stamp .intake).mem := by rcases hy with rfl | rfl <;> rfl
  have yWriter : y.writer = (marked.giveBack s.stamp .intake).writer := by rcases hy with rfl | rfl <;> rfl
  have yCount : y.writer.count < Config.pageRecords := by rw [yWriter]; exact returned.count count
  have bytes : ∀ a, ¬ inPages a → Memory.read (s.answer code data).ex.mem a = Memory.read marked.mem a := by
    intro a out
    rw [answer, rep.mem yCount a out, yMem, returned.mem count a out]
  have below : ∀ a, a < 0x21000 → ¬ inPages a := by
    intro a lt h
    unfold inPages Config.pagesBase at h
    omega
  refine ⟨?_, ?_, ?_, ?_, ?_, ?_, ?_, ?_, ?_, ?_, ?_, ?_, ?_, ?_, ?_, ?_, ?_⟩
  · rw [Memory.readWords_congr fun c lo hi => bytes c (below c (by omega)), memMarked,
      Memory.readWords_congr fun c lo hi => Memory.read_writeWord_other (by omega) _, ← len]
    exact Memory.readWords_writeWords_same mem _ _
  · intro m
    have e : (s.answer code data).ex.slots = Table.set SlotState.free n .answered s.ex.slots := by
      rw [answer, rep.slots]
      rcases hy with rfl | rfl <;> exact returned.slots
    unfold Exchange.slot
    rw [e, Table.get_set slots]
  · rw [answer, rep.answered]
    rcases hy with rfl | rfl <;> exact returned.answered
  · rw [Memory.readWord_congr fun i hi => bytes _ (below _ (by omega)), memMarked]
    exact Memory.readWord_writeWord_same wfWritten 0 _
  · intro a le slot out
    rw [bytes a out, memMarked, Memory.read_writeWord_other (.inr (by omega))]
    exact Memory.read_writeWords_other (by rw [len]; unfold inSlot at slot; omega)
  · rw [answer, rep.queue]
    rcases hy with rfl | rfl <;> exact returned.queue
  · rw [answer, rep.buffer]
    rcases hy with rfl | rfl <;> exact returned.buffer
  · rw [answer, rep.fence]
    rcases hy with rfl | rfl <;> exact returned.fence
  · rw [answer, rep.enable]
    rcases hy with rfl | rfl <;> exact returned.enable
  · rw [answer, rep.bus]
    rcases hy with rfl | rfl <;> exact returned.bus
  · rw [answer, rep.read]
    rcases hy with rfl | rfl <;> exact returned.read
  · rw [answer, rep.progress]
    rcases hy with rfl | rfl <;> exact returned.progress
  · rw [answer, rep.answers]
    rcases hy with rfl | rfl <;> exact returned.answers
  · refine ⟨?_, ?_, ?_, ?_⟩
    · rw [answer, rep.fenceBit]
      rcases hy with rfl | rfl <;> exact returned.fenceBit
    · rw [answer, rep.linkBit]
      rcases hy with rfl | rfl <;> exact returned.linkBit
    · rw [answer, rep.referenceBit]
      rcases hy with rfl | rfl <;> exact returned.referenceBit
    · rw [answer, rep.engineBit]
      rcases hy with rfl | rfl <;> exact returned.engineBit
  · intro m q e
    rw [answer] at e
    rcases rep.intake with k | k
    · rw [k] at e
      rcases hy with rfl | rfl <;> cases e
    · rw [k] at e
      cases e
  · intro m h
    rw [answer]
    refine rep.notices m ?_
    have k : m ∈ (marked.giveBack s.stamp .intake).notices :=
      returned.notices m h
    rcases hy with rfl | rfl <;> exact k
  · rw [answer]
    refine .trans (y := idle) (.trans (y := marked.giveBack s.stamp .intake) ?_ ?_) (idle.wakeIntake_noRecord s.loading)
    · refine .trans (y := { marked with writer.held := marked.writer.held.filter fun h => decide (h.1 ≠ .intake) }) ?_
        (Exchange.roomRose_noRecord _ s.stamp)
      refine ⟨fun a i r => ?_, rfl, fun _ h => h, .inl ⟨rfl, rfl, rfl, rfl, rfl⟩⟩
      show Memory.read marked.mem a = Memory.read s.ex.mem a
      unfold inPages Config.pagesBase at i
      rw [memMarked, Memory.read_writeWord_other (.inr (by omega))]
      exact Memory.read_writeWords_other (by rw [len]; omega)
    · exact ⟨fun _ _ _ => rfl, rfl, fun _ h => h, .inl ⟨rfl, rfl, rfl, rfl, rfl⟩⟩

/-- What an answer leaves of a state in which only fields outside the exchange differ from `s`. -/
theorem State.InHand.answered {s : State} {n : Nat} {p : Posting} {k : Nat} (h : s.InHand n p k) {t : State}
    (ex : t.ex = s.ex) (code : AnswerCode) (data : List Word) :
    Answered s (t.answer code data) n (Posting.code p) code data := by
  have a : Answered t (t.answer code data) n (Posting.code p) code data :=
    State.answer_spec (by rw [ex]; exact h.intake) h.slot (by rw [ex]; exact h.tidy.mem) (by rw [ex]; exact h.tidy.slots)
      (by rw [ex]; exact h.pages) code data
  exact
    { body := a.body
      slots := fun m => by rw [a.slots m, ex]
      count := by rw [a.count, ex]
      header := by rw [a.header, ex]
      mem := fun c x y z => by rw [a.mem c x y z, ex]
      queue := by rw [a.queue, ex]
      buffer := by rw [a.buffer, ex]
      fence := by rw [a.fence, ex]
      enable := by rw [a.enable, ex]
      bus := by rw [a.bus, ex]
      read := by rw [a.read, ex]
      progress := a.progress
      answers := a.answers
      others := by rw [← ex]; exact a.others
      intake := a.intake
      notices := by rw [← ex]; exact a.notices
      reports := by rw [← ex]; exact a.reports }

end Sys2Proof.Machine
end

