-- ==== Sys2Proof/Laws/Links.lean ====
section
/-! SUPPORT. What a frame mark does to a link controller, step by step (R135): the SILENT observation of step 1 decides its
observation, runs and reports, and the later steps keep them. -/

namespace Sys2Proof.Machine

/-- The fields that an observation decides, kept from `e` to `d`. -/
structure Link.Kept (e d : Link) : Prop where
  settings : d.settings = e.settings
  lastObservation : d.lastObservation = e.lastObservation
  alert : d.alert = e.alert
  faultRun : d.faultRun = e.faultRun
  clearRun : d.clearRun = e.clearRun
  capture : d.capture = e.capture
  trip : d.trip = e.trip
  recovery : d.recovery = e.recovery
  clearCount : d.clearCount = e.clearCount
  alarmCount : d.alarmCount = e.alarmCount
  silentCount : d.silentCount = e.silentCount
  blankedCount : d.blankedCount = e.blankedCount
  dropped : d.dropped = e.dropped

theorem Link.Kept.refl (c : Link) : c.Kept c := ⟨rfl, rfl, rfl, rfl, rfl, rfl, rfl, rfl, rfl, rfl, rfl, rfl, rfl⟩

theorem Link.Kept.trans {c d e : Link} (h : c.Kept d) (k : d.Kept e) : c.Kept e where
  settings := k.settings.trans h.settings
  lastObservation := k.lastObservation.trans h.lastObservation
  alert := k.alert.trans h.alert
  faultRun := k.faultRun.trans h.faultRun
  clearRun := k.clearRun.trans h.clearRun
  capture := k.capture.trans h.capture
  trip := k.trip.trans h.trip
  recovery := k.recovery.trans h.recovery
  clearCount := k.clearCount.trans h.clearCount
  alarmCount := k.alarmCount.trans h.alarmCount
  silentCount := k.silentCount.trans h.silentCount
  blankedCount := k.blankedCount.trans h.blankedCount
  dropped := k.dropped.trans h.dropped

/-- A state change keeps them. -/
theorem Link.moveTo_kept (c : Link) (state : LinkState) : c.Kept (c.moveTo state) := { Link.Kept.refl c with }

/-- The clean run of step 1 keeps them, and touches a KEYED link's clean run and latch counter alone. -/
theorem Link.cleanFrame_spec (c : Link) (v : MarkView) :
    c.Kept (c.cleanFrame v) ∧ (c.cleanFrame v).state = c.state ∧ (c.cleanFrame v).keyed = c.keyed ∧
      (c.cleanFrame v).carried = c.carried ∧ (c.cleanFrame v).blanking = c.blanking ∧
      (c.cleanFrame v).keyOffPending = c.keyOffPending ∧ (c.cleanFrame v).divider = c.divider ∧
      (c.state ≠ .keyed → c.cleanFrame v = c) := by
  unfold Link.cleanFrame
  split
  · next h =>
    split
    · exact ⟨{ Link.Kept.refl c with }, rfl, rfl, rfl, rfl, rfl, rfl, fun n => absurd h.2 n⟩
    · exact ⟨{ Link.Kept.refl c with }, rfl, rfl, rfl, rfl, rfl, rfl, fun n => absurd h.2 n⟩
  · exact ⟨Link.Kept.refl c, rfl, rfl, rfl, rfl, rfl, rfl, fun _ => rfl⟩

/-- Steps 2 and 3 with no boundary key-off pending: a STANDBY link enters KEYED, and another stays. -/
theorem Link.changeOver_spec {c : Link} (none : c.keyOffPending = false) :
    c.Kept c.changeOver ∧ c.changeOver.state = (if c.state = .standby then .keyed else c.state) ∧
      c.changeOver.keyed = c.keyed ∧ c.changeOver.carried = c.carried ∧ c.changeOver.blanking = c.blanking ∧
      c.changeOver.latchCounter = c.latchCounter ∧ c.changeOver.divider = c.divider ∧
      (c.state ≠ .standby → c.changeOver = c) := by
  unfold Link.changeOver
  rw [none]
  show c.Kept (if c.state = .standby then c.moveTo .keyed else c) ∧ _
  simp only [Bool.false_eq_true, if_false]
  split
  · next h => exact ⟨c.moveTo_kept .keyed, rfl, rfl, rfl, rfl, rfl, rfl, fun n => absurd h n⟩
  · exact ⟨Link.Kept.refl c, rfl, rfl, rfl, rfl, rfl, rfl, fun _ => rfl⟩

/-- Step 4 keeps them: a link that is not KEYED stays, and blanking changes at a key-up alone. -/
theorem Link.judgeKeying_spec (c : Link) (v : MarkView) :
    c.Kept (c.judgeKeying v) ∧ (c.judgeKeying v).state = c.state ∧ (c.judgeKeying v).latchCounter = c.latchCounter ∧
      (c.judgeKeying v).divider = c.divider ∧
      ((c.judgeKeying v).keyed = false ∨ c.carried = true → (c.judgeKeying v).blanking = c.blanking) ∧
      (c.state ≠ .keyed → c.judgeKeying v = c) := by
  unfold Link.judgeKeying
  split
  · next h =>
    refine ⟨{ Link.Kept.refl c with }, rfl, rfl, rfl, fun k => if_neg fun e => ?_, fun n => absurd h.2 n⟩
    rcases k with k | k
    · exact Bool.noConfusion (k.symm.trans e.1)
    · exact Bool.noConfusion (k.symm.trans e.2)
  · exact ⟨Link.Kept.refl c, rfl, rfl, rfl, fun _ => rfl, fun _ => rfl⟩

/-- Step 5 touches the divider alone. -/
theorem Link.raiseDivider_eq (c : Link) : c.raiseDivider = { c with divider := c.raiseDivider.divider } := by
  unfold Link.raiseDivider
  split <;> rfl

/-- The divider of a link not OFF that offers nothing rises by one. -/
theorem Link.raiseDivider_divider {c : Link} (on : c.state ≠ .off) (below : c.divider + 1 < c.settings.cadence) :
    c.raiseDivider.divider = c.divider + 1 := by
  unfold Link.raiseDivider Link.offers
  rw [if_neg on]
  exact if_neg (by simp; omega)

/-- A mark's SILENT observation of a link not OFF in a frame in which no status message was judged (R135, R138). -/
theorem Link.endFrame_silent {c : Link} {v : MarkView} {serial : Nat} (ended : v.ended = some serial) (on : c.state ≠ .off)
    (untaken : c.statusTaken = false) :
    c.endFrame v =
      Link.observe { c with carried := c.keyed, keyed := false } .silent ⟨serial, v.mark, Config.frameBlocks, 0, 0⟩ := by
  unfold Link.endFrame
  rw [ended]
  exact if_pos ⟨on, untaken⟩

/-- A mark after its observation, no key-off pending: what the observation decided stands, a STANDBY link enters KEYED, and a
link neither STANDBY nor KEYED stays as the observation left it. -/
theorem Link.takeMark_spec {c : Link} {v : MarkView} (none : (c.endFrame v).keyOffPending = false) :
    (c.endFrame v).Kept (c.takeMark v) ∧
      (c.takeMark v).state = (if (c.endFrame v).state = .standby then .keyed else (c.endFrame v).state) ∧
      ((c.takeMark v).keyed = false ∨ (c.endFrame v).carried = true →
        (c.takeMark v).blanking = (c.endFrame v).blanking) ∧
      ((c.endFrame v).state ≠ .standby → (c.endFrame v).state ≠ .keyed →
        c.takeMark v = { (c.endFrame v).raiseDivider with statusTaken := false }) := by
  unfold Link.takeMark Link.beforeKeying
  generalize c.endFrame v = e at *
  obtain ⟨k1, s1, y1, c1, b1, o1, -, n1⟩ := e.cleanFrame_spec v
  obtain ⟨k2, s2, -, c2, b2, -, -, n2⟩ := Link.changeOver_spec (o1.trans none)
  obtain ⟨k3, s3, -, -, b3, n3⟩ := (e.cleanFrame v).changeOver.judgeKeying_spec v
  have last : ((e.cleanFrame v).changeOver.judgeKeying v).Kept
      { ((e.cleanFrame v).changeOver.judgeKeying v).raiseDivider with statusTaken := false } := by
    rw [Link.raiseDivider_eq]
    exact { Link.Kept.refl _ with }
  refine ⟨k1.trans (k2.trans (k3.trans last)), ?_, fun h => ?_, fun a b => ?_⟩
  · rw [Link.raiseDivider_eq]
    show ((e.cleanFrame v).changeOver.judgeKeying v).state = _
    rw [s3, s2, s1]
  · rw [Link.raiseDivider_eq] at h ⊢
    refine (b3 (h.imp id fun k => ?_)).trans (b2.trans b1)
    rw [c2, c1, k]
  · rw [n1 b] at n2 ⊢
    rw [n1 b, n2 a] at n3
    rw [n2 a, n3 b]

end Sys2Proof.Machine
end

