-- ==== Sys2Proof/Laws/Window.lean ====
section
/-! SUPPORT. The exchange window said once: which region an offset lies in (R67), what the burst of a delayed read fetches (R68),
and which bytes a reset writes (R70, R77, R168). -/

namespace Sys2Proof.Machine

/-! ## Regions (R67) -/

/-- An offset of the header. -/
theorem regionOf_header {o : Nat} (h : o < 0x1000) : regionOf o = .header := if_pos h

/-- The state word of a slot. -/
theorem regionOf_slotState {n : Nat} (h : n < 512) : regionOf (0x1000 + n * 0x100) = .slotState n := by
  unfold regionOf Config.boardBase Config.pagesBase
  dsimp only
  rw [if_neg (by omega), if_pos (by omega), if_pos (by omega), show (0x1000 + n * 0x100 - 0x1000) / 0x100 = n by omega]

/-- The body of a slot. -/
theorem regionOf_slotBody {n k : Nat} (h : n < 512) (pos : 0 < k) (lt : k < 0x100) :
    regionOf (0x1000 + n * 0x100 + k) = .slotBody n := by
  unfold regionOf Config.boardBase Config.pagesBase
  dsimp only
  rw [if_neg (by omega), if_pos (by omega), if_neg (by omega),
    show (0x1000 + n * 0x100 + k - 0x1000) / 0x100 = n by omega]

/-- The state word of a report page. -/
theorem regionOf_pageState (p : Index8) : regionOf (0x21000 + p.val * 0x1000) = .pageState p := by
  have e : Fin.ofNat 8 ((0x21000 + p.val * 0x1000 - 0x21000) / 0x1000) = p := by
    rw [show (0x21000 + p.val * 0x1000 - 0x21000) / 0x1000 = p.val by omega]
    exact Fin.ofNat_val_eq_self p
  unfold regionOf Config.boardBase Config.pagesBase Config.usedEnd
  dsimp only
  rw [if_neg (by omega), if_neg (by omega), if_pos (by omega), if_pos (by omega), e]

/-- The records of a report page and the rest of its header. -/
theorem regionOf_pageBody (p : Index8) {k : Nat} (pos : 0 < k) (lt : k < 0x1000) :
    regionOf (0x21000 + p.val * 0x1000 + k) = .pageBody p := by
  have e : Fin.ofNat 8 ((0x21000 + p.val * 0x1000 + k - 0x21000) / 0x1000) = p := by
    rw [show (0x21000 + p.val * 0x1000 + k - 0x21000) / 0x1000 = p.val by omega]
    exact Fin.ofNat_val_eq_self p
  unfold regionOf Config.boardBase Config.pagesBase Config.usedEnd
  dsimp only
  rw [if_neg (by omega), if_neg (by omega), if_pos (by omega), if_neg (by omega), e]

/-- The unused part of the window. -/
theorem regionOf_unused {o : Nat} (h : 0x29000 ≤ o) : regionOf o = .unused := by
  unfold regionOf Config.boardBase Config.pagesBase Config.usedEnd
  rw [if_neg (by omega), if_neg (by omega), if_neg (by omega)]

/-! ## The burst of a delayed read (R68) -/

/-- The burst fetches the word where the read waits for nothing else. -/
theorem Exchange.fetch_eq {x : Exchange} {r : DelayedRead} (read : x.read = some r) (data : r.data = none)
    (used : r.offset < 0x29000) (ready : x.buffer.length ≤ r.after) :
    x.fetch = { x with read := some { r with data := some (x.windowWord r.offset) } } := by
  unfold Exchange.fetch
  rw [read]
  exact if_pos ⟨data, used, by simpa [Exchange.readReady] using ready⟩

/-- The burst does nothing where the read has its data, needs none, or waits for a write. -/
theorem Exchange.fetch_idle {x : Exchange} {r : DelayedRead} (read : x.read = some r)
    (wait : r.data ≠ none ∨ 0x29000 ≤ r.offset ∨ r.after < x.buffer.length) : x.fetch = x := by
  unfold Exchange.fetch
  rw [read]
  refine if_neg fun h => ?_
  have b : x.buffer.length ≤ r.after := by simpa [Exchange.readReady] using h.2.2
  have u : r.offset < 0x29000 := h.2.1
  rcases wait with d | d | d
  · exact d h.1
  · omega
  · omega

/-- A burst changes nothing but the delayed read. -/
theorem Exchange.fetch_eta (x : Exchange) : x.fetch = { x with read := x.fetch.read } := by
  unfold Exchange.fetch
  split
  · split <;> rfl
  · rfl

/-- Words written elsewhere leave words alone. -/
theorem Memory.readWords_writeWords_other {m : List Host.Cell} {a c k : Nat} {ws : List Word}
    (out : c + 4 * k ≤ a ∨ a + 4 * ws.length ≤ c) :
    Memory.readWords (Memory.writeWords m a ws) c k = Memory.readWords m c k :=
  Memory.readWords_congr fun _ _ _ => Memory.read_writeWords_other (by omega)

/-! ## The bytes a reset writes (R70, R77, R168) -/

/-- Page headers cleared one after the other leave a byte outside the two words of each header alone. -/
theorem Memory.read_clearPageHeaders {m : List Host.Cell} {a : Nat}
    (out : ∀ p : Index8, a < pageBase p + 4 ∨ pageBase p + 12 ≤ a) :
    Memory.read (clearPageHeaders m) a = Memory.read m a := by
  unfold clearPageHeaders
  generalize List.finRange 8 = ps
  induction ps generalizing m with
  | nil => rfl
  | cons p rest ih =>
    rw [List.foldl_cons, ih]
    exact Memory.read_writeWords_other (by simp only [List.length_cons, List.length_nil]; exact out p)

/-- Clearing the page headers keeps the canonical form. -/
theorem Memory.wf_clearPageHeaders {m : List Host.Cell} (h : Memory.wf m = true) :
    Memory.wf (clearPageHeaders m) = true := by
  unfold clearPageHeaders
  generalize List.finRange 8 = ps
  induction ps generalizing m with
  | nil => exact h
  | cons p rest ih => exact ih (Memory.wf_writeWords h _ _)

/-- A reset's bytes keep the canonical form. -/
theorem Memory.wf_resetBytes {m : List Host.Cell} (h : Memory.wf m = true) : Memory.wf (resetBytes m) = true :=
  Memory.wf_writeWords (Memory.wf_writeWords (Memory.wf_clearPageHeaders h) _ _) _ _

/-- A reset leaves every byte alone but those of the mirrors, the office clock's apart, and of the page headers' record count
and sequence number. -/
theorem Memory.read_resetBytes {m : List Host.Cell} {a : Nat} (mirrors : 0x20 ≤ a ∨ (0x10 ≤ a ∧ a < 0x18))
    (out : ∀ p : Index8, a < pageBase p + 4 ∨ pageBase p + 12 ≤ a) :
    Memory.read (resetBytes m) a = Memory.read m a := by
  unfold resetBytes
  rw [Memory.read_writeWords_other (by simp only [List.length_cons, List.length_nil]; omega),
    Memory.read_writeWords_other (by simp only [List.length_cons, List.length_nil]; omega),
    Memory.read_clearPageHeaders out]

/-- The record count and sequence number of each cleared page header read 0. -/
theorem Memory.readWords_clearPageHeaders {m : List Host.Cell} (h : Memory.wf m = true) (p : Index8) :
    Memory.readWords (clearPageHeaders m) (pageBase p + 4) 2 = [0, 0] := by
  have go (ps : List Index8) (nodup : ps.Nodup) (m : List Host.Cell) (h : Memory.wf m = true)
      (held : p ∈ ps ∨ Memory.readWords m (pageBase p + 4) 2 = [0, 0]) :
      Memory.readWords (ps.foldl (fun m p => Memory.writeWords m (pageBase p + 4) [0, 0]) m) (pageBase p + 4) 2 = [0, 0] := by
    induction ps generalizing m with
    | nil => exact held.resolve_left List.not_mem_nil
    | cons q rest ih =>
      refine ih nodup.of_cons _ (Memory.wf_writeWords h _ _) ?_
      by_cases e : q = p
      · subst e
        exact .inr (Memory.readWords_writeWords_same h _ [0, 0])
      · refine held.imp (fun m => (List.mem_cons.mp m).resolve_left (Ne.symm e)) fun z => ?_
        rw [← z]
        refine Memory.readWords_congr fun c lo hi => Memory.read_writeWords_other ?_
        have : q.val ≠ p.val := fun k => e (Fin.ext k)
        have lo : 0x21000 + p.val * 0x1000 + 4 ≤ c := lo
        have hi : c < 0x21000 + p.val * 0x1000 + 4 + 8 := hi
        show c < 0x21000 + q.val * 0x1000 + 4 ∨ 0x21000 + q.val * 0x1000 + 4 + 8 ≤ c
        omega
  exact go _ (List.nodup_finRange 8) m h (.inl (List.mem_finRange p))

end Sys2Proof.Machine
end

