-- ==== Sys2Proof/Tests/Slice0.lean ====
section
/-! SUPPORT. The author's own tests: ill-formed commands refused, the specification's worked cases on single steps, and for
every statement with hypotheses a concrete state and operands that meet them. -/

namespace Sys2Proof.Tests

open Sys2Proof.Machine

/-! ## Ill-formed commands (the four checks of WellFormed) -/

theorem test_read_misaligned_refused : Instr.wellFormed (.hostWindowRead 0x1002) = false := by decide
theorem test_read_past_window_refused : Instr.wellFormed (.hostWindowRead 0x100000) = false := by decide
theorem test_write_misaligned_refused : Instr.wellFormed (.hostWindowWrite 3 0 0xF) = false := by decide
theorem test_write_past_window_refused : Instr.wellFormed (.hostWindowWrite 0x100000 0 0xF) = false := by decide
theorem test_ignored_write_of_event_summary_refused : Instr.wellFormed (.registerWriteIgnored 0x04 0 0xF) = false := by decide
theorem test_status_past_the_frame_refused : Instr.wellFormed (.linkStatusMessage 0 0 true 121) = false := by decide
theorem test_status_at_the_frame_end_accepted : Instr.wellFormed (.linkStatusMessage 0 0 true 120) = true := by decide
theorem test_no_word_spells_a_command : decodeTableWord 32 0xFFFFFFFF = none := by decide

/-! ## The air format: sections 1.4 and 1.5 -/

/-- Section 1.5: the first text block of "555-0142" is 555B01h and the second is 42AAAAh. -/
theorem test_numeric_blocks :
    textData .numeric [0x35, 0x35, 0x35, 0x2D, 0x30, 0x31, 0x34, 0x32] = [0x555B01, 0x42AAAA] := by decide

set_option maxRecDepth 20000 in
/-- Section 1.5: the codeword of 555B01h before whitening is 555B012Dh. -/
theorem test_check_byte : codeword 0x555B01 = 0x555B012D := by decide

set_option maxRecDepth 20000 in
/-- R17: the idle block's codeword is 5A3C9618h. -/
theorem test_idle_codeword : codeword idleBlock = 0x5A3C9618 := by decide

set_option maxRecDepth 20000 in
/-- Section 1.4: serial 8192 has seed 0001h, and its first three whitening words are 0002000Ch, 002800F0h and 02200CC0h. -/
theorem test_whitening_words : whiten (whiteningSeed 8192) [0, 0, 0] = [0x0002000C, 0x002800F0, 0x02200CC0] := by decide

set_option maxRecDepth 20000 in
/-- Section 1.4: blocks 3 and 4 of an empty section of serial 8192 are sent as 5A3E9614h and 5A1496E8h. -/
theorem test_whitened_idle :
    whiten (whiteningSeed 8192) [codeword idleBlock, codeword idleBlock] = [0x5A3E9614, 0x5A1496E8] := by decide

set_option maxRecDepth 20000 in
/-- Section 1.5: header blocks 1 and 2 of office 17, serial 8192, zone 2. -/
theorem test_headers : headerBlock1 17 8192 2 = 0b010001_00000000_00000_10_000 ∧
    headerBlock2 [⟨0, 0, [0, 0]⟩, ⟨1, 0, [0, 0]⟩, ⟨2, 0, [0, 0, 0]⟩] = 0b00011_0000111_000000000000 := by decide

/-! ## Rating: sections 3.3 and 5.9 -/

/-- Plan 2 of section 5.9. -/
def plan2 : RatePlan :=
  { RatePlan.powerOn with
    base := 20, perBlock := 5, urgentPercent := 200, t1 := 65535, t2 := 65535, warningLevel := 100, recoveryMargin := 50
    refundable := true }

/-- Section 5.9, row 4: T 2, raw 30, charge 30. -/
theorem test_charge_30 : (rate plan2 (Office.defaults 0) 0 0 .numeric 12 false).charge = 30 := by decide

/-- Section 5.9, row 11: T 3, raw 35, u 70. -/
theorem test_charge_70 : (rate plan2 (Office.defaults 0) 0 0 .alpha 9 true).charge = 70 := by decide

/-- Section 5.9: the handle of generation 5, record 37 is 14025h. -/
theorem test_handle : handleWord 5 37 = 0x14025 ∧ handleIndex 0x14025 = 37 ∧ handleGeneration 0x14025 = 5 := by decide

/-- Section 5.9: an urgent key of sequence 7301 comes before a normal one of 7300. -/
theorem test_key_order : OrderKey.before ⟨true, 7301⟩ ⟨false, 7300⟩ = true := by decide

/-! ## The reference monitor: section 1.6 -/

/-- Section 1.6: with limit 2 the fifth boundary in HOLDOVER enters LOST with count 5. -/
theorem test_holdover_ends :
    (Monitor.countHoldover ⟨.holdover, none, 0, 4, none, false⟩ 2) = ⟨.lost, none, 0, 5, none, false⟩ := by decide

/-- R10: a window that expires at the time of a second boundary still to be taken enters HOLDOVER, and that boundary is not
counted; with limit 0 the next one is, and enters LOST. -/
theorem test_entry_boundary_uncounted :
    let entered := Monitor.expire ⟨.locked, some 1900000, 0, 0, none, false⟩ 3000000
    entered.state = .holdover ∧ (entered.countHoldover 0).state = .holdover ∧ (entered.countHoldover 0).holdover = 0 ∧
    ((entered.countHoldover 0).countHoldover 0).state = .lost := by decide

/-- Section 1.6, 8.9 s: a pulse 0.5 s after the last is missed. -/
theorem test_early_pulse :
    (Monitor.pulse ⟨.lost, some 8400000, 1, 5, none, false⟩ 8900000 9000000) = ⟨.lost, some 8900000, 0, 5, none, false⟩ := by
  decide

/-- Section 1.6, 12.9 s: the fourth good pulse moves LOST to LOCKED with both counts 0. -/
theorem test_fourth_good_pulse :
    (Monitor.pulse ⟨.lost, some 11900000, 3, 5, none, false⟩ 12900000 13000000) =
      ⟨.locked, some 12900000, 0, 0, none, false⟩ := by decide

/-- R7: exactly 1.1 s is good if the pulse is taken first, and a pulse later than that is a starting pulse. -/
theorem test_window_edge : (Monitor.pulse ⟨.locked, some 0, 0, 0, none, false⟩ 1100000 2000000).state = .locked ∧
    (Monitor.pulse ⟨.locked, some 0, 0, 0, none, false⟩ 1100001 2000000).state = .holdover := by decide

/-! ## The arbiter: section 4.9 -/

/-- Section 4.9, grants 1 and 6: from the report writer to the host window, and from intake to the frame builder. -/
theorem test_rotation :
    Arbiter.grant Arbiter.reset (Office.weight (Office.defaults 0)) false ⟨true, true, true, true, false, false⟩ =
      ⟨.hostWindow, 1, .client .hostWindow⟩ ∧
    Arbiter.grant ⟨.intake, 3, .idle⟩ (Office.weight (Office.defaults 0)) false ⟨true, false, true, true, false, false⟩ =
      ⟨.frameBuilder, 1, .client .frameBuilder⟩ := by decide

/-- Section 4.9, grants 12 and 13: the encoder's burst leaves the tracker's run count 2, which then goes to 3. -/
theorem test_encoder_keeps_run :
    Arbiter.grant (Arbiter.grant ⟨.tracker, 2, .idle⟩ (Office.weight (Office.defaults 0)) true
      ⟨true, false, true, true, false, false⟩) (Office.weight (Office.defaults 0)) false
      ⟨true, false, true, true, false, false⟩ = ⟨.tracker, 3, .client .tracker⟩ := by decide

/-- R79: after a reset the report writer holds with run count 0, and the first grant goes to the first requesting client from
the host window onward, though the report writer requests too. -/
theorem test_first_grant_after_reset :
    Arbiter.grant Arbiter.reset (Office.weight (Office.defaults 0)) false ⟨false, true, false, false, false, true⟩ =
      ⟨.intake, 1, .client .intake⟩ := by decide

/-! ## Retry: the table of R164 -/

/-- R164: with cap 4, attempts 1 to 5 wait 0, 1, 3, 4 and 4 extra cycles. -/
theorem test_backoff : [1, 2, 3, 4, 5].map (fun a => backoff a 4) = [0, 1, 3, 4, 4] := by decide

/-- R161: with confirm 2 the second message in a row from a zone confirms it. -/
theorem test_debounce : (Reach.debounce ⟨0, false, none, 0, some 1, 1⟩ 2 1 6800).heardZone = some 1 ∧
    (Reach.debounce ⟨0, false, some 1, 9, some 1, 7⟩ 2 3 6800) = ⟨0, false, some 1, 9, some 3, 1⟩ := by decide

/-! ## Helper states -/

/-- A subscriber on plan 0, class 0, slot 9, with these state, period and open count. -/
def subscriber (state : SubscriberState) (period openCount : Nat) : Subscriber :=
  ⟨{ Billing.powerOn with state := state, slot := 9, homeZones := 1, period := period }, ⟨openCount, 0⟩, Reach.reset⟩

/-- An unreachable subscriber. -/
def unreachable (u : Subscriber) : Subscriber := { u with reach := { u.reach with unreachable := true, missCount := 4 } }

/-- A message record of a subscriber in a state, expiring at cycle 5. -/
def record (subscriber : Nat) (state : MessageState) : MessageRecord :=
  { MessageRecord.powerOn with state := state, subscriber := subscriber, expiry := 5 }

/-- A machine in an engine state, with these subscribers and records. -/
def machine (state : EngineState) (subscribers : Table Subscriber) (records : Table MessageRecord) : State :=
  { State.reset with engine.state := state, account.subscribers := subscribers, store.records := records }

/-- The exchange while the intake unit works on a posting of slot 0. -/
def desk (p : Posting) : Exchange :=
  { Exchange.powerOn with
    slots := [(0, .taken)], intake := .working 0 p, writer := { Writer.reset with held := [(.intake, 8)] } }

/-- A machine whose intake unit works on a posting of slot 0. -/
def office (state : EngineState) (subscribers : Table Subscriber) (records : Table MessageRecord) (p : Posting) : State :=
  { machine state subscribers records with ex := desk p }

/-- RUNNING after reset. -/
def running : State := machine .running [] []

/-- A report writer with page 0 FILLING, these record count and due mark, and these reservations and requests. -/
def filling (count : Nat) (due : Bool) (held : List (Producer × Nat)) (waiting : List Producer) : Writer :=
  { Writer.reset with
    pages := (Vector.replicate 8 .empty).set 0 .filling, count := count, due := due, next := 1, held := held
    waiting := waiting }

/-- A machine outside LOADING with these slots, queue and write buffer. -/
def board (slots : Table SlotState) (queue : List Nat) (buffer : List BufferedWrite) : State :=
  { machine .setup [] [] with
    ex := { Exchange.powerOn with slots := slots, queue := queue, buffer := buffer } }

/-- A producer holding its reservation and nothing else in the report writer. -/
def holding (s : State) (p : Producer) : State := { s with ex.writer := { Writer.reset with held := [(p, p.amount)] } }

/-- A machine in which the link unit's link 0 is replaced. -/
def withLink (s : State) (c : Link) : State := { s with links := s.links.set 0 c }

/-- Link 0 in a state, with zone 0. -/
def link (state : LinkState) : Link := { Link.reset (LinkSettings.powerOn (some 0)) with state := state }

/-- A frame in progress with one entry. -/
def frame : Frame := ⟨0, [(0, 0)], Vector.replicate 4 []⟩

/-- A page law that decide can judge. -/
theorem pageLaw_of {w : Writer} (one : ∀ p q : Index8, w.pages.get p = .filling → w.pages.get q = .filling → p = q)
    (count : w.count < 63) (requests : ∀ p, p ∈ w.waiting → w.holds p = false) : w.PageLaw :=
  ⟨one, count, requests⟩

/-- Canonical data, from the four checks. -/
theorem tidy_of {s : State} (h : (Memory.wf s.ex.mem && Table.wf SlotState.free s.ex.slots &&
    Table.wf Subscriber.powerOn s.account.subscribers && Table.wf MessageRecord.powerOn s.store.records) = true) : s.Tidy := by
  simp only [Bool.and_eq_true] at h
  exact ⟨h.1.1.1, h.1.1.2, h.1.2, h.2⟩

/-- Such a machine has the posting in hand. -/
theorem inHand {state : EngineState} {subscribers : Table Subscriber} {records : Table MessageRecord}
    {p : Posting} {code : Nat} (c : (Posting.code p).toNat = code)
    (h : (Table.wf Subscriber.powerOn subscribers && Table.wf MessageRecord.powerOn records) = true) :
    (office state subscribers records p).InHand 0 p code := by
  simp only [Bool.and_eq_true] at h
  exact ⟨rfl, by decide, c,
    ⟨show Memory.wf memoryPowerOn = true by decide, show Table.wf SlotState.free [(0, .taken)] = true by decide, h.1, h.2⟩,
    ⟨show ∀ p q : Index8, Writer.reset.pages.get p = .filling → Writer.reset.pages.get q = .filling → p = q by decide,
      show (0 : Nat) < 63 by decide, show ∀ p, p ∈ ([] : List Producer) → _ by simp⟩⟩

/-- The same machine with other links, clock, plans or store counts has it in hand as well. -/
theorem inHand_congr {s t : State} {n : Nat} {p : Posting} {code : Nat} (h : s.InHand n p code) (ex : t.ex = s.ex)
    (u : t.account.subscribers = s.account.subscribers) (r : t.store.records = s.store.records) : t.InHand n p code :=
  ⟨ex ▸ h.intake, h.slot, h.code, ⟨ex ▸ h.tidy.mem, ex ▸ h.tidy.slots, u ▸ h.tidy.subscribers, r ▸ h.tidy.records⟩,
    ex ▸ h.pages⟩

/-! ## Witnesses: states and operands that meet each statement's hypotheses, clause by clause -/

/-! ### Steps, reset and the laws -/

/-- A running machine in mid-work: slot 0 POSTED and in the queue, slot 1 ANSWERED, a FILLING page, a keyed link with its
frame, an unreachable subscriber with a HELD record, a WAITING record, and a roll walk that has not reached subscriber 2. -/
def busy : State :=
  { machine .running
      [(1, subscriber .active 3 1), (2, unreachable (subscriber .active 2 1))]
      [(0, record 1 .waiting), (1, record 2 .held)] with
    pending := [.secondBoundary]
    air := ⟨14, 7, true, 1, 86399, ⟨.holdover, none, 0, 1, none, false⟩⟩
    account.period := 3
    account.walk := ⟨true, 2, 1⟩
    store.freeCount := 16382
    store.lists := (Vector.replicate 32 []).set 9 [0]
    links := (Vector.replicate 8 (link .off)).set 0 { link .keyed with keyed := true }
    frame := some frame
    ex := { Exchange.powerOn with
      mem := [(0, 1), (9, 0x40)], slots := [(0, .posted), (1, .answered)], queue := [0], answered := 1
      intake := .roomWait, writer := filling 62 true [(.rollWalk, 8)] [.intake] } }

theorem busy_tidy : busy.Tidy := tidy_of (by decide)

theorem busy_pages : busy.ex.writer.PageLaw := pageLaw_of (by decide) (by decide) (by decide)

theorem busy_guard : busy.ex.GuardLaw where
  posted n := by
    show n ∈ [0] ↔ Table.get SlotState.free [(0, .posted), (1, .answered)] n = .posted
    simp only [Table.get, List.mem_singleton]
    split_ifs <;> simp_all
  nodup := by decide
  length := by decide
  range n := by
    show Table.get SlotState.free [(0, .posted), (1, .answered)] n ≠ .free → n < 512
    simp only [Table.get]
    split_ifs <;> simp_all
  count := by decide
  header := by decide
  working n p h := by cases h
  reserved h := by rcases h with h | ⟨n, p, h⟩ <;> cases h

theorem busy_key : busy.KeyLaw := ⟨by decide, by decide, by decide, by decide⟩

theorem busy_unreachable : busy.UnreachableLaw := by
  intro i
  show (Table.get MessageRecord.powerOn [(0, record 1 .waiting), (1, record 2 .held)] i).state = .waiting →
    (busy.sub (Table.get MessageRecord.powerOn [(0, record 1 .waiting), (1, record 2 .held)] i).subscriber).reach.unreachable =
      false
  simp only [Table.get]
  split_ifs <;> decide

theorem busy_period : busy.PeriodLaw where
  office := by decide
  current n _ := by
    show (Table.get Subscriber.powerOn
        [(1, subscriber .active 3 1), (2, unreachable (subscriber .active 2 1))] n).billing.state ≠ .vacant →
      (Table.get Subscriber.powerOn
        [(1, subscriber .active 3 1), (2, unreachable (subscriber .active 2 1))] n).billing.period = 3 ∨
        (true = true ∧ 2 ≤ n ∧ (Table.get Subscriber.powerOn
          [(1, subscriber .active 3 1), (2, unreachable (subscriber .active 2 1))] n).billing.period = (3 + 65535) % 65536)
    simp only [Table.get]
    split_ifs <;> simp_all [subscriber, unreachable, Subscriber.powerOn, Billing.powerOn]

theorem busy_steps : ∃ t, step busy = .next t := ⟨_, rfl⟩

theorem busy_room : busy.ex.writer.RoomLaw := ⟨by decide, by decide, by decide, fun h m => by
  rw [List.mem_singleton.mp m]
  exact ⟨by decide, by decide⟩⟩

/-- The two records of the machine in mid-work, by index. -/
theorem busy_msg (i : Nat) : busy.msg i =
    if i = 0 then record 1 .waiting else if i = 1 then record 2 .held else MessageRecord.powerOn := by
  show Table.get MessageRecord.powerOn [(0, record 1 .waiting), (1, record 2 .held)] i = _
  simp only [Table.get]

theorem busy_sub (n : Nat) : busy.sub n =
    if n = 1 then subscriber .active 3 1 else if n = 2 then unreachable (subscriber .active 2 1) else Subscriber.powerOn := by
  show Table.get Subscriber.powerOn [(1, subscriber .active 3 1), (2, unreachable (subscriber .active 2 1))] n = _
  simp only [Table.get]

theorem busy_count (p : MessageRecord → Bool) : busy.countMsgs p =
    (if p (record 1 .waiting) then 1 else 0) + (if p (record 2 .held) then 1 else 0) := by
  show Table.countWhere p [(0, record 1 .waiting), (1, record 2 .held)] = _
  cases a : p (record 1 .waiting) <;> cases b : p (record 2 .held) <;> simp [Table.countWhere, a, b]

theorem busy_store : busy.StoreLaw where
  range i := by
    rw [busy_msg]
    split_ifs <;> simp_all [MessageRecord.powerOn, Config.records]
  open_ n := by
    rw [busy_sub, busy_count]
    by_cases a : n = 1
    · subst a; decide
    · by_cases b : n = 2
      · subst b; decide
      · have first : MessageRecord.ofSubscriber n (record 1 .waiting) = false := by
          show (true && decide (1 = n)) = false
          simp [Ne.symm a]
        have second : MessageRecord.ofSubscriber n (record 2 .held) = false := by
          show (true && decide (2 = n)) = false
          simp [Ne.symm b]
        rw [if_neg a, if_neg b, first, second]
        rfl
  limit n := by
    rw [busy_sub]
    split_ifs <;> decide
  vacant n := by
    rw [busy_sub]
    split_ifs <;> decide
  tags n k := by
    have none : (busy.sub n).store.tags = 0 := by rw [busy_sub]; split_ifs <;> rfl
    rw [none]
    refine ⟨fun h => by simp at h, fun ⟨i, _, _, h⟩ => ?_⟩
    rw [busy_msg] at h
    split_ifs at h <;> cases h
  distinct i j k _ _ _ h := by
    rw [busy_msg] at h
    split_ifs at h <;> cases h
  flight n := by
    rw [busy_count]
    split_ifs <;> decide
  free := by
    rw [busy_count]
    decide
  rising := List.Pairwise.nil
  stopped i h := absurd h (List.not_mem_nil)

theorem busy_lists : busy.ListLaw where
  listed f i := by
    rw [busy_msg]
    have list : busy.store.lists.get f = if f = 9 then [0] else [] := by revert f; decide
    rw [list]
    by_cases a : i = 0
    · subst a
      show 0 ∈ (if f = 9 then [0] else []) ↔ MessageState.waiting = .waiting ∧ (9 : Fin 32) = f
      by_cases c : f = 9
      · simp [c]
      · simp [c, Ne.symm c]
    · rw [if_neg a]
      by_cases b : i = 1
      · subst b
        rw [if_pos rfl]
        split_ifs <;> simp [record]
      · rw [if_neg b]
        split_ifs <;> simp [a, MessageRecord.powerOn]
  once f := by revert f; decide
  order f := by
    have list : busy.store.lists.get f = if f = 9 then [0] else [] := by revert f; decide
    rw [list]
    split_ifs
    · exact List.pairwise_singleton ..
    · exact List.Pairwise.nil

theorem busy_intake : busy.ex.IntakeLaw := fun k h => by
  cases List.mem_singleton.mp h

theorem busy_admission : busy.AdmissionLaw := fun d h => by cases h

/-- O3 to O8: one state keeps every law and steps. -/
theorem witness_laws : busy.Lawful ∧ ∃ t, step busy = .next t :=
  ⟨⟨busy_tidy, busy_guard, busy_pages, busy_room, busy_intake, busy_admission, busy_key, busy_unreachable, busy_store, busy_lists,
      (by show State.reset.SectionLaw; unfold State.SectionLaw; decide), busy_period⟩,
    busy_steps⟩

theorem witness_PowerOnResetEntersLoading : busy.Tidy := busy_tidy

/-! ### Resets, load and registers -/

theorem witness_LoadUsesProfileOrDefaults :
    State.reset.engine.state = .loading ∧ profileSum (Vector.replicate 24 0) = 0 ∧
    profileSum ((Vector.replicate 24 0).set 23 1) ≠ 0 := by decide

theorem witness_AccessRetriedInLoading : State.reset.engine.state = .loading ∧ 0xFFFFF < 0x100000 ∧ 31 < 32 := by decide

theorem witness_EngineResetAppliesWhole : busy.engine.state ≠ .loading ∧ busy.Tidy ∧
    ((1#32).getLsbD 0 && (1#4).getLsbD 0) = true ∧ ((1#32).getLsbD 0 && (0xE#4).getLsbD 0) = false :=
  ⟨by decide, busy_tidy, by decide, by decide⟩

/-- A tone message for subscriber 7. -/
def tone : Draft := ⟨7, .tone, false, [], 0xABCD, 0⟩

/-- Subscriber 7 with this balance and a credit limit of 9, behind by a period, whose message of 10 CU stands at a point. -/
def messageInHand (balance : Int) (progress : Progress) : State :=
  { machine .setup [(7, ⟨{ Billing.powerOn with state := .active, balance := balance, creditLimit := 9, period := 3 }, ⟨0, 0⟩,
      Reach.reset⟩)] [(0, record 9 .waiting)] with
    account.plans := Vector.replicate 16 { RatePlan.powerOn with base := 10 }
    ex := { Exchange.powerOn with
      slots := [(0, .taken)], intake := .working 0 [1, 7, 0, 0, 0, 0xABCD], progress := progress
      writer := { Writer.reset with held := [(.intake, progress.least)] } } }

/-- What a charge of 10 CU to a balance of 1 leaves. -/
def tenCharged : Charged := ((messageInHand 1 (.checked tone)).rollIfStale 7).chargeOf tone

/-- O5 and O7, the laws of R83 and R87: a message past its checks, and past its charge, with 8 and 7 positions left. -/
theorem witness_message_laws : ∀ q : Progress, q = .checked tone ∨ q = .charged tone tenCharged →
    (messageInHand 1 q).ex.IntakeLaw ∧ (messageInHand 1 q).AdmissionLaw ∧ (messageInHand 1 q).ex.progress.draft = some tone := by
  rintro q (rfl | rfl)
  all_goals
    refine ⟨fun k h => ?_, fun d h => ?_, rfl⟩
    · cases List.mem_singleton.mp h
      decide
    · cases h
      exact ⟨⟨_, _, rfl, by decide⟩, by decide⟩

/-- R97: a message posting abandoned before its rating, refused at the credit check, charged, and committed; the billing group
and the record's generation at each row of the table. -/
theorem test_reset_abandons_message :
    ((messageInHand 0 .begun).message [1, 7, 0, 0, 0, 0xABCD]).ex.progress = .checked tone ∧
    ((messageInHand 0 (.checked tone)).engineReset.sub 7).billing.period = 3 ∧
    (((messageInHand 0 (.checked tone)).message []).engineReset.sub 7).billing =
      { ((messageInHand 0 .begun).sub 7).billing with period := 0 } ∧
    (((messageInHand 1 (.checked tone)).message []).engineReset.sub 7).billing.balance = -9 ∧
    (((messageInHand 1 (.checked tone)).message []).engineReset.sub 7).billing.lowBalance = true ∧
    (((messageInHand 1 (.checked tone)).message []).engineReset.msg 1).generation = 0 ∧
    (((messageInHand 1 (.charged tone tenCharged)).message []).engineReset.msg 1).generation = 1 ∧
    (((messageInHand 1 (.charged tone tenCharged)).message []).engineReset.msg 1).state = .free := by
  decide

/-- R87, R90: a subscriber's message closed between the checks and the commit of the next leaves its record FREE, and the
commit takes that record, the lowest. -/
theorem test_close_between_check_and_commit :
    (messageInHand 1 (.charged tone tenCharged)).commitIndex = 1 ∧
    ({ messageInHand 1 (.charged tone tenCharged) with store.records := [] }).commitIndex = 0 := by decide

theorem witness_EventBitsClearOnWriteOfOne : busy.engine.state ≠ .loading := by decide

theorem witness_EnableWriteAndInterruptLine :
    busy.engine.state ≠ .loading ∧ (1#4).getLsbD 0 = true ∧ (0xE#4).getLsbD 0 = false ∧ 0x1C < 32 ∧ 32 ≤ 32 ∧
    busy.ex.fence = none ∧ (3#32).toNat < 4 ∧ (0x14 ≤ 0x1F ∧ 0x1F < 0x20) ∧
    (∃ s : State, ∃ f, s.ex.fence = some f ∧ f.seen = some 3) ∧ (∃ s : State, ∃ f, s.ex.fence = some f ∧ f.seen = none) :=
  ⟨by decide, by decide, by decide, by decide, by decide, rfl, by decide, by decide,
    ⟨{ running with ex.fence := some ⟨.report, 0x28000, some 3, 255⟩ }, _, rfl, rfl⟩,
    ⟨{ running with ex.fence := some ⟨.outside, 0xFFFFC, none, 0⟩ }, _, rfl, rfl⟩⟩

/-- R188: the fence record of a drop past the used window, with its offset in words and no state seen. -/
theorem test_fence_record_word :
    State.registerWord { running with ex.fence := some ⟨.outside, 0xFFFFC, none, 3⟩ } 0x10 =
      0x03000000 ||| (0x3FFFF <<< 6) ||| FenceKind.outside.code := by decide

/-! ### The exchange window -/

/-- A machine with a delayed read of this word in progress. -/
def reading (offset after : Nat) (data : Option Word) (buffer : List BufferedWrite) : State :=
  { board [] [] buffer with ex.read := some ⟨offset, after, data⟩ }

/-- Each word of a burst: the header's last, a slot's state and last body word, a page's state and last word, and the first
past the pages. -/
theorem witness_HostReadReturnsWord :
    (board [] [] []).engine.state ≠ .loading ∧ (board [] [] []).ex.read = none ∧ 0xFFFFF < 0x100000 ∧ 0x100000 ≤ 0x100000 ∧
    (0x29000 / 4 * 4 ≠ 0x28FFC ∧ 0x28FFF / 4 * 4 = 0x28FFC) ∧
    (∃ s : State, ∃ r, s.engine.state ≠ .loading ∧ s.ex.read = some r ∧ r.data = some 7) ∧
    (∃ s : State, ∃ r, s.engine.state ≠ .loading ∧ s.ex.read = some r ∧ r.data = none ∧ r.after < s.ex.buffer.length) ∧
    (∃ s : State, ∃ r, s.engine.state ≠ .loading ∧ s.ex.read = some r ∧ r.data = none ∧ r.offset = 0x29000 ∧
      s.ex.buffer.length ≤ r.after) ∧
    (∀ offset, offset ∈ [0xFFC, 0x1000 + 511 * 0x100, 0x1000 + 511 * 0x100 + 0xFC, 0x21000 + (7 : Index8).val * 0x1000,
      0x21000 + (7 : Index8).val * 0x1000 + 0xFFC, 0x29000] → ∃ s : State, ∃ r t,
        exec (.storeBurstGrant false ⟨true, false, false, false, false, false⟩) s = .next t ∧
        t.arbiter.port = .client .hostWindow ∧ s.ex.read = some r ∧ r.offset = offset ∧ r.data = none ∧
        s.ex.buffer.length ≤ r.after) :=
  ⟨by decide, by decide, by decide, by decide, by decide, ⟨reading 0 0 (some 7) [], _, by decide, rfl, rfl⟩,
    ⟨reading 0 0 none [⟨0, 0, 0⟩], _, by decide, rfl, rfl, by decide⟩,
    ⟨reading 0x29000 0 none [], _, by decide, rfl, rfl, rfl, by decide⟩,
    fun offset _ => ⟨reading offset 1 none [⟨0, 0, 0⟩], _, _, rfl, rfl, rfl, rfl, rfl, Nat.le_refl 1⟩⟩

/-- R68: a read is retried, fetched in the host window's burst, and completed on its repeat. -/
theorem test_delayed_read :
    let first := reading 0x1000 0 none []
    exec (.hostWindowRead 0x1000) (board [] [] []) = .next { first with ex.bus := .retry } ∧
    first.ex.fetch.read = some ⟨0x1000, 0, some 0⟩ ∧
    exec (.hostWindowRead 0x1000) (reading 0x1000 0 (some 0) []) = .next { board [] [] [] with ex.bus := .data 0 } := by
  exact ⟨rfl, by decide, rfl⟩

theorem witness_HostWriteJoinsBuffer :
    (board [] [] []).engine.state ≠ .loading ∧ 0xFFFFC < 0x100000 ∧ 0xFFFFC % 4 = 0 ∧
    (board [] [] (List.replicate 15 ⟨0, 0, 0⟩)).ex.buffer.length < 16 ∧
    16 ≤ (board [] [] (List.replicate 16 ⟨0, 0, 0⟩)).ex.buffer.length := by decide

theorem witness_SlotBodyWritten :
    (board [(511, .posted)] [511] [⟨0x20FFC, 7, 5⟩]).Tidy ∧
    (board [(511, .posted)] [511] [⟨0x20FFC, 7, 5⟩]).ex.buffer = [⟨0x1000 + 511 * 0x100 + 0xFC, 7, 5⟩] ∧
    (board [(511, .posted)] [511] [⟨0x20FFC, 7, 5⟩]).ex.slot 511 = .posted ∧
    (board [] [] [⟨0x1004, 7, 5⟩]).Tidy ∧ (board [] [] [⟨0x1004, 7, 5⟩]).ex.buffer = [⟨0x1000 + 0 * 0x100 + 4, 7, 5⟩] ∧
    (board [] [] [⟨0x1004, 7, 5⟩]).ex.slot 0 = .free :=
  ⟨tidy_of (by decide), by decide, by decide, tidy_of (by decide), by decide, by decide⟩

/-- The three moves, at slot 511. -/
theorem witness_SlotStateWritesMoveSlot :
    (∃ s : State, s.Tidy ∧ s.ex.buffer = [⟨0x1000 + 511 * 0x100, 1, 0xF⟩] ∧ s.ex.slot 511 = .free ∧ s.ex.intake = .idle ∧
      s.engine.state ≠ .loading) ∧
    (∃ s : State, s.Tidy ∧ s.ex.buffer = [⟨0x1000 + 511 * 0x100, 0, 0xF⟩] ∧ s.ex.slot 511 = .posted) ∧
    (∃ s : State, s.Tidy ∧ s.ex.buffer = [⟨0x1000 + 511 * 0x100, 0, 0xF⟩] ∧ s.ex.slot 511 = .answered) :=
  ⟨⟨board [] [] [⟨0x20F00, 1, 0xF⟩], tidy_of (by decide), by decide, by decide, by decide, by decide⟩,
    ⟨board [(511, .posted)] [511] [⟨0x20F00, 0, 0xF⟩], tidy_of (by decide), by decide, by decide⟩,
    ⟨board [(511, .answered)] [] [⟨0x20F00, 0, 0xF⟩], tidy_of (by decide), by decide, by decide⟩⟩

/-- The last page, with a request that waits for it. -/
theorem witness_FilledPageReturned : ∃ s : State, s.ex.writer.PageLaw ∧
    s.ex.buffer = [⟨0x21000 + (7 : Index8).val * 0x1000, 0, 0xF⟩] ∧ s.ex.writer.pages.get (7 : Index8) = .filled ∧
    .intake ∈ s.ex.writer.waiting :=
  ⟨{ board [] [] [⟨0x28000, 0, 0xF⟩] with
      ex.writer := { Writer.reset with pages := Vector.replicate 8 .filled, next := 7, waiting := [.intake] } },
    pageLaw_of (by decide) (by decide) (by decide), by decide, by decide, by decide⟩

/-- R175: the page returned at the next page's place gives its room to the waiting request. -/
theorem test_return_grants :
    (Exchange.returnPage { Exchange.powerOn with
      writer := { Writer.reset with pages := Vector.replicate 8 .filled, next := 7, waiting := [.intake] } } ⟨0, 0, 0⟩ 7
        ).writer.held = [(.intake, 8)] := by decide

/-- One word of each kind, at the region's last offset. -/
theorem witness_DroppedWriteFenced :
    (∃ s : State, ∃ w, s.ex.buffer = [w] ∧ w.offset = 0xFFC) ∧
    (∃ s : State, ∃ w, s.ex.buffer = [w] ∧ w.offset = 0x29000) ∧
    (∃ s : State, ∃ w, s.ex.buffer = [w] ∧ w.offset = 0x1000 + 511 * 0x100 + 0xFC ∧ s.ex.slot 511 = .taken) ∧
    (∃ s : State, ∃ w, s.ex.buffer = [w] ∧ w.offset = 0x1000 + 511 * 0x100 ∧ ¬ (w.enables = 0xF ∧
      ((w.data = 1 ∧ s.ex.slot 511 = .free) ∨ (w.data = 0 ∧ (s.ex.slot 511 = .posted ∨ s.ex.slot 511 = .answered))))) ∧
    (∃ s : State, ∃ w, s.ex.buffer = [w] ∧ w.offset = 0x21000 + (7 : Index8).val * 0x1000 + 0 ∧
      ¬ (0 = 0 ∧ w.enables = 0xF ∧ w.data = 0 ∧ s.ex.writer.pages.get (7 : Index8) = .filled)) :=
  ⟨⟨board [] [] [⟨0xFFC, 0, 0xF⟩], ⟨0xFFC, 0, 0xF⟩, by decide⟩,
    ⟨board [] [] [⟨0x29000, 0, 0xF⟩], ⟨0x29000, 0, 0xF⟩, by decide⟩,
    ⟨board [(511, .taken)] [] [⟨0x20FFC, 0, 0xF⟩], ⟨0x20FFC, 0, 0xF⟩, by decide⟩,
    ⟨board [] [] [⟨0x20F00, 1, 0x7⟩], ⟨0x20F00, 1, 0x7⟩, by decide⟩,
    ⟨board [] [] [⟨0x28000, 0, 0xF⟩], ⟨0x28000, 0, 0xF⟩, by decide⟩⟩

theorem witness_MirrorWritten : ∃ s : State, s.Tidy ∧ ∀ m : Mirror,
    m ∈ [.answeredCount, .queueLength, .freeRecords, .frameSerial, .officeClock, .lastPageIndex, .lastPageSequence] →
      m ∈ s.ex.notices :=
  ⟨{ board [] [] [] with ex.notices :=
    [.answeredCount, .queueLength, .freeRecords, .frameSerial, .officeClock, .lastPageIndex, .lastPageSequence] },
    tidy_of (by decide), by decide⟩

/-- A holder at its weight passes on, a holder below it stays, and no one requests. -/
theorem witness_BurstGrantedByRotation :
    ¬ (requestOf ⟨true, false, true, true, false, false⟩ (Arbiter.mk .tracker 4 .idle).holder = true ∧ 0 < 4 ∧
      4 < (Office.defaults 0).weight .tracker) ∧
    requestOf ⟨true, false, true, true, false, false⟩ .hostWindow = true ∧
    (requestOf ⟨true, false, true, true, false, false⟩ .tracker = true ∧ 0 < 3 ∧ 3 < (Office.defaults 0).weight .tracker) ∧
    ¬ (requestOf ⟨true, false, false, false, false, true⟩ Arbiter.reset.holder = true ∧ 0 < Arbiter.reset.run) ∧
    requestOf ⟨false, false, false, false, false, false⟩ .tracker = false := by decide

/-- The unit in TAKING, with a slot waiting and with none. -/
theorem witness_PostingTaken :
    (∃ s : State, s.Tidy ∧ s.ex.writer.PageLaw ∧ s.ex.GuardLaw ∧ s.ex.intake = .taking ∧ s.ex.queue = [511]) ∧
    (∃ s : State, s.Tidy ∧ s.ex.writer.PageLaw ∧ s.ex.GuardLaw ∧ s.ex.intake = .taking ∧ s.ex.queue = []) := by
  refine ⟨⟨{ holding (board [(511, .posted)] [511] []) .intake with ex.intake := .taking }, tidy_of (by decide),
    pageLaw_of (by decide) (by decide) (by decide), ?_, rfl, rfl⟩,
    ⟨{ holding (board [] [] []) .intake with ex.intake := .taking }, tidy_of (by decide),
      pageLaw_of (by decide) (by decide) (by decide), ?_, rfl, rfl⟩⟩
  · refine ⟨fun n => ?_, by decide, by decide, fun n => ?_, by decide, by decide,
      fun n p h => (by cases h), fun _ => by decide⟩
    · show n ∈ [511] ↔ Table.get SlotState.free [(511, .posted)] n = .posted
      simp only [Table.get, List.mem_singleton]
      split_ifs <;> simp_all
    · show Table.get SlotState.free [(511, .posted)] n ≠ .free → n < 512
      simp only [Table.get]
      split_ifs <;> simp_all
  · exact ⟨fun n => by simp [holding, board, Exchange.slot, Table.get], by decide, by decide,
      fun n h => absurd rfl h, by decide, by decide, fun n p h => (by cases h), fun _ => by decide⟩

/-! ### Postings -/

/-- Message posting words: subscriber, kind, urgent, length, host tag. -/
def messagePosting (subscriber kind urgent length : Word) : Posting := [1, subscriber, kind, urgent, length, 0xABCD]

/-- A subscriber with a balance and a low-balance flag. -/
def account (balance : Int) (low : Bool) (creditLimit : Nat) : Subscriber :=
  ⟨{ Billing.powerOn with state := .active, balance := balance, lowBalance := low, creditLimit := creditLimit },
    ⟨0, 0⟩, Reach.reset⟩

/-- An office whose plans charge 10 CU for every message. -/
def dear (u : Subscriber) (p : Posting) : State :=
  { office .setup [(7, u)] [(0, record 7 .waiting)] p with
    account.plans := Vector.replicate 16 { RatePlan.powerOn with base := 10 } }

/-- A posting in hand at a point is in hand as well. -/
theorem inHand_at {s : State} {n : Nat} {p : Posting} {code : Nat} (h : s.InHand n p code) (q : Progress) :
    ({ s with ex.progress := q } : State).InHand n p code :=
  ⟨h.intake, h.slot, h.code, ⟨h.tidy.mem, h.tidy.slots, h.tidy.subscribers, h.tidy.records⟩, h.pages⟩

/-- A state whose posting in hand stands at a point. -/
def atPoint (s : State) (q : Progress) : State := { s with ex.progress := q }

theorem dear_inHand (u : Subscriber) (q : Progress)
    (h : Table.wf Subscriber.powerOn [(7, u)] = true := by decide) :
    (atPoint (dear u (messagePosting 7 0 0 0)) q).InHand 0 (messagePosting 7 0 0 0) 0x01 :=
  have h := inHand (state := .setup) (subscribers := [(7, u)]) (records := [(0, record 7 .waiting)])
    (p := messagePosting 7 0 0 0) (code := 0x01) (by decide) (by rw [h]; decide)
  inHand_at (inHand_congr (t := dear u (messagePosting 7 0 0 0)) h rfl rfl rfl) q

/-- Each point: the checks at the last length and open count, a rating free of charge and one to the last CU of the credit
limit, a commit, a report with and without an alert, and an answer. -/
theorem witness_MessageAdmitted :
    (∃ s : State, ∃ p : Posting, s.InHand 0 p 0x01 ∧ s.ex.progress = .begun ∧ kindOf (p.param 2) = some .numeric ∧
      lengthOk .numeric (p.param 4) = true ∧ (s.sub p.subscriber).billing.state = .active ∧
      (s.sub p.subscriber).store.openCount = 15 ∧ s.store.freeCount ≠ 0) ∧
    (∃ s : State, ∃ p : Posting, s.InHand 0 p 0x01 ∧ s.ex.progress = .begun ∧ kindOf (p.param 2) = some .alpha ∧
      lengthOk .alpha (p.param 4) = true ∧ (s.sub p.subscriber).billing.state = .active ∧
      (s.classOf p.subscriber).alphaAllowed = true ∧ (s.sub p.subscriber).store.openCount < 16 ∧ s.store.freeCount ≠ 0) ∧
    (∃ s : State, ∃ p : Posting, s.InHand 0 p 0x01 ∧ s.ex.progress = .checked tone ∧
      (rate (s.planOf 7) s.engine.office (s.air.second / 60) 0 .tone 0 false).charge = 0) ∧
    (∃ s : State, ∃ p : Posting, s.InHand 0 p 0x01 ∧ s.ex.progress = .checked tone ∧
      (rate (s.planOf 7) s.engine.office (s.air.second / 60) 0 .tone 0 false).charge = 10 ∧
      -((s.sub 7).billing.creditLimit : Int) = (s.sub 7).billing.balance - 10) ∧
    (∃ s : State, ∃ p : Posting, s.InHand 0 p 0x01 ∧ s.ex.progress = .charged tone tenCharged ∧ (s.msg 1).state = .free ∧
      (∀ j, j < 1 → (s.msg j).state ≠ .free) ∧ 1 < 16384) ∧
    (∃ s : State, ∃ p : Posting, s.InHand 0 p 0x01 ∧ s.ex.progress = .committed tone tenCharged ⟨1, 1, .waiting⟩ ∧
      tenCharged.alert.isSome = true) ∧
    (∃ s : State, ∃ p : Posting, s.InHand 0 p 0x01 ∧
      s.ex.progress = .committed tone { tenCharged with alert := none } ⟨1, 1, .held⟩) ∧
    (∃ s : State, ∃ p : Posting, s.InHand 0 p 0x01 ∧ s.ex.progress = .decided .accepted [0, 0, 0, 0, 1, 0]) :=
  ⟨⟨office .setup [(7, subscriber .active 0 15)] [(0, record 7 .waiting)] (messagePosting 7 1 1 40),
      messagePosting 7 1 1 40, inHand (by decide) (by decide), by decide⟩,
    ⟨office .setup [(7, subscriber .active 0 0)] [] (messagePosting 7 2 0 200), messagePosting 7 2 0 200,
      inHand (by decide) (by decide), by decide⟩,
    ⟨atPoint (office .setup [] [] (messagePosting 7 0 0 0)) (.checked tone), messagePosting 7 0 0 0,
      inHand_at (inHand (by decide) (by decide)) _, rfl, by decide⟩,
    ⟨atPoint (dear (account 0 false 10) (messagePosting 7 0 0 0)) (.checked tone), messagePosting 7 0 0 0, dear_inHand _ _, rfl,
      by decide⟩,
    ⟨atPoint (dear (account 0 false 10) (messagePosting 7 0 0 0)) (.charged tone tenCharged), messagePosting 7 0 0 0,
      dear_inHand _ _, rfl, by decide⟩,
    ⟨atPoint (dear (account 0 false 10) (messagePosting 7 0 0 0)) (.committed tone tenCharged ⟨1, 1, .waiting⟩),
      messagePosting 7 0 0 0, dear_inHand _ _, rfl, by decide⟩,
    ⟨atPoint (dear (account 0 false 10) (messagePosting 7 0 0 0)) (.committed tone { tenCharged with alert := none } ⟨1, 1, .held⟩),
      messagePosting 7 0 0 0, dear_inHand _ _, rfl⟩,
    ⟨atPoint (dear (account 0 false 10) (messagePosting 7 0 0 0)) (.decided .accepted [0, 0, 0, 0, 1, 0]),
      messagePosting 7 0 0 0, dear_inHand _ _, rfl⟩⟩

/-- One posting for each check, and one message refused at the credit check. -/
theorem witness_MessageRefused :
    (∃ s : State, ∃ p : Posting, s.InHand 0 p 0x01 ∧ s.ex.progress = .begun ∧ 2 < (p.param 2).toNat) ∧
    (∃ s : State, ∃ p : Posting, s.InHand 0 p 0x01 ∧ s.ex.progress = .begun ∧ kindOf (p.param 2) = some .numeric ∧ 40 < (p.param 4).toNat) ∧
    (∃ s : State, ∃ p : Posting, s.InHand 0 p 0x01 ∧ s.ex.progress = .begun ∧ kindOf (p.param 2) = some .alpha ∧ 200 < (p.param 4).toNat) ∧
    (∃ s : State, ∃ p : Posting, s.InHand 0 p 0x01 ∧ s.ex.progress = .begun ∧ kindOf (p.param 2) = some .alpha ∧
      lengthOk .alpha (p.param 4) = true ∧
      p.subscriber = 7 ∧ (s.sub 7).billing.state = .vacant) ∧
    (∃ s : State, ∃ p : Posting, s.InHand 0 p 0x01 ∧ s.ex.progress = .begun ∧ kindOf (p.param 2) = some .alpha ∧
      lengthOk .alpha (p.param 4) = true ∧
      p.subscriber = 7 ∧ (s.sub 7).billing.state = .barred) ∧
    (∃ s : State, ∃ p : Posting, s.InHand 0 p 0x01 ∧ s.ex.progress = .begun ∧ kindOf (p.param 2) = some .alpha ∧
      lengthOk .alpha (p.param 4) = true ∧
      p.subscriber = 7 ∧ (s.sub 7).billing.state = .active ∧ (s.classOf 7).alphaAllowed = false) ∧
    (∃ s : State, ∃ p : Posting, s.InHand 0 p 0x01 ∧ s.ex.progress = .begun ∧ kindOf (p.param 2) = some .alpha ∧
      lengthOk .alpha (p.param 4) = true ∧
      p.subscriber = 7 ∧ (s.sub 7).billing.state = .active ∧ (s.classOf 7).alphaAllowed = true ∧
      16 ≤ (s.sub 7).store.openCount) ∧
    (∃ s : State, ∃ p : Posting, s.InHand 0 p 0x01 ∧ s.ex.progress = .begun ∧ kindOf (p.param 2) = some .tone ∧
      lengthOk .tone (p.param 4) = true ∧
      p.subscriber = 7 ∧ (s.sub 7).billing.state = .active ∧ (s.sub 7).store.openCount < 16 ∧ s.store.freeCount = 0) ∧
    (∃ s : State, ∃ p : Posting, s.InHand 0 p 0x01 ∧ s.ex.progress = .checked tone ∧
      (rate (s.planOf 7) s.engine.office (s.air.second / 60) 0 .tone 0 false).charge = 10 ∧
      (s.sub 7).billing.balance - 10 < -((s.sub 7).billing.creditLimit : Int)) :=
  ⟨⟨_, messagePosting 7 3 0 0, inHand (state := .setup) (subscribers := []) (records := []) (by decide) (by decide), by decide⟩,
    ⟨_, messagePosting 7 1 0 41, inHand (state := .setup) (subscribers := []) (records := []) (by decide) (by decide), by decide⟩,
    ⟨_, messagePosting 7 2 0 201, inHand (state := .setup) (subscribers := []) (records := []) (by decide) (by decide), by decide⟩,
    ⟨office .setup [] [] (messagePosting 7 2 0 200), messagePosting 7 2 0 200, inHand (by decide) (by decide), by decide⟩,
    ⟨office .setup [(7, subscriber .barred 0 0)] [] (messagePosting 7 2 0 200), messagePosting 7 2 0 200,
      inHand (by decide) (by decide), by decide⟩,
    ⟨{ office .setup [(7, subscriber .active 0 0)] [] (messagePosting 7 2 0 200) with
        engine.classes := Vector.replicate 8 { ServiceClass.defaults with alphaAllowed := false } },
      messagePosting 7 2 0 200, inHand_congr (inHand (state := .setup) (by decide) (by decide)) rfl rfl rfl, by decide⟩,
    ⟨office .setup [(7, subscriber .active 0 16)] [] (messagePosting 7 2 0 200), messagePosting 7 2 0 200,
      inHand (by decide) (by decide), by decide⟩,
    ⟨{ office .setup [(7, subscriber .active 0 15)] [] (messagePosting 7 0 0 0) with store.freeCount := 0 },
      messagePosting 7 0 0 0, inHand_congr (inHand (state := .setup) (by decide) (by decide)) rfl rfl rfl, by decide⟩,
    ⟨atPoint (dear (account 0 false 9) (messagePosting 7 0 0 0)) (.checked tone), messagePosting 7 0 0 0, dear_inHand _ _, rfl,
      by decide⟩⟩

/-- The ranges' ends: the window's first and last minutes either way round, the tiers' thresholds, and the greatest charge. -/
theorem witness_RatingComputesCharge :
    (1320 ≤ 1320 ∨ 1320 < 360) ∧ ¬ (1320 ≤ 360 ∨ 360 < 360) ∧ ¬ ((600 : Nat) < 600) ∧
    (rate { RatePlan.powerOn with base := 100, allowance := 5, t1 := 6, t2 := 7, d1 := 10, d2 := 90 } (Office.defaults 0) 0 4
      .tone 0 false).free = true ∧
    (rate { RatePlan.powerOn with base := 100, allowance := 5, t1 := 6, t2 := 7, d1 := 10, d2 := 90 } (Office.defaults 0) 0 6
      .tone 0 false).charge = 90 ∧
    (rate { RatePlan.powerOn with base := 100, allowance := 5, t1 := 6, t2 := 7, d1 := 10, d2 := 90 } (Office.defaults 0) 0 7
      .tone 0 false).charge = 10 ∧
    (rate { RatePlan.powerOn with base := 65535, perBlock := 4095, urgentPercent := 400 } (Office.defaults 0) 0 0
      .alpha 200 true).charge = 1359600 := by decide

/-- The four directions at the level and the level plus the margin. -/
theorem witness_LowBalanceFlagJudged :
    (∃ s : State, s.Tidy ∧ (s.sub 7).billing.lowBalance = false ∧
      (s.account.plans.get (s.sub 7).billing.plan).warningLevel ≤ (s.sub 7).billing.balance) ∧
    (∃ s : State, s.Tidy ∧ (s.sub 7).billing.lowBalance = true ∧
      (s.sub 7).billing.balance < (s.account.plans.get (s.sub 7).billing.plan).warningLevel +
        (s.account.plans.get (s.sub 7).billing.plan).recoveryMargin) ∧
    (∃ s : State, s.Tidy ∧ (s.sub 7).billing.lowBalance = false ∧
      (s.sub 7).billing.balance < (s.account.plans.get (s.sub 7).billing.plan).warningLevel) ∧
    (∃ s : State, s.Tidy ∧ (s.sub 7).billing.lowBalance = true ∧
      (s.account.plans.get (s.sub 7).billing.plan).warningLevel +
        (s.account.plans.get (s.sub 7).billing.plan).recoveryMargin ≤ (s.sub 7).billing.balance) :=
  ⟨⟨machine .setup [(7, account 0 false 0)] [], tidy_of (by decide), by decide⟩,
    ⟨machine .setup [(7, account (-1) true 0)] [], tidy_of (by decide), by decide⟩,
    ⟨machine .setup [(7, account (-1) false 0)] [], tidy_of (by decide), by decide⟩,
    ⟨machine .setup [(7, account 0 true 0)] [], tidy_of (by decide), by decide⟩⟩

/-- The first and the last field out of range by one, every field at its last value, and a subscriber in use. -/
theorem witness_SubscriberProvisioned :
    (∃ s : State, ∃ p : Posting, s.InHand 0 p 0x10 ∧ (p.param 2).toNat = 8) ∧
    (∃ s : State, ∃ p : Posting, s.InHand 0 p 0x10 ∧ (p.param 2).toNat ≤ 7 ∧ (p.param 3).toNat ≤ 15 ∧
      (p.param 4).toNat ≤ 31 ∧ p.param 5 ≠ 0 ∧ (p.param 5).toNat ≤ 15 ∧ p.param 6 ≠ 0xFFFFFFFF ∧
      (p.param 7).toNat = 2147483648) ∧
    (∃ s : State, ∃ p : Posting, s.InHand 0 p 0x10 ∧ (p.param 2).toNat ≤ 7 ∧ (p.param 3).toNat ≤ 15 ∧
      (p.param 4).toNat ≤ 31 ∧ p.param 5 ≠ 0 ∧ (p.param 5).toNat ≤ 15 ∧ p.param 6 ≠ 0xFFFFFFFF ∧
      (p.param 7).toNat ≤ 2147483647 ∧ (s.sub p.subscriber).billing.state = .vacant) ∧
    (∃ s : State, ∃ p : Posting, s.InHand 0 p 0x10 ∧ (p.param 2).toNat ≤ 7 ∧ (p.param 3).toNat ≤ 15 ∧
      (p.param 4).toNat ≤ 31 ∧ p.param 5 ≠ 0 ∧ (p.param 5).toNat ≤ 15 ∧ p.param 6 ≠ 0xFFFFFFFF ∧
      (p.param 7).toNat ≤ 2147483647 ∧ (s.sub p.subscriber).billing.state ≠ .vacant) :=
  ⟨⟨office .setup [] [] [0x10, 65535, 8], [0x10, 65535, 8], inHand (by decide) (by decide), by decide⟩,
    ⟨office .setup [] [] [0x10, 65535, 7, 15, 31, 15, 0, 0x80000000], [0x10, 65535, 7, 15, 31, 15, 0, 0x80000000],
      inHand (by decide) (by decide), by decide⟩,
    ⟨office .setup [] [] [0x10, 65535, 7, 15, 31, 15, 0, 0x7FFFFFFF], [0x10, 65535, 7, 15, 31, 15, 0, 0x7FFFFFFF],
      inHand (by decide) (by decide), by decide⟩,
    ⟨office .setup [(65535, subscriber .barred 0 0)] [] [0x10, 65535, 7, 15, 31, 15, 0, 0x7FFFFFFF],
      [0x10, 65535, 7, 15, 31, 15, 0, 0x7FFFFFFF], inHand (by decide) (by decide), by decide⟩⟩

/-- A set of home zones of 0, no fields given for a VACANT subscriber, a changed class with a message open, and a changed slot
with a message waiting. -/
theorem witness_SubscriberAmended :
    (∃ s : State, ∃ p : Posting, s.InHand 0 p 0x11 ∧ p.param 2 = 0xFFFFFFFF ∧ p.param 3 = 0xFFFFFFFF ∧
      p.param 4 = 0xFFFFFFFF ∧ p.param 5 = 0) ∧
    (∃ s : State, ∃ p : Posting, s.InHand 0 p 0x11 ∧ (∀ k, k < 8 → 2 ≤ k → p.param k = 0xFFFFFFFF) ∧
      (s.sub p.subscriber).billing.state = .vacant) ∧
    (∃ s : State, ∃ p : Posting, s.InHand 0 p 0x11 ∧ (p.param 2).toNat = 7 ∧
      (∀ k, k < 8 → 3 ≤ k → p.param k = 0xFFFFFFFF) ∧ (s.sub p.subscriber).billing.serviceClass = 0 ∧
      (s.sub p.subscriber).store.openCount = 1 ∧ (s.sub p.subscriber).billing.state = .active) ∧
    (∃ s : State, ∃ p : Posting, s.InHand 0 p 0x11 ∧ p.param 2 = 0xFFFFFFFF ∧ (p.param 4).toNat = 31 ∧
      p.param 3 = 0xFFFFFFFF ∧ (∀ k, k < 8 → 5 ≤ k → p.param k = 0xFFFFFFFF) ∧
      (s.sub p.subscriber).billing.slot = 9 ∧ (s.sub p.subscriber).billing.state = .active ∧
      (s.msg 0).subscriber = p.subscriber ∧ (s.msg 0).state = .waiting) :=
  ⟨⟨office .setup [] [] [0x11, 7, 0xFFFFFFFF, 0xFFFFFFFF, 0xFFFFFFFF, 0],
      [0x11, 7, 0xFFFFFFFF, 0xFFFFFFFF, 0xFFFFFFFF, 0], inHand (by decide) (by decide), by decide⟩,
    ⟨office .setup [] [] (0x11 :: 7 :: List.replicate 6 0xFFFFFFFF), 0x11 :: 7 :: List.replicate 6 0xFFFFFFFF,
      inHand (by decide) (by decide), by decide⟩,
    ⟨office .setup [(7, subscriber .active 0 1)] [] (0x11 :: 7 :: 7 :: List.replicate 5 0xFFFFFFFF),
      0x11 :: 7 :: 7 :: List.replicate 5 0xFFFFFFFF, inHand (by decide) (by decide), by decide⟩,
    ⟨office .setup [(7, subscriber .active 0 1)] [(0, record 7 .waiting)]
        [0x11, 7, 0xFFFFFFFF, 0xFFFFFFFF, 31, 0xFFFFFFFF, 0xFFFFFFFF, 0xFFFFFFFF],
      [0x11, 7, 0xFFFFFFFF, 0xFFFFFFFF, 31, 0xFFFFFFFF, 0xFFFFFFFF, 0xFFFFFFFF],
      inHand (by decide) (by decide), by decide⟩⟩

theorem witness_SubscriberBarredAndUnbarred :
    (∃ s : State, s.InHand 0 [0x13, 7] 0x13 ∧ (s.sub 7).billing.state = .vacant) ∧
    (∃ s : State, s.InHand 0 [0x13, 7] 0x13 ∧ (s.sub 7).billing.state = .active) ∧
    (∃ s : State, s.InHand 0 [0x14, 7] 0x14 ∧ (s.sub 7).billing.state = .active) :=
  ⟨⟨office .setup [] [] [0x13, 7], inHand (by decide) (by decide), by decide⟩,
    ⟨office .setup [(7, subscriber .active 0 0)] [] [0x13, 7], inHand (by decide) (by decide), by decide⟩,
    ⟨office .setup [(7, subscriber .active 0 0)] [] [0x14, 7], inHand (by decide) (by decide), by decide⟩⟩

theorem witness_SubscriberRetired :
    (∃ s : State, s.InHand 0 [0x16, 7] 0x16 ∧ (s.sub 7).billing.state = .vacant) ∧
    (∃ s : State, s.InHand 0 [0x16, 7] 0x16 ∧ (s.sub 7).billing.state ≠ .vacant ∧ 0 < (s.sub 7).store.openCount) ∧
    (∃ s : State, s.InHand 0 [0x16, 7] 0x16 ∧ (s.sub 7).billing.state ≠ .vacant ∧ (s.sub 7).store.openCount = 0) :=
  ⟨⟨office .setup [] [] [0x16, 7], inHand (by decide) (by decide), by decide⟩,
    ⟨office .setup [(7, subscriber .barred 0 1)] [] [0x16, 7], inHand (by decide) (by decide), by decide⟩,
    ⟨office .setup [(7, subscriber .barred 0 0)] [] [0x16, 7], inHand (by decide) (by decide), by decide⟩⟩

/-- R186: QUERY LINK answers 36 words, the frame serial last. -/
theorem test_query_link_answers_tabled_words :
    (State.reset.linkData 0).length = 36 ∧ (State.reset.linkData 0)[35]? = some (word State.reset.air.serial) := by decide

/-- R31: a billing group copied at its turn is answered as it stood then. -/
theorem test_query_in_turn :
    ((office .setup [(7, subscriber .active 0 1)] [] [0x17, 7]).querySubscriber 7).ex.progress =
      .copied ⟨(subscriber .active 0 1).billing, none⟩ ∧
    ({ office .setup [(7, subscriber .barred 0 1)] [] [0x17, 7] with
        ex.progress := .copied ⟨(subscriber .active 0 1).billing, none⟩ }.querySubscriber 7).ex.progress =
      .copied ⟨(subscriber .active 0 1).billing, some ⟨1, 0⟩⟩ := by decide

/-- The four queries, the first at each turn, each case of a handle, and a code the table does not list. -/
theorem witness_QueriesAnswerWithoutChange :
    (∃ s : State, s.InHand 0 [0x17, 7] 0x17 ∧ ∀ c, s.ex.progress ≠ .copied c) ∧
    (∃ s : State, ∃ b, s.InHand 0 [0x17, 7] 0x17 ∧ s.ex.progress = .copied ⟨b, none⟩) ∧
    (∃ s : State, ∃ b g, s.InHand 0 [0x17, 7] 0x17 ∧ s.ex.progress = .copied ⟨b, some g⟩) ∧
    (∃ s : State, s.InHand 0 [0x21, 0x400000] 0x21) ∧
    (∃ s : State, s.InHand 0 [0x21, 0x3FFFFF] 0x21 ∧ (s.msg 0x3FFF).state = .free) ∧
    (∃ s : State, s.InHand 0 [0x21, 0x3FC000] 0x21 ∧ (s.msg 0).state = .waiting ∧
      (s.msg 0).generation.toNat ≠ 0x3FC000 / 16384) ∧
    (∃ s : State, s.InHand 0 [0x21, 0] 0x21 ∧ (s.msg 0).state = .waiting ∧ (s.msg 0).generation.toNat = 0 / 16384) ∧
    (∃ s : State, s.InHand 0 [0x65, 7] 0x65) ∧ (∃ s : State, s.InHand 0 [0x66, 7] 0x66) ∧
    (∃ s : State, s.InHand 0 [0x18] 0x18) :=
  ⟨⟨office .setup [] [] [0x17, 7], inHand (by decide) (by decide), fun c h => by cases h⟩,
    ⟨_, Billing.powerOn, inHand_at (inHand (state := .setup) (subscribers := []) (records := []) (by decide) (by decide)) _,
      rfl⟩,
    ⟨_, Billing.powerOn, StoreGroup.reset,
      inHand_at (inHand (state := .setup) (subscribers := []) (records := []) (by decide) (by decide)) _, rfl⟩,
    ⟨office .setup [] [] [0x21, 0x400000], inHand (by decide) (by decide)⟩,
    ⟨office .setup [] [] [0x21, 0x3FFFFF], inHand (by decide) (by decide), by decide⟩,
    ⟨office .setup [] [(0, record 7 .waiting)] [0x21, 0x3FC000], inHand (by decide) (by decide), by decide⟩,
    ⟨office .setup [] [(0, record 7 .waiting)] [0x21, 0], inHand (by decide) (by decide), by decide⟩,
    ⟨office .setup [] [] [0x65, 7], inHand (by decide) (by decide)⟩,
    ⟨office .setup [] [] [0x66, 7], inHand (by decide) (by decide)⟩,
    ⟨office .setup [] [] [0x18], inHand (by decide) (by decide)⟩⟩

theorem witness_CreditApplied :
    (∃ s : State, s.InHand 0 [0x12, 7, 0x7FFFFFFF] 0x12 ∧ (s.sub 7).billing.state = .vacant) ∧
    (∃ s : State, s.InHand 0 [0x12, 7, 0x7FFFFFFF] 0x12 ∧ (s.sub 7).billing.state ≠ .vacant ∧
      (s.sub 7).billing.balance = 2147483647) :=
  ⟨⟨office .setup [] [] [0x12, 7, 0x7FFFFFFF], inHand (by decide) (by decide), by decide⟩,
    ⟨office .setup [(7, account 2147483647 false 0)] [] [0x12, 7, 0x7FFFFFFF], inHand (by decide) (by decide), by decide⟩⟩

theorem witness_PlanFittedAndSet :
    (∃ s : State, s.InHand 0 [0x31, 16] 0x31) ∧ (∃ s : State, s.InHand 0 [0x31, 15] 0x31) :=
  ⟨⟨office .setup [] [] [0x31, 16], inHand (by decide) (by decide)⟩,
    ⟨office .setup [] [] [0x31, 15], inHand (by decide) (by decide)⟩⟩

theorem desk_guard (p : Posting) : (desk p).GuardLaw where
  posted n := by
    show n ∈ [] ↔ Table.get SlotState.free [(0, .taken)] n = .posted
    simp only [Table.get, List.not_mem_nil]
    split_ifs <;> simp
  nodup := List.nodup_nil
  length := by simp [desk, Exchange.powerOn]
  range n := by
    show Table.get SlotState.free [(0, .taken)] n ≠ .free → n < 512
    simp only [Table.get]
    split_ifs <;> simp_all
  count := rfl
  header := show Memory.readWord memoryPowerOn 0 = word 0 by decide
  working n q h := by
    cases h
    rfl
  reserved _ := rfl

theorem witness_PeriodClosedOrBusy :
    (∃ s : State, s.InHand 0 [0x30] 0x30 ∧ s.ex.GuardLaw ∧ s.account.walk.inFlight = true) ∧
    (∃ s : State, s.InHand 0 [0x30] 0x30 ∧ s.ex.GuardLaw ∧ s.account.walk.inFlight = false) :=
  ⟨⟨{ office .setup [] [] [0x30] with account.walk := ⟨true, 65535, 9⟩ },
      inHand_congr (inHand (state := .setup) (by decide) (by decide)) rfl rfl rfl, desk_guard _, rfl⟩,
    ⟨office .setup [] [] [0x30], inHand (by decide) (by decide), desk_guard _, rfl⟩⟩

theorem witness_CloseFreesRecord : busy.Tidy ∧ busy.ex.writer.PageLaw := ⟨busy_tidy, busy_pages⟩

/-- Each case of a handle and of the record's state. -/
theorem witness_CancelByState :
    (∃ s : State, s.InHand 0 [0x20, 0x400000] 0x20) ∧
    (∃ s : State, s.InHand 0 [0x20, 0x3FFFFF] 0x20 ∧ (s.msg 0x3FFF).state = .free) ∧
    (∃ s : State, s.InHand 0 [0x20, 0x4000] 0x20 ∧ (s.msg 0).state ≠ .free ∧ (s.msg 0).generation.toNat ≠ 0x4000 / 16384) ∧
    (∃ s : State, s.InHand 0 [0x20, 0] 0x20 ∧ (s.msg 0).generation.toNat = 0 / 16384 ∧ (s.msg 0).state = .held) ∧
    (∃ s : State, s.InHand 0 [0x20, 0] 0x20 ∧ (s.msg 0).generation.toNat = 0 / 16384 ∧ (s.msg 0).state = .placed ∧
      (s.msg 0).ackedPending = true) ∧
    (∃ s : State, s.InHand 0 [0x20, 0] 0x20 ∧ (s.msg 0).generation.toNat = 0 / 16384 ∧ (s.msg 0).state = .onAir ∧
      (s.msg 0).ackedPending = false) :=
  ⟨⟨office .setup [] [] [0x20, 0x400000], inHand (by decide) (by decide)⟩,
    ⟨office .setup [] [] [0x20, 0x3FFFFF], inHand (by decide) (by decide), by decide⟩,
    ⟨office .setup [] [(0, record 7 .waiting)] [0x20, 0x4000], inHand (by decide) (by decide), by decide⟩,
    ⟨office .setup [] [(0, record 7 .held)] [0x20, 0], inHand (by decide) (by decide), by decide⟩,
    ⟨office .setup [] [(0, { record 7 .placed with ackedPending := true })] [0x20, 0], inHand (by decide) (by decide),
      by decide⟩,
    ⟨office .setup [] [(0, record 7 .onAir)] [0x20, 0], inHand (by decide) (by decide), by decide⟩⟩

theorem witness_SubscriberReleased :
    (∃ s : State, s.InHand 0 [0x15, 7] 0x15 ∧ (s.sub 7).billing.state = .vacant) ∧
    (∃ s : State, s.InHand 0 [0x15, 7] 0x15 ∧ (s.sub 7).billing.state ≠ .vacant ∧ (s.sub 7).reach.unreachable = false) ∧
    (∃ s : State, s.InHand 0 [0x15, 7] 0x15 ∧ (s.sub 7).billing.state ≠ .vacant ∧ (s.sub 7).reach.unreachable = true ∧
      (s.msg 0).subscriber = 7 ∧ (s.msg 0).state = .held) :=
  ⟨⟨office .setup [] [] [0x15, 7], inHand (by decide) (by decide), by decide⟩,
    ⟨office .setup [(7, subscriber .active 0 0)] [] [0x15, 7], inHand (by decide) (by decide), by decide⟩,
    ⟨office .setup [(7, unreachable (subscriber .active 0 1))] [(0, record 7 .held)] [0x15, 7],
      inHand (by decide) (by decide), by decide⟩⟩

theorem witness_ClockSet : (∃ s : State, s.InHand 0 [0x50, 65536, 86400] 0x50) ∧ (∃ s : State, s.InHand 0 [0x50, 0, 86399] 0x50) :=
  ⟨⟨office .setup [] [] [0x50, 65536, 86400], inHand (by decide) (by decide)⟩,
    ⟨office .setup [] [] [0x50, 0, 86399], inHand (by decide) (by decide)⟩⟩

/-- In SETUP, and outside it; the latch limit 17 falls to 16. -/
theorem witness_OfficeAndClassFitted :
    (∃ s : State, s.InHand 0 [0x40, 64, 0, 17] 0x40 ∧ s.engine.state = .setup) ∧
    (∃ s : State, s.InHand 0 [0x40] 0x40 ∧ s.engine.state ≠ .setup) ∧
    (∃ s : State, s.InHand 0 [0x41, 7, 0, 0, 0, 16, 32, 16, 256] 0x41 ∧ s.engine.state = .setup) ∧
    (∃ s : State, s.InHand 0 [0x41] 0x41 ∧ s.engine.state ≠ .setup) ∧
    (16 ≤ 17 ∧ 16 ∈ [0, 2, 3, 4, 6, 8, 12, 16] ∧ ∀ a, a ∈ [0, 2, 3, 4, 6, 8, 12, 16] → a ≤ 17 → a ≤ 16) :=
  ⟨⟨office .setup [] [] [0x40, 64, 0, 17], inHand (by decide) (by decide), rfl⟩,
    ⟨office .running [] [] [0x40], inHand (by decide) (by decide), by decide⟩,
    ⟨office .setup [] [] [0x41, 7, 0, 0, 0, 16, 32, 16, 256], inHand (by decide) (by decide), rfl⟩,
    ⟨office .stopping [] [] [0x41], inHand (by decide) (by decide), by decide⟩, by decide⟩

theorem witness_LinkAndReceiverFitted :
    (∃ s : State, s.InHand 0 [0x42, 7, 4, 8, 16, 16, 256, 33, 17] 0x42 ∧ s.engine.state = .setup) ∧
    (∃ s : State, s.InHand 0 [0x42] 0x42 ∧ s.engine.state ≠ .setup) ∧
    (∃ s : State, s.InHand 0 [0x43, 7, 4, 1] 0x43 ∧ s.engine.state = .setup) ∧
    (∃ s : State, s.InHand 0 [0x43] 0x43 ∧ s.engine.state ≠ .setup) ∧
    (32 ≤ 33 ∧ 32 ∈ [0, 2, 4, 8, 16, 32] ∧ ∀ a, a ∈ [0, 2, 4, 8, 16, 32] → a ≤ 33 → a ≤ 32) :=
  ⟨⟨office .setup [] [] [0x42, 7, 4, 8, 16, 16, 256, 33, 17], inHand (by decide) (by decide), rfl⟩,
    ⟨office .running [] [] [0x42], inHand (by decide) (by decide), by decide⟩,
    ⟨office .setup [] [] [0x43, 7, 4, 1], inHand (by decide) (by decide), rfl⟩,
    ⟨office .starting [] [] [0x43], inHand (by decide) (by decide), by decide⟩, by decide⟩

theorem witness_AirStartAndStop :
    (∃ s : State, s.InHand 0 [0x51] 0x51 ∧ s.engine.state ≠ .setup) ∧
    (∃ s : State, s.InHand 0 [0x51] 0x51 ∧ s.engine.state = .setup ∧ s.air.monitor.state = .locked) ∧
    (∃ s : State, s.InHand 0 [0x51] 0x51 ∧ s.engine.state = .setup ∧ s.air.monitor.state ≠ .locked) ∧
    (∃ s : State, s.InHand 0 [0x52] 0x52 ∧ s.engine.state ≠ .starting ∧ s.engine.state ≠ .running) ∧
    (∃ s : State, s.InHand 0 [0x52] 0x52 ∧ s.engine.state = .starting) ∧
    (∃ s : State, s.InHand 0 [0x52] 0x52 ∧ s.engine.state = .running) :=
  ⟨⟨office .running [] [] [0x51], inHand (by decide) (by decide), by decide⟩,
    ⟨{ office .setup [] [] [0x51] with air.monitor.state := .locked },
      inHand_congr (inHand (state := .setup) (by decide) (by decide)) rfl rfl rfl, by decide⟩,
    ⟨office .setup [] [] [0x51], inHand (by decide) (by decide), by decide⟩,
    ⟨office .stopping [] [] [0x52], inHand (by decide) (by decide), by decide⟩,
    ⟨office .starting [] [] [0x52], inHand (by decide) (by decide), by decide⟩,
    ⟨office .running [] [] [0x52], inHand (by decide) (by decide), by decide⟩⟩

/-- A state in which link 7 is in a given state, with or without a key-off pending, for each of the five orders. -/
theorem witness_LinkOrdersActOnController (state : LinkState) (pending : Bool) (engine : EngineState) :
    (∃ s : State, s.InHand 0 [0x60, 7] 0x60 ∧ (s.link 7).state = state) ∧
    (∃ s : State, s.InHand 0 [0x61, 7] 0x61 ∧ (s.link 7).state = state) ∧
    (∃ s : State, s.InHand 0 [0x62, 7, 0] 0x62 ∧ (s.link 7).state = state ∧ s.engine.state = engine) ∧
    (∃ s : State, s.InHand 0 [0x62, 7, 1] 0x62 ∧ (s.link 7).state = state ∧ s.engine.state = engine) ∧
    (∃ s : State, s.InHand 0 [0x63, 7] 0x63 ∧ (s.link 7).state = state ∧ (s.link 7).keyOffPending = pending) ∧
    (∃ s : State, s.InHand 0 [0x64, 7] 0x64 ∧ (s.link 7).state = state) := by
  have made (p : Posting) (code : Nat) (c : (Posting.code p).toNat = code) : ∃ s : State, s.InHand 0 p code ∧
      (s.link 7).state = state ∧ (s.link 7).keyOffPending = pending ∧ s.engine.state = engine :=
    ⟨{ office engine [] [] p with links := Vector.replicate 8 { link state with keyOffPending := pending } },
      inHand_congr (inHand (state := .setup) c (by decide)) rfl rfl rfl, rfl, rfl, rfl⟩
  refine ⟨?_, ?_, ?_, ?_, ?_, ?_⟩
  · obtain ⟨s, h, a, -, -⟩ := made [0x60, 7] 0x60 (by decide); exact ⟨s, h, a⟩
  · obtain ⟨s, h, a, -, -⟩ := made [0x61, 7] 0x61 (by decide); exact ⟨s, h, a⟩
  · obtain ⟨s, h, a, -, b⟩ := made [0x62, 7, 0] 0x62 (by decide); exact ⟨s, h, a, b⟩
  · obtain ⟨s, h, a, -, b⟩ := made [0x62, 7, 1] 0x62 (by decide); exact ⟨s, h, a, b⟩
  · obtain ⟨s, h, a, b, -⟩ := made [0x63, 7] 0x63 (by decide); exact ⟨s, h, a, b⟩
  · obtain ⟨s, h, a, -, -⟩ := made [0x64, 7] 0x64 (by decide); exact ⟨s, h, a⟩

/-! ### Report pages -/

/-- SETUP with this report writer. -/
def pages (w : Writer) : State := { machine .setup [] [] with ex.writer := w }

/-- Every page FILLED but page 0, which is FILLING and due. -/
def fullPages : Writer := { filling 61 true [(.tracker, 4)] [] with pages := (Vector.replicate 8 .filled).set 0 .filling }

/-- The sixty-third record, a due page that closes, a due page whose reserved positions would be lost, and a page opened. -/
theorem witness_HandAppendsRecord :
    (∃ s : State, s.Tidy ∧ s.ex.writer.PageLaw ∧ s.ex.writer.filling.isSome = true ∧ s.ex.writer.count + 1 = 63) ∧
    (∃ s : State, s.Tidy ∧ s.ex.writer.PageLaw ∧ s.ex.writer.filling.isSome = true ∧ s.ex.writer.count + 1 < 63 ∧
      s.ex.writer.due = true ∧
      (s.hand .tracker [8]).ex.writer.reserved ≤ 63 * (s.hand .tracker [8]).ex.writer.run) ∧
    (∃ s : State, s.Tidy ∧ s.ex.writer.PageLaw ∧ s.ex.writer.filling.isSome = true ∧ s.ex.writer.count + 1 < 63 ∧
      63 * (s.hand .tracker [8]).ex.writer.run < (s.hand .tracker [8]).ex.writer.reserved) ∧
    (∃ s : State, s.Tidy ∧ s.ex.writer.PageLaw ∧ s.ex.writer.filling.isSome = false ∧
      s.ex.writer.pages.get s.ex.writer.next = .empty) ∧
    (∃ s : State, s.Tidy ∧ s.ex.writer.PageLaw ∧ s.ex.writer.unreserved = 0) ∧
    (∃ s : State, s.Tidy ∧ s.ex.writer.PageLaw ∧ s.ex.writer.unreserved = 1 ∧ s.ex.writer.count + 1 = 63) ∧
    (∃ s : State, s.Tidy ∧ s.ex.writer.PageLaw ∧ 0 < s.ex.writer.unreserved ∧ s.ex.writer.count + 1 < 63 ∧
      s.ex.writer.due = true ∧ s.ex.writer.reserved ≤ 63 * (s.offerStatus 0).ex.writer.run) ∧
    (∃ s : State, s.Tidy ∧ s.ex.writer.PageLaw ∧ 0 < s.ex.writer.unreserved ∧ s.ex.writer.count + 1 < 63 ∧
      63 * (s.offerStatus 0).ex.writer.run < s.ex.writer.reserved) :=
  ⟨⟨pages (filling 62 false [(.tracker, 4)] []), tidy_of (by decide), pageLaw_of (by decide) (by decide) (by decide),
      by decide, by decide⟩,
    ⟨pages (filling 61 true [(.tracker, 4)] []), tidy_of (by decide), pageLaw_of (by decide) (by decide) (by decide),
      by decide, by decide, by decide, by decide⟩,
    ⟨pages fullPages, tidy_of (by decide), pageLaw_of (by decide) (by decide) (by decide), by decide, by decide, by decide⟩,
    ⟨holding (machine .setup [] []) .tracker, tidy_of (by decide), pageLaw_of (by decide) (by decide) (by decide), by decide,
      by decide⟩,
    ⟨pages { fullPages with count := 59 }, tidy_of (by decide), pageLaw_of (by decide) (by decide) (by decide), by decide⟩,
    ⟨pages { fullPages with count := 62, held := [] }, tidy_of (by decide), pageLaw_of (by decide) (by decide) (by decide),
      by decide, by decide⟩,
    ⟨pages (filling 61 true [(.tracker, 4)] []), tidy_of (by decide), pageLaw_of (by decide) (by decide) (by decide),
      by decide, by decide, by decide, by decide⟩,
    ⟨pages { fullPages with count := 58 }, tidy_of (by decide), pageLaw_of (by decide) (by decide) (by decide), by decide,
      by decide, by decide⟩⟩

/-- Room for 4: of two requests for 8 and one for 4 the one for 4 is granted and those for 8 wait. -/
theorem witness_JudgementGrantsWhatFits : ∃ x : Exchange, x.writer.PageLaw ∧ x.writer.reserved ≤ x.writer.room ∧
    .intake ∈ x.judge.writer.waiting ∧ .rollWalk ∈ x.judge.writer.waiting ∧
    x.writer.waiting.idxOf .intake < x.writer.waiting.idxOf .rollWalk ∧
    .tracker ∈ x.writer.waiting ∧ (.tracker, 4) ∈ x.judge.writer.held :=
  ⟨{ Exchange.powerOn with
      writer := { fullPages with count := 59, held := [], waiting := [.intake, .rollWalk, .tracker] } },
    pageLaw_of (by decide) (by decide) (by decide), by decide, by decide, by decide, by decide, by decide, by decide⟩

/-- The four clauses, at the flush interval 2. -/
theorem witness_PageClosesByAge :
    (∃ s : State, s.Tidy ∧ s.ex.writer.PageLaw ∧ s.ex.writer.pages.get (0 : Index8) = .filling ∧ s.ex.writer.due = true ∧
      s.ex.writer.reserved ≤ 63 * s.ex.writer.run) ∧
    (∃ s : State, s.Tidy ∧ s.ex.writer.PageLaw ∧ s.ex.writer.pages.get (0 : Index8) = .filling ∧ s.ex.writer.due = true ∧
      63 * s.ex.writer.run < s.ex.writer.reserved) ∧
    (∃ s : State, s.Tidy ∧ s.ex.writer.PageLaw ∧ s.ex.writer.pages.get (0 : Index8) = .filling ∧ s.ex.writer.due = false ∧
      s.engine.office.flushInterval ≤ min 30 (s.ex.writer.age + 1) ∧ s.engine.state = .setup ∧
      s.air.monitor.state ≠ .holdover ∧ s.air.monitor.report = none ∧ s.hasWork .tracker = false ∧
      s.hasWork .messageStore = false ∧ s.hasWork .linkUnit = false ∧ s.hasWork .builder = false ∧
      s.ex.writer.reserved ≤ 63 * s.ex.writer.run) ∧
    (∃ s : State, s.Tidy ∧ s.ex.writer.PageLaw ∧ s.ex.writer.pages.get (0 : Index8) = .filling ∧ s.ex.writer.due = false ∧
      s.engine.office.flushInterval ≤ min 30 (s.ex.writer.age + 1) ∧ s.engine.state = .setup ∧
      s.air.monitor.state ≠ .holdover ∧ s.air.monitor.report = none ∧ s.hasWork .tracker = false ∧
      s.hasWork .messageStore = false ∧ s.hasWork .linkUnit = false ∧ s.hasWork .builder = false ∧
      63 * s.ex.writer.run < s.ex.writer.reserved) ∧
    (∃ s : State, s.Tidy ∧ s.ex.writer.PageLaw ∧ s.ex.writer.pages.get (0 : Index8) = .filling ∧ s.ex.writer.due = false ∧
      min 30 (s.ex.writer.age + 1) < s.engine.office.flushInterval) :=
  ⟨⟨pages (filling 1 true [] []), tidy_of (by decide), pageLaw_of (by decide) (by decide) (by decide), by decide⟩,
    ⟨pages fullPages, tidy_of (by decide), pageLaw_of (by decide) (by decide) (by decide), by decide⟩,
    ⟨pages { filling 1 false [] [] with age := 1 }, tidy_of (by decide), pageLaw_of (by decide) (by decide) (by decide),
      by decide⟩,
    ⟨pages { fullPages with due := false, age := 1 }, tidy_of (by decide), pageLaw_of (by decide) (by decide) (by decide),
      by decide⟩,
    ⟨pages (filling 1 false [] []), tidy_of (by decide), pageLaw_of (by decide) (by decide) (by decide), by decide⟩⟩

/-- A capture, and a trip report made in the same frame as a recovery report. -/
def capture : Capture := ⟨7, 120, .silent, 0⟩

theorem witness_PendingReportsAppended :
    (∃ s : State, (∃ r, s.air.monitor.report = some r) ∧ s.ex.writer.holds .monitor = true) ∧
    (∃ s : State, (∃ r, s.builder.late = some r) ∧ s.ex.writer.holds .builder = true) ∧
    (∃ s : State, ∃ r v, s.ex.writer.holds .linkUnit = true ∧ (s.link 0).trip = some r ∧ (s.link 0).recovery = some v ∧
      r.created ≤ v.serial) ∧
    (∃ s : State, ∃ r v, s.ex.writer.holds .linkUnit = true ∧ (s.link 0).trip = some r ∧ (s.link 0).recovery = some v ∧
      v.serial < r.created) :=
  ⟨⟨holding { running with air.monitor.report := some ⟨true, 0, 0, 0, 255⟩ } .monitor, ⟨_, rfl⟩, by decide⟩,
    ⟨holding { running with builder.late := some ⟨0, 1, 0, 0, 0, 0, 0, 0⟩ } .builder, ⟨_, rfl⟩, by decide⟩,
    ⟨holding (withLink running { link .tripped with
        trip := some ⟨capture, false, 1, 7, 0⟩, recovery := some ⟨7, 1, 0⟩ }) .linkUnit, _, _, by decide, rfl, rfl, by decide⟩,
    ⟨holding (withLink running { link .tripped with
        trip := some ⟨capture, false, 1, 7, 0⟩, recovery := some ⟨6, 1, 0⟩ }) .linkUnit, _, _, by decide, rfl, rfl, by decide⟩⟩

/-! ### Pulses, boundaries and marks -/

/-- The window closed; and open since 0, at the last early, the first and last good and the first starting microsecond; and an
expiry at the time of the boundary still to come. -/
theorem witness_PulsesAndExpiryJudged :
    State.reset.air.monitor.window = none ∧
    ({ running with air.monitor.window := some 0 } : State).air.monitor.window = some 0 ∧
    ({ running with air.seconds := 2 } : State).nextBoundary = 1900000 + 1100000 ∧
    899999 - 0 < 900000 ∧ 900000 ≤ 900000 - 0 ∧ 1100000 - 0 ≤ 1100000 ∧ 1100000 < 1100001 - 0 := by decide

/-- A boundary second of its pair with the holdover count at twice the limit, and one first of a pair in SETUP. -/
theorem witness_SecondBoundaryAdvancesClock :
    (∃ s : State, s.air.firstNext = false ∧ s.engine.state = .running ∧ s.air.monitor.state = .holdover ∧
      s.air.monitor.uncounted = false ∧ 2 * s.engine.office.holdoverLimit < s.air.monitor.holdover + 1) ∧
    (∃ s : State, s.air.firstNext = false ∧ s.engine.state = .running ∧ s.air.monitor.state = .holdover ∧
      s.air.monitor.uncounted = true) ∧
    (∃ s : State, s.air.firstNext = true ∧ s.engine.state = .setup ∧ s.air.second = 86399 ∧ s.air.day = 65535) ∧
    (∃ s : State, s.air.firstNext = false ∧ s.engine.state = .starting ∧ s.air.monitor.state ≠ .locked) ∧
    (∃ s t : State, s.ex.writer.PageLaw ∧ s.ex.writer.pages.get (0 : Index8) = .filling ∧ s.ex.writer.age = 30 ∧
      exec .secondBoundary s = .next t ∧ t.ex.writer.pages.get (0 : Index8) = .filling) :=
  ⟨⟨{ running with air := ⟨15, 7, false, 0, 0, ⟨.holdover, none, 0, 16, none, false⟩⟩ }, by decide⟩,
    ⟨{ running with air := ⟨15, 7, false, 0, 0, ⟨.holdover, none, 0, 0, none, true⟩⟩ }, by decide⟩,
    ⟨{ machine .setup [] [] with air := ⟨0, 0, true, 65535, 86399, Monitor.powerOn⟩ }, by decide⟩,
    ⟨{ machine .starting [] [] with air.firstNext := false }, by decide⟩,
    ⟨{ machine .setup [] [] with
        ex.writer := { Writer.reset with
          pages := (Vector.replicate 8 .empty).set 0 .filling, count := 1, age := 30, next := 1, held := [(.intake, 600)] } },
      _, ⟨by decide, by decide, by decide⟩, by decide, by decide, rfl, by decide⟩⟩

/-- RUNNING at a frame mark, with this build in hand and due serial. -/
def marking (b : Option Build) (due : Option Nat) : State :=
  { running with
    air := ⟨14, 7, true, 0, 0, ⟨.locked, none, 0, 0, none, false⟩⟩
    builder := { Builder.reset with inHand := b, due := due }
    frame := some frame }

/-- The same in HOLDOVER at the limit 14, with this count and pending report, at the last second of the last day. -/
def expiring (count : Nat) (report : Option ReferenceReport) (engine : EngineState) : State :=
  { marking (some ⟨8, none, 0xF, none⟩) none with
    engine.state := engine
    air := ⟨14, 7, true, 65535, 86399, ⟨.holdover, none, 0, count, report, false⟩⟩
    engine.office := { Office.defaults 0 with holdoverLimit := 7 } }

/-- Whether the mark enters LOST. -/
abbrev Expires (s : State) : Prop :=
  s.air.monitor.state = .holdover ∧ s.air.monitor.uncounted = false ∧
    2 * s.engine.office.holdoverLimit < s.air.monitor.holdover + 1

/-- No build, one for a later serial, and one for the serial that begins with and without another due, a candidate in
hand, or a report pending; a
record placed for that serial; and HOLDOVER one short of its limit and at it, with and without a report pending. -/
theorem witness_FrameMarkBeginsFrame :
    (∃ s : State, s.Tidy ∧ s.air.firstNext = true ∧ s.engine.state = .running ∧ s.air.serial + 1 < 2 ^ 32 ∧
      s.builder.inHand = none) ∧
    (∃ s : State, s.Tidy ∧ s.air.firstNext = true ∧ s.engine.state = .running ∧ s.air.serial + 1 < 2 ^ 32 ∧
      s.builder.inHand = some ⟨9, none, 0xF, none⟩ ∧ 8 < 9) ∧
    (∃ s : State, s.Tidy ∧ s.air.firstNext = true ∧ s.engine.state = .running ∧ s.air.serial + 1 < 2 ^ 32 ∧
      s.builder.inHand = some ⟨8, none, 0xF, none⟩ ∧ s.builder.due = some 9) ∧
    (∃ s : State, s.Tidy ∧ s.air.firstNext = true ∧ s.engine.state = .running ∧ s.air.serial + 1 < 2 ^ 32 ∧
      s.builder.inHand = some ⟨8, none, 0xF, none⟩ ∧ s.builder.due = none) ∧
    (∃ s : State, s.Tidy ∧ s.air.firstNext = true ∧ s.engine.state = .running ∧ s.air.serial + 1 < 2 ^ 32 ∧
      s.builder.inHand = some ⟨8, none, 0xF, some ⟨0, 0, some 1⟩⟩ ∧ s.builder.late = none) ∧
    (∃ s : State, s.Tidy ∧ s.air.firstNext = true ∧ s.engine.state = .running ∧ s.air.serial + 1 < 2 ^ 32 ∧
      (s.msg 0).state = .placed ∧ (s.msg 0).placedSerial = some (s.air.serial + 1) ∧ 0 ∉ s.store.airStop) ∧
    (∃ s : State, s.Tidy ∧ s.air.firstNext = true ∧ s.engine.state = .running ∧ s.air.serial + 1 < 2 ^ 32 ∧
      s.builder.inHand = some ⟨8, none, 0xF, none⟩ ∧ s.builder.late = some ⟨7, 7, 1, 0, 0, 0, 0, 255⟩) ∧
    (∃ s : State, s.Tidy ∧ s.air.firstNext = true ∧ s.engine.state = .running ∧ s.air.serial + 1 < 2 ^ 32 ∧
      s.air.monitor.state = .holdover ∧ ¬ Expires s) ∧
    (∃ s : State, s.Tidy ∧ s.air.firstNext = true ∧ s.engine.state = .running ∧ s.air.serial + 1 < 2 ^ 32 ∧
      s.air.monitor.report = none ∧ Expires s) ∧
    (∃ s : State, s.Tidy ∧ s.air.firstNext = true ∧ s.engine.state = .running ∧ s.air.serial + 1 < 2 ^ 32 ∧
      s.air.monitor.report = some ⟨false, 7, 0, 0, 255⟩ ∧ Expires s) ∧
    (∃ sec : Section, sectionBlocks sec = 118 ∧ 117 < 118 ∧ 31 < 32) ∧
    (∃ r : MessageRecord, r.kind = .numeric ∧ r.text.length = 7 ∧ r.text[6 * 1 + 0]? = some 0x23 ∧ 1 < (7 + 5) / 6 ∧ 5 < 6) ∧
    (∃ r : MessageRecord, r.kind = .alpha ∧ r.text.length = 200 ∧ 66 < (200 + 2) / 3 ∧ 2 < 3) :=
  ⟨⟨marking none none, tidy_of (by decide), by decide⟩,
    ⟨marking (some ⟨9, none, 0xF, none⟩) none, tidy_of (by decide), by decide⟩,
    ⟨marking (some ⟨8, none, 0xF, none⟩) (some 9), tidy_of (by decide), by decide⟩,
    ⟨marking (some ⟨8, none, 0xF, none⟩) none, tidy_of (by decide), by decide⟩,
    ⟨marking (some ⟨8, none, 0xF, some ⟨0, 0, some 1⟩⟩) none, tidy_of (by decide), by decide⟩,
    ⟨{ marking none none with store.records := [(0, { record 7 .placed with placedSerial := some 8 })] },
      tidy_of (by decide), by decide⟩,
    ⟨{ marking (some ⟨8, none, 0xF, none⟩) none with builder.late := some ⟨7, 7, 1, 0, 0, 0, 0, 255⟩ }, tidy_of (by decide),
      by decide⟩,
    ⟨expiring 13 none .running, tidy_of (by decide), by decide⟩,
    ⟨expiring 14 none .running, tidy_of (by decide), by decide⟩,
    ⟨expiring 14 (some ⟨false, 7, 0, 0, 255⟩) .running, tidy_of (by decide), by decide⟩,
    ⟨[⟨0, 0, List.replicate 118 0⟩], by decide⟩,
    ⟨{ record 7 .waiting with kind := .numeric, text := List.replicate 7 0x23 }, by decide⟩,
    ⟨{ record 7 .waiting with kind := .alpha, text := List.replicate 200 0x41 }, rfl, List.length_replicate .., by decide⟩⟩

/-- Records placed for both serials, with and without a marker, and a build of a later serial; a build of the mark's own, at
the expiry of the holdover limit, with a frame in progress. -/
theorem witness_MarkEndsStopping : (∃ s : State, s.Tidy ∧ s.air.firstNext = true ∧ s.engine.state = .stopping ∧
    s.air.serial + 1 < 2 ^ 32 ∧ (s.msg 0).state = .placed ∧ (s.msg 0).placedSerial = some (s.air.serial + 1) ∧
    (s.msg 0).cancelPending = true ∧ (s.msg 1).state = .placed ∧ (s.msg 1).placedSerial = some (s.air.serial + 2) ∧
    (s.msg 1).ackedPending = false ∧ (s.msg 1).cancelPending = false ∧ s.builder.inHand = some ⟨9, none, 0xF, none⟩ ∧ 8 < 9) ∧
    ∃ s : State, s.Tidy ∧ s.air.firstNext = true ∧ s.engine.state = .stopping ∧ s.air.serial + 1 < 2 ^ 32 ∧
      s.builder.inHand = some ⟨8, none, 0xF, none⟩ ∧ 8 ≤ s.air.serial + 1 ∧ s.frame = some frame ∧ Expires s :=
  ⟨⟨{ marking (some ⟨9, none, 0xF, none⟩) none with
      engine.state := .stopping
      store.records := [(0, { record 7 .placed with placedSerial := some 8, cancelPending := true }),
        (1, { record 7 .placed with placedSerial := some 9 })] }, tidy_of (by decide), by decide⟩,
    ⟨expiring 14 none .stopping, tidy_of (by decide), by decide⟩⟩

/-- RUNNING at a frame mark with no status of link 0 taken in the frame that ends. -/
def silent (state : LinkState) (blanking faultRun : Nat) : State :=
  withLink (marking none none) { link state with blanking := blanking, faultRun := faultRun }

/-- A silent frame that a link's clauses suppose, in this state and with this blanking and fault run. -/
def Silent (s : State) (state : LinkState) (blanking faultRun : Nat) : Prop :=
  s.air.firstNext = true ∧ s.engine.state = .running ∧ s.air.serial + 1 < 2 ^ 32 ∧ s.frame = some frame ∧
    (s.link 0).state = state ∧ (s.link 0).statusTaken = false ∧ (s.link 0).keyOffPending = false ∧
    (s.link 0).divider + 1 < (s.link 0).settings.cadence ∧ (s.link 0).blanking = blanking ∧ (s.link 0).faultRun = faultRun

theorem silent_spec (state : LinkState) (blanking faultRun : Nat) :
    Silent (silent state blanking faultRun) state blanking faultRun :=
  ⟨rfl, rfl, show 7 + 1 < 2 ^ 32 by decide, rfl, rfl, rfl, rfl, show 0 + 1 < 4 by decide, rfl, rfl⟩

/-- A silent frame blanked; taken one short of the trip; tripping; and taken by a tripped and a latched link. -/
theorem witness_MarkEventsOfLinks_silent :
    (∃ s, Silent s .keyed 1 0) ∧ (∃ s, Silent s .keyed 0 1 ∧ 1 + 1 < (s.link 0).settings.tripCount) ∧
    (∃ s, Silent s .keyed 0 2 ∧ (s.link 0).settings.tripCount ≤ 2 + 1) ∧ (∃ s, Silent s .tripped 0 0) ∧
    (∃ s, Silent s .latched 0 0) :=
  ⟨⟨_, silent_spec _ _ _⟩, ⟨_, silent_spec _ _ _, by decide⟩, ⟨_, silent_spec _ _ _, by decide⟩, ⟨_, silent_spec _ _ _⟩,
    ⟨_, silent_spec _ _ _⟩⟩

/-- R138, R141: the third silent frame in a row trips a keyed link with its capture at position 120. -/
theorem test_silent_trip : ((silent .keyed 0 2).takeMark.link 0).state = .tripped ∧
    ((silent .keyed 0 2).takeMark.link 0).capture = some ⟨0, 120, .silent, 0⟩ := by decide

/-- Each event at the counter that reaches it, and one short of it. -/
theorem witness_MarkEventsOfLinks :
    (∃ s : State, s.air.firstNext = false) ∧
    (∃ s : State, s.air.firstNext = true ∧ s.engine.state = .running ∧ s.air.serial + 1 < 2 ^ 32 ∧ s.frame.isSome = true ∧
      (s.link 0).keyOffPending = false ∧ (s.link 0).statusTaken = true ∧ (s.link 0).state = .keyed ∧
      (s.link 0).settings.skip = .oneIn7 ∧ (s.link 0).skipCounter = 6 ∧ (s.link 0).cleanRun = 29 ∧
      (s.link 0).settings.cadence ≤ (s.link 0).divider + 1) ∧
    (∃ s : State, s.air.firstNext = true ∧ s.engine.state = .running ∧ s.air.serial + 1 < 2 ^ 32 ∧ s.frame.isSome = true ∧
      (s.link 0).keyOffPending = false ∧ (s.link 0).statusTaken = true ∧ (s.link 0).state = .keyed ∧
      (s.link 0).settings.skip = .oneIn5 ∧ (s.link 0).skipCounter = 3 ∧ (s.link 0).cleanRun = 28 ∧
      (s.link 0).divider + 1 < (s.link 0).settings.cadence) :=
  ⟨⟨{ running with air.firstNext := false }, rfl⟩,
    ⟨withLink (marking none none) { link .keyed with
        settings := { LinkSettings.powerOn (some 0) with skip := .oneIn7 }, statusTaken := true, skipCounter := 6
        cleanRun := 29, divider := 3 }, by decide⟩,
    ⟨withLink (marking none none) { link .keyed with
        settings := { LinkSettings.powerOn (some 0) with skip := .oneIn5 }, statusTaken := true, skipCounter := 3
        cleanRun := 28, divider := 2 }, by decide⟩⟩

/-! ### Links and the return channel -/

/-- A message discarded, blanked, taken, one alarm short of a trip, tripping, one frame short of recovery, and recovering. -/
theorem witness_StatusMessageObserved :
    (120 ≤ 120 ∧ State.reset.frame = none) ∧
    (∃ s : State, s.frame = some frame ∧ (s.link 0).state ≠ .off ∧ (s.link 0).statusTaken = false ∧ (s.link 0).blanking = 1) ∧
    (∃ s : State, s.frame = some frame ∧ (s.link 0).state = .override ∧ (s.link 0).statusTaken = false ∧
      (s.link 0).blanking = 0) ∧
    (∃ s : State, s.frame = some frame ∧ (s.link 0).state = .keyed ∧ (s.link 0).statusTaken = false ∧
      (s.link 0).blanking = 0 ∧ (s.link 0).faultRun + 1 < (s.link 0).settings.tripCount) ∧
    (∃ s : State, s.frame = some frame ∧ (s.link 0).state = .keyed ∧ (s.link 0).statusTaken = false ∧
      (s.link 0).blanking = 0 ∧ (s.link 0).settings.tripCount ≤ (s.link 0).faultRun + 1) ∧
    (∃ s : State, s.frame = some frame ∧ (s.link 0).state = .tripped ∧ (s.link 0).statusTaken = false ∧
      (s.link 0).blanking = 0 ∧ (s.link 0).clearRun < 255 ∧ (s.link 0).clearRun + 1 < (s.link 0).settings.recoveryFrames) ∧
    (∃ s : State, s.frame = some frame ∧ (s.link 0).state = .tripped ∧ (s.link 0).statusTaken = false ∧
      (s.link 0).blanking = 0 ∧ (s.link 0).clearRun < 255 ∧ 0 < (s.link 0).settings.recoveryFrames ∧
      (s.link 0).settings.recoveryFrames ≤ (s.link 0).clearRun + 1) :=
  ⟨by decide,
    ⟨withLink (marking none none) { link .keyed with blanking := 1 }, rfl, by decide⟩,
    ⟨withLink (marking none none) (link .override), rfl, by decide⟩,
    ⟨withLink (marking none none) { link .keyed with faultRun := 1 }, rfl, by decide⟩,
    ⟨withLink (marking none none) { link .keyed with faultRun := 2 }, rfl, by decide⟩,
    ⟨withLink (marking none none) { link .tripped with clearRun := 6 }, rfl, by decide⟩,
    ⟨withLink (marking none none) { link .tripped with clearRun := 7 }, rfl, by decide⟩⟩

/-- An ACK of subscriber 7, tag 5, office 0: kind 01, address, tag, check byte (R189). -/
def ackBits : BitVec 40 :=
  let body : BitVec 32 := 1#2 ++ 7#22 ++ 5#3 ++ 0#5
  body ++ checkByte body

set_option maxRecDepth 20000 in
theorem witness_ReturnMessageJudged :
    State.reset.engine.state = .loading ∧ running.engine.state ≠ .loading ∧ (running.receiver 0).enabled = false ∧
    checkByte (ackBits.extractLsb' 8 32) = ackBits.extractLsb' 0 8 ∧ ackBits.extractLsb' 38 2 = 1 ∧
    (ackBits.extractLsb' 16 22).toNat = 7 ∧ (ackBits.extractLsb' 16 22).toNat / 65536 = running.engine.office.code.val ∧
    checkByte ((ackBits ^^^ 1).extractLsb' 8 32) ≠ (ackBits ^^^ 1).extractLsb' 0 8 ∧
    (Office.defaults 1).code.val ≠ 7 / 65536 ∧
    (running.setReceiver 0 { Receiver.powerOn 0 with enabled := true }).receiver 0 = { Receiver.powerOn 0 with enabled := true } ∧
    running.tracker.reverse.length < 256 ∧ 256 ≤ (List.replicate 256 (⟨0, 0, true, 7, 5, 0⟩ : ReverseEntry)).length := by decide

/-! ### Building, settling, retrying, sweeping and walking -/

/-- RUNNING at serial 7 with a build for frame 9 and this candidate, and a record of subscriber 7 in every list given. -/
def building (candidate : Option Candidate) (due : Option Nat) (lists : Vector (List Nat) 32) (r : MessageRecord) : State :=
  { marking (some ⟨9, none, 0xF, candidate⟩) due with
    account.subscribers := [(7, subscriber .active 0 1)], store.records := [(0, r)], store.lists := lists }

/-- The same with record 0, as its handle was read, past checks 1 to 5 with zone 0 its target. -/
def placing (r : MessageRecord) : State :=
  building (some ⟨0, 0, some 1⟩) none (Vector.replicate 32 [0]) r

/-- What a place step finds wrong in a record: its handle, its state, its subscriber's slot, or its tag. -/
abbrev Strays (s : State) : Prop :=
  (s.msg 0).generation ≠ 0 ∨ (s.msg 0).state ≠ .waiting ∨ (s.sub 7).billing.slot ≠ 9 ∨
    ((s.classOf 7).twoWay = true ∧ (s.msg 0).tag = none ∧ (s.sub 7).store.tags = 0xFF)

/-- A candidate read; outside RUNNING; and no record left, with and without a due build. -/
theorem witness_CandidatePlacedOrSkipped_read :
    (∃ s : State, s.Tidy ∧ s.builder.inHand = some ⟨9, none, 0xF, none⟩ ∧ s.engine.state = .running ∧
      s.unexamined ⟨9, none, 0xF, none⟩ = [0]) ∧
    (∃ s : State, s.Tidy ∧ s.builder.inHand = some ⟨9, none, 0xF, none⟩ ∧ s.engine.state ≠ .running) ∧
    (∃ s : State, s.Tidy ∧ s.builder.inHand = some ⟨9, none, 0xF, none⟩ ∧ s.engine.state = .running ∧
      s.unexamined ⟨9, none, 0xF, none⟩ = [] ∧ s.builder.due = none) ∧
    (∃ s : State, s.Tidy ∧ s.builder.inHand = some ⟨9, none, 0xF, none⟩ ∧ s.engine.state = .running ∧
      s.unexamined ⟨9, none, 0xF, none⟩ = [] ∧ s.builder.due = some 10) :=
  ⟨⟨building none none (Vector.replicate 32 [0]) (record 7 .waiting), tidy_of (by decide), by decide⟩,
    ⟨{ building none none (Vector.replicate 32 []) (record 7 .waiting) with engine.state := .setup }, tidy_of (by decide),
      by decide⟩,
    ⟨building none none (Vector.replicate 32 []) (record 7 .waiting), tidy_of (by decide), by decide⟩,
    ⟨building none (some 10) (Vector.replicate 32 []) (record 7 .waiting), tidy_of (by decide), by decide⟩⟩

/-- A candidate that is expired, and one that passes the checks. -/
theorem witness_CandidatePlacedOrSkipped_checks :
    (∃ s : State, s.Tidy ∧ s.builder.inHand = some ⟨9, none, 0xF, some ⟨0, 0, none⟩⟩ ∧ ¬ 9 / 32 < (s.msg 0).expiry) ∧
    (∃ s : State, s.Tidy ∧ s.builder.inHand = some ⟨9, none, 0xF, some ⟨0, 0, none⟩⟩ ∧ 9 / 32 < (s.msg 0).expiry ∧
      (s.msg 0).eligible ≤ 9 / 32 ∧ s.inFlight (s.msg 0).subscriber < 4 ∧
      (s.classOf (s.msg 0).subscriber).twoWay = false ∧
      (s.sub (s.msg 0).subscriber).billing.homeZones &&& 0xF = 1 ∧
      ((s.builder.pages.get (1 : Fin 4)).get (0 : Fin 4)).length < 24 ∧
      sectionBlocks ((s.builder.pages.get (1 : Fin 4)).get (0 : Fin 4)) + (2 + (s.msg 0).blocks) ≤ 118) :=
  ⟨⟨building (some ⟨0, 0, none⟩) none (Vector.replicate 32 [0]) { record 7 .waiting with expiry := 0 },
      tidy_of (by decide), by decide⟩,
    ⟨building (some ⟨0, 0, none⟩) none (Vector.replicate 32 [0]) (record 7 .waiting), tidy_of (by decide), by decide⟩⟩

/-- A place request that is late, meets a stopped engine, is refused, and is granted. -/
theorem witness_CandidatePlacedOrSkipped_place :
    (∃ s : State, s.Tidy ∧ s.builder.inHand = some ⟨9, none, 0xF, some ⟨0, 0, some 1⟩⟩ ∧ 9 ≤ s.air.serial) ∧
    (∃ s : State, s.Tidy ∧ s.builder.inHand = some ⟨9, none, 0xF, some ⟨0, 0, some 1⟩⟩ ∧ s.air.serial < 9 ∧
      s.engine.state ≠ .running) ∧
    (∃ s : State, s.Tidy ∧ s.builder.inHand = some ⟨9, none, 0xF, some ⟨0, 0, some 1⟩⟩ ∧ s.air.serial < 9 ∧
      s.engine.state = .running ∧ Strays s) ∧
    (∃ s : State, s.Tidy ∧ s.builder.inHand = some ⟨9, none, 0xF, some ⟨0, 0, some 1⟩⟩ ∧ s.air.serial < 9 ∧
      s.engine.state = .running ∧ (s.msg 0).subscriber = 7 ∧ ¬ Strays s ∧ s.inFlight 7 < 4 ∧
      ((s.builder.pages.get (1 : Fin 4)).get (0 : Fin 4)).length < 24 ∧
      sectionBlocks ((s.builder.pages.get (1 : Fin 4)).get (0 : Fin 4)) + (2 + (s.msg 0).blocks) ≤ 118) :=
  ⟨⟨{ placing (record 7 .waiting) with air.serial := 9 }, tidy_of (by decide), by decide⟩,
    ⟨{ placing (record 7 .waiting) with engine.state := .stopping }, tidy_of (by decide), by decide⟩,
    ⟨placing { record 7 .waiting with generation := 1 }, tidy_of (by decide), by decide⟩,
    ⟨placing (record 7 .waiting), tidy_of (by decide), by decide⟩⟩

/-- R128: a candidate examined and then closed, with or without a new message in its record, held, or moved to another slot
is refused at the place step, and nothing is placed; the walk goes on. -/
theorem test_work_between_checks_and_place_step :
    ∀ s ∈ [placing (record 7 .free), placing { record 7 .waiting with generation := 1 }, placing (record 7 .held),
        { placing (record 7 .waiting) with
          account.subscribers := [(7, { subscriber .active 0 1 with billing.slot := 10 })] }],
      (s.placeCandidate ⟨9, none, 0xF, some ⟨0, 0, some 1⟩⟩ ⟨0, 0, some 1⟩ 1).builder.inHand =
          some ⟨9, none, 0xF, none⟩ ∧
        (s.placeCandidate ⟨9, none, 0xF, some ⟨0, 0, some 1⟩⟩ ⟨0, 0, some 1⟩ 1).store.records = s.store.records := by
  decide

/-- R124, R125, section 7.8: the candidate whose place step the mark comes before is counted among the records left. -/
theorem test_cut_counts_candidate :
    (building none none (Vector.replicate 32 [0, 1]) (record 7 .waiting)).leftUnplaced
        ⟨9, some ⟨true, 0⟩, 0xF, some ⟨2, 0, some 1⟩⟩ = 3 ∧
      (building none none (Vector.replicate 32 []) (record 7 .waiting)).leftUnplaced ⟨9, none, 0xF, none⟩ = 0 := by
  decide

/-- The tracker at work at serial 159, the last of cycle 4, with its reservation, these items and one record of subscriber
7 in class 0. -/
def tracking (cls : ServiceClass) (u : Subscriber) (r : MessageRecord) (t : Tracker) : State :=
  holding { running with
    engine.classes := Vector.replicate 8 cls, air.serial := 159, account.subscribers := [(7, u)]
    store.records := [(0, r)], tracker := t } .tracker

/-- The settle list with one entry, whose zones are these. -/
def settling (zones : ZoneSet) : Tracker := { Tracker.powerOn with settle := [⟨0, 0, 159, zones⟩] }

/-- A record on the air for that entry, in zone 0. -/
def airing : MessageRecord := { record 7 .onAir with placedSerial := some 159, placedZones := 1 }

/-- A two-way class. -/
def twoWay : ServiceClass := { ServiceClass.defaults with twoWay := true, retryLimit := 1 }

/-- One state for each row of the table. -/
theorem witness_EntrySettledByFirstRow :
    (∃ s : State, s.Tidy ∧ s.tracker.settle = [⟨0, 0, 159, 1⟩] ∧ s.ex.writer.holds .tracker = true ∧ (s.msg 0).state ≠ .onAir) ∧
    (∃ s : State, s.Tidy ∧ s.tracker.settle = [⟨0, 0, 159, 1⟩] ∧ s.ex.writer.holds .tracker = true ∧
      (s.msg 0).state = .onAir ∧ (s.msg 0).generation = 0 ∧ (s.msg 0).placedSerial = some 159 ∧ (s.msg 0).ackedPending = true) ∧
    (∃ s : State, s.Tidy ∧ s.tracker.settle = [⟨0, 0, 159, 1⟩] ∧ s.ex.writer.holds .tracker = true ∧
      (s.msg 0).state = .onAir ∧ (s.msg 0).generation = 0 ∧ (s.msg 0).placedSerial = some 159 ∧
      (s.msg 0).ackedPending = false ∧ (s.msg 0).cancelPending = true) ∧
    (∃ s : State, s.Tidy ∧ s.tracker.settle = [⟨0, 0, 159, 2⟩] ∧ s.ex.writer.holds .tracker = true ∧
      (s.msg 0).state = .onAir ∧ (s.msg 0).placedSerial = some 159 ∧ (s.msg 0).cancelPending = false ∧
      (s.msg 0).placedZones &&& 2 = 0 ∧ (s.msg 0).expiry ≤ s.air.serial / 32) ∧
    (∃ s : State, s.Tidy ∧ s.tracker.settle = [⟨0, 0, 159, 2⟩] ∧ s.ex.writer.holds .tracker = true ∧
      (s.msg 0).state = .onAir ∧ (s.msg 0).placedSerial = some 159 ∧ (s.msg 0).cancelPending = false ∧
      (s.msg 0).placedZones &&& 2 = 0 ∧ s.air.serial / 32 < (s.msg 0).expiry) ∧
    (∃ s : State, s.Tidy ∧ s.tracker.settle = [⟨0, 0, 159, 1⟩] ∧ s.ex.writer.holds .tracker = true ∧
      (s.msg 0).state = .onAir ∧ (s.msg 0).placedSerial = some 159 ∧ (s.msg 0).placedZones &&& 1 ≠ 0 ∧
      (s.classOf 7).twoWay = true) ∧
    (∃ s : State, s.Tidy ∧ s.tracker.settle = [⟨0, 0, 159, 1⟩] ∧ s.ex.writer.holds .tracker = true ∧
      (s.msg 0).state = .onAir ∧ (s.msg 0).placedSerial = some 159 ∧ (s.msg 0).placedZones &&& 1 ≠ 0 ∧
      (s.classOf 7).twoWay = false ∧ (s.classOf 7).repeatCount ≤ (s.msg 0).attempts + 1) ∧
    (∃ s : State, s.Tidy ∧ s.tracker.settle = [⟨0, 0, 159, 1⟩] ∧ s.ex.writer.holds .tracker = true ∧
      (s.msg 0).state = .onAir ∧ (s.msg 0).placedSerial = some 159 ∧ (s.msg 0).placedZones &&& 1 ≠ 0 ∧
      (s.classOf 7).twoWay = false ∧ (s.msg 0).attempts + 1 < (s.classOf 7).repeatCount ∧ (s.sub 7).reach.unreachable = true) ∧
    (∃ s : State, s.Tidy ∧ s.tracker.settle = [⟨0, 0, 159, 1⟩] ∧ s.ex.writer.holds .tracker = true ∧
      (s.msg 0).state = .onAir ∧ (s.msg 0).placedSerial = some 159 ∧ (s.msg 0).placedZones &&& 1 ≠ 0 ∧
      (s.classOf 7).twoWay = false ∧ (s.msg 0).attempts + 1 < (s.classOf 7).repeatCount ∧
      (s.sub 7).reach.unreachable = false) :=
  ⟨⟨tracking .defaults (subscriber .active 0 1) (record 7 .waiting) (settling 1), tidy_of (by decide), rfl, by decide⟩,
    ⟨tracking .defaults (subscriber .active 0 1) { airing with ackedPending := true } (settling 1), tidy_of (by decide), rfl,
      by decide⟩,
    ⟨tracking .defaults (subscriber .active 0 1) { airing with cancelPending := true } (settling 1), tidy_of (by decide), rfl,
      by decide⟩,
    ⟨tracking .defaults (subscriber .active 0 1) { airing with expiry := 4 } (settling 2), tidy_of (by decide), rfl, by decide⟩,
    ⟨tracking .defaults (subscriber .active 0 1) airing (settling 2), tidy_of (by decide), rfl, by decide⟩,
    ⟨tracking twoWay (subscriber .active 0 1) airing (settling 1), tidy_of (by decide), rfl, by decide⟩,
    ⟨tracking .defaults (subscriber .active 0 1) airing (settling 1), tidy_of (by decide), rfl, by decide⟩,
    ⟨tracking { ServiceClass.defaults with repeatCount := 2 } (unreachable (subscriber .active 0 1)) airing (settling 1),
      tidy_of (by decide), rfl, by decide⟩,
    ⟨tracking { ServiceClass.defaults with repeatCount := 2 } (subscriber .active 0 1) airing (settling 1),
      tidy_of (by decide), rfl, by decide⟩⟩

/-- A reverse queue with one return message of subscriber 7, tag 5, taken at serial 159. -/
def hearing (isAck : Bool) : Tracker := { Tracker.powerOn with reverse := [⟨0, 2, isAck, 7, 5, 159⟩] }

/-- A deadline before the message and one behind it; a REGISTER and an ACK of a VACANT subscriber; a REGISTER, an unmatched
ACK, and an ACK of a record ON AIR and AWAITING ACK. -/
theorem witness_ReturnItemProcessed :
    (∃ s : State, s.Tidy ∧ s.ex.writer.holds .tracker = true ∧ s.tracker.reverse = [⟨0, 2, true, 7, 5, 159⟩] ∧
      s.tracker.deadlines = [⟨0, 0, 159⟩] ∧ 159 ≤ s.air.serial) ∧
    (∃ s : State, s.Tidy ∧ s.ex.writer.holds .tracker = true ∧ s.tracker.reverse = [⟨0, 2, true, 7, 5, 158⟩] ∧
      s.tracker.deadlines = [⟨0, 0, 159⟩] ∧ 159 ≤ s.air.serial) ∧
    (∃ s : State, s.Tidy ∧ s.ex.writer.holds .tracker = true ∧ s.tracker.reverse = [⟨0, 2, true, 7, 5, 159⟩] ∧
      (s.sub 7).billing.state = .vacant) ∧
    (∃ s : State, s.Tidy ∧ s.ex.writer.holds .tracker = true ∧ s.tracker.reverse = [⟨0, 2, false, 7, 5, 159⟩] ∧
      (s.sub 7).billing.state = .barred) ∧
    (∃ s : State, s.Tidy ∧ s.ex.writer.holds .tracker = true ∧ s.tracker.reverse = [⟨0, 2, true, 7, 5, 159⟩] ∧
      (s.sub 7).billing.state = .active ∧ (s.msg 0).state = .onAir ∧ (s.msg 0).subscriber = 7 ∧ (s.msg 0).tag = some 5) ∧
    (∃ s : State, s.Tidy ∧ s.ex.writer.holds .tracker = true ∧ s.tracker.reverse = [⟨0, 2, true, 7, 5, 159⟩] ∧
      (s.sub 7).billing.state = .active ∧ (s.msg 0).state = .awaitingAck ∧ (s.msg 0).subscriber = 7 ∧
      (s.msg 0).tag = some 5) :=
  ⟨⟨tracking twoWay (subscriber .active 0 1) (record 7 .awaitingAck) { hearing true with deadlines := [⟨0, 0, 159⟩] },
      tidy_of (by decide), by decide, rfl, rfl, by decide⟩,
    ⟨tracking twoWay (subscriber .active 0 1) (record 7 .awaitingAck)
        { Tracker.powerOn with reverse := [⟨0, 2, true, 7, 5, 158⟩], deadlines := [⟨0, 0, 159⟩] },
      tidy_of (by decide), by decide, rfl, rfl, by decide⟩,
    ⟨tracking twoWay (account 1 false 0 |> fun u => { u with billing.state := .vacant }) (record 7 .waiting) (hearing true),
      tidy_of (by decide), by decide, rfl, by decide⟩,
    ⟨tracking twoWay (subscriber .barred 0 1) (record 7 .waiting) (hearing false), tidy_of (by decide), by decide, rfl,
      by decide⟩,
    ⟨tracking twoWay (subscriber .active 0 1) { airing with tag := some 5 } (hearing true), tidy_of (by decide), by decide,
      rfl, by decide⟩,
    ⟨tracking twoWay (subscriber .active 0 1) { record 7 .awaitingAck with tag := some 5 } (hearing true),
      tidy_of (by decide), by decide, rfl, by decide⟩⟩

/-- A deadline list with one entry of record 0 at this serial. -/
def owing (serial : Nat) : Tracker := { Tracker.powerOn with deadlines := [⟨0, 0, serial⟩] }

/-- A deadline not yet due, one behind a return message, and one for each row; and a miss that reaches the latch limit. -/
theorem witness_DeadlineItemProcessed :
    (∃ s : State, s.Tidy ∧ s.tracker.deadlines = [⟨0, 0, 160⟩] ∧ s.ex.writer.holds .tracker = true ∧
      (s.msg 0).state = .awaitingAck ∧ s.air.serial < 160) ∧
    (∃ s : State, s.Tidy ∧ s.tracker.deadlines = [⟨0, 0, 159⟩] ∧ s.ex.writer.holds .tracker = true ∧
      (s.msg 0).state = .awaitingAck ∧ s.tracker.reverse = [⟨0, 2, true, 7, 5, 158⟩]) ∧
    (∃ s : State, s.Tidy ∧ s.tracker.deadlines = [⟨0, 0, 159⟩] ∧ s.ex.writer.holds .tracker = true ∧
      (s.msg 0).state = .awaitingAck ∧ s.tracker.reverse = [] ∧ 159 ≤ s.air.serial ∧
      (s.classOf 7).retryLimit ≤ (s.msg 0).attempts) ∧
    (∃ s : State, s.Tidy ∧ s.tracker.deadlines = [⟨0, 0, 159⟩] ∧ s.ex.writer.holds .tracker = true ∧
      (s.msg 0).state = .awaitingAck ∧ s.tracker.reverse = [] ∧ (s.msg 0).attempts < (s.classOf 7).retryLimit ∧
      (s.msg 0).expiry ≤ 159 / 32) ∧
    (∃ s : State, s.Tidy ∧ s.tracker.deadlines = [⟨0, 0, 159⟩] ∧ s.ex.writer.holds .tracker = true ∧
      (s.msg 0).state = .awaitingAck ∧ s.tracker.reverse = [] ∧ (s.msg 0).attempts < (s.classOf 7).retryLimit ∧
      159 / 32 < (s.msg 0).expiry ∧ ((s.missLatch 7).sub 7).reach.unreachable = true ∧ (s.sub 7).reach.unreachable = false ∧
      s.engine.office.missLatchLimit ≤ (s.sub 7).reach.missCount + 1) ∧
    (∃ s : State, s.Tidy ∧ s.tracker.deadlines = [⟨0, 0, 159⟩] ∧ s.ex.writer.holds .tracker = true ∧
      (s.msg 0).state = .awaitingAck ∧ s.tracker.reverse = [] ∧ (s.msg 0).attempts < (s.classOf 7).retryLimit ∧
      159 / 32 < (s.msg 0).expiry ∧ ((s.missLatch 7).sub 7).reach.unreachable = false) :=
  ⟨⟨tracking twoWay (subscriber .active 0 1) (record 7 .awaitingAck) (owing 160), tidy_of (by decide), rfl, by decide⟩,
    ⟨tracking twoWay (subscriber .active 0 1) (record 7 .awaitingAck)
        { owing 159 with reverse := [⟨0, 2, true, 7, 5, 158⟩] }, tidy_of (by decide), rfl, by decide, by decide, rfl⟩,
    ⟨tracking twoWay (subscriber .active 0 1) { record 7 .awaitingAck with attempts := 1 } (owing 159), tidy_of (by decide),
      rfl, by decide, by decide, rfl, by decide⟩,
    ⟨tracking twoWay (subscriber .active 0 1) { record 7 .awaitingAck with expiry := 4 } (owing 159), tidy_of (by decide),
      rfl, by decide, by decide, rfl, by decide⟩,
    ⟨tracking twoWay { subscriber .active 0 1 with reach := { Reach.reset with missCount := 3 } } (record 7 .awaitingAck)
        (owing 159), tidy_of (by decide), rfl, by decide, by decide, rfl, by decide⟩,
    ⟨tracking twoWay { subscriber .active 0 1 with reach := { Reach.reset with missCount := 2 } } (record 7 .awaitingAck)
        (owing 159), tidy_of (by decide), rfl, by decide, by decide, rfl, by decide⟩⟩

/-- RUNNING before the mark of serial 31 or 32, the sweep at a record, with the message store's reservation. -/
def sweeping (serial : Nat) (w : Sweep) (records : Table MessageRecord) (airStop : List Nat) : State :=
  holding { marking none none with air.serial := serial, store.sweep := w, store.records := records, store.airStop := airStop }
    .messageStore

theorem witness_SweepAndAirStopClose :
    (∃ s : State, s.air.firstNext = true ∧ s.engine.state = .running ∧ s.air.serial + 1 < 2 ^ 32 ∧
      (s.air.serial + 1) % 32 = 0 ∧ s.store.sweep.inFlight = false) ∧
    (∃ s : State, s.air.firstNext = true ∧ s.engine.state = .running ∧ s.air.serial + 1 < 2 ^ 32 ∧
      (s.air.serial + 1) % 32 = 0 ∧ s.store.sweep.inFlight = true) ∧
    (∃ s : State, s.air.firstNext = true ∧ s.engine.state = .running ∧ s.air.serial + 1 < 2 ^ 32 ∧
      (s.air.serial + 1) % 32 ≠ 0) ∧
    (∃ s : State, s.store.sweep.inFlight = true ∧ s.store.sweep.waiting = none ∧ s.store.airStop = [] ∧
      (s.msg s.store.sweep.next).state = .held ∧ (s.msg s.store.sweep.next).expiry ≤ s.store.sweep.bound) ∧
    (∃ s : State, s.store.sweep.inFlight = true ∧ s.store.sweep.waiting = none ∧ s.store.airStop = [] ∧
      s.store.sweep.next = 16383 ∧ (s.msg s.store.sweep.next).state = .free) ∧
    (∃ s : State, s.store.sweep.waiting = some 0 ∧ s.ex.writer.holds .messageStore = true ∧
      (s.msg s.store.sweep.next).generation = 0 ∧ (s.msg s.store.sweep.next).state = .waiting ∧
      (s.msg s.store.sweep.next).expiry ≤ s.store.sweep.bound) ∧
    (∃ s : State, s.store.sweep.waiting = some 0 ∧ s.ex.writer.holds .messageStore = true ∧
      (s.msg s.store.sweep.next).state = .onAir) ∧
    (∃ s : State, s.store.airStop = [0] ∧ s.ex.writer.holds .messageStore = true ∧ (s.msg 0).ackedPending = true) ∧
    (∃ s : State, s.store.airStop = [0] ∧ s.ex.writer.holds .messageStore = true ∧ (s.msg 0).ackedPending = false) :=
  ⟨⟨sweeping 31 Sweep.reset [] [], by decide⟩,
    ⟨sweeping 31 ⟨true, 5, 0, false, none⟩ [] [], by decide⟩,
    ⟨sweeping 32 Sweep.reset [] [], by decide⟩,
    ⟨sweeping 160 ⟨true, 0, 5, false, none⟩ [(0, record 7 .held)] [], by decide⟩,
    ⟨sweeping 160 ⟨true, 16383, 5, true, none⟩ [] [], by decide⟩,
    ⟨sweeping 160 ⟨true, 0, 5, false, some 0⟩ [(0, record 7 .waiting)] [], by decide⟩,
    ⟨sweeping 160 ⟨true, 0, 5, false, some 0⟩ [(0, record 7 .onAir)] [], by decide⟩,
    ⟨sweeping 160 Sweep.reset [(0, { record 7 .placed with ackedPending := true })] [0], by decide⟩,
    ⟨sweeping 160 Sweep.reset [(0, { record 7 .placed with cancelPending := true })] [0], by decide⟩⟩

/-- The walk at a subscriber to roll with one position left, and at the last subscriber. -/
theorem witness_RollWalkVisits :
    (∃ s : State, s.Tidy ∧ s.account.walk.inFlight = true ∧ s.ex.writer.holds .rollWalk = true ∧
      s.account.walk.next = 65534 ∧ (s.sub 65534).billing.state = .active ∧
      (s.sub 65534).billing.period ≠ s.account.period) ∧
    (∃ s : State, s.Tidy ∧ s.account.walk.inFlight = true ∧ s.ex.writer.holds .rollWalk = true ∧
      s.account.walk.next = 65535) :=
  ⟨⟨holding { machine .setup [(65534, subscriber .active 0 0)] [] with
        account.period := 1, account.walk := ⟨true, 65534, 0⟩ } .rollWalk, tidy_of (by decide), by decide⟩,
    ⟨holding { machine .setup [] [] with account.walk := ⟨true, 65535, 65536⟩ } .rollWalk, tidy_of (by decide), by decide⟩⟩

end Sys2Proof.Tests
end

section
/-! CLOCK SET (R3), and what an order's answer leaves where the order has given a mirror notice first (R77, R95). -/

namespace Sys2Proof.Machine

/-! ## An answer after a mirror notice -/

/-- A mirror notice leaves the posting in hand (R77, R84). -/
theorem State.InHand.notice {s : State} {n : Nat} {p : Posting} {code : Nat} (h : s.InHand n p code) (m : Mirror) :
    (s.notice m).InHand n p code :=
  ⟨h.intake, h.slot, h.code, ⟨h.tidy.mem, h.tidy.slots, h.tidy.subscribers, h.tidy.records⟩, h.pages⟩

/-- A mirror notice only adds to the notices, so an answer over the noticed state is one over the state before it. -/
theorem Answered.of_notice {s t : State} {m : Mirror} {n : Nat} {posting : Word} {code : AnswerCode} {data : List Word}
    (a : Answered (s.notice m) t n posting code data) : Answered s t n posting code data :=
  { body := a.body, slots := a.slots, count := a.count, header := a.header, mem := a.mem, queue := a.queue
    buffer := a.buffer, fence := a.fence, enable := a.enable, bus := a.bus, read := a.read, progress := a.progress
    answers := a.answers, others := a.others, intake := a.intake
    notices := fun k old => a.notices k (Exchange.notice_mem.mpr (.inl old))
    reports := ⟨a.reports.records, a.reports.next, a.reports.held, a.reports.pages⟩ }

/-- The posting in hand carries its order's code as a word (R84). -/
theorem State.InHand.code_eq {s : State} {n : Nat} {p : Posting} {code : Nat} (h : s.InHand n p code) :
    Posting.code p = word code := by
  rw [← h.code, word, BitVec.ofNat_toNat, BitVec.setWidth_eq]

/-! ## CLOCK SET -/

/-- The state CLOCK SET answers over: both parts of the office clock written and the notice given (R3, R77). -/
def State.withClock (s : State) (day second : Nat) : State :=
  State.notice { s with air := { s.air with day := day, second := second } } .officeClock

theorem State.withClock_air (s : State) (day second : Nat) :
    (s.withClock day second).air = { s.air with day := day, second := second } := rfl

theorem State.withClock_ex (s : State) (day second : Nat) : (s.withClock day second).ex = (s.notice .officeClock).ex := rfl

/-- CLOCK SET (R3): the clock written with the second of day clamped, ADJUSTED exactly where the clamp replaced it. -/
theorem State.clockSet_eq (s : State) (p : Posting) :
    s.clockSet p =
      let day := (p.param 1).toNat % 65536
      let second := if (p.param 2).toNat ≤ 86399 then (p.param 2).toNat else 86399
      (s.withClock day second).answer (if (p.param 2).toNat ≤ 86399 then .accepted else .adjusted)
        [word day, word second] := by
  have clamped : min 86399 (p.param 2).toNat = if (p.param 2).toNat ≤ 86399 then (p.param 2).toNat else 86399 := by
    rw [min_comm, min_def]
  simp only [State.clockSet, State.withClock, clamped]

/-- Settles O39: the answer touches the exchange alone, and it keeps the notice of the office clock given before it. -/
theorem clockSet : Obligations.ClockSet := by
  unfold Obligations.ClockSet
  intro s n p h day second
  have answered := (h.notice .officeClock).answered (s.withClock_ex day second)
    (if (p.param 2).toNat ≤ 86399 then .accepted else .adjusted) [word day, word second]
  rw [h.code_eq, ← State.clockSet_eq] at answered
  have air : (s.clockSet p).air = { s.air with day := day, second := second } := by
    rw [State.clockSet_eq, State.answer_air, State.withClock_air]
  have frame : s.clockSet p = { s with air := (s.clockSet p).air, ex := (s.clockSet p).ex } := by
    rw [air, State.clockSet_eq]
    exact State.answer_eq (s.withClock day second) _ _
  exact ⟨s.clockSet p, State.order_inHand h s.clockSet, air,
    answered.notices _ (Exchange.notice_mem.mpr (.inr rfl)), answered.of_notice, frame⟩

end Sys2Proof.Machine
end

section
/-! BAR, UNBAR and RETIRE (R29, R30), and what an order leaves that writes one subscriber record before it answers. -/

namespace Sys2Proof.Machine

/-! ## What an order of the account unit leaves -/

/-- A record handed leaves the posting in hand (R83, R171). -/
theorem State.InHand.hand {s : State} {n : Nat} {p : Posting} {code : Nat} (h : s.InHand n p code) (q : Producer)
    (r : Record) : (s.hand q r).InHand n p code :=
  have rep := s.hand_reported q r
  ⟨(s.hand_intake q r).trans h.intake, h.slot, h.code,
    ⟨rep.wf h.tidy.mem, rep.slots ▸ h.tidy.slots, h.tidy.subscribers, h.tidy.records⟩, rep.law h.pages⟩

/-- An order that comes to an answer over the state as it stands changes the exchange alone (R95). -/
theorem State.InHand.order_answer {s : State} {n : Nat} {p : Posting} {k : Nat} (h : s.InHand n p k) {f : Posting → State}
    {code : AnswerCode} {data : List Word} (meaning : f p = s.answer code data) :
    ∃ t, s.order k f = .next t ∧ Answered s t n (word k) code data ∧ t = { s with ex := t.ex } := by
  have answered := h.answered rfl code data
  rw [h.code_eq] at answered
  exact ⟨s.answer code data, by rw [State.order_inHand h, meaning], answered, State.answer_eq s code data⟩

/-- An order that writes one subscriber record and answers, over a state `u` that differs from `s` in the exchange alone, as
it does where records were handed first: that record reads as written, and outside the subscriber table and the exchange
nothing changes (R19, R95). -/
theorem State.InHand.order_setSub_answer {s u : State} {n : Nat} {p : Posting} {k : Nat} (h : s.InHand n p k)
    (hu : u.InHand n p k) (same : u = { s with ex := u.ex }) {f : Posting → State} {m : Nat} {v : Subscriber}
    {code : AnswerCode} {data : List Word} (meaning : f p = (u.setSub m v).answer code data) :
    ∃ t, s.order k f = .next t ∧ t.sub m = v ∧ (∀ j, j ≠ m → t.sub j = s.sub j) ∧ Answered u t n (word k) code data ∧
      t = { s with account := { s.account with subscribers := t.account.subscribers }, ex := t.ex } := by
  have answered := hu.answered (u.setSub_ex m v) code data
  rw [h.code_eq] at answered
  have account : u.account = s.account := by rw [same]
  have sub (j : Nat) : ((u.setSub m v).answer code data).sub j = if j = m then v else s.sub j := by
    calc ((u.setSub m v).answer code data).sub j
      _ = (u.setSub m v).sub j := by rw [State.sub, State.answer_account, State.sub]
      _ = if j = m then v else u.sub j := State.sub_setSub hu.tidy.subscribers m j v
      _ = if j = m then v else s.sub j := by rw [State.sub, account, State.sub]
  have frame : (u.setSub m v).answer code data =
      { s with
        account := { s.account with subscribers := ((u.setSub m v).answer code data).account.subscribers }
        ex := ((u.setSub m v).answer code data).ex } := by
    rw [State.answer_account, State.setSub_account, account, State.answer_eq, State.setSub, same]
  exact ⟨(u.setSub m v).answer code data, by rw [State.order_inHand h, meaning], by rw [sub, if_pos rfl],
    fun j ne => by rw [sub, if_neg ne], answered, frame⟩

/-! ## RETIRE -/

/-- RETIRE of a VACANT subscriber is refused (R23, R30). -/
theorem State.retire_vacant {s : State} {p : Posting} (vacant : (s.sub p.subscriber).billing.state = .vacant) :
    s.retire p = s.refuseSubscriber .unknownSubscriber p.subscriber := if_pos vacant

/-- RETIRE of a subscriber with open messages is refused (R30). -/
theorem State.retire_open {s : State} {p : Posting} (live : (s.sub p.subscriber).billing.state ≠ .vacant)
    (messages : 0 < (s.sub p.subscriber).store.openCount) :
    s.retire p = s.refuseSubscriber .openMessages p.subscriber := (if_neg live).trans (if_pos messages)

/-- RETIRE accepted (R30): the FINAL summary, the record at its power-on values, the balance answered. -/
theorem State.retire_accepted {s : State} {p : Posting} (live : (s.sub p.subscriber).billing.state ≠ .vacant)
    (none : (s.sub p.subscriber).store.openCount = 0) :
    s.retire p =
      ((s.hand .intake (recordPeriodSummary p.subscriber (s.sub p.subscriber).billing .final)).setSub p.subscriber
        Subscriber.powerOn).answer .accepted [wordInt (s.sub p.subscriber).billing.balance] :=
  (if_neg live).trans (if_neg (by rw [none]; exact Nat.lt_irrefl 0))

/-- Settles O31: the two refusals answer over the state as found, and the accepted order writes one record over the state in
which the summary was handed. -/
theorem subscriberRetired : Obligations.SubscriberRetired := by
  unfold Obligations.SubscriberRetired
  intro s n p h m u b refused
  refine ⟨fun vacant => ?_, fun live messages => ?_, fun live none => ?_⟩
  · exact h.order_answer (State.retire_vacant vacant)
  · exact h.order_answer (State.retire_open live messages)
  · exact h.order_setSub_answer (h.hand .intake _) (State.hand_eq s .intake _) (State.retire_accepted live none)

/-! ## BAR and UNBAR -/

/-- BAR or UNBAR of a VACANT subscriber is refused (R23, R29). -/
theorem State.setBarred_vacant {s : State} {p : Posting} (vacant : (s.sub p.subscriber).billing.state = .vacant)
    (to_ : SubscriberState) : s.setBarred p to_ = s.answer .unknownSubscriber [word p.subscriber, 0] := by
  have refused : s.setBarred p to_ = s.refuseSubscriber .unknownSubscriber p.subscriber := if_pos vacant
  rw [refused, State.refuseSubscriber, vacant, SubscriberState.code]

/-- BAR or UNBAR accepted (R29): the state written alone, and answered with whether it changed. -/
theorem State.setBarred_accepted {s : State} {p : Posting} (live : (s.sub p.subscriber).billing.state ≠ .vacant)
    (to_ : SubscriberState) :
    s.setBarred p to_ =
      (s.setSub p.subscriber
        { s.sub p.subscriber with billing := { (s.sub p.subscriber).billing with state := to_ } }).answer .accepted
        [to_.code, if (s.sub p.subscriber).billing.state = to_ then 0 else 1] := by
  have changed : wordFlag (decide ((s.sub p.subscriber).billing.state ≠ to_)) =
      if (s.sub p.subscriber).billing.state = to_ then 0 else 1 := by
    by_cases e : (s.sub p.subscriber).billing.state = to_
    · rw [if_pos e, decide_eq_false (not_not_intro e), wordFlag, if_neg Bool.false_ne_true]
    · rw [if_neg e, decide_eq_true e, wordFlag, if_pos rfl]
  rw [← changed]
  exact if_neg live

/-- Settles O30: BAR and UNBAR are one order that differs in the posting code and the state it sets. -/
theorem subscriberBarredAndUnbarred : Obligations.SubscriberBarredAndUnbarred := by
  unfold Obligations.SubscriberBarredAndUnbarred
  intro s n p code c to_ which h m b
  have meaning : exec c s = s.order code fun p => s.setBarred p to_ := by
    obtain ⟨rfl, rfl, rfl⟩ | ⟨rfl, rfl, rfl⟩ := which
    · rfl
    · rfl
  rw [meaning]
  refine ⟨fun vacant => ?_, fun live => ?_⟩
  · exact h.order_answer (State.setBarred_vacant vacant to_)
  · exact h.order_setSub_answer h rfl (State.setBarred_accepted live to_)

end Sys2Proof.Machine
end

section
/-! SUPPORT. What an operation of the account unit on one subscriber leaves (chapter 3), said once for all of them: the
billing group it writes, the records it hands in order, and nothing else. -/

namespace Sys2Proof.Machine

/-! ## Records handed in order -/

theorem State.handAll_append (s : State) (p : Producer) (first rest : List Record) :
    s.handAll p (first ++ rest) = (s.handAll p first).handAll p rest := List.foldl_append

/-- Records handed touch the exchange alone. -/
theorem State.handAll_eq (s : State) (p : Producer) (records : List Record) :
    s.handAll p records = { s with ex := (s.handAll p records).ex } := by
  induction records generalizing s with
  | nil => rfl
  | cons r rest ih => exact ih (s.hand p r)

/-- What handing records does to the exchange rests on the exchange and on the time stamped into a page alone. -/
theorem State.handAll_congr {s t : State} (ex : t.ex = s.ex) (air : t.air = s.air) (p : Producer) (records : List Record) :
    (t.handAll p records).ex = (s.handAll p records).ex := by
  induction records generalizing s t with
  | nil => exact ex
  | cons r rest ih =>
    refine ih ?_ air
    show t.ex.hand t.stamp p r = s.ex.hand s.stamp p r
    rw [State.stamp, ex, air, State.stamp]

/-- Records handed leave the posting in hand (R83, R171). -/
theorem State.InHand.handAll {s : State} {n : Nat} {p : Posting} {code : Nat} (h : s.InHand n p code) (q : Producer)
    (records : List Record) : (s.handAll q records).InHand n p code := by
  induction records generalizing s with
  | nil => exact h
  | cons r rest ih => exact ih (h.hand q r)

/-! ## One billing group and the records of its change -/

/-- The step from `s` to `t` writes billing group `b` of subscriber `n` and hands these records under `p`'s reservation;
outside the subscriber table and the exchange it changes nothing. -/
structure State.Bills (s t : State) (p : Producer) (n : Nat) (b : Billing) (records : List Record) : Prop where
  sub : ∀ k, t.sub k = if k = n then { s.sub n with billing := b } else s.sub k
  canon : t.Canon
  ex : t.ex = (s.handAll p records).ex
  frame : t = { s with account := { s.account with subscribers := t.account.subscribers }, ex := t.ex }

section
variable {s t : State} {p : Producer} {n : Nat} {b : Billing} {records : List Record}

theorem State.Bills.refl (c : s.Canon) (p : Producer) (n : Nat) : s.Bills s p n (s.sub n).billing [] where
  sub k := by
    split
    · next e => rw [e]
    · rfl
  canon := c
  ex := rfl
  frame := rfl

theorem State.Bills.here (h : s.Bills t p n b records) : t.sub n = { s.sub n with billing := b } :=
  (h.sub n).trans (if_pos rfl)

theorem State.Bills.other (h : s.Bills t p n b records) {k : Nat} (ne : k ≠ n) : t.sub k = s.sub k :=
  (h.sub k).trans (if_neg ne)

theorem State.Bills.billing (h : s.Bills t p n b records) : (t.sub n).billing = b := by rw [h.here]

theorem State.Bills.planOf (h : s.Bills t p n b records) : t.planOf n = s.account.plans.get b.plan := by
  rw [State.planOf, h.billing, h.frame]

/-- The frame, whatever the exchange comes to after the step. -/
theorem State.Bills.frame_ex (h : s.Bills t p n b records) (x : Exchange) :
    ({ t with ex := x } : State) =
      { s with account := { s.account with subscribers := t.account.subscribers }, ex := x } := by
  rw [h.frame]

/-- The billing group written again. -/
theorem State.Bills.setBilling (h : s.Bills t p n b records) (b' : Billing) :
    s.Bills (t.setBilling n b') p n b' records where
  sub k := by
    rw [State.sub_setBilling h.canon, h.here, h.sub k]
    split <;> rfl
  canon := h.canon.setSub n _
  ex := h.ex
  frame := by
    show ({ t with account := { t.account with subscribers := (t.setBilling n b').account.subscribers } } : State) = _
    rw [h.frame]
    rfl

/-- One more record handed. -/
theorem State.Bills.hand (h : s.Bills t p n b records) (r : Record) : s.Bills (t.hand p r) p n b (records ++ [r]) where
  sub := h.sub
  canon := ⟨h.canon.subscribers, h.canon.records⟩
  ex := by
    have air : t.air = (s.handAll p records).air := by rw [h.frame, State.handAll_eq]
    rw [State.handAll_append]
    exact State.handAll_congr (t := t) h.ex air p [r]
  frame := h.frame_ex _

/-! ## The operations of the account unit -/

/-- The BALANCE ALERT of a judgement that leaves the low-balance flag `low`, where the flag changed (R50). -/
def alertOnChange (n : Nat) (plan : RatePlan) (b : Billing) (low : Bool) (event : BalanceEvent) : List Record :=
  if low = b.lowBalance then []
  else [recordBalanceAlert n low b.balance plan.warningLevel plan.recoveryMargin b.plan event]

/-- The flag judged after a balance event (R49, R50). -/
theorem State.Bills.judgeLow (h : s.Bills t p n b records) (event : BalanceEvent) :
    let plan := s.account.plans.get b.plan
    let low := lowBalanceAfter plan b.lowBalance b.balance
    s.Bills (t.judgeLow p n event) p n { b with lowBalance := low } (records ++ alertOnChange n plan b low event) := by
  simp only [State.judgeLow, State.setLow, h.billing, h.planOf, alertOnChange]
  split
  · rw [List.append_nil]
    exact h.setBilling _
  · exact (h.setBilling _).hand _

/-- A stale record rolled at the start of an intake request (R57, R58). -/
theorem State.rollIfStale_bills (c : s.Canon) (n : Nat) :
    s.Bills (s.rollIfStale n) .intake n (s.rolled n)
      (if s.stale n then [recordPeriodSummary n (s.sub n).billing .intake] else []) where
  sub := State.sub_rollIfStale c n
  canon := (s.rollIfStale_quiet n).canon c
  ex := by
    unfold State.rollIfStale
    split <;> rfl
  frame := by
    unfold State.rollIfStale
    split <;> rfl

/-- A CREDIT applied (R52). -/
theorem State.Bills.applyCredit (h : s.Bills t .intake n b records) (amount : Int) :
    let plan := s.account.plans.get b.plan
    let balance := clampInt (b.balance + amount)
    let low := lowBalanceAfter plan b.lowBalance balance
    let counters := { b.counters with credits := raiseCredits b.counters.credits (balance - b.balance) }
    let credited := { b with balance := balance, counters := counters }
    s.Bills (t.applyCredit n amount) .intake n { credited with lowBalance := low }
      (records ++ [recordCredit n b.period amount (balance - b.balance) balance] ++
        alertOnChange n plan credited low .credit) := by
  simp only [State.applyCredit, h.billing]
  exact ((h.setBilling _).hand _).judgeLow .credit

/-- A refund (R54). -/
theorem State.Bills.refund (h : s.Bills t p n b records) (i : Nat) {r : MessageRecord} (o : CloseOutcome)
    (owner : r.subscriber = n) :
    let plan := s.account.plans.get b.plan
    let balance := min intMax (b.balance + r.charge)
    let low := lowBalanceAfter plan b.lowBalance balance
    let counters := { b.counters with refunds := saturate 4294967295 b.counters.refunds r.charge }
    let refunded := { b with balance := balance, counters := counters }
    s.Bills (t.refund p i r o) p n { refunded with lowBalance := low }
      (records ++ [recordRefund i r o balance b.period] ++ alertOnChange n plan refunded low .refund) := by
  subst owner
  simp only [State.refund, h.billing]
  exact ((h.setBilling _).hand _).judgeLow .refund

end

/-! ## An order of the account unit -/

/-- An order that changes one billing group, hands records and answers (R95). -/
theorem State.InHand.order_bills_answer {s u : State} {n : Nat} {q : Posting} {k : Nat} (h : s.InHand n q k) {m : Nat}
    {b : Billing} {records : List Record} (bills : s.Bills u .intake m b records) {f : Posting → State}
    {code : AnswerCode} {data : List Word} (meaning : f q = u.answer code data) :
    ∃ t, s.order k f = .next t ∧ t.sub m = { s.sub m with billing := b } ∧ (∀ j, j ≠ m → t.sub j = s.sub j) ∧
      Answered (s.handAll .intake records) t n (word k) code data ∧
      t = { s with account := { s.account with subscribers := t.account.subscribers }, ex := t.ex } := by
  have answered := (h.handAll .intake records).answered bills.ex code data
  rw [h.code_eq] at answered
  have sub (j : Nat) : (u.answer code data).sub j = u.sub j := by rw [State.sub, State.answer_account, State.sub]
  have frame : u.answer code data =
      { s with
        account := { s.account with subscribers := (u.answer code data).account.subscribers }
        ex := (u.answer code data).ex } := by
    rw [State.answer_account]
    exact (State.answer_eq u code data).trans (bills.frame_ex _)
  exact ⟨u.answer code data, by rw [State.order_inHand h, meaning], (sub m).trans bills.here,
    fun j ne => (sub j).trans (bills.other ne), answered, frame⟩

end Sys2Proof.Machine
end

section
/-! CREDIT (R49 to R52, R58). -/

namespace Sys2Proof.Machine

/-- The clamp into the signed 32-bit range, by cases (R51). -/
theorem clampInt_eq (v : Int) :
    clampInt v = if v < -2147483648 then -2147483648 else if 2147483647 < v then 2147483647 else v := by
  unfold clampInt intMin intMax
  split
  · omega
  · split <;> omega

/-- A refused order of a VACANT subscriber answers its state, which is 0 (R23). -/
theorem State.refuseSubscriber_vacant {s : State} {n : Nat} (vacant : (s.sub n).billing.state = .vacant)
    (code : AnswerCode) : s.refuseSubscriber code n = s.answer code [word n, 0] := by
  rw [State.refuseSubscriber, vacant, SubscriberState.code]

/-- CREDIT of a VACANT subscriber is refused (R51). -/
theorem State.credit_vacant {s : State} {p : Posting} (vacant : (s.sub p.subscriber).billing.state = .vacant) :
    s.credit p = s.answer .unknownSubscriber [word p.subscriber, 0] :=
  (if_pos vacant).trans (State.refuseSubscriber_vacant vacant .unknownSubscriber)

/-- CREDIT accepted (R51, R52): the amount applied after the roll, answered with what it came to. -/
theorem State.credit_accepted {s : State} (c : s.Canon) {p : Posting}
    (live : (s.sub p.subscriber).billing.state ≠ .vacant) :
    let b := (s.sub p.subscriber).billing
    let amount := (p.param 2).toInt
    let balance := clampInt (b.balance + amount)
    s.credit p = ((s.rollIfStale p.subscriber).applyCredit p.subscriber amount).answer .accepted
      [wordInt amount, wordInt (balance - b.balance), wordInt balance] := by
  have rolled := State.rollIfStale_bills c p.subscriber
  simp only [State.credit, if_neg live, rolled.billing, (rolled.applyCredit (p.param 2).toInt).billing]
  rfl

/-- Settles O33: the roll and the credit are one change of the billing group, whose records stand in the order handed. -/
theorem creditApplied : Obligations.CreditApplied := by
  unfold Obligations.CreditApplied
  intro s n p h m u b stale amount clamped balance applied counters low
  refine ⟨fun vacant => h.order_answer (State.credit_vacant vacant), fun live => ?_⟩
  have bills := (State.rollIfStale_bills h.tidy.canon m).applyCredit amount
  have meaning := State.credit_accepted h.tidy.canon live
  simp only [raiseCredits, clampInt_eq] at bills meaning
  exact h.order_bills_answer bills meaning

end Sys2Proof.Machine
end

section
/-! SET PLAN (R37). -/

namespace Sys2Proof.Machine

/-- A value fitted to a range, by cases (R37). -/
theorem clamp_eq {low high : Nat} (le : low ≤ high) (v : Nat) :
    clamp low high v = if v < low then low else min high v := by
  unfold clamp
  split <;> omega

/-- A word read as signed is the word again (R184). -/
theorem wordInt_toInt (w : Word) : wordInt w.toInt = w := BitVec.ofInt_toInt

/-- A word is not 0 exactly where its number is not. -/
theorem word_ne_zero_iff (w : Word) : w ≠ 0 ↔ w.toNat ≠ 0 := not_congr (BitVec.toNat_eq (x := w) (y := 0))

/-- The plan SET PLAN writes (R37): T1 fits T2 alone, since T2 is fitted already. -/
theorem fittedPlan_eq (p : Posting) :
    fittedPlan p =
      let v (k : Nat) : Nat := (p.param k).toNat
      let t2 := min 65535 (v 7)
      { base := min 65535 (v 2)
        perBlock := min 4095 (v 3)
        urgentPercent := if v 4 < 100 then 100 else min 400 (v 4)
        allowance := min 65535 (v 5)
        t1 := min (v 6) t2
        t2 := t2
        d1 := min 90 (v 8)
        d2 := min 90 (v 9)
        offPeakPercent := min 90 (v 10)
        cap := min 65535 (v 11)
        warningLevel := (p.param 12).toInt
        recoveryMargin := min 65535 (v 13)
        refundable := decide (v 14 ≠ 0) } := by
  have t1 : min (min 65535 (p.param 6).toNat) (min 65535 (p.param 7).toNat) =
      min (p.param 6).toNat (min 65535 (p.param 7).toNat) := by omega
  simp only [fittedPlan, t1, clamp_eq (show 100 ≤ 400 by decide), word_ne_zero_iff]

/-- SET PLAN of a plan number above 15 is refused (R37). -/
theorem State.setPlan_malformed {s : State} {p : Posting} (above : 16 ≤ (p.param 1).toNat) :
    s.setPlan p = s.answer .malformed [0, 1] := dif_neg (Nat.not_lt.mpr above)

/-- The state SET PLAN answers over: one plan written (R37). -/
def State.withPlan (s : State) (k : Nat) (h : k < 16) (q : RatePlan) : State :=
  { s with account := { s.account with plans := s.account.plans.set k q h } }

/-- SET PLAN accepted (R37): the fitted plan written, ADJUSTED where the words written are not those carried. -/
theorem State.setPlan_accepted {s : State} {p : Posting} (h : (p.param 1).toNat < 16) :
    s.setPlan p =
      (s.withPlan (p.param 1).toNat h (fittedPlan p)).answer
        (if p.param 1 :: (fittedPlan p).words = (List.range 14).map (fun k => p.param (k + 1)) then .accepted else .adjusted)
        (p.param 1 :: (fittedPlan p).words) := by
  have carried : p.params 1 14 = (List.range 14).map fun k => p.param (k + 1) :=
    List.map_congr_left fun k _ => by rw [Nat.add_comm]
  rw [← carried]
  simp only [eq_comm (b := p.params 1 14)]
  exact dif_pos h

/-- Settles O34: the refusal answers over the state as found; the accepted order writes the one fitted plan, whose words are
the answer. -/
theorem planFittedAndSet : Obligations.PlanFittedAndSet := by
  unfold Obligations.PlanFittedAndSet
  intro s n p h v t2 q written carried
  refine ⟨fun above => h.order_answer (State.setPlan_malformed above), fun fits => ?_⟩
  have plan : fittedPlan p = q := fittedPlan_eq p
  have words : p.param 1 :: (fittedPlan p).words = written := by
    rw [plan, RatePlan.words, wordInt_toInt]
  let u := s.withPlan (v 1) fits q
  let code : AnswerCode := if written = carried then .accepted else .adjusted
  have meaning : s.setPlan p = u.answer code written := by
    rw [State.setPlan_accepted fits, words, plan]
  have answered := h.answered (t := u) rfl code written
  rw [h.code_eq] at answered
  have account : (u.answer code written).account = u.account := State.answer_account u code written
  refine ⟨u.answer code written, by rw [← meaning]; exact State.order_inHand h s.setPlan, by rw [account]; rfl, answered, ?_⟩
  rw [account]
  exact State.answer_eq u code written

end Sys2Proof.Machine
end

section
/-! Rating (R40 to R46). -/

namespace Sys2Proof.Machine

/-! ## The steps of rating -/

/-- T for numeric text is the least number of blocks of 6 that holds it (R16, R40). -/
theorem textBlocks_numeric (length : Nat) :
    length ≤ 6 * textBlocks .numeric length ∧ 6 * textBlocks .numeric length < length + 6 := by
  rw [textBlocks]
  omega

/-- T for alpha text is the least number of blocks of 3 that holds it (R16, R40). -/
theorem textBlocks_alpha (length : Nat) :
    length ≤ 3 * textBlocks .alpha length ∧ 3 * textBlocks .alpha length < length + 3 := by
  rw [textBlocks]
  omega

/-- A text within the limits of R86 has at most 67 blocks. -/
theorem textBlocks_le {kind : MessageKind} {length : Nat} (alpha : length ≤ 200) (numeric : kind = .numeric → length ≤ 40) :
    textBlocks kind length ≤ 67 := by
  cases kind with
  | tone => exact Nat.zero_le _
  | numeric =>
    have := numeric rfl
    rw [textBlocks]
    omega
  | alpha =>
    rw [textBlocks]
    omega

/-- The urgent price is the nearest whole CU, halves upward (R41). -/
theorem urgentPrice_rounds (raw percent : Nat) :
    100 * urgentPrice raw percent true ≤ raw * percent + 50 ∧
      raw * percent + 50 < 100 * urgentPrice raw percent true + 100 := by
  rw [urgentPrice, if_pos rfl]
  omega

/-- With a percentage from 100 to 400 the price after the surcharge is at most four times the raw price. -/
theorem urgentPrice_le {raw percent : Nat} (le : percent ≤ 400) (urgent : Bool) : urgentPrice raw percent urgent ≤ 4 * raw := by
  have product : raw * percent ≤ raw * 400 := Nat.mul_le_mul_left raw le
  unfold urgentPrice
  split <;> omega

/-- The discounts never raise a price (R45). -/
theorem discounted_le (u d op : Nat) : discounted u d op ≤ u := by
  unfold discounted
  refine Nat.div_le_of_le_mul ?_
  calc u * (100 - d) * (100 - op)
    _ ≤ u * 100 * 100 := Nat.mul_le_mul (Nat.mul_le_mul_left u (Nat.sub_le _ _)) (Nat.sub_le _ _)
    _ = 10000 * u := by omega

/-- The cap never raises a charge (R46). -/
theorem capped_le (cap charge : Nat) : capped cap charge ≤ charge := by
  unfold capped
  split <;> omega

/-- Off-peak, a window that wraps past midnight included (R44); one that starts where it stops holds no minute. -/
theorem inWindow_iff (start stop minute : Nat) :
    inWindow start stop minute = true ↔
      (start < stop ∧ start ≤ minute ∧ minute < stop) ∨ (stop < start ∧ (start ≤ minute ∨ minute < stop)) := by
  unfold inWindow
  split
  · simp only [Bool.false_eq_true, false_iff]
    omega
  · split
    · simp only [decide_eq_true_eq]
      omega
    · simp only [decide_eq_true_eq]
      omega

/-! ## Rating whole -/

section
variable (plan : RatePlan) (o : Office) (minute n : Nat) (kind : MessageKind) (length : Nat) (urgent : Bool)

/-- The blocks and both prices of a rating, which the allowance does not touch (R40, R41). -/
theorem rate_prices :
    let r := rate plan o minute n kind length urgent
    r.blocks = textBlocks kind length ∧ r.raw = plan.base + plan.perBlock * r.blocks ∧
      r.surcharged = urgentPrice r.raw plan.urgentPercent urgent := by
  unfold rate
  simp only
  split <;> exact ⟨rfl, rfl, rfl⟩

/-- A message within the allowance is free (R42). -/
theorem rate_free (within : n < plan.allowance) :
    let r := rate plan o minute n kind length urgent
    r.free = true ∧ r.charge = 0 ∧ r.discount = 0 ∧ r.offPeak = 0 := by
  simp only [rate, if_pos within, and_self]

/-- A message past the allowance is charged by the tier, the window, both discounts and the cap (R43 to R46). -/
theorem rate_charged (past : plan.allowance ≤ n) :
    let r := rate plan o minute n kind length urgent
    r.free = false ∧ r.discount = volumeDiscount plan n ∧
      r.offPeak = (if inWindow o.offPeakStart o.offPeakEnd minute then plan.offPeakPercent else 0) ∧
      r.charge = capped plan.cap (discounted r.surcharged r.discount r.offPeak) := by
  simp only [rate, if_neg (Nat.not_lt.mpr past), and_self]

/-- A charge is at most the price after the surcharge. -/
theorem rate_charge_le :
    let r := rate plan o minute n kind length urgent
    r.charge ≤ r.surcharged := by
  intro r
  rcases Nat.lt_or_ge n plan.allowance with within | past
  · obtain ⟨-, charge, -, -⟩ := rate_free plan o minute n kind length urgent within
    rw [charge]
    exact Nat.zero_le _
  · obtain ⟨-, -, -, charge⟩ := rate_charged plan o minute n kind length urgent past
    rw [charge]
    exact (capped_le _ _).trans (discounted_le _ _ _)

end

/-- No charge of a plan in range exceeds four times the raw price of 67 blocks (R37, R41). -/
theorem rate_charge_bound {plan : RatePlan} (o : Office) (minute n : Nat) {kind : MessageKind} {length : Nat}
    (urgent : Bool) (base : plan.base ≤ 65535) (perBlock : plan.perBlock ≤ 4095) (percent : plan.urgentPercent ≤ 400)
    (alpha : length ≤ 200) (numeric : kind = .numeric → length ≤ 40) :
    (rate plan o minute n kind length urgent).charge ≤ 1359600 := by
  obtain ⟨blocks, raw, surcharged⟩ := rate_prices plan o minute n kind length urgent
  have least := rate_charge_le plan o minute n kind length urgent
  have text := Nat.mul_le_mul perBlock (textBlocks_le alpha numeric)
  have price := urgentPrice_le (raw := (rate plan o minute n kind length urgent).raw) percent urgent
  rw [← surcharged, raw, blocks] at price
  omega

/-- Settles O26: each clause is one step of rating, and the bound is the highest price of the longest text. -/
theorem ratingComputesCharge : Obligations.RatingComputesCharge := by
  unfold Obligations.RatingComputesCharge
  intro plan o minute n kind length urgent r
  obtain ⟨blocks, raw, surcharged⟩ : r.blocks = textBlocks kind length ∧ r.raw = plan.base + plan.perBlock * r.blocks ∧
    r.surcharged = urgentPrice r.raw plan.urgentPercent urgent := rate_prices plan o minute n kind length urgent
  refine ⟨fun tone => ?_, fun numeric => ?_, fun alpha => ?_, raw, fun normal => ?_, fun fast => ?_,
    rate_free plan o minute n kind length urgent, fun past => ?_,
    fun base perBlock _ percent alpha numeric => rate_charge_bound o minute n urgent base perBlock percent alpha numeric⟩
  · rw [blocks, tone, textBlocks]
  · rw [blocks, numeric]
    exact textBlocks_numeric length
  · rw [blocks, alpha]
    exact textBlocks_alpha length
  · rw [surcharged, normal, urgentPrice, if_neg Bool.false_ne_true]
  · rw [surcharged, fast]
    exact urgentPrice_rounds _ _
  · intro within
    obtain ⟨free, discount, offPeak, charge⟩ : r.free = false ∧ r.discount = volumeDiscount plan n ∧
        r.offPeak = (if inWindow o.offPeakStart o.offPeakEnd minute then plan.offPeakPercent else 0) ∧
        r.charge = capped plan.cap (discounted r.surcharged r.discount r.offPeak) :=
      rate_charged plan o minute n kind length urgent past
    have window := inWindow_iff o.offPeakStart o.offPeakEnd minute
    refine ⟨free, fun second => ?_, fun below first => ?_, fun below under => ?_, fun inside => ?_, fun outside => ?_,
      fun bounded => ?_, fun caps above => ?_⟩
    · rw [discount, volumeDiscount, if_pos second]
    · rw [discount, volumeDiscount, if_neg (Nat.not_le.mpr below), if_pos first]
    · rw [discount, volumeDiscount, if_neg (Nat.not_le.mpr below), if_neg (Nat.not_le.mpr under)]
    · rw [offPeak, if_pos (window.mpr inside)]
    · rw [offPeak, if_neg fun inside => outside (window.mp inside)]
    · rw [charge, capped, if_neg fun both => bounded.elim both.1 (Nat.not_le.mpr both.2)]
      rfl
    · rw [charge, capped, if_pos ⟨caps, above⟩]

end Sys2Proof.Machine
end

section
/-! A close (R53, R54, R107): the record freed, and then the refund as one change of a billing group. -/

namespace Sys2Proof.Machine

/-! ## A record taken out of its collections -/

/-- Leaving the collections touches the frame lists and the deadline list alone. -/
theorem State.leaveCollections_eq (s : State) (i : Nat) :
    s.leaveCollections i = { s with
      store := { s.store with lists := (s.leaveCollections i).store.lists }
      tracker := { s.tracker with deadlines := (s.leaveCollections i).tracker.deadlines } } := by
  unfold State.leaveCollections
  split <;> rfl

/-- A WAITING record leaves the list of its subscriber's slot, and another stands in none (R106). -/
theorem State.leaveCollections_lists (s : State) (i : Nat) (f : Fin 32) :
    (s.leaveCollections i).store.lists.get f =
      if (s.msg i).state = .waiting ∧ f = (s.sub (s.msg i).subscriber).billing.slot then
        (s.store.lists.get f).filter fun j => decide (j ≠ i)
      else s.store.lists.get f := by
  unfold State.leaveCollections
  split
  · next waiting =>
    simp only [waiting, true_and]
    refine (lists_set _ _ f _).trans ?_
    split
    · next here => rw [here]
    · rfl
  · next awaiting => rw [awaiting, if_neg nofun]; rfl
  · next other _ => rw [if_neg fun both => other both.1]

/-- An AWAITING ACK record's entry leaves the deadline list, and another has none (R162). -/
theorem State.leaveCollections_deadlines (s : State) (i : Nat) :
    (s.leaveCollections i).tracker.deadlines =
      if (s.msg i).state = .awaitingAck then s.tracker.deadlines.filter fun e => decide (e.record ≠ i)
      else s.tracker.deadlines := by
  unfold State.leaveCollections
  split
  · next waiting => rw [waiting, if_neg nofun]; rfl
  · next awaiting => rw [if_pos awaiting]; rfl
  · next other => rw [if_neg other]

/-! ## A record freed -/

/-- A store group as a close leaves it: one message less, the record's tag returned (R105, R107). -/
def StoreGroup.closed (g : StoreGroup) (tag : Option (Fin 8)) : StoreGroup :=
  ⟨g.openCount - 1, match tag with | some t => g.tags &&& ~~~ tagBit t | none => g.tags⟩

theorem State.leaveCollections_canon {s : State} (c : s.Canon) (i : Nat) : (s.leaveCollections i).Canon := by
  rw [State.leaveCollections_eq]
  exact ⟨c.subscribers, c.records⟩

/-- The records after a close's step. -/
theorem State.msg_freeRecord {s : State} (c : s.Canon) (i j : Nat) :
    (s.freeRecord i).msg j = if j = i then (s.msg i).freed else s.msg j := by
  have left (k : Nat) : (s.leaveCollections i).msg k = s.msg k := by rw [State.leaveCollections_eq]; rfl
  rw [← left j]
  exact State.msg_setMsg (State.leaveCollections_canon c i).records i j _

/-- The subscribers after a close's step: the record's own gives back one open message and the tag. -/
theorem State.sub_freeRecord {s : State} (c : s.Canon) (i k : Nat) :
    (s.freeRecord i).sub k =
      if k = (s.msg i).subscriber then
        { s.sub (s.msg i).subscriber with store := (s.sub (s.msg i).subscriber).store.closed (s.msg i).tag }
      else s.sub k := by
  have left (m : Nat) : (s.leaveCollections i).sub m = s.sub m := by rw [State.leaveCollections_eq]; rfl
  rw [← left k, ← left (s.msg i).subscriber]
  exact State.sub_setSub (State.leaveCollections_canon c i).subscribers _ k _

theorem State.freeRecord_canon {s : State} (c : s.Canon) (i : Nat) : (s.freeRecord i).Canon :=
  (s.freeRecord_ebbs i).canon c

/-- A close's step gives the notice of the FREE records and does nothing else to the exchange (R77). -/
theorem State.freeRecord_ex (s : State) (i : Nat) : (s.freeRecord i).ex = (s.notice .freeRecords).ex := by
  show (s.leaveCollections i).ex.notice .freeRecords = s.ex.notice .freeRecords
  rw [State.leaveCollections_ex]

/-- One more record is FREE. -/
theorem State.freeRecord_freeCount (s : State) (i : Nat) : (s.freeRecord i).store.freeCount = s.store.freeCount + 1 := by
  show (s.leaveCollections i).store.freeCount + 1 = _
  rw [State.leaveCollections_eq]

/-- What a close's step touches. -/
theorem State.freeRecord_eq (s : State) (i : Nat) :
    s.freeRecord i = { s with
      account := { s.account with subscribers := (s.freeRecord i).account.subscribers }
      store := { s.store with
        records := (s.freeRecord i).store.records
        lists := (s.freeRecord i).store.lists
        freeCount := (s.freeRecord i).store.freeCount }
      tracker := { s.tracker with deadlines := (s.freeRecord i).tracker.deadlines }
      ex := (s.freeRecord i).ex } := by
  unfold State.freeRecord
  rw [State.leaveCollections_eq]
  rfl

/-! ## The refund -/

/-- Which closes are refunded (R53). -/
theorem MessageRecord.refunded_eq (r : MessageRecord) (o : CloseOutcome) :
    r.refunded o = decide ((o = .undelivered ∨ o = .expired ∨ o = .cancelled) ∧ r.refundable = true ∧ 0 < r.charge) := by
  simp only [MessageRecord.refunded, Bool.decide_and, Bool.decide_eq_true, Bool.and_assoc]

/-- The billing group as a close leaves it (R54), the plan being the subscriber's. -/
def Billing.afterClose (b : Billing) (plan : RatePlan) (r : MessageRecord) (o : CloseOutcome) : Billing :=
  let balance := if r.refunded o then min intMax (b.balance + r.charge) else b.balance
  { b with
    balance := balance
    lowBalance := if r.refunded o then lowBalanceAfter plan b.lowBalance balance else b.lowBalance
    counters := { b.counters with
      refunds := if r.refunded o then saturate 4294967295 b.counters.refunds r.charge else b.counters.refunds } }

/-- The records a close hands (R54, R107): OUTCOME, and with a refund REFUND and the BALANCE ALERT of a changed flag. -/
def closeRecords (i : Nat) (r : MessageRecord) (o : CloseOutcome) (serial : Nat) (plan : RatePlan) (b : Billing) :
    List Record :=
  let after := b.afterClose plan r o
  [recordOutcome i r o serial] ++ (if r.refunded o then [recordRefund i r o after.balance b.period] else []) ++
    (if after.lowBalance = b.lowBalance then []
    else [recordBalanceAlert r.subscriber after.lowBalance after.balance plan.warningLevel plan.recoveryMargin b.plan
      .refund])

/-- A close after its step on the record is one change of the subscriber's billing group (R54, R107). -/
theorem State.close_bills {s : State} (c : s.Canon) (p : Producer) (i : Nat) (o : CloseOutcome) :
    let r := s.msg i
    let b := (s.sub r.subscriber).billing
    let plan := s.account.plans.get b.plan
    (s.freeRecord i).Bills (s.close p i o) p r.subscriber (b.afterClose plan r o)
      (closeRecords i r o s.air.serial plan b) := by
  intro r b plan
  have billing : ((s.freeRecord i).sub r.subscriber).billing = b := by rw [State.sub_freeRecord c, if_pos rfl]
  have plans : (s.freeRecord i).account.plans = s.account.plans := by rw [State.freeRecord_eq]
  have outcome := (State.Bills.refl (State.freeRecord_canon c i) p r.subscriber).hand (recordOutcome i r o s.air.serial)
  rw [billing] at outcome
  cases refunded : r.refunded o with
  | false =>
    have same : s.close p i o = (s.freeRecord i).hand p (recordOutcome i r o s.air.serial) := if_neg (by rw [refunded]; nofun)
    rw [same]
    simpa [Billing.afterClose, closeRecords, refunded] using outcome
  | true =>
    have same : s.close p i o = ((s.freeRecord i).hand p (recordOutcome i r o s.air.serial)).refund p i r o := if_pos refunded
    have refund := outcome.refund i (r := r) o rfl
    rw [plans] at refund
    rw [same]
    simpa [Billing.afterClose, closeRecords, refunded, alertOnChange] using refund

/-- Settles O36: the step on the record, and over it the change of the billing group. -/
theorem closeFreesRecord : Obligations.CloseFreesRecord := by
  unfold Obligations.CloseFreesRecord
  intro s p i o tidy _ r n u b plan refund balance low refunds t
  have c := tidy.canon
  have bills : (s.freeRecord i).Bills t p n (b.afterClose plan r o) (closeRecords i r o s.air.serial plan b) :=
    State.close_bills c p i o
  have store : t.store = (s.freeRecord i).store := by rw [bills.frame]
  have tracker : t.tracker = (s.freeRecord i).tracker := by rw [bills.frame]
  have msg (j : Nat) : t.msg j = if j = i then r.freed else s.msg j := by
    rw [← State.msg_freeRecord c, State.msg, store, State.msg]
  have after : b.afterClose plan r o =
      { b with balance := balance, lowBalance := low, counters := { b.counters with refunds := refunds } } := by
    simp only [Billing.afterClose, MessageRecord.refunded_eq]
    rfl
  refine ⟨(msg i).trans (if_pos rfl), fun j ne => (msg j).trans (if_neg ne), ?_, fun f => ?_, ?_, ?_, fun k ne => ?_, ?_, ?_⟩
  · rw [store, State.freeRecord_freeCount]
  · rw [store]
    exact s.leaveCollections_lists i f
  · rw [tracker]
    exact s.leaveCollections_deadlines i
  · rw [bills.here, State.sub_freeRecord c, if_pos rfl, after]
    rfl
  · rw [bills.other ne, State.sub_freeRecord c, if_neg ne]
  · rw [bills.ex, State.handAll_congr (s.freeRecord_ex i) (s.freeRecord_air i), closeRecords, after]
    simp only [MessageRecord.refunded_eq]
    rfl
  · rw [store, tracker]
    refine bills.frame.trans ?_
    conv_lhs => rw [State.freeRecord_eq]

end Sys2Proof.Machine
end

section
/-! POSTING TAKE (R73, R83): the head slot taken, and the reservation of an intake unit that finds the queue empty. -/

namespace Sys2Proof.Machine

/-! ## A producer that has left the report writer -/

/-- A producer that neither holds a reservation nor has a request waiting (R170). -/
structure Writer.Absent (w : Writer) (p : Producer) : Prop where
  asks : p ∉ w.waiting
  holds : w.holds p = false

/-- A due page's close leaves the requests and the reservations (R173). -/
theorem Exchange.closeIfDue_asks (x : Exchange) (st : Stamp) :
    (x.closeIfDue st).writer.held = x.writer.held ∧ (x.closeIfDue st).writer.waiting = x.writer.waiting := by
  unfold Exchange.closeIfDue
  split
  · exact x.closePage_asks st .age
  · exact ⟨rfl, rfl⟩

theorem Exchange.closeIfDue_absent {x : Exchange} {p : Producer} (h : x.writer.Absent p) (st : Stamp) :
    (x.closeIfDue st).writer.Absent p := by
  obtain ⟨held, waiting⟩ := x.closeIfDue_asks st
  exact ⟨by rw [waiting]; exact h.asks, by rw [Writer.holds, held]; exact h.holds⟩

/-- A judgement takes up waiting requests alone. -/
theorem Writer.waiting_of_judgeOrder {w : Writer} {p : Producer} (i : p ∈ w.judgeOrder) : p ∈ w.waiting := by
  unfold Writer.judgeOrder at i
  simp only [List.mem_append, List.mem_filter] at i
  obtain (⟨i, -⟩ | ⟨i, -⟩) | ⟨i, -⟩ := i <;> exact i

theorem Exchange.judgeOne_absent {x : Exchange} {p q : Producer} (h : x.writer.Absent p) (ne : q ≠ p) :
    (x.judgeOne q).writer.Absent p := by
  refine ⟨fun i => h.asks ?_, (x.judgeOne_holds ne).trans h.holds⟩
  unfold Exchange.judgeOne at i
  split at i
  · exact (List.mem_filter.mp i).1
  · exact i

/-- A judgement grants nothing to a producer that has not asked (R170). -/
theorem Exchange.judge_absent {x : Exchange} {p : Producer} (h : x.writer.Absent p) : x.judge.writer.Absent p := by
  have others : ∀ q, q ∈ x.writer.judgeOrder → q ≠ p := fun q i e => h.asks (e ▸ Writer.waiting_of_judgeOrder i)
  unfold Exchange.judge
  generalize x.writer.judgeOrder = order at others
  induction order generalizing x with
  | nil => exact h
  | cons q rest ih =>
    exact ih (Exchange.judgeOne_absent h (others q List.mem_cons_self)) fun r i => others r (List.mem_cons_of_mem _ i)

/-- Room that rises serves those who wait and no other (R170, R173). -/
theorem Exchange.roomRose_absent {x : Exchange} {p : Producer} (h : x.writer.Absent p) (st : Stamp) :
    (x.roomRose st).writer.Absent p := by
  have counted : ({ x with choices := x.choices + 1 } : Exchange).writer.Absent p := h
  unfold Exchange.roomRose
  split
  · simp only
    split
    · exact Exchange.judge_absent (Exchange.closeIfDue_absent counted st)
    · exact Exchange.closeIfDue_absent (Exchange.judge_absent counted) st
  · exact Exchange.judge_absent (Exchange.closeIfDue_absent h st)

/-- A producer that returns its reservation is left with none: a holder has no request waiting that the risen room could
grant (R170). -/
theorem Exchange.giveBack_absent {x : Exchange} {p : Producer} (asks : x.writer.AskLaw) (holds : x.writer.holds p = true)
    (st : Stamp) : (x.giveBack st p).writer.Absent p := by
  refine Exchange.roomRose_absent (x := { x with writer.held := x.writer.held.filter fun h => decide (h.1 ≠ p) })
    ⟨fun waits => ?_, ?_⟩ st
  · rw [asks p waits] at holds
    cases holds
  · simp [Writer.holds]

/-! ## The two outcomes of the take -/

/-- The exchange once the head slot `n` of the queue is taken (R73). -/
def Exchange.take (x : Exchange) (n : Nat) (rest : List Nat) : Exchange :=
  { (x.setSlot n .taken).notice .queueLength with
    queue := rest, intake := .working n (Memory.readWords x.mem (slotBase n + 4) bodyWords), progress := .begun }

theorem exec_postingTake (s : State) : exec .postingTake s = execPostingTake s := rfl

theorem exec_postingTake_cons {s : State} {n : Nat} {rest : List Nat} (taking : s.ex.intake = .taking)
    (queue : s.ex.queue = n :: rest) : exec .postingTake s = .next { s with ex := s.ex.take n rest } := by
  rw [exec_postingTake]
  unfold execPostingTake
  rw [taking, queue]
  rfl

theorem Exchange.take_slot {x : Exchange} (slots : Table.wf SlotState.free x.slots = true) (n : Nat) (rest : List Nat)
    (m : Nat) : (x.take n rest).slot m = if m = n then .taken else x.slot m :=
  Table.get_set slots n m .taken

/-- With no queue left to serve, R82 does not apply to the unit that is IDLE again. -/
theorem exec_postingTake_nil {s : State} (taking : s.ex.intake = .taking) (queue : s.ex.queue = []) :
    exec .postingTake s = .next { s with ex := { s.ex.giveBack s.stamp .intake with intake := .idle } } := by
  have none : (s.ex.giveBack s.stamp .intake).queue = [] := (s.ex.giveBack_reported s.stamp .intake).queue.trans queue
  have asleep : Exchange.wakeIntake { s.ex.giveBack s.stamp .intake with intake := .idle } s.loading =
      { s.ex.giveBack s.stamp .intake with intake := .idle } := if_neg fun wakes => wakes.2.1 none
  rw [← asleep, exec_postingTake]
  unfold execPostingTake
  rw [taking, queue]

/-- Settles O23: the head slot's take writes the fields it names; the return that meets an empty queue is work of the report
writer, after which the unit, which had no request waiting, holds no reservation. -/
theorem postingTaken : Obligations.PostingTaken := by
  unfold Obligations.PostingTaken
  intro s tidy pages guard taking
  refine ⟨fun n rest queue => ?_, fun queue => ?_⟩
  · exact ⟨_, exec_postingTake_cons taking queue, rfl, Exchange.take_slot tidy.slots n rest, rfl,
      Exchange.notice_mem.mpr (.inr rfl), rfl⟩
  · have returned := s.ex.giveBack_reported s.stamp .intake
    have gone : (s.ex.giveBack s.stamp .intake).writer.Absent .intake :=
      Exchange.giveBack_absent pages.requests (guard.reserved (.inl taking)) s.stamp
    exact ⟨_, exec_postingTake_nil taking queue, rfl, gone.holds, returned.queue.trans queue, returned.slots,
      returned.answered, returned.buffer, returned.fence, returned.enable, returned.bus, returned.read, returned.progress,
      rfl⟩

end Sys2Proof.Machine
end

section
/-! RETURN MESSAGE (R152, R153), and what a request at the report writer leaves (R170). -/

namespace Sys2Proof.Machine

/-! ## A request made -/

/-- A producer that holds a reservation or has a request waiting (R170). -/
def Writer.Asks (w : Writer) (p : Producer) : Prop := w.holds p = true ∨ p ∈ w.waiting

/-- What a request can do to the exchange: it writes the requests and the reservations, and may send the intake unit to its
take (R83, R170). -/
def Exchange.Requested (x y : Exchange) : Prop := y = { x with writer := y.writer, intake := y.intake }

theorem Exchange.Requested.trans {x y z : Exchange} (h : x.Requested y) (k : y.Requested z) : x.Requested z := by
  unfold Exchange.Requested at *
  rw [h] at k
  exact k

theorem Exchange.judgeOne_requested (x : Exchange) (p : Producer) : x.Requested (x.judgeOne p) := by
  unfold Exchange.judgeOne
  split <;> rfl

/-- A grant takes a request out of the waiting ones only to make it a reservation. -/
theorem Exchange.judgeOne_asks {x : Exchange} {p : Producer} (h : x.writer.Asks p) (q : Producer) :
    (x.judgeOne q).writer.Asks p := by
  unfold Exchange.judgeOne
  split
  · by_cases e : q = p
    · exact .inl (by simp [Exchange.grant, Writer.holds, e])
    · refine h.imp (fun held => ?_) fun waits => List.mem_filter.mpr ⟨waits, decide_eq_true fun k => e k.symm⟩
      unfold Exchange.grant Writer.holds
      rw [List.any_append, Bool.or_eq_true]
      exact .inl held
  · exact h

theorem Exchange.judge_requested (x : Exchange) : x.Requested x.judge := by
  unfold Exchange.judge
  generalize x.writer.judgeOrder = order
  induction order generalizing x with
  | nil => rfl
  | cons q rest ih => exact (x.judgeOne_requested q).trans (ih _)

theorem Exchange.judge_asks {x : Exchange} {p : Producer} (h : x.writer.Asks p) : x.judge.writer.Asks p := by
  unfold Exchange.judge
  generalize x.writer.judgeOrder = order
  induction order generalizing x with
  | nil => exact h
  | cons q rest ih => exact ih (Exchange.judgeOne_asks h q)

theorem Exchange.request_requested (x : Exchange) (p : Producer) : x.Requested (x.request p) := by
  unfold Exchange.request
  split
  · rfl
  · exact Exchange.judge_requested { x with writer.waiting := x.writer.waiting ++ [p] }

theorem Exchange.request_keeps (x : Exchange) (p : Producer) :
    (x.request p).mem = x.mem ∧ (x.request p).summary = x.summary ∧ (x.request p).slots = x.slots ∧
      (x.request p).queue = x.queue :=
  have requested := x.request_requested p
  ⟨(congrArg Exchange.mem requested :), (congrArg Exchange.summary requested :), (congrArg Exchange.slots requested :),
    (congrArg Exchange.queue requested :)⟩

/-- A producer that has made its request waits or holds (R170). -/
theorem Exchange.request_asks (x : Exchange) (p : Producer) : (x.request p).writer.Asks p := by
  unfold Exchange.request
  split
  · next asked => exact asked.symm
  · exact Exchange.judge_asks (.inr (List.mem_append_right _ (List.mem_singleton_self p)))

/-- A producer with work asks for room. -/
theorem State.ask_of_work {s : State} {p : Producer} (work : s.hasWork p = true) :
    s.ask p = { s with ex := s.ex.request p } := if_pos work

/-! ## A receiver link's judgement -/

/-- Writing one receiver link leaves the others and every other part. -/
theorem State.setReceiver_eq (s : State) (l : Index8) (w : Receiver) :
    (s.setReceiver l w).receiver l = w ∧ (∀ k, k ≠ l → (s.setReceiver l w).receiver k = s.receiver k) ∧
      s.setReceiver l w =
        { s with tracker := { s.tracker with receivers := (s.setReceiver l w).tracker.receivers } } :=
  ⟨(s.receiver_setReceiver l l w).trans (if_pos rfl), fun k ne => (s.receiver_setReceiver l k w).trans (if_neg ne), rfl⟩

/-- The state with a message accepted at link `l`: counted, and at the reverse queue's tail (R152). -/
def State.acceptMessage (s : State) (l : Index8) (bits : BitVec 40) : State :=
  let t := s.setReceiver l { s.receiver l with accepted := saturate 65535 (s.receiver l).accepted 1 }
  { t with tracker := { t.tracker with reverse := t.tracker.reverse ++ [s.reverseEntry l bits] } }

/-- An accepted message is an item ready at the tracker (R156). -/
theorem State.acceptMessage_hasWork (s : State) (l : Index8) (bits : BitVec 40) :
    (s.acceptMessage l bits).hasWork .tracker = true := by
  have queued : (s.acceptMessage l bits).tracker.reverse.isEmpty = false :=
    List.isEmpty_eq_false_iff.mpr (List.append_ne_nil_of_right_ne_nil _ nofun)
  simp [State.hasWork, State.trackerReady, queued]

theorem exec_returnMessage (s : State) (l : Index8) (bits : BitVec 40) :
    exec (.returnMessage l bits) s = execReturnMessage l bits s := rfl

section
variable {s : State} {l : Index8} {bits : BitVec 40}

theorem exec_returnMessage_loading (loading : s.engine.state = .loading) :
    exec (.returnMessage l bits) s = .next s := if_pos (decide_eq_true loading)

/-- Outside LOADING the four tests of R152 stand in their order. -/
theorem exec_returnMessage_judged (loaded : s.engine.state ≠ .loading) :
    exec (.returnMessage l bits) s = .next (
      if (s.receiver l).enabled = false then
        s.setReceiver l { s.receiver l with disabled := saturate 65535 (s.receiver l).disabled 1 }
      else if messageCheckOk bits = false then
        s.setReceiver l { s.receiver l with badCheck := saturate 65535 (s.receiver l).badCheck 1 }
      else if messageAddress bits / 65536 ≠ s.engine.office.code.val then
        s.setReceiver l { s.receiver l with foreign := saturate 65535 (s.receiver l).foreign 1 }
      else if 256 ≤ s.tracker.reverse.length then
        s.setReceiver l { s.receiver l with queueFull := saturate 65535 (s.receiver l).queueFull 1 }
      else (s.acceptMessage l bits).ask .tracker) := by
  have loaded : s.loading = false := decide_eq_false loaded
  simp only [exec_returnMessage, execReturnMessage, loaded, Bool.false_eq_true, if_false, apply_ite Host.Outcome.next]
  rfl

end

/-- Settles O54: the tests of R152 in their order; a case that counts writes the link's counter alone, and the accepted
message adds the queue's entry and the tracker's request. -/
theorem returnMessageJudged : Obligations.ReturnMessageJudged := by
  unfold Obligations.ReturnMessageJudged
  intro s l bits v kind address good foreign counted
  have writes (w : Receiver) (run : exec (.returnMessage l bits) s = .next (s.setReceiver l w)) : counted w :=
    ⟨_, run, s.setReceiver_eq l w⟩
  refine ⟨exec_returnMessage_loading, fun loaded => ?_⟩
  have judged := exec_returnMessage_judged (l := l) (bits := bits) loaded
  have enabled (on : v.enabled = true) : ¬ v.enabled = false := fun off => nomatch on.symm.trans off
  have checked : messageCheckOk bits = good := (Bool.decide_and ..).symm
  have valid (ok : good = true) : ¬ messageCheckOk bits = false := fun bad => nomatch ok.symm.trans (checked.symm.trans bad)
  refine ⟨fun off => ?_, fun on bad => ?_, fun on ok other => ?_, fun on ok own => ?_⟩
  · exact writes _ (by rw [judged, if_pos off]; rfl)
  · exact writes _ (by rw [judged, if_neg (enabled on), if_pos (checked.trans bad)]; rfl)
  · have abroad : messageAddress bits / 65536 ≠ s.engine.office.code.val := of_decide_eq_true other
    exact writes _ (by rw [judged, if_neg (enabled on), if_neg (valid ok), if_pos abroad]; rfl)
  · have home : ¬ messageAddress bits / 65536 ≠ s.engine.office.code.val := of_decide_eq_false own
    rw [if_neg (enabled on), if_neg (valid ok), if_neg home] at judged
    refine ⟨fun full => writes _ (by rw [judged, if_pos full]; rfl), fun room => ?_⟩
    rw [if_neg (Nat.not_le.mpr room), State.ask_of_work (s.acceptMessage_hasWork l bits)] at judged
    obtain ⟨here, others, -⟩ := s.setReceiver_eq l { v with accepted := min 65535 (v.accepted + 1) }
    obtain ⟨mem, summary, slots, queue⟩ := s.ex.request_keeps .tracker
    exact ⟨_, judged, here, others, rfl, s.ex.request_asks .tracker, mem, summary, slots, queue, rfl⟩

end Sys2Proof.Machine
end

section
/-! What the tracker's requests on one record leave (R102, R103, R162), and the end of its unit of work (R155). -/

namespace Sys2Proof.Machine

/-! ## The end of a unit of work -/

/-- A unit that ends touches the exchange alone. -/
theorem State.endUnit_eq (s : State) (p : Producer) : s.endUnit p = { s with ex := (s.endUnit p).ex } := by
  unfold State.endUnit State.ask
  split <;> rfl

/-- A unit that handed no record ends. -/
theorem State.endUnit_unitEnded {s t : State} (ex : t.ex = s.ex) (p : Producer) : s.UnitEnded (t.endUnit p) p [] := by
  have back : ({ t.endUnit p with ex := (s.handAll p []).ex } : State) = t := by
    rw [State.endUnit_eq]
    exact congrArg (fun x => { t with ex := x }) ex.symm
  rw [State.UnitEnded, back]

/-! ## A record given its own value -/

/-- A key given what it holds leaves the table. -/
theorem Table.set_get {α : Type} [DecidableEq α] {d : α} {t : Table α} {low : Nat} (h : Table.wfFrom d low t = true)
    (a : Nat) : Table.set d a (Table.get d t a) t = t := by
  induction t generalizing low with
  | nil => exact if_pos rfl
  | cons e rest ih =>
    obtain ⟨k, v⟩ := e
    simp only [Table.wfFrom, Bool.and_eq_true, decide_eq_true_eq] at h
    obtain ⟨⟨-, listed⟩, tail⟩ := h
    rcases Nat.lt_trichotomy a k with lt | eq | gt
    · have unlisted : Table.get d ((k, v) :: rest) a = d := by
        rw [Table.get, if_neg (by omega)]
        exact Table.get_of_lt tail (by omega)
      rw [unlisted, Table.set, if_pos lt, if_pos rfl]
    · rw [Table.get, if_pos eq, Table.set, if_neg (by omega), if_pos eq, if_neg listed, eq]
    · rw [Table.get, if_neg (by omega), Table.set, if_neg (by omega), if_neg (by omega), ih tail]

/-- A record given its own value leaves the state. -/
theorem State.setMsg_self {s : State} (c : s.Canon) (i : Nat) : s.setMsg i (s.msg i) = s := by
  unfold State.setMsg State.msg
  rw [Table.set_get c.records]

/-! ## One record moved on -/

/-- The record as a request of the tracker leaves it: without its markers (R102, R103). -/
def MessageRecord.unmarked (q : MessageRecord) : MessageRecord := { q with cancelPending := false, ackedPending := false }

/-- The step from `s` to `t` makes record `i` the record `q` unmarked, which enters its subscriber's frame list where it is
WAITING, and leaves this deadline list; it touches nothing else. -/
structure State.Moves (s t : State) (i : Nat) (q : MessageRecord) (deadlines : List DeadlineEntry) : Prop where
  msg : ∀ j, t.msg j = if j = i then q.unmarked else s.msg j
  lists : ∀ f : Fin 32, t.store.lists.get f =
    if q.state = .waiting ∧ f = (s.sub q.subscriber).billing.slot then
      insertByKey (fun j => (t.msg j).key) i (s.store.lists.get f)
    else s.store.lists.get f
  deadlines : t.tracker.deadlines = deadlines
  frame : t = { s with
    store := { s.store with records := t.store.records, lists := t.store.lists }
    tracker := { s.tracker with deadlines := t.tracker.deadlines } }

section
variable {s : State}

/-- A record that enters the list of its subscriber's slot (R106). -/
theorem State.enlist_lists (s : State) (i : Nat) (f : Fin 32) :
    (s.enlist i).store.lists.get f = if f = (s.sub (s.msg i).subscriber).billing.slot then
      insertByKey (fun j => (s.msg j).key) i (s.store.lists.get f) else s.store.lists.get f := by
  refine (lists_set _ _ f _).trans ?_
  split
  · next here => rw [here]
  · rfl

/-- A record made WAITING (R102, R103). -/
theorem State.makeWaiting_moves (c : s.Canon) (i : Nat) (r : MessageRecord) :
    s.Moves (s.makeWaiting i r) i { r with state := .waiting, deadline := none } s.tracker.deadlines where
  msg j := State.msg_setMsg c.records i j _
  lists f := by
    have entered := (s.setMsg i (MessageRecord.unmarked { r with state := .waiting, deadline := none })).enlist_lists i f
    rw [State.msg_setMsg c.records i i, if_pos rfl] at entered
    simp only [true_and]
    exact entered
  deadlines := rfl
  frame := rfl

/-- A record made HELD (R102, R103). -/
theorem State.makeHeld_moves (c : s.Canon) (i : Nat) (r : MessageRecord) :
    s.Moves (s.makeHeld i r) i { r with state := .held, deadline := none } s.tracker.deadlines where
  msg j := State.msg_setMsg c.records i j _
  lists _ := (if_neg fun h => nomatch h.1).symm
  deadlines := rfl
  frame := rfl

/-- A record made AWAITING ACK (R102, R158). -/
theorem State.makeAwaiting_moves (c : s.Canon) (i : Nat) (r : MessageRecord) (d : Nat) :
    s.Moves (s.makeAwaiting i r d) i { r with state := .awaitingAck, deadline := some d }
      (insertDeadline ⟨i, r.generation, d⟩ s.tracker.deadlines) where
  msg j := State.msg_setMsg c.records i j _
  lists _ := (if_neg fun h => nomatch h.1).symm
  deadlines := rfl
  frame := rfl

/-- The deadline entry dropped first is part of the move. -/
theorem State.Moves.of_dropDeadline {t : State} {i k : Nat} {q : MessageRecord} {deadlines : List DeadlineEntry}
    (h : (s.dropDeadline k).Moves t i q deadlines) : s.Moves t i q deadlines := ⟨h.msg, h.lists, h.deadlines, h.frame⟩

/-- The tracker's unit of work ends after the move. -/
theorem State.Moves.endUnit {t : State} {i : Nat} {q : MessageRecord} {deadlines : List DeadlineEntry}
    (h : s.Moves t i q deadlines) (p : Producer) :
    (∀ j, (t.endUnit p).msg j = if j = i then q.unmarked else s.msg j) ∧
    (∀ f : Fin 32, (t.endUnit p).store.lists.get f =
      if q.state = .waiting ∧ f = (s.sub q.subscriber).billing.slot then
        insertByKey (fun j => ((t.endUnit p).msg j).key) i (s.store.lists.get f)
      else s.store.lists.get f) ∧
    (t.endUnit p).tracker.deadlines = deadlines ∧ s.UnitEnded (t.endUnit p) p [] ∧
    t.endUnit p = { s with
      store := { s.store with records := (t.endUnit p).store.records, lists := (t.endUnit p).store.lists }
      tracker := { s.tracker with deadlines := (t.endUnit p).tracker.deadlines }
      ex := (t.endUnit p).ex } := by
  have msg (j : Nat) : (t.endUnit p).msg j = t.msg j := by rw [State.msg, State.endUnit_store, State.msg]
  have frame := h.frame
  simp only [msg, State.endUnit_store, State.endUnit_tracker]
  refine ⟨h.msg, h.lists, h.deadlines, State.endUnit_unitEnded (by rw [frame]) p, ?_⟩
  rw [State.endUnit_eq]
  exact congrArg (fun u : State => { u with ex := (t.endUnit p).ex }) frame

end

end Sys2Proof.Machine
end

section
/-! SETTLE ENTRY (R102, R155, R157, R158). -/

namespace Sys2Proof.Machine

/-! ## An entry taken -/

/-- The state with the settle list's head taken (R157). -/
def State.takeSettle (s : State) (rest : List SettleEntry) : State := { s with tracker := { s.tracker with settle := rest } }

theorem exec_settleEntry (s : State) : exec .settleEntry s = execSettleEntry s := rfl

section
variable {s : State} {e : SettleEntry} {rest : List SettleEntry}

/-- Under its reservation the tracker settles an entry whose record is still the one that went on the air. -/
theorem exec_settleEntry_current (head : s.tracker.settle = e :: rest) (holds : s.ex.writer.holds .tracker = true)
    (current : (s.msg e.record).state = .onAir ∧ (s.msg e.record).generation = e.generation ∧
      (s.msg e.record).placedSerial = some e.serial) :
    exec .settleEntry s = .next (((s.takeSettle rest).settleRecord e (s.msg e.record)).endUnit .tracker) := by
  simp only [exec_settleEntry, execSettleEntry, head, holds, current, State.takeSettle, and_self, if_true]

/-- An entry whose record is another by now is discarded. -/
theorem exec_settleEntry_stale (head : s.tracker.settle = e :: rest) (holds : s.ex.writer.holds .tracker = true)
    (stale : ¬ ((s.msg e.record).state = .onAir ∧ (s.msg e.record).generation = e.generation ∧
      (s.msg e.record).placedSerial = some e.serial)) :
    exec .settleEntry s = .next ((s.takeSettle rest).endUnit .tracker) := by
  simp only [exec_settleEntry, execSettleEntry, head, holds, if_true]
  rw [if_neg stale]
  rfl

end

/-! ## The table of R158 -/

/-- The rows of a record without an acknowledgement or a cancellation, aired in no zone: EXPIRED, or back to where its
subscriber's reach puts it. -/
theorem State.settleRecord_unaired {s : State} {e : SettleEntry} {r : MessageRecord} (acked : r.ackedPending = false)
    (cancel : r.cancelPending = false) (aired : r.placedZones &&& e.zones = 0) :
    s.settleRecord e r =
      if r.expiry ≤ s.air.serial / 32 then s.close .tracker e.record .expired
      else if (s.sub r.subscriber).reach.unreachable then s.makeHeld e.record r
      else s.makeWaiting e.record r := by
  simp only [State.settleRecord, acked, cancel, aired, Bool.false_eq_true, if_false, true_and, if_true]
  rfl

/-- The rows of a record without either mark that some zone aired. -/
theorem State.settleRecord_aired {s : State} {e : SettleEntry} {r : MessageRecord} (acked : r.ackedPending = false)
    (cancel : r.cancelPending = false) (aired : r.placedZones &&& e.zones ≠ 0) :
    let cls := s.classOf r.subscriber
    let attempts := if r.attempts < 15 then r.attempts + 1 else 15
    let raised := { r with attempts := attempts, airedZones := r.placedZones &&& e.zones }
    s.settleRecord e r =
      if cls.twoWay then s.makeAwaiting e.record raised (e.serial + cls.ackWindow)
      else if cls.repeatCount ≤ attempts then (s.setMsg e.record raised).close .tracker e.record .sent
      else if (s.sub r.subscriber).reach.unreachable then s.makeHeld e.record raised
      else s.makeWaiting e.record { raised with eligible := e.serial / 32 + 1 } := by
  intro cls attempts raised
  have stops : saturate 15 r.attempts 1 = attempts := by
    unfold saturate attempts
    split <;> omega
  refine (if_neg (ne_true_of_eq_false acked)).trans <| (if_neg (ne_true_of_eq_false cancel)).trans <|
    (if_neg fun h => aired h.1).trans <| (if_neg fun h => aired h.1).trans <| (if_neg aired).trans ?_
  rw [stops]
  rfl

/-- Settles O56: the two marks, then the rows of an unaired and of an aired record, each a close or a move. -/
theorem entrySettledByFirstRow : Obligations.EntrySettledByFirstRow := by
  unfold Obligations.EntrySettledByFirstRow
  intro s e rest tidy head holds i r u cls taken aired attempts current closed moved
  have canon : taken.Canon := ⟨tidy.subscribers, tidy.records⟩
  refine ⟨exec_settleEntry_stale head holds, fun now => ?_⟩
  have run : exec .settleEntry s = .next ((taken.settleRecord e r).endUnit .tracker) :=
    exec_settleEntry_current head holds now
  have moves {t : State} {q : MessageRecord} (row : taken.settleRecord e r = t) {ds : List DeadlineEntry}
      (h : taken.Moves t i q ds) (owner : q.subscriber = r.subscriber) (list : ds = match q.deadline with
        | some d => insertDeadline ⟨i, r.generation, d⟩ s.tracker.deadlines
        | none => s.tracker.deadlines) : moved q := by
    subst row
    obtain ⟨msg, lists, deadlines, ended, frame⟩ := h.endUnit .tracker
    rw [owner] at lists
    exact ⟨_, run, (msg i).trans (if_pos rfl), fun j ne => (msg j).trans (if_neg ne), lists, deadlines.trans list, ended,
      frame⟩
  have closes {q : MessageRecord} {o : CloseOutcome}
      (row : taken.settleRecord e r = (taken.setMsg i q).close .tracker i o) : closed q o := run.trans (by rw [row])
  have ends {o : CloseOutcome} (row : taken.settleRecord e r = taken.close .tracker i o) : closed r o := by
    have same : taken.setMsg i r = taken := State.setMsg_self canon i
    exact closes (by rw [same, row])
  refine ⟨fun acked => ?_, fun acked cancel => ?_, fun acked cancel => ⟨fun none => ?_, fun some => ?_⟩⟩
  · exact ends (if_pos acked)
  · exact ends ((if_neg (ne_true_of_eq_false acked)).trans (if_pos cancel))
  · have row := State.settleRecord_unaired (s := taken) acked cancel none
    refine ⟨fun expired => ends (row.trans (if_pos expired)), fun alive => ?_⟩
    have row := row.trans (if_neg (Nat.not_le.mpr alive))
    cases unreachable : u.reach.unreachable with
    | true => exact moves (row.trans (if_pos unreachable)) (State.makeHeld_moves canon i r) rfl rfl
    | false =>
      exact moves (row.trans (if_neg (ne_true_of_eq_false unreachable))) (State.makeWaiting_moves canon i r) rfl rfl
  · have row := State.settleRecord_aired (s := taken) acked cancel some
    refine ⟨fun twoWay => moves (row.trans (if_pos twoWay)) (State.makeAwaiting_moves canon i _ _) rfl rfl, ?_⟩
    have oneWay (no : cls.twoWay = false) := row.trans (if_neg (ne_true_of_eq_false no))
    have again (no : cls.twoWay = false) (more : attempts < cls.repeatCount) :=
      (oneWay no).trans (if_neg (Nat.not_le.mpr more))
    exact ⟨fun no last => closes ((oneWay no).trans (if_pos last)),
      fun no more out => moves ((again no more).trans (if_pos out)) (State.makeHeld_moves canon i _) rfl rfl,
      fun no more reached => moves ((again no more).trans (if_neg (ne_true_of_eq_false reached)))
        (State.makeWaiting_moves canon i _) rfl rfl⟩

end Sys2Proof.Machine
end

section
/-! DEADLINE ITEM (R103, R156, R162 to R164). -/

namespace Sys2Proof.Machine

/-! ## The hold request (R103) -/

/-- The record as a hold leaves it (R103). -/
def MessageRecord.heldBack (r : MessageRecord) : MessageRecord :=
  { r with state := .held, deadline := none, cancelPending := false, ackedPending := false }

/-- One WAITING record taken out of its list and held. -/
def State.holdOne (s : State) (i : Nat) : State := (s.delist i).makeHeld i (s.msg i)

theorem State.delist_lists (s : State) (i : Nat) (f : Fin 32) :
    (s.delist i).store.lists.get f = if f = (s.sub (s.msg i).subscriber).billing.slot then
      (s.store.lists.get f).filter fun j => decide (j ≠ i) else s.store.lists.get f := by
  refine (lists_set _ _ f _).trans ?_
  split
  · next here => rw [here]
  · rfl

theorem State.holdOne_msg {s : State} (c : s.Canon) (i j : Nat) :
    (s.holdOne i).msg j = if j = i then (s.msg i).heldBack else s.msg j :=
  State.msg_setMsg (s := s.delist i) c.records i j _

theorem State.holdOne_canon {s : State} (c : s.Canon) (i : Nat) : (s.holdOne i).Canon :=
  ⟨c.subscribers, Table.wf_set c.records i _⟩

/-- What holding a subscriber's records one after the other leaves of the records, of the lists, and of everything else. -/
theorem State.foldl_holdOne {is : List Nat} {s : State} (c : s.Canon) {n : Nat} (all : ∀ i, i ∈ is → (s.msg i).subscriber = n) :
    (∀ j, (is.foldl State.holdOne s).msg j = if j ∈ is then (s.msg j).heldBack else s.msg j) ∧
    (∀ f : Fin 32, (is.foldl State.holdOne s).store.lists.get f =
      if f = (s.sub n).billing.slot then (s.store.lists.get f).filter fun j => decide (j ∉ is)
      else s.store.lists.get f) ∧
    is.foldl State.holdOne s = { s with store := { s.store with
      records := (is.foldl State.holdOne s).store.records, lists := (is.foldl State.holdOne s).store.lists } } := by
  induction is generalizing s with
  | nil => simp
  | cons i rest ih =>
    have here := all i List.mem_cons_self
    have msg := State.holdOne_msg c i
    obtain ⟨msgs, lists, frame⟩ := ih (State.holdOne_canon c i) fun j m => by
      rw [msg]
      split
      · exact here
      · exact all j (List.mem_cons_of_mem _ m)
    refine ⟨fun j => ?_, fun f => ?_, frame⟩
    · rw [List.foldl_cons, msgs, msg]
      by_cases e : j = i
      · subst e
        simp [MessageRecord.heldBack]
      · simp [e]
    · have left := s.delist_lists i f
      rw [here] at left
      rw [List.foldl_cons, lists]
      show (if f = (s.sub n).billing.slot then List.filter _ ((s.delist i).store.lists.get f)
        else (s.delist i).store.lists.get f) = _
      rw [left]
      split
      · rw [List.filter_filter]
        refine List.filter_congr fun j _ => ?_
        simp [Bool.and_comm]
      · rfl

/-- The indexes of a subscriber's WAITING records. -/
theorem State.mem_waiting {s : State} (c : s.Canon) (n i : Nat) :
    (i ∈ s.msgsWhere fun r => decide (r.subscriber = n ∧ r.state = .waiting)) ↔
      (s.msg i).subscriber = n ∧ (s.msg i).state = .waiting :=
  (State.mem_msgsWhere c (decide_eq_false fun h => nomatch h.2) i).trans decide_eq_true_iff

/-- The hold request (R103): what it leaves. -/
theorem State.holdAll_spec {s : State} (c : s.Canon) (n : Nat) :
    let waiting := s.msgsWhere fun r => decide (r.subscriber = n ∧ r.state = .waiting)
    let t := (s.holdAll n).1
    (∀ i, t.msg i = if (s.msg i).subscriber = n ∧ (s.msg i).state = .waiting then (s.msg i).heldBack else s.msg i) ∧
    (∀ f : Fin 32, t.store.lists.get f = if f = (s.sub n).billing.slot then
      (s.store.lists.get f).filter fun i => decide (i ∉ waiting) else s.store.lists.get f) ∧
    t = { s with store := { s.store with records := t.store.records, lists := t.store.lists } } := by
  intro waiting t
  obtain ⟨msg, lists, frame⟩ := State.foldl_holdOne (is := waiting) c fun i m => ((State.mem_waiting c n i).mp m).1
  exact ⟨fun i => (msg i).trans (if_congr (State.mem_waiting c n i) rfl rfl), lists, frame⟩

/-! ## The miss latch (R163) -/

/-- Whether a miss latches the subscriber's flag (R163). -/
def State.latches (s : State) (n : Nat) : Prop :=
  s.engine.office.missLatchLimit ≠ 0 ∧ s.engine.office.missLatchLimit ≤ min 16 ((s.sub n).reach.missCount + 1) ∧
    (s.sub n).reach.unreachable = false

/-- The miss count after one more miss (R163). -/
def State.missed (s : State) (n : Nat) (unreachable : Bool) : State :=
  s.setReach n { (s.sub n).reach with missCount := min 16 ((s.sub n).reach.missCount + 1), unreachable := unreachable }

section
variable {s : State} {n : Nat}

theorem State.missLatch_of_not (no : ¬ s.latches n) : s.missLatch n = s.missed n (s.sub n).reach.unreachable := if_neg no

theorem State.missLatch_of_latches (yes : s.latches n) :
    s.missLatch n = (((s.missed n true).holdAll n).1.hand .tracker
      (recordHeld n (min 16 ((s.sub n).reach.missCount + 1)) ((s.missed n true).holdAll n).2 s.air.serial)) := if_pos yes

theorem State.missed_sub (c : s.Canon) (n : Nat) (b : Bool) (k : Nat) :
    (s.missed n b).sub k = if k = n then
      { s.sub n with reach := { (s.sub n).reach with
          missCount := min 16 ((s.sub n).reach.missCount + 1), unreachable := b } }
    else s.sub k := State.sub_setSub c.subscribers n k _

end

/-- What a miss that does not latch leaves (R163). -/
theorem State.missLatch_unlatched {s : State} (c : s.Canon) {n : Nat} (no : ¬ s.latches n) :
    (∀ k, (s.missLatch n).sub k = if k = n then
      { s.sub n with reach := { (s.sub n).reach with missCount := min 16 ((s.sub n).reach.missCount + 1) } }
      else s.sub k) ∧
    s.missLatch n = { s with account := { s.account with subscribers := (s.missLatch n).account.subscribers } } := by
  rw [State.missLatch_of_not no]
  exact ⟨State.missed_sub c n _, rfl⟩

/-- What a miss that latches leaves (R163). -/
theorem State.missLatch_latched {s : State} (c : s.Canon) {n : Nat} (yes : s.latches n) :
    let misses := min 16 ((s.sub n).reach.missCount + 1)
    let waiting := s.msgsWhere fun r => decide (r.subscriber = n ∧ r.state = .waiting)
    let t := s.missLatch n
    (∀ k, t.sub k = if k = n then
      { s.sub n with reach := { (s.sub n).reach with missCount := misses, unreachable := true } } else s.sub k) ∧
    (∀ i, t.msg i = if (s.msg i).subscriber = n ∧ (s.msg i).state = .waiting then (s.msg i).heldBack else s.msg i) ∧
    (∀ f : Fin 32, t.store.lists.get f = if f = (s.sub n).billing.slot then
      (s.store.lists.get f).filter fun i => decide (i ∉ waiting) else s.store.lists.get f) ∧
    t.ex = (s.hand .tracker [0x09, word n, word misses, word waiting.length, word s.air.serial]).ex ∧
    t = { s with
      account := { s.account with subscribers := t.account.subscribers }
      store := { s.store with records := t.store.records, lists := t.store.lists }
      ex := t.ex } := by
  intro misses waiting t
  have sub := State.missed_sub c n true
  obtain ⟨msg, lists, frame⟩ := State.holdAll_spec (s := s.missed n true) ⟨(c.setSub n _).subscribers, c.records⟩ n
  have latched : t = ((s.missed n true).holdAll n).1.hand .tracker (recordHeld n misses waiting.length s.air.serial) :=
    State.missLatch_of_latches yes
  generalize ((s.missed n true).holdAll n).1 = held at msg lists frame latched
  rw [sub n, if_pos rfl] at lists
  obtain ⟨records, rows, shape⟩ : ∃ records rows, held =
      { s.missed n true with store := { s.store with records := records, lists := rows } } := ⟨_, _, frame⟩
  subst shape
  rw [latched]
  exact ⟨sub, msg, lists, State.handAll_congr (s := s) rfl rfl .tracker [_], rfl⟩

section
variable {s : State} {n : Nat}

/-- A miss latch writes one reach group of the subscriber table. -/
theorem State.missLatch_sub (c : s.Canon) (k : Nat) :
    (s.missLatch n).sub k =
      if k = n then { s.sub n with reach := ((s.missLatch n).sub n).reach } else s.sub k := by
  by_cases latches : s.latches n
  · obtain ⟨sub, -⟩ := State.missLatch_latched c latches
    rw [sub k, sub n, if_pos rfl]
  · obtain ⟨sub, -⟩ := State.missLatch_unlatched c latches
    rw [sub k, sub n, if_pos rfl]

/-- A miss latch leaves every record that is not WAITING. -/
theorem State.missLatch_msg (c : s.Canon) {i : Nat} (idle : (s.msg i).state ≠ .waiting) :
    (s.missLatch n).msg i = s.msg i := by
  by_cases latches : s.latches n
  · obtain ⟨-, msg, -⟩ := State.missLatch_latched c latches
    exact (msg i).trans (if_neg fun h => idle h.2)
  · rw [State.missLatch_of_not latches]
    rfl

theorem State.missLatch_canon (c : s.Canon) : (s.missLatch n).Canon := (s.missLatch_ebbs n).canon c

/-! ## A deadline taken -/

theorem exec_deadlineItem (s : State) : exec .deadlineItem s = execDeadlineItem s := rfl

variable {e : DeadlineEntry} {rest : List DeadlineEntry}

/-- A return message comes before a deadline exactly where the reverse queue's head arrived before it (R156). -/
theorem State.returnBefore_iff {d : Nat} :
    s.returnBefore d = true ↔ ∃ q qs, s.tracker.reverse = q :: qs ∧ q.arrival < d := by
  unfold State.returnBefore
  split
  · next q qs head => simp [head]
  · next none => simp [none]

/-- A deadline that is not due, or that a return message comes before, is not taken (R156). -/
theorem exec_deadlineItem_waits (head : s.tracker.deadlines = e :: rest)
    (waits : s.air.serial < e.serial ∨ s.returnBefore e.serial = true) : exec .deadlineItem s = .next s := by
  rw [exec_deadlineItem, execDeadlineItem, head]
  refine if_neg fun ⟨_, due, first⟩ => ?_
  rcases waits with early | before
  · exact Nat.not_le.mpr early due
  · exact nomatch before.symm.trans first

/-- A due deadline of a record AWAITING ACK: the miss, then the record's fate (R163, R164). -/
theorem exec_deadlineItem_due (c : s.Canon) (head : s.tracker.deadlines = e :: rest)
    (holds : s.ex.writer.holds .tracker = true) (awaits : (s.msg e.record).state = .awaitingAck)
    (due : e.serial ≤ s.air.serial) (first : s.returnBefore e.serial = false) :
    exec .deadlineItem s =
      .next (((s.missLatch (s.msg e.record).subscriber).deadlineFate e.record e.serial).endUnit .tracker) := by
  have still : ((s.missLatch (s.msg e.record).subscriber).msg e.record).state = .awaitingAck := by
    rw [State.missLatch_msg c (by rw [awaits]; nofun), awaits]
  rw [exec_deadlineItem, execDeadlineItem, head]
  refine (if_pos ⟨holds, due, first⟩).trans ?_
  simp only [still, if_true]

/-- The table of R164. -/
theorem State.deadlineFate_eq {i : Nat} {r : MessageRecord} {cls : ServiceClass} (msg : s.msg i = r)
    (service : s.classOf r.subscriber = cls) (d : Nat) :
    s.deadlineFate i d =
      if cls.retryLimit ≤ r.attempts then s.close .tracker i .undelivered
      else if r.expiry ≤ d / 32 then s.close .tracker i .expired
      else if (s.sub r.subscriber).reach.unreachable then (s.dropDeadline i).makeHeld i r
      else (s.dropDeadline i).makeWaiting i
        { r with eligible := d / 32 + 1 + min (2 ^ (r.attempts - 1) - 1) cls.backoffCap } := by
  subst msg service
  rfl

end

/-- Settles O58: the deadline's place in the merged order, the miss latch, and over the state it leaves the table of R164,
each row a close or a move. -/
theorem deadlineItemProcessed : Obligations.DeadlineItemProcessed := by
  unfold Obligations.DeadlineItemProcessed
  refine ⟨?_, ?_⟩
  · intro s e rest tidy head holds awaits i r n cls cycle judged unreachable moved closed first
    have c := tidy.canon
    have canon : judged.Canon := State.missLatch_canon c
    have dropped : (judged.dropDeadline i).Canon := ⟨canon.subscribers, canon.records⟩
    refine ⟨fun early => exec_deadlineItem_waits head (.inl early), fun q qs reverse before =>
      exec_deadlineItem_waits head (.inr (State.returnBefore_iff.mpr ⟨q, qs, reverse, before⟩)), fun due leads => ?_⟩
    have unpreceded : s.returnBefore e.serial = false := by
      rw [Bool.eq_false_iff, Ne, State.returnBefore_iff]
      rintro ⟨q, qs, reverse, before⟩
      exact Nat.not_le.mpr before (leads q qs reverse)
    have run : exec .deadlineItem s = .next ((judged.deadlineFate i e.serial).endUnit .tracker) :=
      exec_deadlineItem_due c head holds awaits due unpreceded
    have billing : (judged.sub n).billing = (s.sub n).billing := by rw [State.missLatch_sub c n, if_pos rfl]
    have row := State.deadlineFate_eq (s := judged) (i := i) (r := r) (cls := cls)
      (State.missLatch_msg c (by rw [awaits]; nofun))
      (by rw [State.classOf, billing, State.missLatch_engine]; rfl) e.serial
    have closes {o : CloseOutcome} (row : judged.deadlineFate i e.serial = judged.close .tracker i o) : closed o :=
      run.trans (by rw [row])
    have moves {t : State} {q : MessageRecord} (row : judged.deadlineFate i e.serial = t)
        (h : (judged.dropDeadline i).Moves t i { q with deadline := none } (judged.dropDeadline i).tracker.deadlines)
        (owner : q.subscriber = n) : moved q := by
      subst row
      obtain ⟨msg, lists, deadlines, ended, frame⟩ := h.of_dropDeadline.endUnit .tracker
      rw [owner, billing] at lists
      exact ⟨_, run, (msg i).trans (if_pos rfl), fun j ne => (msg j).trans (if_neg ne),
        deadlines.trans (by rw [State.dropDeadline, State.missLatch_tracker]), lists, ended, frame⟩
    refine ⟨fun spent => closes (row.trans (if_pos spent)), fun left expired => ?_, fun left alive => ?_⟩
    · exact closes ((row.trans (if_neg (Nat.not_le.mpr left))).trans (if_pos expired))
    · have row := (row.trans (if_neg (Nat.not_le.mpr left))).trans (if_neg (Nat.not_le.mpr alive))
      exact ⟨fun out => moves (row.trans (if_pos out)) (State.makeHeld_moves dropped i r) rfl,
        fun reached => moves (row.trans (if_neg (ne_true_of_eq_false reached))) (State.makeWaiting_moves dropped i _) rfl⟩
  · intro s n tidy u misses limit latches waiting t
    have c := tidy.canon
    refine ⟨fun k ne => (State.missLatch_sub c k).trans (if_neg ne), fun no => ?_, fun yes => ?_⟩
    · obtain ⟨sub, frame⟩ := State.missLatch_unlatched c no
      exact ⟨(sub n).trans (if_pos rfl), frame⟩
    · obtain ⟨sub, rest⟩ := State.missLatch_latched c yes
      exact ⟨(sub n).trans (if_pos rfl), rest⟩

end Sys2Proof.Machine
end

section
/-! SUPPORT. What a command can come to, said once for all 74: the cases every law of Safety.lean is proved over. -/

namespace Sys2Proof.Machine

/-! ## The cases -/

/-- What an order of the posting board has changed when it comes to its answer, the exchange of the records handed included
(chapter 5). -/
inductive State.Ordered (s : State) : State → Prop where
  | asFound : s.Ordered s
  | provisioned (p : Posting) (vacant : (s.sub p.subscriber).billing.state = .vacant) :
      s.Ordered (s.setBilling p.subscriber (provisioned p s.account.period))
  | amended (n : Nat) (p : Posting) (live : (s.sub n).billing.state ≠ .vacant) : s.Ordered (s.applyAmend n p)
  | barred (n : Nat) (to_ : SubscriberState) (live : (s.sub n).billing.state ≠ .vacant) (served : to_ ≠ .vacant) :
      s.Ordered (s.setBilling n { (s.sub n).billing with state := to_ })
  | retired (n : Nat) (r : Record) (none : (s.sub n).store.openCount = 0) :
      s.Ordered ((s.hand .intake r).setSub n Subscriber.powerOn)
  | credited (n : Nat) (amount : Int) (live : (s.sub n).billing.state ≠ .vacant) :
      s.Ordered ((s.rollIfStale n).applyCredit n amount)
  | planned (plans : Vector RatePlan 16) : s.Ordered { s with account := { s.account with plans := plans } }
  | periodClosed (rests : s.account.walk.inFlight = false) :
      s.Ordered (State.ask
        { s with account := { s.account with period := (s.account.period + 1) % 65536, walk := ⟨true, 0, 0⟩ } } .rollWalk)
  | marked (i : Nat) (flies : (s.msg i).state = .placed ∨ (s.msg i).state = .onAir) :
      s.Ordered (s.setMsg i { s.msg i with cancelPending := true })
  | cancelled (i : Nat) (occupied : (s.msg i).state ≠ .free)
      (rests : ¬ ((s.msg i).state = .placed ∨ (s.msg i).state = .onAir)) : s.Ordered (s.close .intake i .cancelled)
  | released (n : Nat) : s.Ordered (s.releaseAll n).1
  | clocked (day second : Nat) : s.Ordered (s.withClock day second)
  | settings (o : Office) (classes : Vector ServiceClass 8) :
      s.Ordered { s with engine := { s.engine with office := o, classes := classes } }
  | linked (l : Index8) (c : Link)
      (keying : c.keyed = true → (s.link l).keyed = true ∧
        (s.engine.state = .setup ∨ ((s.link l).state = .keyed → c.state = .keyed ∧ c.settings = (s.link l).settings))) :
      s.Ordered (s.setLink l c)
  | receiving (l : Index8) (r : Receiver) : s.Ordered (s.setReceiver l r)
  | airStarted (setup : s.engine.state = .setup) (next : EngineState) (cause : RestartCause) :
      s.Ordered (State.setEngineBit { s with engine := { s.engine with state := next, cause := cause } })
  | airStopped (next : EngineState)
      (from_ : s.engine.state = .starting ∨ (s.engine.state = .running ∧ next = .stopping)) :
      s.Ordered (State.setEngineBit { s with engine := { s.engine with state := next } })

/-- The state a visit of the roll walk leaves, with the next subscriber as its place (R61). -/
def State.walkStep (s : State) : State :=
  { s.walkVisit with
    account := { s.walkVisit.account with
      walk := { s.walkVisit.account.walk with next := s.walkVisit.account.walk.next + 1 } } }

/-- What a producer's unit of work under its reservation has changed when the unit ends (R155, R170). -/
inductive State.Worked (s : State) : Producer → State → Prop where
  | reference (r : Record) :
      s.Worked .monitor { s.hand .monitor r with air := { s.air with monitor := { s.air.monitor with report := none } } }
  | lateBuild (r : Record) : s.Worked .builder { s.hand .builder r with builder := { s.builder with late := none } }
  | linkReport (l : Index8) : s.Worked .linkUnit (s.appendLinkReport l)
  | settled (e : SettleEntry) (rest : List SettleEntry) (airs : (s.msg e.record).state = .onAir) :
      s.Worked .tracker ((s.takeSettle rest).settleRecord e (s.msg e.record))
  | discarded (rest : List SettleEntry) : s.Worked .tracker (s.takeSettle rest)
  | returned (e : ReverseEntry) (rest : List ReverseEntry) :
      s.Worked .tracker (State.processReturn { s with tracker := { s.tracker with reverse := rest } } e)
  | deadline (n i d : Nat) (awaits : ((s.missLatch n).msg i).state = .awaitingAck) :
      s.Worked .tracker ((s.missLatch n).deadlineFate i d)
  | deadlineGone (n i : Nat) : s.Worked .tracker ((s.missLatch n).dropDeadline i)
  | sweepPassed : s.Worked .messageStore { s with store := { s.store with sweep := s.store.sweep.advance } }
  | sweepClosed (i : Nat) (w : Sweep) (rests : (s.msg i).state = .waiting ∨ (s.msg i).state = .held) :
      s.Worked .messageStore
        { s.close .messageStore i .expired with store := { (s.close .messageStore i .expired).store with sweep := w } }
  | airStop (i : Nat) (rest : List Nat) (o : CloseOutcome) (head : s.store.airStop = i :: rest) :
      s.Worked .messageStore
        { s.close .messageStore i o with store := { (s.close .messageStore i o).store with airStop := rest } }
  | walk : s.Worked .rollWalk s.walkStep

/-- The exchange with a word taken from the write buffer (R69). -/
def Exchange.took (x : Exchange) (rest : List BufferedWrite) : Exchange := { x with buffer := rest }

/-- What a command can come to: the state after it. -/
inductive State.Did (s : State) : State → Prop where
  | nothing : s.Did s
  | powerOn : s.Did
      { State.reset with
        pending := s.pending
        ex := { State.reset.ex with
          choices := s.ex.choices, mem := Memory.writeWords (resetBytes s.ex.mem) 0x10 [0, 0] } }
  | loaded (profile : Option Profile) : s.Did (s.load profile)
  | engineReset : s.Did (s.engineReset.reply .done)
  | hosted (arbiter : Arbiter) (summary enable : EventBits) (fence : Option Fence) (buffer : List BufferedWrite)
      (bus : BusReply) (read : Option DelayedRead) :
      s.Did { s with
        arbiter := arbiter
        ex := { s.ex with
          summary := summary, enable := enable, fence := fence, buffer := buffer, bus := bus, read := read } }
  | bodyWritten (w : BufferedWrite) (rest : List BufferedWrite) (outside : Config.boardBase ≤ w.offset) :
      s.Did { s with
        ex := { s.ex.took rest with mem := Memory.writeEnabled (s.ex.took rest).mem w.offset w.data w.enables } }
  | posted (n : Nat) (rest : List BufferedWrite) (free : s.ex.slot n = .free) (lt : n < 512) :
      s.Did { s with
        ex := Exchange.wakeIntake
          { ((s.ex.took rest).setSlot n .posted).notice .queueLength with queue := s.ex.queue ++ [n] } s.loading }
  | withdrawn (n : Nat) (rest : List BufferedWrite) (posted : s.ex.slot n = .posted) :
      s.Did { s with
        ex := Exchange.wakeIntake
          { ((s.ex.took rest).setSlot n .free).notice .queueLength with
            queue := s.ex.queue.filter fun k => decide (k ≠ n) } s.loading }
  | slotReturned (n : Nat) (rest : List BufferedWrite) (answered : s.ex.slot n = .answered) :
      s.Did { s with ex := ((s.ex.took rest).setSlot n .free).setAnswered (s.ex.answered - 1) }
  | pageReturned (p : Index8) (rest : List BufferedWrite) (filled : s.ex.writer.pages.get p = .filled) :
      s.Did { s with ex := (s.ex.took rest).returnPage s.stamp p }
  | mirrored (m : Mirror) :
      s.Did { s with
        ex := { s.ex with
          mem := Memory.writeWords s.ex.mem (mirrorOffset m) (s.mirrorWords m)
          notices := s.ex.notices.filter fun k => decide (k ≠ m) } }
  | taken (n : Nat) (rest : List Nat) (taking : s.ex.intake = .taking) (queue : s.ex.queue = n :: rest) :
      s.Did { s with ex := s.ex.take n rest }
  | takenNone (taking : s.ex.intake = .taking) (queue : s.ex.queue = []) :
      s.Did { s with ex := { s.ex.giveBack s.stamp .intake with intake := .idle } }
  | requested (n : Nat) (p : Posting) (working : s.ex.intake = .working n p) (code : (Posting.code p).toNat = 0x01) :
      s.Did (s.message p)
  | copied (n : Nat) (p : Posting) (c : QueryCopy) (working : s.ex.intake = .working n p)
      (other : (Posting.code p).toNat ≠ 0x01) : s.Did (s.advance (.copied c))
  | answered {u : State} (n : Nat) (p : Posting) (code : AnswerCode) (data : List Word)
      (working : s.ex.intake = .working n p) (other : (Posting.code p).toNat ≠ 0x01) (h : s.Ordered u) :
      s.Did (u.answer code data)
  | boundary : s.Did s.boundary
  | monitored (m : Monitor)
      (from_ : (∃ time, m = s.air.monitor.pulse time s.nextBoundary) ∨ m = s.air.monitor.expire s.nextBoundary) :
      s.Did ((s.setMonitor m).ask .monitor)
  | built {t : State} (h : execBuildCandidate s = .next t) : s.Did t
  | observed (l : Index8) (kind : Observation) (at_ : Sighting) (bit : Bool) (choices : Nat) :
      s.Did (State.ask
        { s.setLink l (Link.observe { s.link l with statusTaken := true } kind at_) with
          ex := { s.ex with summary := { s.ex.summary with link := bit }, choices := choices } } .linkUnit)
  | counted (l : Index8) (r : Receiver) : s.Did (s.setReceiver l r)
  | accepted (l : Index8) (bits : BitVec 40) : s.Did ((s.acceptMessage l bits).ask .tracker)
  | sweepAsked (g : BitVec 8) :
      s.Did (State.ask { s with store := { s.store with sweep := { s.store.sweep with waiting := some g } } } .messageStore)
  | swept : s.Did { s with store := { s.store with sweep := s.store.sweep.advance } }
  | walked (holds : s.ex.writer.holds .rollWalk = true) (flies : s.account.walk.inFlight = true)
      (more : s.walkStep.account.walk.next < Config.subscribers) (left : 1 < s.walkStep.ex.writer.left .rollWalk) :
      s.Did s.walkStep
  | walkEnded (holds : s.ex.writer.holds .rollWalk = true) (flies : s.account.walk.inFlight = true)
      (past : Config.subscribers ≤ s.walkStep.account.walk.next) : s.Did s.walkStep.walkEnd
  | unit {u : State} {p : Producer} (holds : s.ex.writer.holds p = true) (h : s.Worked p u) : s.Did (u.endUnit p)
  | pageClosed : s.Did { s with ex := s.ex.closeIfDue s.stamp }

/-! ## The judged write (R69, R71) -/

theorem Exchange.judged_some {x : Exchange} {w : BufferedWrite} {v : Verdict} {y : Exchange} (h : x.judged = some (w, v, y)) :
    ∃ rest, x.buffer = w :: rest ∧ v = x.verdict w ∧ y = x.took rest := by
  unfold Exchange.judged at h
  split at h
  · next w' rest buffer =>
    simp only [Option.some.injEq, Prod.mk.injEq] at h
    obtain ⟨rfl, rfl, rfl⟩ := h
    exact ⟨rest, buffer, rfl, rfl⟩
  · exact absurd h (by simp)

/-- A slot's state word and body lie in the posting board (R67). -/
theorem regionOf_slot {o n : Nat} (h : regionOf o = .slotState n ∨ regionOf o = .slotBody n) :
    Config.boardBase ≤ o ∧ n < 512 := by
  have board : Config.boardBase ≤ o := by
    by_contra below
    rw [regionOf, if_pos (Nat.lt_of_not_le below)] at h
    simp at h
  have inside : o < Config.pagesBase := by
    by_contra past
    rw [regionOf, if_neg (Nat.not_lt.mpr board), if_neg past] at h
    split at h
    · simp only at h
      split at h <;> simp at h
    · simp at h
  rw [regionOf, if_neg (Nat.not_lt.mpr board), if_pos inside] at h
  have number : n = (o - Config.boardBase) / 0x100 := by
    simp only at h
    split at h
    · simpa [eq_comm] using h
    · simpa [eq_comm] using h
  refine ⟨board, ?_⟩
  simp only [Config.boardBase, Config.pagesBase] at number board inside
  omega

/-- What a verdict on a word says of its place, and of the slot map or the page states (R71, R75). -/
def Exchange.Found (x : Exchange) (w : BufferedWrite) : Verdict → Prop
  | .body => Config.boardBase ≤ w.offset
  | .post n => x.slot n = .free ∧ n < 512
  | .withdraw n => x.slot n = .posted
  | .takeBack n => x.slot n = .answered
  | .pageReturn p => x.writer.pages.get p = .filled
  | .drop _ _ => True

theorem Exchange.found_verdict (x : Exchange) (w : BufferedWrite) : x.Found w (x.verdict w) := by
  have slot := @regionOf_slot w.offset
  unfold Exchange.verdict
  split
  · trivial
  · trivial
  · next n region =>
    split
    · exact (slot (.inr region)).1
    · trivial
  · next n region =>
    split_ifs with post withdraw takeBack
    · exact ⟨post.2.2, (slot (.inl region)).2⟩
    · exact withdraw.2.2
    · exact takeBack.2.2
    · trivial
  · split
    · next h => exact h.2.2
    · trivial
  · trivial

end Sys2Proof.Machine
end

section
/-! SUPPORT. Every command comes to one of the cases of State.Did. -/

namespace Sys2Proof.Machine

/-! ## Orders -/

/-- An order acts on the posting in hand that carries its code, and on no other (R84). -/
theorem State.order_next {s t : State} {code : Nat} {f : Posting → State} (h : s.order code f = .next t) :
    t = s ∨ ∃ n p, s.ex.intake = .working n p ∧ (Posting.code p).toNat = code ∧ t = f p := by
  unfold State.order State.posting at h
  split at h
  · next p hand =>
    split at hand
    · next n q working =>
      obtain rfl := Option.some.inj hand
      split at h
      · next same => exact .inr ⟨n, _, working, same, (Host.Outcome.next.inj h).symm⟩
      · exact .inl (Host.Outcome.next.inj h).symm
    · exact absurd hand (by simp)
  · exact .inl (Host.Outcome.next.inj h).symm

/-- The answer to an order, over what the order has changed. -/
def State.AnswersOrder (s t : State) : Prop := ∃ u code data, s.Ordered u ∧ t = u.answer code data

/-- An order whose meaning is an answer over what it has changed comes to that. -/
theorem State.order_did {s t : State} {code : Nat} {f : Posting → State} (h : s.order code f = .next t)
    (other : code ≠ 0x01) (meaning : ∀ p, s.AnswersOrder (f p)) : s.Did t := by
  obtain rfl | ⟨n, p, working, rfl, rfl⟩ := State.order_next h
  · exact .nothing
  · obtain ⟨u, answer, data, ordered, same⟩ := meaning p
    rw [same]
    exact .answered n p answer data working other ordered

section
variable {s : State}

/-- An answer over the state as found is an order's. -/
theorem State.AnswersOrder.refused (code : AnswerCode) (data : List Word) : s.AnswersOrder (s.answer code data) :=
  ⟨s, code, data, .asFound, rfl⟩

/-- An answer over what an order has changed. -/
theorem State.Ordered.answers {u : State} (h : s.Ordered u) (code : AnswerCode) (data : List Word) :
    s.AnswersOrder (u.answer code data) := ⟨u, code, data, h, rfl⟩

theorem State.provision_ordered (p : Posting) :
    s.AnswersOrder (s.provision p) := by
  unfold State.provision
  simp only
  split
  · exact .refused _ _
  · split
    · exact .refused _ _
    · next vacant => exact (State.Ordered.provisioned p (not_not.mp vacant)).answers _ _

theorem State.amend_ordered (p : Posting) : s.AnswersOrder (s.amend p) := by
  unfold State.amend
  simp only
  split
  · exact .refused _ _
  · split_ifs with vacant messages
    · exact .refused _ _
    · exact .refused _ _
    · exact (State.Ordered.amended p.subscriber p vacant).answers _ _

theorem State.setBarred_ordered (p : Posting) {to_ : SubscriberState} (served : to_ ≠ .vacant) :
    s.AnswersOrder (s.setBarred p to_) := by
  unfold State.setBarred
  simp only
  split_ifs with vacant
  · exact .refused _ _
  · exact (State.Ordered.barred p.subscriber to_ vacant served).answers _ _

theorem State.retire_ordered (p : Posting) : s.AnswersOrder (s.retire p) := by
  unfold State.retire
  simp only
  split_ifs with vacant messages
  · exact .refused _ _
  · exact .refused _ _
  · exact (State.Ordered.retired p.subscriber _ (Nat.eq_zero_of_not_pos messages)).answers _ _

theorem State.credit_ordered (p : Posting) : s.AnswersOrder (s.credit p) := by
  unfold State.credit
  simp only
  split_ifs with vacant
  · exact .refused _ _
  · exact (State.Ordered.credited p.subscriber _ vacant).answers _ _

theorem State.release_ordered (p : Posting) : s.AnswersOrder (s.release p) := by
  unfold State.release
  simp only
  split_ifs with vacant unreachable
  · exact .refused _ _
  · exact (State.Ordered.released p.subscriber).answers _ _
  · exact .refused _ _

theorem State.setPlan_ordered (p : Posting) : s.AnswersOrder (s.setPlan p) := by
  unfold State.setPlan
  split_ifs with h
  · exact (State.Ordered.planned _).answers _ _
  · exact .refused _ _

theorem State.periodClose_ordered : s.AnswersOrder (s.periodClose) := by
  unfold State.periodClose
  simp only
  split_ifs with flies
  · exact .refused _ _
  · exact (State.Ordered.periodClosed (Bool.eq_false_iff.mpr flies)).answers _ _

/-- An order on a handle is refused, or acts on the occupied record the handle names (R92). -/
theorem State.withHandle_ordered (p : Posting) {f : Nat → State}
    (acts : ∀ i, (s.msg i).state ≠ .free → s.AnswersOrder (f i)) :
    s.AnswersOrder (s.withHandle p f) := by
  unfold State.withHandle
  simp only
  split_ifs with malformed free stale
  · exact .refused _ _
  · exact .refused _ _
  · exact .refused _ _
  · exact acts _ free

theorem State.cancelRecord_ordered {i : Nat} (occupied : (s.msg i).state ≠ .free) :
    s.AnswersOrder (s.cancelRecord i) := by
  unfold State.cancelRecord
  simp only
  split_ifs with flies acked
  · exact .refused _ _
  · exact (State.Ordered.marked i flies).answers _ _
  · exact (State.Ordered.cancelled i occupied flies).answers _ _

/-- A settings order is refused outside SETUP (R93). -/
theorem State.inSetup_ordered {f : State} (acts : s.engine.state = .setup → s.AnswersOrder f) :
    s.AnswersOrder (s.inSetup f) := by
  unfold State.inSetup
  split_ifs with setup
  · exact acts setup
  · exact .refused _ _

theorem State.airStart_ordered : s.AnswersOrder (s.airStart) := by
  unfold State.airStart
  simp only
  split_ifs with setup
  · exact (State.Ordered.airStarted setup _ _).answers _ _
  · exact (State.Ordered.airStarted setup _ _).answers _ _
  · exact .refused _ _

theorem State.airStop_ordered : s.AnswersOrder (s.airStop) := by
  unfold State.airStop
  split_ifs with starting running
  · exact (State.Ordered.airStopped .setup (.inl starting)).answers _ _
  · exact (State.Ordered.airStopped .stopping (.inr ⟨running, rfl⟩)).answers _ _
  · exact .refused _ _

/-- A link order that keys no link and lets a KEYED one with keying stand keeps the case of State.Ordered. -/
theorem State.linkOrder_ordered (l : Index8) {c : Link} (code : AnswerCode)
    (keying : c.keyed = true → (s.link l).keyed = true ∧ ((s.link l).state = .keyed → c = s.link l ∨
      c.state = (s.link l).state ∧ c.settings = (s.link l).settings)) :
    s.AnswersOrder (s.linkOrder l c code) := by
  refine (State.Ordered.linked l c fun keyed => ⟨(keying keyed).1, .inr fun state => ?_⟩).answers _ _
  obtain rfl | ⟨same, settings⟩ := (keying keyed).2 state
  · exact ⟨state, rfl⟩
  · exact ⟨same.trans state, settings⟩

theorem Link.enable_keying (c : Link) :
    c.enable.keyed = true → c.keyed = true ∧ (c.state = .keyed → c.enable = c ∨
      c.enable.state = c.state ∧ c.enable.settings = c.settings) := by
  unfold Link.enable
  split_ifs with off
  · exact fun keyed => ⟨keyed, fun state => absurd (off.symm.trans state) (by decide)⟩
  · exact fun keyed => ⟨keyed, fun _ => .inl rfl⟩

theorem Link.disable_keying (c : Link) :
    c.disable.keyed = true → c.keyed = true ∧ (c.state = .keyed → c.disable = c ∨
      c.disable.state = c.state ∧ c.disable.settings = c.settings) := by
  unfold Link.disable
  split_ifs with off
  · exact fun keyed => ⟨keyed, fun _ => .inl rfl⟩
  · exact False.elim

theorem Link.keyOff_keying (c : Link) (immediate framed : Bool) :
    (c.keyOff immediate framed).1.keyed = true → c.keyed = true ∧ (c.state = .keyed → (c.keyOff immediate framed).1 = c ∨
      (c.keyOff immediate framed).1.state = c.state ∧ (c.keyOff immediate framed).1.settings = c.settings) := by
  unfold Link.keyOff
  split_ifs with rests waits
  · exact fun keyed => ⟨keyed, fun _ => .inl rfl⟩
  · exact fun keyed => ⟨keyed, fun _ => .inr ⟨rfl, rfl⟩⟩
  · exact fun keyed => absurd keyed Bool.false_ne_true

theorem Link.keyRestore_keying (c : Link) :
    c.keyRestore.keyed = true → c.keyed = true ∧ (c.state = .keyed → c.keyRestore = c ∨
      c.keyRestore.state = c.state ∧ c.keyRestore.settings = c.settings) := by
  unfold Link.keyRestore
  split_ifs with waits off
  · exact fun keyed => ⟨keyed, fun _ => .inr ⟨rfl, rfl⟩⟩
  · exact fun keyed => ⟨keyed, fun state => absurd (off.symm.trans state) (by decide)⟩
  · exact fun keyed => ⟨keyed, fun _ => .inl rfl⟩

theorem Link.restore_keying (c : Link) :
    c.restore.keyed = true → c.keyed = true ∧ (c.state = .keyed → c.restore = c ∨
      c.restore.state = c.state ∧ c.restore.settings = c.settings) := by
  unfold Link.restore
  split_ifs with fault
  · refine fun keyed => ⟨keyed, fun state => ?_⟩
    obtain tripped | latched := fault
    · exact absurd (tripped.symm.trans state) (by decide)
    · exact absurd (latched.symm.trans state) (by decide)
  · exact fun keyed => ⟨keyed, fun _ => .inl rfl⟩

theorem State.setLinkSettings_ordered (setup : s.engine.state = .setup) (p : Posting) :
    s.AnswersOrder (s.setLinkSettings p) :=
  (State.Ordered.linked p.link ((s.link p.link).setSettings (fittedLink p)) fun keyed => ⟨keyed, .inl setup⟩).answers _ _

end

/-! ## The other commands -/

section
variable {s t : State}

theorem execUnknownOrder_did (h : execUnknownOrder s = .next t) : s.Did t := by
  unfold execUnknownOrder State.posting at h
  split at h
  · next p hand =>
    split at hand
    · next n q working =>
      obtain rfl := Option.some.inj hand
      split at h
      · exact Host.Outcome.next.inj h ▸ .nothing
      · next unknown =>
        refine Host.Outcome.next.inj h ▸ .answered n _ _ _ working (fun same => unknown ?_) .asFound
        rw [same]
        decide
    · exact absurd hand (by simp)
  · exact Host.Outcome.next.inj h ▸ .nothing

theorem execMessage_did (h : execMessage s = .next t) : s.Did t := by
  obtain rfl | ⟨n, p, working, code, rfl⟩ := State.order_next h
  · exact .nothing
  · exact .requested n p working code

theorem execQuerySubscriber_did (h : execQuerySubscriber s = .next t) : s.Did t := by
  obtain rfl | ⟨n, p, working, code, rfl⟩ := State.order_next h
  · exact .nothing
  · have other : (Posting.code p).toNat ≠ 0x01 := by rw [code]; decide
    unfold State.querySubscriber
    simp only
    split
    · exact .copied n p _ working other
    · exact .answered n p _ _ working other .asFound
    all_goals exact .copied n p _ working other

/-- A command whose whole effect on the exchange is on the registers, the write buffer, the delayed read and the bus. -/
theorem State.Did.of_hosted (arbiter : Arbiter) (summary enable : EventBits) (fence : Option Fence)
    (buffer : List BufferedWrite) (bus : BusReply) (read : Option DelayedRead)
    (same : t = { s with
      arbiter := arbiter
      ex := { s.ex with
        summary := summary, enable := enable, fence := fence, buffer := buffer, bus := bus, read := read } }) : s.Did t :=
  same ▸ .hosted arbiter summary enable fence buffer bus read

theorem State.reply_did (s : State) (r : BusReply) : s.Did (s.reply r) := .of_hosted _ _ _ _ _ _ _ rfl

theorem execHostWindowRead_did {offset : Nat} (h : execHostWindowRead offset s = .next t) : s.Did t := by
  unfold execHostWindowRead at h
  split_ifs at h with past loading
  · exact Host.Outcome.next.inj h ▸ s.reply_did _
  · split at h
    · exact Host.Outcome.next.inj h ▸ .of_hosted _ _ _ _ _ _ _ rfl
    · split at h
      · split at h
        · exact Host.Outcome.next.inj h ▸ .of_hosted _ _ _ _ _ _ _ rfl
        · exact Host.Outcome.next.inj h ▸ s.reply_did _
      · exact Host.Outcome.next.inj h ▸ s.reply_did _

theorem execHostWindowWrite_did {offset : Nat} {data : Word} {enables : BitVec 4}
    (h : execHostWindowWrite offset data enables s = .next t) : s.Did t := by
  unfold execHostWindowWrite at h
  split_ifs at h
  · exact Host.Outcome.next.inj h ▸ s.reply_did _
  · exact Host.Outcome.next.inj h ▸ .of_hosted _ _ _ _ _ _ _ rfl

/-- A write of the register block: retried in LOADING, and accepted over its effect otherwise (R177). -/
theorem State.registerWrite_did {f : State} (h : s.registerWrite f = t) (acts : s.Did (f.reply .done)) : s.Did t := by
  unfold State.registerWrite at h
  split at h
  · exact h ▸ s.reply_did _
  · exact h ▸ acts

/-- A write of the register block whose effect is on the event bits and the fence record alone. -/
theorem State.clearing_did {c : Prop} [Decidable c] {summary : EventBits} {fence : Option Fence}
    (h : s.registerWrite (if c then { s with ex := { s.ex with summary := summary, fence := fence } } else s) = t) :
    s.Did t := by
  refine State.registerWrite_did h ?_
  split
  · exact .of_hosted _ _ _ _ _ _ _ rfl
  · exact s.reply_did _

theorem execEngineReset_did {data : Word} {enables : BitVec 4} (h : execEngineReset data enables s = .next t) : s.Did t := by
  refine State.registerWrite_did (Host.Outcome.next.inj h) ?_
  split
  · exact .engineReset
  · exact s.reply_did _

theorem execRegisterWriteIgnored_did {offset : Nat} {data : Word} {enables : BitVec 4}
    (h : execRegisterWriteIgnored offset data enables s = .next t) : s.Did t := by
  unfold execRegisterWriteIgnored at h
  split at h
  · exact absurd h (by simp)
  · exact State.registerWrite_did (Host.Outcome.next.inj h) (s.reply_did _)

theorem execStoreBurstGrant_did {encoder : Bool} {requests : Requests}
    (h : execStoreBurstGrant encoder requests s = .next t) : s.Did t := by
  unfold execStoreBurstGrant at h
  rw [Exchange.fetch_eta] at h
  refine Host.Outcome.next.inj h ▸ ?_
  split
  · exact .of_hosted _ _ _ _ _ _ _ rfl
  · exact .of_hosted _ _ _ _ _ _ _ rfl

/-- A command of the window guard acts on the word at the head of the write buffer, on a verdict of its own, and on no
other (R69, R71). -/
theorem Exchange.judged_cases {x : Exchange} {w : BufferedWrite} {v : Verdict} {y : Exchange}
    (h : x.judged = some (w, v, y)) : ∃ rest, y = x.took rest ∧ x.Found w v := by
  obtain ⟨rest, -, rfl, rfl⟩ := Exchange.judged_some h
  exact ⟨rest, rfl, x.found_verdict w⟩

theorem execSlotBodyWrite_did (h : execSlotBodyWrite s = .next t) : s.Did t := by
  unfold execSlotBodyWrite at h
  split at h
  · next w y judged =>
    obtain ⟨rest, rfl, outside⟩ := Exchange.judged_cases judged
    exact Host.Outcome.next.inj h ▸ .bodyWritten w rest outside
  · exact Host.Outcome.next.inj h ▸ .nothing

theorem execSlotPost_did (h : execSlotPost s = .next t) : s.Did t := by
  unfold execSlotPost at h
  split at h
  · next w n y judged =>
    obtain ⟨rest, rfl, free, lt⟩ := Exchange.judged_cases judged
    exact Host.Outcome.next.inj h ▸ .posted n rest free lt
  · exact Host.Outcome.next.inj h ▸ .nothing

theorem execSlotWithdraw_did (h : execSlotWithdraw s = .next t) : s.Did t := by
  unfold execSlotWithdraw at h
  split at h
  · next w n y judged =>
    obtain ⟨rest, rfl, posted⟩ := Exchange.judged_cases judged
    exact Host.Outcome.next.inj h ▸ .withdrawn n rest posted
  · exact Host.Outcome.next.inj h ▸ .nothing

theorem execSlotReturn_did (h : execSlotReturn s = .next t) : s.Did t := by
  unfold execSlotReturn at h
  split at h
  · next w n y judged =>
    obtain ⟨rest, rfl, answered⟩ := Exchange.judged_cases judged
    exact Host.Outcome.next.inj h ▸ .slotReturned n rest answered
  · exact Host.Outcome.next.inj h ▸ .nothing

theorem execReportPageReturn_did (h : execReportPageReturn s = .next t) : s.Did t := by
  unfold execReportPageReturn at h
  split at h
  · next w p y judged =>
    obtain ⟨rest, rfl, filled⟩ := Exchange.judged_cases judged
    exact Host.Outcome.next.inj h ▸ .pageReturned p rest filled
  · exact Host.Outcome.next.inj h ▸ .nothing

theorem execDroppedWrite_did (h : execDroppedWrite s = .next t) : s.Did t := by
  unfold execDroppedWrite at h
  split at h
  · next w kind seen y judged =>
    obtain ⟨rest, rfl, -⟩ := Exchange.judged_cases judged
    exact Host.Outcome.next.inj h ▸ .of_hosted _ _ _ _ _ _ _ rfl
  · exact Host.Outcome.next.inj h ▸ .nothing

theorem execMirrorWrite_did {m : Mirror} (h : execMirrorWrite m s = .next t) : s.Did t := by
  unfold execMirrorWrite at h
  split at h
  · exact Host.Outcome.next.inj h ▸ .mirrored m
  · exact Host.Outcome.next.inj h ▸ .nothing

theorem execPostingTake_did (h : execPostingTake s = .next t) : s.Did t := by
  by_cases taking : s.ex.intake = .taking
  · cases queue : s.ex.queue with
    | nil =>
      rw [← exec_postingTake, exec_postingTake_nil taking queue] at h
      exact Host.Outcome.next.inj h ▸ .takenNone taking queue
    | cons n rest =>
      rw [← exec_postingTake, exec_postingTake_cons taking queue] at h
      exact Host.Outcome.next.inj h ▸ .taken n rest taking queue
  · unfold execPostingTake at h
    split at h
    · next take _ => exact absurd take taking
    · next take _ => exact absurd take taking
    · exact Host.Outcome.next.inj h ▸ .nothing

/-- A command that is the boundary where its condition holds, and nothing elsewhere. -/
theorem State.boundary_did {c : Prop} [Decidable c] (h : (.next (if c then s.boundary else s) : Host.Outcome State Fault Refusal) = .next t) :
    s.Did t := by
  refine Host.Outcome.next.inj h ▸ ?_
  split
  · exact .boundary
  · exact .nothing

theorem execPageAgeDue_did (h : execPageAgeDue s = .next t) : s.Did t := by
  refine Host.Outcome.next.inj h ▸ ?_
  split_ifs
  · exact .pageClosed
  · exact .boundary
  · exact .nothing

theorem execReferenceRecordAppend_did (h : execReferenceRecordAppend s = .next t) : s.Did t := by
  unfold execReferenceRecordAppend at h
  split at h
  · split at h
    · next holds => exact Host.Outcome.next.inj h ▸ .unit holds (.reference _)
    · exact Host.Outcome.next.inj h ▸ .nothing
  · exact Host.Outcome.next.inj h ▸ .nothing

theorem execLateBuildAppend_did (h : execLateBuildAppend s = .next t) : s.Did t := by
  unfold execLateBuildAppend at h
  split at h
  · split at h
    · next holds => exact Host.Outcome.next.inj h ▸ .unit holds (.lateBuild _)
    · exact Host.Outcome.next.inj h ▸ .nothing
  · exact Host.Outcome.next.inj h ▸ .nothing

theorem execLinkReportAppend_did (h : execLinkReportAppend s = .next t) : s.Did t := by
  unfold execLinkReportAppend at h
  split at h
  · split at h
    · next holds => exact Host.Outcome.next.inj h ▸ .unit holds (.linkReport _)
    · exact Host.Outcome.next.inj h ▸ .nothing
  · exact Host.Outcome.next.inj h ▸ .nothing

theorem execLinkStatusMessage_did {l : Index8} {alarms : Byte} {power : Bool} {position : Nat}
    (h : execLinkStatusMessage l alarms power position s = .next t) : s.Did t := by
  unfold execLinkStatusMessage at h
  simp only at h
  split at h
  · split at h
    · exact Host.Outcome.next.inj h ▸ .observed l _ _ _ _
    · exact Host.Outcome.next.inj h ▸ .nothing
  · exact Host.Outcome.next.inj h ▸ .nothing

theorem execReturnMessage_did {l : Index8} {bits : BitVec 40} (h : execReturnMessage l bits s = .next t) : s.Did t := by
  unfold execReturnMessage at h
  simp only at h
  split_ifs at h
  · exact Host.Outcome.next.inj h ▸ .nothing
  · exact Host.Outcome.next.inj h ▸ .counted l _
  · exact Host.Outcome.next.inj h ▸ .counted l _
  · exact Host.Outcome.next.inj h ▸ .counted l _
  · exact Host.Outcome.next.inj h ▸ .counted l _
  · exact Host.Outcome.next.inj h ▸ .accepted l bits

theorem execSettleEntry_did (h : execSettleEntry s = .next t) : s.Did t := by
  unfold execSettleEntry at h
  split at h
  · next e rest _ =>
    simp only at h
    split_ifs at h with holds current
    · exact Host.Outcome.next.inj h ▸ .unit holds (.settled e rest current.1)
    · exact Host.Outcome.next.inj h ▸ .unit holds (.discarded rest)
    · exact Host.Outcome.next.inj h ▸ .nothing
  · exact Host.Outcome.next.inj h ▸ .nothing

theorem execReturnMessageItem_did (h : execReturnMessageItem s = .next t) : s.Did t := by
  unfold execReturnMessageItem at h
  split at h
  · next e rest _ =>
    split_ifs at h with ready
    · exact Host.Outcome.next.inj h ▸ .unit ready.1 (.returned e rest)
    · exact Host.Outcome.next.inj h ▸ .nothing
  · exact Host.Outcome.next.inj h ▸ .nothing

theorem execDeadlineItem_did (h : execDeadlineItem s = .next t) : s.Did t := by
  unfold execDeadlineItem at h
  split at h
  · next e rest _ =>
    simp only at h
    split_ifs at h with ready awaits
    · exact Host.Outcome.next.inj h ▸ .unit ready.1 (.deadline _ _ _ awaits)
    · exact Host.Outcome.next.inj h ▸ .unit ready.1 (.deadlineGone _ _)
    · exact Host.Outcome.next.inj h ▸ .nothing
  · exact Host.Outcome.next.inj h ▸ .nothing

theorem execSweepVisit_did (h : execSweepVisit s = .next t) : s.Did t := by
  unfold execSweepVisit at h
  simp only at h
  split_ifs at h
  · exact Host.Outcome.next.inj h ▸ .sweepAsked _
  · exact Host.Outcome.next.inj h ▸ .swept
  · exact Host.Outcome.next.inj h ▸ .nothing

theorem execSweepClose_did (h : execSweepClose s = .next t) : s.Did t := by
  unfold execSweepClose at h
  split at h
  · simp only at h
    split_ifs at h with holds expired
    · exact Host.Outcome.next.inj h ▸ .unit holds (.sweepClosed _ _ (of_decide_eq_true expired.2).1)
    · exact Host.Outcome.next.inj h ▸ .unit holds .sweepPassed
    · exact Host.Outcome.next.inj h ▸ .nothing
  · exact Host.Outcome.next.inj h ▸ .nothing

theorem execAirStopClose_did (h : execAirStopClose s = .next t) : s.Did t := by
  unfold execAirStopClose at h
  split at h
  · next i rest head =>
    split at h
    · next holds => exact Host.Outcome.next.inj h ▸ .unit holds (.airStop i rest _ head)
    · exact Host.Outcome.next.inj h ▸ .nothing
  · exact Host.Outcome.next.inj h ▸ .nothing

theorem execRollWalkVisit_did (h : execRollWalkVisit s = .next t) : s.Did t := by
  unfold execRollWalkVisit at h
  simp only at h
  split_ifs at h with ready past few
  · exact Host.Outcome.next.inj h ▸ .walkEnded ready.2 ready.1 past
  · exact Host.Outcome.next.inj h ▸ .unit ready.2 .walk
  · exact Host.Outcome.next.inj h ▸ .walked ready.2 ready.1 (Nat.lt_of_not_le past) (Nat.lt_of_not_le few)
  · exact Host.Outcome.next.inj h ▸ .nothing

/-- A reset, a load or an access of the bus in LOADING. -/
theorem State.loading_did {u : State} (h : (.next (if s.loading then u else s) : Host.Outcome State Fault Refusal) = .next t)
    (acts : s.Did u) : s.Did t := by
  refine Host.Outcome.next.inj h ▸ ?_
  split
  · exact acts
  · exact .nothing

end

/-- Every command comes to one of the cases. -/
theorem exec_did {c : Instr} {s t : State} (h : exec c s = .next t) : s.Did t := by
  cases c with
  | powerOnReset => exact Host.Outcome.next.inj h ▸ .powerOn
  | loadingComplete profile => exact State.loading_did h (.loaded _)
  | loadingAccessRetry => exact State.loading_did h (s.reply_did _)
  | engineReset data enables => exact execEngineReset_did h
  | secondBoundary => exact Host.Outcome.next.inj h ▸ .boundary
  | frameMark => exact State.boundary_did h
  | holdoverLimitExpiry => exact State.boundary_did h
  | referencePulse time => exact Host.Outcome.next.inj h ▸ .monitored _ (.inl ⟨time, rfl⟩)
  | windowExpiry => exact Host.Outcome.next.inj h ▸ .monitored _ (.inr rfl)
  | referenceRecordAppend => exact execReferenceRecordAppend_did h
  | hostWindowRead offset => exact execHostWindowRead_did h
  | hostWindowWrite offset data enables => exact execHostWindowWrite_did h
  | slotBodyWrite => exact execSlotBodyWrite_did h
  | slotPost => exact execSlotPost_did h
  | slotWithdraw => exact execSlotWithdraw_did h
  | slotReturn => exact execSlotReturn_did h
  | reportPageReturn => exact execReportPageReturn_did h
  | droppedWrite => exact execDroppedWrite_did h
  | mirrorWrite mirror => exact execMirrorWrite_did h
  | storeBurstGrant encoder requests => exact execStoreBurstGrant_did h
  | clearAnswers data enables => exact State.clearing_did (Host.Outcome.next.inj h)
  | clearPageClosed data enables => exact State.clearing_did (Host.Outcome.next.inj h)
  | clearFence data enables => exact State.clearing_did (Host.Outcome.next.inj h)
  | clearLink data enables => exact State.clearing_did (Host.Outcome.next.inj h)
  | clearReference data enables => exact State.clearing_did (Host.Outcome.next.inj h)
  | clearEngine data enables => exact State.clearing_did (Host.Outcome.next.inj h)
  | eventEnableWrite data enables =>
    exact State.registerWrite_did (Host.Outcome.next.inj h) (.of_hosted _ _ _ _ _ _ _ rfl)
  | registerWriteIgnored offset data enables => exact execRegisterWriteIgnored_did (data := data) (enables := enables) h
  | postingTake => exact execPostingTake_did h
  | message => exact execMessage_did h
  | provision => exact State.order_did h (by decide) s.provision_ordered
  | amend => exact State.order_did h (by decide) s.amend_ordered
  | bar => exact State.order_did h (by decide) fun p => s.setBarred_ordered p (by decide)
  | unbar => exact State.order_did h (by decide) fun p => s.setBarred_ordered p (by decide)
  | retire => exact State.order_did h (by decide) s.retire_ordered
  | querySubscriber => exact execQuerySubscriber_did h
  | credit => exact State.order_did h (by decide) s.credit_ordered
  | setPlan => exact State.order_did h (by decide) s.setPlan_ordered
  | periodClose => exact State.order_did h (by decide) fun _ => s.periodClose_ordered
  | cancel => exact State.order_did h (by decide) fun p => s.withHandle_ordered p fun _ => s.cancelRecord_ordered
  | queryMessage =>
    exact State.order_did h (by decide) fun p => s.withHandle_ordered p fun _ _ => .refused _ _
  | release => exact State.order_did h (by decide) s.release_ordered
  | clockSet => exact State.order_did h (by decide) fun p => (State.Ordered.clocked _ _).answers _ _
  | setOffice =>
    exact State.order_did h (by decide) fun p => s.inSetup_ordered fun _ => (State.Ordered.settings _ _).answers _ _
  | setClass =>
    exact State.order_did h (by decide) fun p => s.inSetup_ordered fun _ => (State.Ordered.settings _ _).answers _ _
  | setLink => exact State.order_did h (by decide) fun p => s.inSetup_ordered fun setup => s.setLinkSettings_ordered setup p
  | setReceiver =>
    exact State.order_did h (by decide) fun p => s.inSetup_ordered fun _ => (State.Ordered.receiving p.link _).answers _ _
  | airStart => exact State.order_did h (by decide) fun _ => s.airStart_ordered
  | airStop => exact State.order_did h (by decide) fun _ => s.airStop_ordered
  | linkEnable => exact State.order_did h (by decide) fun p => s.linkOrder_ordered p.link _ (Link.enable_keying _)
  | linkDisable => exact State.order_did h (by decide) fun p => s.linkOrder_ordered p.link _ (Link.disable_keying _)
  | keyOff => exact State.order_did h (by decide) fun p => s.linkOrder_ordered p.link _ (Link.keyOff_keying _ _ _)
  | keyRestore => exact State.order_did h (by decide) fun p => s.linkOrder_ordered p.link _ (Link.keyRestore_keying _)
  | linkRestore => exact State.order_did h (by decide) fun p => s.linkOrder_ordered p.link _ (Link.restore_keying _)
  | queryLink => exact State.order_did h (by decide) fun _ => .refused _ _
  | queryReceiver => exact State.order_did h (by decide) fun _ => .refused _ _
  | unknownOrder => exact execUnknownOrder_did h
  | buildCandidate => exact .built h
  | lateBuildAppend => exact execLateBuildAppend_did h
  | skipFrame link => exact State.boundary_did h
  | cleanRunComplete link => exact State.boundary_did h
  | linkStatusMessage link alarms power position => exact execLinkStatusMessage_did h
  | linkReportAppend => exact execLinkReportAppend_did h
  | linkStatusOffer link => exact State.boundary_did h
  | returnMessage receiver bits => exact execReturnMessage_did h
  | settleEntry => exact execSettleEntry_did h
  | returnMessageItem => exact execReturnMessageItem_did h
  | deadlineItem => exact execDeadlineItem_did h
  | expirySweepStart => exact State.boundary_did h
  | sweepVisit => exact execSweepVisit_did h
  | sweepClose => exact execSweepClose_did h
  | airStopClose => exact execAirStopClose_did h
  | rollWalkVisit => exact execRollWalkVisit_did h
  | pageAgeDue => exact execPageAgeDue_did h

/-- What every case makes of a law that does not speak of the queue of commands, every step makes of it. -/
theorem step_reaches {pre post : State → Prop} (queue : ∀ s rest, pre s → pre { s with pending := rest })
    (did : ∀ s t, pre s → s.Did t → post t) {s t : State} (h : pre s) (run : step s = .next t) : post t := by
  unfold step at run
  split at run
  · exact did _ t (queue s _ h) (exec_did run)
  · obtain rfl := Host.Outcome.next.inj run
    exact did _ _ h .nothing

/-- A law that does not speak of the queue of commands, and that every case keeps, is kept by every step. -/
theorem step_keeps {law : State → Prop} (queue : ∀ s rest, law s → law { s with pending := rest })
    (did : ∀ s t, law s → s.Did t → law t) {s t : State} (h : law s) (run : step s = .next t) : law t :=
  step_reaches (pre := law) (post := law) queue did h run

end Sys2Proof.Machine
end

section
/-! SUPPORT. What the operations on subscribers, messages and reports are made of, and what each part of them does to the
exchange: the laws of the window guard and of the report writer follow from the parts. -/

namespace Sys2Proof.Machine

/-! ## The intake unit's seat (R83) -/

/-- Work at the report writer that leaves the intake unit its reservation, and sends it to its take with one alone (R83). -/
structure Exchange.Seats (x y : Exchange) : Prop where
  holds : x.writer.holds .intake = true → y.writer.holds .intake = true
  taking : y.intake = .taking → x.intake = .taking ∨ y.writer.holds .intake = true

theorem Exchange.Seats.same {x y : Exchange} (held : y.writer.held = x.writer.held) (intake : y.intake = x.intake) :
    x.Seats y := by
  refine ⟨fun h => ?_, fun h => .inl (intake ▸ h)⟩
  rw [Writer.holds, held]
  exact h

theorem Exchange.Seats.trans {x y z : Exchange} (h : x.Seats y) (k : y.Seats z) : x.Seats z :=
  ⟨fun e => k.holds (h.holds e), fun e => (k.taking e).elim (fun m => (h.taking m).imp id k.holds) .inr⟩

theorem Exchange.closeIfDue_seats (x : Exchange) (st : Stamp) : x.Seats (x.closeIfDue st) :=
  .same (x.closeIfDue_asks st).1 (x.closeIfDue_intake st)

theorem Exchange.append_held (x : Exchange) (st : Stamp) (r : Record) : (x.append st r).writer.held = x.writer.held := by
  have opened : x.ensureOpen.writer.held = x.writer.held := by
    unfold Exchange.ensureOpen
    split <;> rfl
  rw [Exchange.append_eq]
  split
  · exact ((x.ensureOpen.recorded r).closePage_asks st .count).1.trans opened
  · exact opened

theorem Exchange.hand_seats (x : Exchange) (st : Stamp) (p : Producer) (r : Record) : x.Seats (x.hand st p r) := by
  have used : x.Seats { x with writer := x.writer.use p } := ⟨fun h => by rw [Writer.holds_use]; exact h, .inl⟩
  have appended : Exchange.Seats { x with writer := x.writer.use p } (Exchange.append { x with writer := x.writer.use p } st r) :=
    .same (Exchange.append_held _ st r) (Exchange.append_intake _ st r)
  exact (used.trans appended).trans (Exchange.closeIfDue_seats _ st)

theorem Exchange.judgeOne_seats (x : Exchange) (p : Producer) : x.Seats (x.judgeOne p) := by
  unfold Exchange.judgeOne
  split
  · refine ⟨fun h => by simp [Exchange.grant, Writer.holds] at h ⊢; exact .inl h, fun h => ?_⟩
    by_cases e : p = .intake
    · exact .inr (by simp [Exchange.grant, Writer.holds, e])
    · exact .inl (by simpa [Exchange.grant, e] using h)
  · exact .same rfl rfl

theorem Exchange.judge_seats (x : Exchange) : x.Seats x.judge := by
  unfold Exchange.judge
  generalize x.writer.judgeOrder = order
  induction order generalizing x with
  | nil => exact .same rfl rfl
  | cons p rest ih => exact (x.judgeOne_seats p).trans (ih _)

theorem Exchange.request_seats (x : Exchange) (p : Producer) : x.Seats (x.request p) := by
  unfold Exchange.request
  split
  · exact .same rfl rfl
  · exact .trans (y := { x with writer.waiting := x.writer.waiting ++ [p] }) (.same rfl rfl) (Exchange.judge_seats _)

theorem Exchange.roomRose_seats (x : Exchange) (st : Stamp) : x.Seats (x.roomRose st) := by
  have next : x.Seats { x with choices := x.choices + 1 } := .same rfl rfl
  unfold Exchange.roomRose
  split
  · simp only
    split
    · exact (next.trans (Exchange.closeIfDue_seats _ st)).trans (Exchange.judge_seats _)
    · exact (next.trans (Exchange.judge_seats _)).trans (Exchange.closeIfDue_seats _ st)
  · exact (x.closeIfDue_seats st).trans (Exchange.judge_seats _)

/-- Another producer's return leaves the intake unit its reservation. -/
theorem Exchange.giveBack_seats (x : Exchange) (st : Stamp) {p : Producer} (ne : p ≠ .intake) : x.Seats (x.giveBack st p) := by
  refine .trans (y := { x with writer.held := x.writer.held.filter fun h => decide (h.1 ≠ p) })
    ⟨fun h => ?_, .inl⟩ (Exchange.roomRose_seats _ st)
  obtain ⟨k, held⟩ := Writer.holds_iff.mp h
  exact Writer.holds_iff.mpr ⟨k, List.mem_filter.mpr ⟨held, decide_eq_true ne.symm⟩⟩

theorem Exchange.ageStep_seats (x : Exchange) (st : Stamp) (flush : Nat) : x.Seats (x.ageStep st flush) := by
  unfold Exchange.ageStep
  split
  · exact .trans (y := { x with writer := { x.writer with
      age := saturate 30 x.writer.age 1, due := x.writer.due || decide (flush ≤ saturate 30 x.writer.age 1) } })
      (.same rfl rfl) (Exchange.closeIfDue_seats _ st)
  · exact .same rfl rfl

theorem Exchange.returnPage_seats (x : Exchange) (st : Stamp) (p : Index8) : x.Seats (x.returnPage st p) :=
  .trans (y := { x with writer.pages := x.writer.pages.set p.val .empty p.isLt }) (.same rfl rfl)
    (Exchange.roomRose_seats _ st)

/-! ## Work at the report writer -/

/-- Work at the report writer that leaves the intake unit its seat. -/
structure Exchange.Works (x y : Exchange) : Prop where
  reported : x.Reported y
  seats : x.Seats y

theorem Exchange.Works.refl (x : Exchange) : x.Works x := ⟨.refl x, .same rfl rfl⟩

theorem Exchange.Works.trans {x y z : Exchange} (h : x.Works y) (k : y.Works z) : x.Works z :=
  ⟨h.reported.trans k.reported, h.seats.trans k.seats⟩

theorem Exchange.notice_works (x : Exchange) (m : Mirror) : x.Works (x.notice m) := ⟨x.notice_reported m, .same rfl rfl⟩

section
variable (s : State)

theorem State.hand_works (p : Producer) (r : Record) : s.ex.Works (s.hand p r).ex :=
  ⟨s.hand_reported p r, s.ex.hand_seats s.stamp p r⟩

theorem State.ask_works (p : Producer) : s.ex.Works (s.ask p).ex := by
  refine ⟨s.ask_reported p, ?_⟩
  unfold State.ask
  split
  · exact s.ex.request_seats p
  · exact .same rfl rfl

theorem State.endUnit_works {p : Producer} (ne : p ≠ .intake) : s.ex.Works (s.endUnit p).ex :=
  .trans (y := (s.giveBack p).ex) ⟨s.giveBack_reported p, s.ex.giveBack_seats s.stamp ne⟩ ((s.giveBack p).ask_works p)

theorem State.offerStatus_works (l : Index8) : s.ex.Works (s.offerStatus l).ex := by
  unfold State.offerStatus
  split
  · refine .trans (y := s.ex.append s.stamp _) ⟨s.ex.append_reported _ _, ?_⟩
      ⟨Exchange.closeIfDue_reported _ s.stamp, Exchange.closeIfDue_seats _ s.stamp⟩
    exact .same (s.ex.append_held _ _) (s.ex.append_intake _ _)
  · exact .refl _

theorem State.takeItem_works (i : ReportItem) : s.ex.Works (s.takeItem i).ex := by
  cases i with
  | age => exact ⟨s.ex.ageStep_reported _ _, s.ex.ageStep_seats _ _⟩
  | ask p => exact s.ask_works p
  | offer l => exact s.offerStatus_works l

end

/-! ## The parts of an operation -/

/-- The parts of an operation on subscribers, messages and reports: a record handed under `p`'s reservation, a message record
or a group of a subscriber written, a mirror notice given, or a change of what the laws below do not speak of. A billing group
written keeps its state, and its period number unless it takes the office period (R57). -/
inductive State.Acts (p : Producer) (s : State) : State → Prop where
  | refl : s.Acts p s
  | hand {t : State} (h : s.Acts p t) (r : Record) : s.Acts p (t.hand p r)
  | message {t : State} (h : s.Acts p t) (i : Nat) (r : MessageRecord) : s.Acts p (t.setMsg i r)
  | reach {t : State} (h : s.Acts p t) (n : Nat) (r : Reach) : s.Acts p (t.setReach n r)
  | group {t : State} (h : s.Acts p t) (n : Nat) (g : StoreGroup) : s.Acts p (t.setStoreGroup n g)
  | billing {t : State} (h : s.Acts p t) (n : Nat) (b : Billing) (state : b.state = (t.sub n).billing.state)
      (period : b.period = (t.sub n).billing.period ∨ b.period = t.account.period) : s.Acts p (t.setBilling n b)
  | notice {t : State} (h : s.Acts p t) (m : Mirror) : s.Acts p (t.notice m)
  | aside {t u : State} (h : s.Acts p t) (records : u.store.records = t.store.records)
      (subscribers : u.account.subscribers = t.account.subscribers) (period : u.account.period = t.account.period)
      (flies : u.account.walk.inFlight = t.account.walk.inFlight) (next : u.account.walk.next = t.account.walk.next)
      (ex : u.ex = t.ex) : s.Acts p u

section
variable {p : Producer} {s t u : State}

theorem State.Acts.trans (h : s.Acts p t) (k : t.Acts p u) : s.Acts p u := by
  induction k with
  | refl => exact h
  | hand _ r ih => exact ih.hand r
  | message _ i r ih => exact ih.message i r
  | reach _ n r ih => exact ih.reach n r
  | group _ n g ih => exact ih.group n g
  | billing _ n b state period ih => exact ih.billing n b state period
  | notice _ m ih => exact ih.notice m
  | aside _ records subscribers period flies next ex ih => exact ih.aside records subscribers period flies next ex

/-- The parts of an operation done for each of a list. -/
theorem State.Acts.foldl {β : Type} {f : State → β → State} (each : ∀ (t : State) x, t.Acts p (f t x)) (xs : List β) (s : State) :
    s.Acts p (xs.foldl f s) := by
  induction xs generalizing s with
  | nil => exact .refl
  | cons x rest ih => exact (each s x).trans (ih (f s x))

theorem State.Acts.works (h : s.Acts p t) : s.ex.Works t.ex := by
  induction h with
  | refl => exact .refl _
  | hand _ r ih => exact ih.trans (State.hand_works _ p r)
  | message _ _ _ ih => exact ih
  | reach _ _ _ ih => exact ih
  | group _ _ _ ih => exact ih
  | billing _ _ _ _ _ ih => exact ih
  | notice _ m ih => exact ih.trans (Exchange.notice_works _ m)
  | aside _ _ _ _ _ _ ex ih => exact ex ▸ ih

theorem State.Acts.canon (h : s.Acts p t) (c : s.Canon) : t.Canon := by
  induction h with
  | refl => exact c
  | hand _ _ ih => exact ⟨ih.subscribers, ih.records⟩
  | message _ i r ih => exact ih.setMsg i r
  | reach _ n r ih => exact ih.setSub n _
  | group _ n g ih => exact ih.setSub n _
  | billing _ n b _ _ ih => exact ih.setSub n _
  | notice _ _ ih => exact ⟨ih.subscribers, ih.records⟩
  | aside _ records subscribers _ _ _ _ ih => exact ⟨subscribers ▸ ih.subscribers, records ▸ ih.records⟩

/-! ## What each operation is made of -/

theorem State.setLow_acts (n : Nat) : s.Acts p (s.setLow n) := State.Acts.refl.billing n _ rfl (.inl rfl)

theorem State.judgeLow_acts (n : Nat) (e : BalanceEvent) : s.Acts p (s.judgeLow p n e) := by
  unfold State.judgeLow
  simp only
  split
  · exact State.setLow_acts n
  · exact (State.setLow_acts n).hand _

theorem State.roll_acts (n : Nat) (source : SummarySource) : s.Acts p (s.roll p n source) :=
  (State.Acts.refl.hand _).billing n _ rfl (.inr rfl)

theorem State.rollIfStale_acts (n : Nat) : s.Acts .intake (s.rollIfStale n) := by
  unfold State.rollIfStale
  split
  · exact State.roll_acts n .intake
  · exact .refl

theorem State.refund_acts (i : Nat) (r : MessageRecord) (o : CloseOutcome) : s.Acts p (s.refund p i r o) := by
  refine .trans (.hand ?_ _) (State.judgeLow_acts _ _)
  exact .billing .refl _ _ rfl (.inl rfl)

theorem State.applyCredit_acts (n : Nat) (amount : Int) : s.Acts .intake (s.applyCredit n amount) := by
  refine .trans (.hand ?_ _) (State.judgeLow_acts _ _)
  exact .billing .refl _ _ rfl (.inl rfl)

theorem State.walkVisit_acts : s.Acts .rollWalk s.walkVisit := by
  unfold State.walkVisit
  simp only
  split
  · exact (State.roll_acts _ _).aside rfl rfl rfl rfl rfl rfl
  · exact .refl

theorem State.leaveCollections_acts (i : Nat) : s.Acts p (s.leaveCollections i) := by
  rw [State.leaveCollections_eq]
  exact State.Acts.refl.aside rfl rfl rfl rfl rfl rfl

theorem State.freeRecord_acts (i : Nat) : s.Acts p (s.freeRecord i) := by
  refine .notice ?_ .freeRecords
  exact .aside (.group (.message (State.leaveCollections_acts i) i (s.msg i).freed) (s.msg i).subscriber _)
    rfl rfl rfl rfl rfl rfl

theorem State.close_acts (i : Nat) (o : CloseOutcome) : s.Acts p (s.close p i o) := by
  unfold State.close
  simp only
  split
  · exact ((State.freeRecord_acts i).hand _).trans (State.refund_acts _ _ _)
  · exact (State.freeRecord_acts i).hand _

theorem State.enlist_acts (i : Nat) : s.Acts p (s.enlist i) := State.Acts.refl.aside rfl rfl rfl rfl rfl rfl

theorem State.delist_acts (i : Nat) : s.Acts p (s.delist i) := State.Acts.refl.aside rfl rfl rfl rfl rfl rfl

theorem State.dropDeadline_acts (i : Nat) : s.Acts p (s.dropDeadline i) := State.Acts.refl.aside rfl rfl rfl rfl rfl rfl

theorem State.makeWaiting_acts (i : Nat) (r : MessageRecord) : s.Acts p (s.makeWaiting i r) :=
  (State.Acts.refl.message i _).trans (State.enlist_acts i)

theorem State.makeHeld_acts (i : Nat) (r : MessageRecord) : s.Acts p (s.makeHeld i r) := State.Acts.refl.message i _

theorem State.makeAwaiting_acts (i : Nat) (r : MessageRecord) (d : Nat) : s.Acts p (s.makeAwaiting i r d) :=
  (State.Acts.refl.message i _).aside rfl rfl rfl rfl rfl rfl

theorem State.holdAll_acts (n : Nat) : s.Acts p (s.holdAll n).1 :=
  State.Acts.foldl (fun _ i => (State.delist_acts i).trans (State.makeHeld_acts i _)) _ s

theorem State.releaseAll_acts (n : Nat) : s.Acts p (s.releaseAll n).1 :=
  (State.Acts.refl.reach n _).trans (State.Acts.foldl (fun _ i => State.makeWaiting_acts i _) _ _)

theorem State.returnPlaced_acts (m : Nat) : s.Acts p (s.returnPlaced m) := by
  refine State.Acts.foldl (fun t i => ?_) _ s
  unfold State.returnOne
  simp only
  split_ifs
  · exact State.Acts.refl.aside rfl rfl rfl rfl rfl rfl
  · exact State.makeHeld_acts i _
  · exact State.makeWaiting_acts i _

theorem State.moveSlot_acts (n : Nat) (slot : Fin 32) : s.Acts p (s.moveSlot n slot) := by
  refine .trans ?_ (State.Acts.foldl (fun _ i => State.enlist_acts i) _ _)
  exact (State.Acts.foldl (fun _ i => State.delist_acts i) _ s).billing n _ rfl (.inl rfl)

theorem State.applyAmend_acts (n : Nat) (q : Posting) : s.Acts .intake (s.applyAmend n q) := by
  have fields := (State.rollIfStale_acts (s := s) n).billing n (amendBilling q ((s.rollIfStale n).sub n).billing) rfl (.inl rfl)
  unfold State.applyAmend
  simp only
  split
  · exact fields
  · exact fields.trans (State.moveSlot_acts n _)

theorem State.place_acts (serial i : Nat) (tag : Option (Fin 8)) (targets : ZoneSet) : s.Acts p (s.place serial i tag targets) :=
  (((State.delist_acts i).message i _).group _ _).aside rfl rfl rfl rfl rfl rfl

theorem State.commit_acts (d : Draft) (charge : Nat) (refundable : Bool) : s.Acts p (s.commit d charge refundable) := by
  have occupied := ((State.Acts.refl (p := p) (s := s)).group d.subscriber
    { (s.sub d.subscriber).store with openCount := (s.sub d.subscriber).store.openCount + 1 })
  unfold State.commit
  simp only
  split
  · refine .trans (.notice ?_ _) (State.makeHeld_acts _ _)
    exact occupied.aside rfl rfl rfl rfl rfl rfl
  · refine .trans (.notice ?_ _) (State.makeWaiting_acts _ _)
    exact occupied.aside rfl rfl rfl rfl rfl rfl

theorem State.charged_acts (d : Draft) : s.Acts p (s.charged d) := by
  have applied : s.Acts p (s.applyCharge d.subscriber (s.rating d)) := State.Acts.refl.billing d.subscriber _ rfl (.inl rfl)
  unfold State.charged
  simp only
  split
  · exact applied.trans (State.setLow_acts _)
  · exact applied

theorem State.settleRecord_acts (e : SettleEntry) (r : MessageRecord) : s.Acts .tracker (s.settleRecord e r) := by
  unfold State.settleRecord
  simp only
  split_ifs
  · exact State.close_acts _ _
  · exact State.close_acts _ _
  · exact State.close_acts _ _
  · exact State.makeHeld_acts _ _
  · exact State.makeWaiting_acts _ _
  · exact State.makeAwaiting_acts _ _ _
  · exact (State.Acts.refl.message _ _).trans (State.close_acts _ _)
  · exact State.makeHeld_acts _ _
  · exact State.makeWaiting_acts _ _

theorem State.heard_acts (n : Nat) (e : ReverseEntry) : s.Acts .tracker (s.heard n e) := by
  have missed := (State.Acts.refl (p := .tracker) (s := s)).reach n { (s.sub n).reach with missCount := 0 }
  unfold State.heard
  simp only
  split_ifs
  · exact (((missed.trans (State.releaseAll_acts n)).hand _).reach n _).hand _
  · exact ((missed.trans (State.releaseAll_acts n)).hand _).reach n _
  · exact (missed.reach n _).hand _
  · exact missed.reach n _

theorem State.matchAck_acts (n : Nat) (e : ReverseEntry) : s.Acts .tracker (s.matchAck n e) := by
  unfold State.matchAck
  split
  · exact State.Acts.refl.hand _
  · simp only
    split
    · exact State.Acts.refl.message _ _
    · exact State.close_acts _ _

theorem State.processReturn_acts (e : ReverseEntry) : s.Acts .tracker (s.processReturn e) := by
  unfold State.processReturn
  simp only
  split_ifs
  · exact State.Acts.refl.hand _
  · exact .refl
  · exact (State.matchAck_acts _ _).trans (State.heard_acts _ _)
  · exact State.heard_acts _ _

theorem State.missLatch_acts (n : Nat) : s.Acts .tracker (s.missLatch n) := by
  unfold State.missLatch
  simp only
  split
  · exact ((State.Acts.refl.reach n _).trans (State.holdAll_acts n)).hand _
  · exact State.Acts.refl.reach n _

theorem State.deadlineFate_acts (i d : Nat) : s.Acts .tracker (s.deadlineFate i d) := by
  unfold State.deadlineFate
  simp only
  split_ifs
  · exact State.close_acts _ _
  · exact State.close_acts _ _
  · exact (State.dropDeadline_acts i).trans (State.makeHeld_acts _ _)
  · exact (State.dropDeadline_acts i).trans (State.makeWaiting_acts _ _)

theorem State.appendLinkReport_acts (l : Index8) : s.Acts .linkUnit (s.appendLinkReport l) := by
  unfold State.appendLinkReport
  simp only
  split
  · split
    · exact (State.Acts.refl.hand _).aside rfl rfl rfl rfl rfl rfl
    · exact .refl
  · split
    · exact (State.Acts.refl.hand _).aside rfl rfl rfl rfl rfl rfl
    · exact .refl

/-- An act of the builder writes its own state, or places a candidate (R123). -/
theorem State.built_acts (h : execBuildCandidate s = .next t) : s.Acts .builder t := by
  obtain same | ⟨b, c, targets, tag, -, -, -, -, rfl⟩ := execBuildCandidate_cases h
  · exact same ▸ State.Acts.refl.aside rfl rfl rfl rfl rfl rfl
  · refine .trans (t := s.setBuild { b with candidate := none }) ?_ (State.place_acts _ _ _ _)
    exact State.Acts.refl.aside rfl rfl rfl rfl rfl rfl

end

end Sys2Proof.Machine
end

section
/-! SUPPORT. A second boundary in two parts: what the blocks do, which at the exchange gives notices and sets event bits
alone, and the work at the report writer. -/

namespace Sys2Proof.Machine

/-- A change of the exchange in mirror notices, event bits and the counter of free values alone. -/
def Exchange.Signals (x y : Exchange) : Prop :=
  y = { x with notices := y.notices, summary := y.summary, choices := y.choices }

theorem Exchange.Signals.trans {x y z : Exchange} (h : x.Signals y) (k : y.Signals z) : x.Signals z := by
  unfold Exchange.Signals at *
  rw [h] at k
  exact k

section
variable (s : State)

theorem State.setMonitor_signals (m : Monitor) : s.ex.Signals (s.setMonitor m).ex := rfl

theorem State.airSteps_signals (mark : Bool) : s.ex.Signals (s.airSteps mark).ex := by
  refine .trans (y := (s.tick mark).ex) ?_ ((s.tick mark).setMonitor_signals _)
  unfold State.tick
  simp only
  split <;> rfl

theorem State.linksTakeMark_signals : s.ex.Signals s.linksTakeMark.ex := rfl

theorem State.beginFrame_signals (m : Nat) (lit : Nat → ZoneSet) : s.ex.Signals (s.beginFrame m lit).ex := by
  unfold State.beginFrame
  simp only [State.startSweep_ex, State.buildDue_ex, State.cutBuild_ex]
  rfl

theorem State.endStopping_signals (m : Nat) : s.ex.Signals (s.endStopping m).ex := by
  unfold State.endStopping
  have bit : ∀ t : State, t.ex.Signals t.setEngineBit.ex := fun _ => rfl
  rw [State.startSweep_ex]
  refine .trans ?_ (bit _)
  simp only [State.emptyPages, State.stopBuild, State.returnPlaced_ex, State.cutBuild_ex]
  rfl

theorem State.takeMark_signals : s.ex.Signals s.takeMark.ex := by
  have marked : s.ex.Signals s.handReport.linksTakeMark.ex := by
    have same := s.handReport.linksTakeMark_signals
    rwa [State.handReport_ex] at same
  unfold State.takeMark
  simp only
  split
  · exact marked.trans (State.beginFrame_signals _ _ _)
  · exact marked.trans (State.endStopping_signals _ _)

end

/-- The state of a second boundary once every block has done its part and before the report writer has its work (R1, R4). -/
def State.beforeReports (s : State) : State :=
  if s.markDue then (s.airSteps true).takeMark
  else if s.air.monitor.state = .holdover ∧ (s.airSteps false).air.monitor.state = .lost then (s.airSteps false).endKeying
  else s.airSteps false

theorem State.boundary_eq (s : State) :
    s.boundary = s.beforeReports.reportSteps (if s.markDue then s.offering else []) := by
  unfold State.boundary State.beforeReports
  cases mark : s.markDue with
  | true => rfl
  | false =>
    simp only [Bool.false_eq_true, if_false, decide_eq_true_eq]

theorem State.beforeReports_signals (s : State) : s.ex.Signals s.beforeReports.ex := by
  unfold State.beforeReports
  split_ifs
  · exact (s.airSteps_signals true).trans (State.takeMark_signals _)
  · have same := s.airSteps_signals false
    rwa [← State.endKeying_ex] at same
  · exact s.airSteps_signals false

/-- What every piece of work at the report writer keeps, the work of a boundary keeps. -/
theorem State.reportSteps_keeps {law : State → Prop} {s : State} (choices : ∀ n, law s → law { s with ex := { s.ex with choices := n } })
    (offers : List Index8) (item : ∀ (t : State) i, i ≠ .ask .intake → law t → law (t.takeItem i)) (h : law s) :
    law (s.reportSteps offers) := by
  have others : ∀ i, i ∈ arrange s.ex.choices (s.reportItems offers).length (s.reportItems offers) → i ≠ .ask .intake := by
    rintro i listed rfl
    replace listed := (arrange_perm _ _).mem_iff.mp listed
    unfold State.reportItems State.askers at listed
    simp only [List.mem_append, List.mem_map, List.mem_filter] at listed
    obtain (age | ⟨p, ⟨asks, -⟩, same⟩) | ⟨l, -, same⟩ := listed
    · split at age
      · simp at age
      · simp at age
    · simp at same
      simp [same] at asks
    · simp at same
  unfold State.reportSteps
  simp only
  have counted := choices (s.ex.choices + (s.reportItems offers).length) h
  revert counted others
  generalize ({ s with ex := { s.ex with choices := s.ex.choices + (s.reportItems offers).length } } : State) = t
  generalize arrange s.ex.choices (s.reportItems offers).length (s.reportItems offers) = items
  intro others counted
  induction items generalizing t with
  | nil => exact counted
  | cons i rest ih =>
    exact ih _ (fun j listed => others j (List.mem_cons_of_mem _ listed)) (item t i (others i List.mem_cons_self) counted)

/-! ## The units of work -/

theorem State.walkStep_works (s : State) : s.ex.Works s.walkStep.ex := (State.walkVisit_acts (s := s)).works

theorem State.walkEnd_works (s : State) : s.ex.Works s.walkEnd.ex := by
  refine (s.hand_works .rollWalk _).trans ⟨Exchange.giveBack_reported _ _ .rollWalk, Exchange.giveBack_seats _ _ ?_⟩
  decide

section
variable {s u : State} {p : Producer}

/-- A producer that does units of work is not the intake unit. -/
theorem State.Worked.producer (h : s.Worked p u) : p ≠ .intake := by
  cases h <;> decide

/-- A unit of work is an operation's parts, or a visit of the roll walk. -/
theorem State.Worked.acts (h : s.Worked p u) : s.Acts p u ∨ (p = .rollWalk ∧ u = s.walkStep) := by
  cases h with
  | reference r => exact .inl ((State.Acts.refl.hand r).aside rfl rfl rfl rfl rfl rfl)
  | lateBuild r => exact .inl ((State.Acts.refl.hand r).aside rfl rfl rfl rfl rfl rfl)
  | linkReport l => exact .inl (State.appendLinkReport_acts l)
  | settled e rest _ =>
    exact .inl (.trans (t := s.takeSettle rest) (.aside .refl rfl rfl rfl rfl rfl rfl) (State.settleRecord_acts _ _))
  | discarded rest => exact .inl (.aside .refl rfl rfl rfl rfl rfl rfl)
  | returned e rest =>
    refine .inl (.trans ?_ (State.processReturn_acts e))
    exact .aside .refl rfl rfl rfl rfl rfl rfl
  | deadline n i d _ => exact .inl ((State.missLatch_acts n).trans (State.deadlineFate_acts i d))
  | deadlineGone n i => exact .inl ((State.missLatch_acts n).trans (State.dropDeadline_acts i))
  | sweepPassed => exact .inl (.aside .refl rfl rfl rfl rfl rfl rfl)
  | sweepClosed i w _ => exact .inl ((State.close_acts i _).aside rfl rfl rfl rfl rfl rfl)
  | airStop i rest o _ => exact .inl ((State.close_acts i o).aside rfl rfl rfl rfl rfl rfl)
  | walk => exact .inr ⟨rfl, rfl⟩

theorem State.Worked.canon_works (h : s.Worked p u) : (s.Canon → u.Canon) ∧ s.ex.Works u.ex := by
  obtain acts | ⟨-, rfl⟩ := h.acts
  · exact ⟨acts.canon, acts.works⟩
  · have visit := State.walkVisit_acts (s := s)
    exact ⟨fun c => ⟨(visit.canon c).subscribers, (visit.canon c).records⟩, visit.works⟩

end

end Sys2Proof.Machine
end

section
/-! Every step keeps the canonical form of the model's data (O3). -/

namespace Sys2Proof.Machine

/-! ## The resets and the load -/

/-- Every block where a load leaves it, before a pending REFERENCE report asks for room (R177). -/
def State.loadedBlocks (s : State) (profile : Option Profile) : State :=
  { s with
    engine := s.engine.loaded profile
    account := Account.powerOn
    store := MessageStore.powerOn
    builder := Builder.reset
    links := Vector.ofFn fun l => Link.reset (LinkSettings.powerOn (loadedZone profile l))
    frame := none
    tracker := ⟨Vector.ofFn fun l => Receiver.powerOn (loadedReceiverZone profile l), [], [], []⟩
    ex := s.ex.loaded }

theorem State.load_eq (s : State) (profile : Option Profile) : s.load profile = (s.loadedBlocks profile).ask .monitor := rfl

theorem State.loadedBlocks_ex (s : State) (profile : Option Profile) : (s.loadedBlocks profile).ex = s.ex.loaded := by
  simp only [State.loadedBlocks]

/-- Every block where an engine reset leaves it, before the roll walk and a REFERENCE report ask for room (R182). -/
def State.resetBlocks (s : State) : State :=
  { s with
    engine := s.engine.engineReset
    air := s.air.engineReset
    account := s.account.engineReset
    store := s.store.engineReset
    builder := Builder.reset
    links := Vector.ofFn fun l => Link.reset (s.link l).settings
    frame := none
    tracker := s.tracker.engineReset
    arbiter := s.arbiter.engineReset
    ex := s.ex.engineReset }

theorem State.engineReset_eq (s : State) : s.engineReset = (s.resetBlocks.ask .rollWalk).ask .monitor := rfl

theorem State.resetBlocks_ex (s : State) : s.resetBlocks.ex = s.ex.engineReset := by
  simp only [State.resetBlocks]

theorem Exchange.loaded_mem (x : Exchange) : x.loaded.mem = resetBytes x.mem := by
  simp only [Exchange.loaded]

theorem Exchange.loaded_writer (x : Exchange) : x.loaded.writer = Writer.reset := by
  simp only [Exchange.loaded, Exchange.powerOn]

theorem Exchange.loaded_progress (x : Exchange) : x.loaded.progress = .begun := by
  simp only [Exchange.loaded, Exchange.powerOn]

/-! ## The two halves of the canonical form -/

/-- The canonical form of the window's bytes and the slot map. -/
structure Exchange.Neat (x : Exchange) : Prop where
  mem : Memory.wf x.mem = true
  slots : Table.wf SlotState.free x.slots = true

theorem State.tidy_iff {s : State} : s.Tidy ↔ s.Canon ∧ s.ex.Neat :=
  ⟨fun h => ⟨h.canon, h.mem, h.slots⟩, fun h => ⟨h.2.mem, h.2.slots, h.1.subscribers, h.1.records⟩⟩

section
variable {x y : Exchange}

theorem Exchange.Neat.reported (h : x.Neat) (r : x.Reported y) : y.Neat := ⟨r.wf h.mem, r.slots ▸ h.slots⟩

theorem Exchange.Neat.setSlot (h : x.Neat) (n : Nat) (v : SlotState) : (x.setSlot n v).Neat :=
  ⟨h.mem, Table.wf_set h.slots n v⟩

theorem Exchange.Neat.written (h : x.Neat) (a : Nat) (ws : List Word) :
    Exchange.Neat { x with mem := Memory.writeWords x.mem a ws } := ⟨Memory.wf_writeWords h.mem a ws, h.slots⟩

theorem Exchange.Neat.setAnswered (h : x.Neat) (n : Nat) : (x.setAnswered n).Neat :=
  ⟨Memory.wf_writeWord h.mem 0 _, h.slots⟩

theorem Exchange.Neat.wakeIntake (h : x.Neat) (loading : Bool) : (x.wakeIntake loading).Neat := by
  obtain same | worked := x.wakeIntake_reported loading
  · rw [same]
    exact h
  · exact Exchange.Neat.reported (x := { x with intake := .roomWait }) ⟨h.mem, h.slots⟩ worked

/-- The exchange as an answer leaves it before the unit returns its reservation: the body written, the slot ANSWERED, the
answered count and its mirror raised, ANSWERS set (R74, R95). -/
def Exchange.answering (x : Exchange) (n : Nat) (posting : Word) (code : AnswerCode) (data : List Word) : Exchange :=
  let written := { x with mem := Memory.writeWords x.mem (slotBase n + 4) (answerBody code posting data) }
  let marked := (written.setSlot n .answered).setAnswered (x.answered + 1)
  { marked with summary := { marked.summary with answers := true }, intake := .answering n, progress := .begun }

theorem Exchange.answer_eq (x : Exchange) (st : Stamp) (loading : Bool) (n : Nat) (posting : Word) (code : AnswerCode)
    (data : List Word) :
    x.answer st loading n posting code data =
      Exchange.wakeIntake { (x.answering n posting code data).giveBack st .intake with intake := .idle } loading := rfl

theorem Exchange.Neat.answering (h : x.Neat) (n : Nat) (posting : Word) (code : AnswerCode) (data : List Word) :
    (x.answering n posting code data).Neat :=
  have marked := ((h.written (slotBase n + 4) (answerBody code posting data)).setSlot n .answered).setAnswered (x.answered + 1)
  ⟨marked.mem, marked.slots⟩

theorem Exchange.Neat.answer (h : x.Neat) (st : Stamp) (loading : Bool) (n : Nat) (posting : Word) (code : AnswerCode)
    (data : List Word) : (x.answer st loading n posting code data).Neat := by
  have returned := (h.answering n posting code data).reported (Exchange.giveBack_reported _ st .intake)
  exact Exchange.Neat.wakeIntake (x := { (x.answering n posting code data).giveBack st .intake with intake := .idle })
    ⟨returned.mem, returned.slots⟩ loading

theorem Exchange.Neat.engineReset (h : x.Neat) : x.engineReset.Neat :=
  ⟨Exchange.engineReset_mem x ▸ Memory.wf_resetBytes h.mem, Exchange.engineReset_slots x ▸ rfl⟩

theorem Exchange.Neat.loaded (h : x.Neat) : x.loaded.Neat := ⟨Exchange.loaded_mem x ▸ Memory.wf_resetBytes h.mem, rfl⟩

end

section
variable {s t : State}

theorem State.Tidy.of (c : t.Canon) (x : t.ex.Neat) : t.Tidy := State.tidy_iff.mpr ⟨c, x⟩

theorem State.Tidy.neat (h : s.Tidy) : s.ex.Neat := ⟨h.mem, h.slots⟩

/-- A state that differs in the exchange alone, whose bytes and slot map are in canonical form. -/
theorem State.Tidy.withEx (h : s.Tidy) {x : Exchange} (neat : x.Neat) : ({ s with ex := x } : State).Tidy :=
  .of ⟨h.subscribers, h.records⟩ neat

theorem State.Tidy.reply (h : s.Tidy) (r : BusReply) : (s.reply r).Tidy := ⟨h.mem, h.slots, h.subscribers, h.records⟩

theorem State.Tidy.acts {p : Producer} (h : s.Tidy) (a : s.Acts p t) : t.Tidy :=
  .of (a.canon h.canon) (h.neat.reported a.works.reported)

theorem State.Tidy.works (h : s.Tidy) (c : t.Canon) (w : s.ex.Works t.ex) : t.Tidy := .of c (h.neat.reported w.reported)

theorem State.Tidy.ask (h : s.Tidy) (p : Producer) : (s.ask p).Tidy :=
  h.works ⟨by rw [State.ask_account]; exact h.subscribers, by rw [State.ask_store]; exact h.records⟩ (s.ask_works p)

theorem State.Tidy.endUnit (h : s.Tidy) {p : Producer} (ne : p ≠ .intake) : (s.endUnit p).Tidy :=
  h.works ⟨by rw [State.endUnit_account]; exact h.subscribers, by rw [State.endUnit_store]; exact h.records⟩
    (s.endUnit_works ne)

theorem State.Tidy.answer (h : s.Tidy) (code : AnswerCode) (data : List Word) : (s.answer code data).Tidy := by
  unfold State.answer
  split
  · exact h.withEx (h.neat.answer _ _ _ _ _ _)
  · exact h

theorem State.Tidy.offerStatus (h : s.Tidy) (l : Index8) : (s.offerStatus l).Tidy :=
  h.works ⟨by rw [State.offerStatus_account]; exact h.subscribers, by rw [State.offerStatus_store]; exact h.records⟩
    (s.offerStatus_works l)

theorem State.Tidy.takeItem (h : s.Tidy) (i : ReportItem) : (s.takeItem i).Tidy :=
  h.works ⟨by rw [State.takeItem_account]; exact h.subscribers, by rw [State.takeItem_store]; exact h.records⟩
    (s.takeItem_works i)

/-! ## The cases -/

theorem State.takeMark_canon (c : s.Canon) : s.takeMark.Canon := by
  refine ⟨by rw [State.takeMark_account]; exact c.subscribers, ?_⟩
  have marked : s.handReport.linksTakeMark.Canon := ⟨by simpa using c.subscribers, by simpa using c.records⟩
  unfold State.takeMark
  simp only
  split
  · unfold State.beginFrame State.startSweep
    have airs := Table.wf_mapValues (fun i r =>
      if r.state = .placed ∧ r.placedSerial = some s.air.serial ∧ i ∉ s.handReport.linksTakeMark.store.airStop
      then { r with state := .onAir } else r) marked.records
    simp only
    split <;> simpa [State.airing] using airs
  · have cut := marked.records
    unfold State.endStopping State.startSweep
    have returned : (((s.handReport.linksTakeMark.cutBuild s.air.serial fun _ => 0).stopBuild).returnPlaced s.air.serial).Canon :=
      (State.returnPlaced_acts (p := .messageStore) _).canon
        ⟨by simpa using marked.subscribers, by simpa using marked.records⟩
    simp only
    split <;> simpa [State.emptyPages] using returned.records

theorem State.Tidy.beforeReports (h : s.Tidy) : s.beforeReports.Tidy := by
  have ticked (mark : Bool) : (s.airSteps mark).Canon :=
    ⟨by rw [State.airSteps_account]; exact h.subscribers, by rw [State.airSteps_store]; exact h.records⟩
  have signals := s.beforeReports_signals
  refine .of ?_ ⟨by rw [signals]; exact h.mem, by rw [signals]; exact h.slots⟩
  unfold State.beforeReports
  split_ifs
  · exact State.takeMark_canon (ticked true)
  · exact ⟨(ticked false).subscribers, (ticked false).records⟩
  · exact ticked false

theorem State.Tidy.boundary (h : s.Tidy) : s.boundary.Tidy := by
  rw [State.boundary_eq]
  exact State.reportSteps_keeps (fun _ t => ⟨t.mem, t.slots, t.subscribers, t.records⟩) _ (fun _ i _ t => t.takeItem i)
    h.beforeReports

theorem State.Tidy.ordered (h : s.Tidy) (o : s.Ordered t) : t.Tidy := by
  have same {u : State} (account : u.account.subscribers = s.account.subscribers) (store : u.store.records = s.store.records)
      (ex : u.ex = s.ex) : u.Tidy :=
    .of ⟨account ▸ h.subscribers, store ▸ h.records⟩ (ex ▸ h.neat)
  cases o with
  | asFound => exact h
  | provisioned p vacant => exact .of (h.canon.setSub _ _) h.neat
  | amended n p live => exact h.acts (State.applyAmend_acts n p)
  | barred n to_ live served => exact .of (h.canon.setSub _ _) h.neat
  | retired n r none =>
    exact .of (State.Canon.setSub (s := s.hand .intake r) ⟨h.subscribers, h.records⟩ _ _) (h.neat.reported (s.hand_reported .intake r))
  | credited n amount live => exact h.acts ((State.rollIfStale_acts n).trans (State.applyCredit_acts n amount))
  | planned plans => exact same rfl rfl rfl
  | periodClosed rests =>
    refine State.Tidy.ask ?_ .rollWalk
    exact same rfl rfl rfl
  | marked i flies => exact .of (h.canon.setMsg _ _) h.neat
  | cancelled i occupied rests => exact h.acts (State.close_acts i .cancelled)
  | released n => exact h.acts (State.releaseAll_acts (p := .intake) n)
  | clocked day second => exact h.works ⟨h.subscribers, h.records⟩ (s.ex.notice_works .officeClock)
  | settings o classes => exact same rfl rfl rfl
  | linked l c keying => exact same rfl rfl rfl
  | receiving l r => exact same rfl rfl rfl
  | airStarted setup next cause => exact .of ⟨h.subscribers, h.records⟩ ⟨h.mem, h.slots⟩
  | airStopped next from_ => exact .of ⟨h.subscribers, h.records⟩ ⟨h.mem, h.slots⟩

theorem State.Tidy.message (h : s.Tidy) (p : Posting) : (s.message p).Tidy := by
  have advanced {u : State} (t : u.Tidy) (g : Progress) : (u.advance g).Tidy :=
    ⟨t.mem, t.slots, t.subscribers, t.records⟩
  unfold State.message
  split
  · unfold State.checkMessage
    split <;> exact advanced h _
  · unfold State.checkMessage
    split <;> exact advanced h _
  · next d _ =>
    have rolled := h.acts (State.rollIfStale_acts d.subscriber)
    unfold State.rateMessage
    simp only
    split
    · exact advanced (rolled.acts (State.charged_acts (p := .intake) d)) _
    · exact advanced rolled _
  · next d c _ => exact advanced (h.acts (State.commit_acts (p := .intake) d _ _)) _
  · next d c e _ =>
    have admitted := h.acts (State.Acts.refl.hand (recordAdmit d c e) : s.Acts .intake _)
    unfold State.reportMessage
    simp only
    split
    · exact advanced (admitted.acts (State.Acts.refl.hand _ : State.Acts .intake _ _)) _
    · exact advanced admitted _
  · exact h.answer _ _

theorem State.Tidy.load (h : s.Tidy) (profile : Option Profile) : (s.load profile).Tidy := by
  rw [State.load_eq]
  exact State.Tidy.ask (.of ⟨rfl, rfl⟩ (State.loadedBlocks_ex s profile ▸ h.neat.loaded)) .monitor

theorem State.Tidy.resetBlocks (h : s.Tidy) : s.resetBlocks.Tidy := by
  refine .of ⟨?_, ?_⟩ (s.resetBlocks_ex ▸ h.neat.engineReset)
  · simp only [State.resetBlocks, Account.engineReset]
    exact Table.wf_mapValues _ h.subscribers
  · simp only [State.resetBlocks, MessageStore.engineReset]
    exact Table.wf_mapValues _ h.records

theorem State.Tidy.engineReset (h : s.Tidy) : s.engineReset.Tidy := by
  rw [State.engineReset_eq]
  exact State.Tidy.ask (State.Tidy.ask h.resetBlocks .rollWalk) .monitor

theorem State.Tidy.did (h : s.Tidy) (d : s.Did t) : t.Tidy := by
  have took (rest : List BufferedWrite) : (s.ex.took rest).Neat := ⟨h.mem, h.slots⟩
  have noticed {x : Exchange} (n : x.Neat) (m : Mirror) : (x.notice m).Neat := n.reported (x.notice_reported m)
  cases d with
  | nothing => exact h
  | powerOn =>
    refine .of ⟨rfl, rfl⟩ ⟨?_, rfl⟩
    simp only
    exact Memory.wf_writeWords (Memory.wf_resetBytes h.mem) _ _
  | loaded profile => exact h.load profile
  | engineReset => exact h.engineReset.reply .done
  | hosted => exact ⟨h.mem, h.slots, h.subscribers, h.records⟩
  | bodyWritten w rest _ => exact h.withEx ⟨Memory.wf_writeEnabled h.mem _ _ _, h.slots⟩
  | posted n rest _ _ =>
    have queued := noticed ((took rest).setSlot n .posted) .queueLength
    refine h.withEx (Exchange.Neat.wakeIntake ?_ _)
    exact ⟨queued.mem, queued.slots⟩
  | withdrawn n rest _ =>
    have queued := noticed ((took rest).setSlot n .free) .queueLength
    refine h.withEx (Exchange.Neat.wakeIntake ?_ _)
    exact ⟨queued.mem, queued.slots⟩
  | slotReturned n rest _ => exact h.withEx (((took rest).setSlot n .free).setAnswered _)
  | pageReturned p rest _ => exact h.withEx ((took rest).reported (Exchange.returnPage_reported _ _ _))
  | mirrored m => exact h.withEx ⟨Memory.wf_writeWords h.mem _ _, h.slots⟩
  | taken n rest _ _ =>
    have queued := noticed (h.neat.setSlot n .taken) .queueLength
    exact h.withEx ⟨queued.mem, queued.slots⟩
  | takenNone _ _ =>
    have returned := h.neat.reported (s.ex.giveBack_reported s.stamp .intake)
    exact h.withEx ⟨returned.mem, returned.slots⟩
  | requested n p _ _ => exact h.message p
  | copied n p c _ _ => exact ⟨h.mem, h.slots, h.subscribers, h.records⟩
  | answered n p code data _ _ o => exact (h.ordered o).answer code data
  | boundary => exact h.boundary
  | monitored m _ =>
    exact State.Tidy.ask (s := s.setMonitor m) ⟨h.mem, h.slots, h.subscribers, h.records⟩ .monitor
  | built run => exact h.acts (State.built_acts run)
  | observed l kind at_ bit choices =>
    refine State.Tidy.ask ?_ .linkUnit
    exact ⟨h.mem, h.slots, h.subscribers, h.records⟩
  | counted l r => exact ⟨h.mem, h.slots, h.subscribers, h.records⟩
  | accepted l bits => exact State.Tidy.ask (s := s.acceptMessage l bits) ⟨h.mem, h.slots, h.subscribers, h.records⟩ .tracker
  | sweepAsked g =>
    refine State.Tidy.ask ?_ .messageStore
    exact ⟨h.mem, h.slots, h.subscribers, h.records⟩
  | swept => exact ⟨h.mem, h.slots, h.subscribers, h.records⟩
  | walked _ _ _ _ =>
    have visited := h.acts State.walkVisit_acts
    exact ⟨visited.mem, visited.slots, visited.subscribers, visited.records⟩
  | walkEnded _ _ _ =>
    have visited := h.acts State.walkVisit_acts
    exact .of ⟨visited.subscribers, visited.records⟩ (visited.neat.reported s.walkStep.walkEnd_works.reported)
  | unit _ w => exact State.Tidy.endUnit (h.works (w.canon_works.1 h.canon) w.canon_works.2) w.producer
  | pageClosed => exact h.withEx (h.neat.reported (s.ex.closeIfDue_reported s.stamp))

end

/-- Settles O3: the canonical form is kept by each of the cases a command comes to, and the resets build it anew. -/
theorem stepKeepsCanonicalForm : Obligations.StepKeepsCanonicalForm := by
  unfold Obligations.StepKeepsCanonicalForm
  exact fun s t h run => step_keeps (fun _ _ h => ⟨h.mem, h.slots, h.subscribers, h.records⟩) (fun _ _ h => h.did) h run

end Sys2Proof.Machine
end

section
/-! Every step keeps the posting queue, the slot map and the answered count in agreement (O4). -/

namespace Sys2Proof.Machine

/-! ## The law in two parts -/

/-- The agreement of queue, slot map and answered count (R72, R74). -/
structure Exchange.SlotLaw (x : Exchange) : Prop where
  posted : ∀ n, n ∈ x.queue ↔ x.slot n = .posted
  nodup : x.queue.Nodup
  range : ∀ n, x.slot n ≠ .free → n < 512
  count : x.answered = x.answeredSlots
  header : Memory.readWord x.mem 0 = word x.answered

/-- The slot the intake unit works on is TAKEN, and it works under its reservation (R73, R83). -/
structure Exchange.SeatLaw (x : Exchange) : Prop where
  working : ∀ n p, x.intake = .working n p → x.slot n = .taken
  reserved : (x.intake = .taking ∨ ∃ n p, x.intake = .working n p) → x.writer.holds .intake = true

section
variable {x y : Exchange}

theorem Exchange.GuardLaw.slotLaw (h : x.GuardLaw) : x.SlotLaw := ⟨h.posted, h.nodup, h.range, h.count, h.header⟩

theorem Exchange.GuardLaw.seatLaw (h : x.GuardLaw) : x.SeatLaw := ⟨h.working, h.reserved⟩

/-- No more than 512 slots are in the queue, since no slot is in it twice. -/
theorem Exchange.SlotLaw.guard (h : x.SlotLaw) (seat : x.SeatLaw) : x.GuardLaw where
  posted := h.posted
  nodup := h.nodup
  length := by
    have inside : x.queue ⊆ List.range 512 := by
      intro n queued
      have posted := (h.posted n).mp queued
      exact List.mem_range.mpr (h.range n (by rw [posted]; decide))
    simpa using (List.subperm_of_subset h.nodup inside).length_le
  range := h.range
  count := h.count
  header := h.header
  working := seat.working
  reserved := seat.reserved

/-! ## What keeps each part -/

/-- An exchange whose queue, slot map, answered count and header word read the same. -/
theorem Exchange.SlotLaw.same (h : x.SlotLaw) (slots : y.slots = x.slots) (queue : y.queue = x.queue)
    (answered : y.answered = x.answered) (header : Memory.readWord y.mem 0 = Memory.readWord x.mem 0) : y.SlotLaw := by
  have slot (n : Nat) : y.slot n = x.slot n := by rw [Exchange.slot, slots, Exchange.slot]
  refine ⟨fun n => ?_, queue ▸ h.nodup, fun n => ?_, ?_, ?_⟩
  · rw [queue, slot]
    exact h.posted n
  · rw [slot]
    exact h.range n
  · rw [answered, Exchange.answeredSlots, slots]
    exact h.count
  · rw [header, answered]
    exact h.header

theorem Exchange.SlotLaw.reported (h : x.SlotLaw) (count : x.writer.count < Config.pageRecords) (r : x.Reported y) :
    y.SlotLaw := by
  refine h.same r.slots r.queue r.answered (Memory.readWord_congr fun i lt => r.mem count _ ?_)
  simp only [inPages, Config.pagesBase]
  omega

theorem Exchange.SeatLaw.works (h : x.SeatLaw) (w : x.Works y) : y.SeatLaw := by
  have slot (n : Nat) : y.slot n = x.slot n := by rw [Exchange.slot, w.reported.slots, Exchange.slot]
  refine ⟨fun n p working => ?_, fun busy => ?_⟩
  · rw [slot]
    obtain same | taking := w.reported.intake
    · exact h.working n p (same.symm.trans working)
    · rw [taking] at working
      cases working
  · obtain taking | ⟨n, p, working⟩ := busy
    · exact (w.seats.taking taking).elim (fun was => w.seats.holds (h.reserved (.inl was))) id
    · obtain same | taking := w.reported.intake
      · exact w.seats.holds (h.reserved (.inr ⟨n, p, same.symm.trans working⟩))
      · rw [taking] at working
        cases working

theorem Exchange.GuardLaw.works (h : x.GuardLaw) (pages : x.writer.PageLaw) (w : x.Works y) : y.GuardLaw :=
  (h.slotLaw.reported pages.count w.reported).guard (h.seatLaw.works w)

/-- An exchange that differs in what the law does not speak of. -/
theorem Exchange.GuardLaw.same (h : x.GuardLaw) (slots : y.slots = x.slots) (queue : y.queue = x.queue)
    (answered : y.answered = x.answered) (header : Memory.readWord y.mem 0 = Memory.readWord x.mem 0)
    (intake : y.intake = x.intake) (writer : y.writer = x.writer) : y.GuardLaw := by
  refine (h.slotLaw.same slots queue answered header).guard ⟨fun n p => ?_, ?_⟩
  · rw [intake, Exchange.slot, slots]
    exact h.working n p
  · rw [intake, writer]
    exact h.reserved

theorem Exchange.GuardLaw.signals (h : x.GuardLaw) (g : x.Signals y) : y.GuardLaw := by
  rw [g]
  exact h.same rfl rfl rfl rfl rfl rfl

/-! ## A slot moved -/

theorem Exchange.slot_setSlot (slots : Table.wf SlotState.free x.slots = true) (n m : Nat) (v : SlotState) :
    (x.setSlot n v).slot m = if m = n then v else x.slot m := Table.get_set slots n m v

theorem Exchange.answeredSlots_setSlot (slots : Table.wf SlotState.free x.slots = true) (n : Nat) (v : SlotState) :
    (x.setSlot n v).answeredSlots + (if x.slot n = .answered then 1 else 0) =
      x.answeredSlots + (if v = .answered then 1 else 0) := by
  have counted := Table.countWhere_set (p := fun v => decide (v = SlotState.answered)) rfl slots n v
  simp only [decide_eq_true_eq] at counted
  exact counted

/-- A slot below 512 moved between two states, with the queue and the answered count moved along. -/
theorem Exchange.SlotLaw.moved (h : x.SlotLaw) (slots : Table.wf SlotState.free x.slots = true) {n : Nat} {v : SlotState}
    (lt : n < 512) (y : Exchange) (moved : y.slots = (x.setSlot n v).slots)
    (queue : ∀ m, m ∈ y.queue ↔ (m = n ∧ v = .posted) ∨ (m ≠ n ∧ m ∈ x.queue)) (nodup : y.queue.Nodup)
    (answered : y.answered + (if x.slot n = .answered then 1 else 0) = x.answered + (if v = .answered then 1 else 0))
    (header : Memory.readWord y.mem 0 = word y.answered) : y.SlotLaw := by
  have slot (m : Nat) : y.slot m = if m = n then v else x.slot m := by
    rw [← Exchange.slot_setSlot slots, Exchange.slot, moved, Exchange.slot]
  refine ⟨fun m => ?_, nodup, fun m used => ?_, ?_, header⟩
  · rw [queue, slot]
    by_cases same : m = n
    · simp [same]
    · simp [same, h.posted]
  · rw [slot] at used
    by_cases same : m = n
    · exact same ▸ lt
    · exact h.range m (by rwa [if_neg same] at used)
  · have counted := Exchange.answeredSlots_setSlot slots n v
    have here : y.answeredSlots = (x.setSlot n v).answeredSlots := by
      rw [Exchange.answeredSlots, moved, Exchange.answeredSlots]
    have was := h.count
    omega

end

section
variable {s t : State} {x : Exchange}

/-! ## The cases of the window guard and the intake unit -/

/-- An IDLE unit woken asks for room, and takes nothing without it (R82). -/
theorem Exchange.SeatLaw.wakeIntake (h : x.SeatLaw) (loading : Bool) : (x.wakeIntake loading).SeatLaw := by
  unfold Exchange.wakeIntake
  split
  · refine Exchange.SeatLaw.works (x := { x with intake := .roomWait }) ⟨fun n p working => ?_, fun busy => ?_⟩
      ⟨Exchange.request_reported _ _, Exchange.request_seats _ _⟩
    · cases working
    · obtain taking | ⟨n, p, working⟩ := busy
      · cases taking
      · cases working
  · exact h

theorem Exchange.GuardLaw.wakeIntake (h : x.GuardLaw) (pages : x.writer.PageLaw) (loading : Bool) :
    (x.wakeIntake loading).GuardLaw := by
  refine Exchange.SlotLaw.guard ?_ (h.seatLaw.wakeIntake loading)
  obtain same | worked := x.wakeIntake_reported loading
  · exact same.symm ▸ h.slotLaw
  · exact Exchange.SlotLaw.reported (x := { x with intake := .roomWait }) (h.slotLaw.same rfl rfl rfl rfl) pages.count worked

/-- A unit that works on no posting and is not at its take keeps the law of its seat. -/
theorem Exchange.SeatLaw.rests (taking : x.intake ≠ .taking) (working : ∀ n p, x.intake ≠ .working n p) : x.SeatLaw :=
  ⟨fun n p w => absurd w (working n p), fun busy => busy.elim (absurd · taking) fun ⟨n, p, w⟩ => absurd w (working n p)⟩

/-- A change of another slot than the one in hand keeps the law of the unit's seat. -/
theorem Exchange.SeatLaw.setSlot (h : x.SeatLaw) (slots : Table.wf SlotState.free x.slots = true) {n : Nat} {v : SlotState}
    (other : x.slot n ≠ .taken) {y : Exchange} (moved : y.slots = (x.setSlot n v).slots) (intake : y.intake = x.intake)
    (writer : y.writer = x.writer) : y.SeatLaw := by
  refine ⟨fun m p working => ?_, fun busy => ?_⟩
  · have taken := h.working m p (intake.symm.trans working)
    have ne : m ≠ n := fun same => other (same ▸ taken)
    rw [Exchange.slot, moved, ← Exchange.slot, Exchange.slot_setSlot slots, if_neg ne, taken]
  · rw [writer]
    rw [intake] at busy
    exact h.reserved busy

theorem Exchange.SlotLaw.answering (h : x.SlotLaw) (neat : x.Neat) {n : Nat} (taken : x.slot n = .taken) (posting : Word)
    (code : AnswerCode) (data : List Word) : (x.answering n posting code data).SlotLaw := by
  have queued (m : Nat) : m ∈ x.queue → m ≠ n := by
    rintro listed rfl
    have posted := (h.posted m).mp listed
    rw [taken] at posted
    cases posted
  refine h.moved neat.slots (n := n) (v := .answered) (h.range n (by rw [taken]; decide)) _ rfl (fun m => ?_) h.nodup ?_ ?_
  · refine ⟨fun listed => .inr ⟨queued m listed, listed⟩, ?_⟩
    rintro (⟨-, posted⟩ | ⟨-, listed⟩)
    · cases posted
    · exact listed
  · rw [taken]
    rfl
  · exact Memory.readWord_writeWord_same (Memory.wf_writeWords neat.mem _ _) 0 _

/-- An answer leaves the slot ANSWERED and the unit at rest or asking for room (R74, R95). -/
theorem State.answer_guard (tidy : s.Tidy) (pages : s.ex.writer.PageLaw) (h : s.ex.GuardLaw) (code : AnswerCode)
    (data : List Word) : (s.answer code data).ex.GuardLaw := by
  unfold State.answer
  split
  · next n p working =>
    have answering := h.slotLaw.answering tidy.neat (h.working n p working) (Posting.code p) code data
    have returned := Exchange.giveBack_reported (s.ex.answering n (Posting.code p) code data) s.stamp .intake
    have slots := answering.reported pages.count returned
    refine Exchange.GuardLaw.wakeIntake (x :=
      { (s.ex.answering n (Posting.code p) code data).giveBack s.stamp .intake with intake := .idle }) ?_ ?_ s.loading
    · exact Exchange.SlotLaw.guard (slots.same rfl rfl rfl rfl) (.rests nofun nofun)
    · exact returned.law pages
  · exact h

theorem State.guard_of_ask (h : s.ex.GuardLaw) (pages : s.ex.writer.PageLaw) (p : Producer) : (s.ask p).ex.GuardLaw :=
  h.works pages (s.ask_works p)

/-- What an order has changed before its answer is work at the report writer, or notices and event bits. -/
theorem State.Ordered.works_or_signals (o : s.Ordered t) : s.ex.Works t.ex ∨ s.ex.Signals t.ex := by
  cases o with
  | asFound => exact .inl (.refl _)
  | provisioned p vacant => exact .inl (.refl _)
  | amended n p live => exact .inl (State.applyAmend_acts n p).works
  | barred n to_ live served => exact .inl (.refl _)
  | retired n r none => exact .inl (s.hand_works .intake r)
  | credited n amount live => exact .inl ((State.rollIfStale_acts n).trans (State.applyCredit_acts n amount)).works
  | planned plans => exact .inl (.refl _)
  | periodClosed rests =>
    exact .inl (State.ask_works { s with
      account := { s.account with period := (s.account.period + 1) % 65536, walk := ⟨true, 0, 0⟩ } } .rollWalk)
  | marked i flies => exact .inl (.refl _)
  | cancelled i occupied rests => exact .inl (State.close_acts i .cancelled).works
  | released n => exact .inl (State.releaseAll_acts (p := .intake) n).works
  | clocked day second => exact .inl (s.ex.notice_works .officeClock)
  | settings o classes => exact .inl (.refl _)
  | linked l c keying => exact .inl (.refl _)
  | receiving l r => exact .inl (.refl _)
  | airStarted setup next cause => exact .inr rfl
  | airStopped next from_ => exact .inr rfl

theorem Exchange.Signals.pageLaw {x y : Exchange} (g : x.Signals y) (pages : x.writer.PageLaw) : y.writer.PageLaw := by
  rw [g]
  exact pages

theorem State.Ordered.guard (o : s.Ordered t) (h : s.ex.GuardLaw) (pages : s.ex.writer.PageLaw) :
    t.ex.GuardLaw ∧ t.ex.writer.PageLaw :=
  o.works_or_signals.elim (fun w => ⟨h.works pages w, w.reported.law pages⟩) fun g => ⟨h.signals g, g.pageLaw pages⟩

/-- A message's request is work at the report writer, an advance of its progress, or its answer (R85 to R91). -/
theorem State.message_cases (s : State) (p : Posting) :
    (∃ u g, s.Acts .intake u ∧ s.message p = u.advance g) ∨
      ∃ code data, s.ex.progress = .decided code data ∧ s.message p = s.answer code data := by
  unfold State.message
  split
  · refine .inl ⟨s, ?_⟩
    unfold State.checkMessage
    split
    · exact ⟨_, .refl, rfl⟩
    · exact ⟨_, .refl, rfl⟩
  · refine .inl ⟨s, ?_⟩
    unfold State.checkMessage
    split
    · exact ⟨_, .refl, rfl⟩
    · exact ⟨_, .refl, rfl⟩
  · next d _ =>
    unfold State.rateMessage
    simp only
    split
    · exact .inl ⟨_, _, (State.rollIfStale_acts d.subscriber).trans (State.charged_acts d), rfl⟩
    · exact .inl ⟨_, _, State.rollIfStale_acts d.subscriber, rfl⟩
  · exact .inl ⟨_, _, State.commit_acts _ _ _, rfl⟩
  · next d c e _ =>
    unfold State.reportMessage
    simp only
    split
    · exact .inl ⟨_, _, (State.Acts.refl.hand _).hand _, rfl⟩
    · exact .inl ⟨_, _, State.Acts.refl.hand _, rfl⟩
  · next code data decided => exact .inr ⟨code, data, decided, rfl⟩

theorem State.boundary_guard (h : s.ex.GuardLaw) (pages : s.ex.writer.PageLaw) :
    s.boundary.ex.GuardLaw ∧ s.boundary.ex.writer.PageLaw := by
  rw [State.boundary_eq]
  refine State.reportSteps_keeps (law := fun t => t.ex.GuardLaw ∧ t.ex.writer.PageLaw) ?_ _ ?_ ?_
  · exact fun n law => ⟨law.1.same rfl rfl rfl rfl rfl rfl, law.2⟩
  · exact fun t i _ law => ⟨law.1.works law.2 (t.takeItem_works i), (t.takeItem_works i).reported.law law.2⟩
  · exact ⟨h.signals s.beforeReports_signals, s.beforeReports_signals.pageLaw pages⟩

theorem Memory.readWord_writeWords_head {m : List Host.Cell} (h : Memory.wf m = true) (a : Nat) (w : Word) (ws : List Word) :
    Memory.readWord (Memory.writeWords m a (w :: ws)) a = w := by
  rw [Memory.writeWords, Memory.readWord_writeWords_other (.inl (Nat.le_refl _)), Memory.readWord_writeWord_same h]

/-- The header word after a reset reads 0 (R77). -/
theorem Memory.readWord_resetBytes {m : List Host.Cell} (h : Memory.wf m = true) : Memory.readWord (resetBytes m) 0 = 0 := by
  unfold resetBytes
  exact Memory.readWord_writeWords_head (Memory.wf_writeWords (Memory.wf_clearPageHeaders h) 0x18 [0, 0]) _ _ _

/-- An empty slot map with an idle unit keeps the law. -/
theorem Exchange.GuardLaw.empty (slots : x.slots = []) (queue : x.queue = []) (answered : x.answered = 0)
    (header : Memory.readWord x.mem 0 = 0) (intake : x.intake = .idle) : x.GuardLaw := by
  have free (n : Nat) : x.slot n = .free := by rw [Exchange.slot, slots, Table.get_nil]
  refine Exchange.SlotLaw.guard ⟨fun n => ?_, queue ▸ List.nodup_nil, fun n used => absurd (free n) used, ?_, ?_⟩
    (.rests (by rw [intake]; nofun) (by rw [intake]; nofun))
  · rw [queue, free]
    simp
  · rw [answered, Exchange.answeredSlots, slots]
    rfl
  · rw [header, answered]
    rfl

theorem State.posted_guard (tidy : s.Tidy) (pages : s.ex.writer.PageLaw) (h : s.ex.GuardLaw) {n : Nat}
    (rest : List BufferedWrite) (free : s.ex.slot n = .free) (lt : n < 512) :
    (Exchange.wakeIntake
      { ((s.ex.took rest).setSlot n .posted).notice .queueLength with queue := s.ex.queue ++ [n] } s.loading).GuardLaw := by
  have absent : n ∉ s.ex.queue := fun listed => by
    have posted := (h.posted n).mp listed
    rw [free] at posted
    cases posted
  refine Exchange.GuardLaw.wakeIntake (x :=
    { ((s.ex.took rest).setSlot n .posted).notice .queueLength with queue := s.ex.queue ++ [n] }) ?_ pages s.loading
  refine Exchange.SlotLaw.guard ?_ (h.seatLaw.setSlot (n := n) (v := .posted) tidy.slots (by rw [free]; decide) rfl rfl rfl)
  refine h.slotLaw.moved tidy.slots (n := n) (v := .posted) lt _ rfl (fun m => ?_) ?_ ?_ h.header
  · rw [List.mem_append, List.mem_singleton]
    by_cases same : m = n
    · simp [same]
    · simp [same]
  · exact List.nodup_append.mpr ⟨h.nodup, List.nodup_singleton n, fun a listed b single => by
      rw [List.mem_singleton.mp single]
      rintro rfl
      exact absent listed⟩
  · rw [free]
    rfl

theorem State.withdrawn_guard (tidy : s.Tidy) (pages : s.ex.writer.PageLaw) (h : s.ex.GuardLaw) {n : Nat}
    (rest : List BufferedWrite) (posted : s.ex.slot n = .posted) :
    (Exchange.wakeIntake
      { ((s.ex.took rest).setSlot n .free).notice .queueLength with
        queue := s.ex.queue.filter fun k => decide (k ≠ n) } s.loading).GuardLaw := by
  refine Exchange.GuardLaw.wakeIntake (x :=
    { ((s.ex.took rest).setSlot n .free).notice .queueLength with
      queue := s.ex.queue.filter fun k => decide (k ≠ n) }) ?_ pages s.loading
  refine Exchange.SlotLaw.guard ?_ (h.seatLaw.setSlot (n := n) (v := .free) tidy.slots (by rw [posted]; decide) rfl rfl rfl)
  refine h.slotLaw.moved tidy.slots (n := n) (v := .free) (h.range n (by rw [posted]; decide)) _ rfl (fun m => ?_)
    (h.nodup.filter _) ?_ h.header
  · simp [List.mem_filter, and_comm]
  · rw [posted]
    rfl

theorem State.slotReturned_guard (tidy : s.Tidy) (h : s.ex.GuardLaw) {n : Nat} (rest : List BufferedWrite)
    (answered : s.ex.slot n = .answered) : (((s.ex.took rest).setSlot n .free).setAnswered (s.ex.answered - 1)).GuardLaw := by
  have counted := Exchange.answeredSlots_setSlot tidy.slots n .free
  rw [if_pos answered, if_neg (by decide)] at counted
  have above : 0 < s.ex.answered := by
    rw [h.count]
    omega
  refine Exchange.SlotLaw.guard ?_ (h.seatLaw.setSlot (n := n) (v := .free) tidy.slots (by rw [answered]; decide) rfl rfl rfl)
  refine h.slotLaw.moved tidy.slots (n := n) (v := .free) (h.range n (by rw [answered]; decide)) _ rfl (fun m => ?_)
    h.nodup ?_ ?_
  · refine ⟨fun listed => .inr ⟨?_, listed⟩, ?_⟩
    · rintro rfl
      have posted := (h.posted m).mp listed
      rw [answered] at posted
      cases posted
    · rintro (⟨-, never⟩ | ⟨-, listed⟩)
      · cases never
      · exact listed
  · rw [if_pos answered, if_neg (by decide)]
    exact Nat.sub_add_cancel above
  · exact Memory.readWord_writeWord_same tidy.mem 0 _

theorem State.taken_guard (tidy : s.Tidy) (h : s.ex.GuardLaw) {n : Nat} {rest : List Nat} (taking : s.ex.intake = .taking)
    (queue : s.ex.queue = n :: rest) : (s.ex.take n rest).GuardLaw := by
  have posted : s.ex.slot n = .posted := (h.posted n).mp (queue ▸ List.mem_cons_self)
  have nodup := h.nodup
  rw [queue, List.nodup_cons] at nodup
  have seat : (s.ex.take n rest).SeatLaw := by
    refine ⟨fun m p working => ?_, fun _ => h.reserved (.inl taking)⟩
    have same : n = m := (IntakeState.working.inj working).1
    rw [Exchange.take_slot tidy.slots, if_pos same.symm]
  refine Exchange.SlotLaw.guard ?_ seat
  refine h.slotLaw.moved tidy.slots (n := n) (v := .taken) (h.range n (by rw [posted]; decide)) _ rfl (fun m => ?_)
    nodup.2 ?_ h.header
  · rw [queue, List.mem_cons]
    refine ⟨fun listed => .inr ⟨fun same => nodup.1 (same ▸ listed), .inr listed⟩, ?_⟩
    rintro (⟨-, never⟩ | ⟨ne, same | listed⟩)
    · cases never
    · exact absurd same ne
    · exact listed
  · rw [posted]
    rfl

theorem State.mirrored_guard (tidy : s.Tidy) (h : s.ex.GuardLaw) (m : Mirror) :
    Exchange.GuardLaw { s.ex with
      mem := Memory.writeWords s.ex.mem (mirrorOffset m) (s.mirrorWords m)
      notices := s.ex.notices.filter fun k => decide (k ≠ m) } := by
  refine h.same rfl rfl rfl ?_ rfl rfl
  have other {a : Nat} (ws : List Word) (out : 4 ≤ a) :
      Memory.readWord (Memory.writeWords s.ex.mem a ws) 0 = Memory.readWord s.ex.mem 0 :=
    Memory.readWord_writeWords_other (.inl out)
  cases m with
  | answeredCount => exact (Memory.readWord_writeWord_same tidy.mem 0 _).trans h.header.symm
  | queueLength => exact other _ (by decide)
  | freeRecords => exact other _ (by decide)
  | frameSerial => exact other _ (by decide)
  | officeClock => exact other _ (by decide)
  | lastPageIndex => exact other _ (by decide)
  | lastPageSequence => exact other _ (by decide)

theorem State.reply_guard (h : s.ex.GuardLaw) (r : BusReply) : (s.reply r).ex.GuardLaw := h.same rfl rfl rfl rfl rfl rfl

theorem Writer.reset_pageLaw : Writer.reset.PageLaw := ⟨by decide, by decide, nofun⟩

theorem State.load_guard (tidy : s.Tidy) (profile : Option Profile) : (s.load profile).ex.GuardLaw := by
  rw [State.load_eq]
  refine State.guard_of_ask ?_ ?_ .monitor
  · rw [State.loadedBlocks_ex]
    exact .empty rfl rfl rfl (by rw [Exchange.loaded_mem, Memory.readWord_resetBytes tidy.mem]) rfl
  · rw [State.loadedBlocks_ex, Exchange.loaded_writer]
    exact Writer.reset_pageLaw

theorem State.engineReset_guard (tidy : s.Tidy) : s.engineReset.ex.GuardLaw := by
  have reset : s.resetBlocks.ex.GuardLaw := by
    rw [State.resetBlocks_ex]
    exact .empty (by simp) (by simp) (by simp)
      (by rw [Exchange.engineReset_mem, Memory.readWord_resetBytes tidy.mem]) (by simp)
  have pages : s.resetBlocks.ex.writer.PageLaw := by
    rw [State.resetBlocks_ex, Exchange.engineReset_writer]
    exact Writer.reset_pageLaw
  rw [State.engineReset_eq]
  exact State.guard_of_ask (State.guard_of_ask reset pages .rollWalk) ((State.ask_works _ _).reported.law pages) .monitor

theorem State.did_guard (tidy : s.Tidy) (pages : s.ex.writer.PageLaw) (h : s.ex.GuardLaw) (d : s.Did t) : t.ex.GuardLaw := by
  cases d with
  | nothing => exact h
  | powerOn =>
    refine .empty rfl rfl rfl ?_ rfl
    simp only
    rw [Memory.readWord_writeWords_other (.inl (by decide)), Memory.readWord_resetBytes tidy.mem]
  | loaded profile => exact State.load_guard tidy profile
  | engineReset => exact State.reply_guard (State.engineReset_guard tidy) .done
  | hosted => exact h.same rfl rfl rfl rfl rfl rfl
  | bodyWritten w rest outside =>
    refine h.same rfl rfl rfl (Memory.readWord_congr fun i lt => ?_) rfl rfl
    simp only [Config.boardBase] at outside
    exact Memory.read_writeEnabled_other (.inl (by omega)) _ _
  | posted n rest free lt => exact State.posted_guard tidy pages h rest free lt
  | withdrawn n rest posted => exact State.withdrawn_guard tidy pages h rest posted
  | slotReturned n rest answered => exact State.slotReturned_guard tidy h rest answered
  | pageReturned p rest filled =>
    exact Exchange.GuardLaw.works (x := s.ex.took rest) (h.same rfl rfl rfl rfl rfl rfl) pages
      ⟨Exchange.returnPage_reported _ _ _, Exchange.returnPage_seats _ _ _⟩
  | mirrored m => exact State.mirrored_guard tidy h m
  | taken n rest taking queue => exact State.taken_guard tidy h taking queue
  | takenNone taking queue =>
    have returned := s.ex.giveBack_reported s.stamp .intake
    refine Exchange.SlotLaw.guard ?_ ?_
    · exact (h.slotLaw.reported pages.count returned).same rfl rfl rfl rfl
    · exact .rests nofun nofun
  | requested n p working code =>
    obtain ⟨u, g, acts, same⟩ | ⟨code, data, -, same⟩ := s.message_cases p
    · rw [same]
      exact (h.works pages acts.works).same rfl rfl rfl rfl rfl rfl
    · rw [same]
      exact State.answer_guard tidy pages h code data
  | copied n p c working other => exact h.same rfl rfl rfl rfl rfl rfl
  | answered n p code data working other o =>
    obtain ⟨guard, law⟩ := o.guard h pages
    exact State.answer_guard (tidy.ordered o) law guard code data
  | boundary => exact (State.boundary_guard h pages).1
  | monitored m from_ => exact State.guard_of_ask (s := s.setMonitor m) (h.same rfl rfl rfl rfl rfl rfl) pages .monitor
  | built run => exact h.works pages (State.built_acts run).works
  | observed l kind at_ bit choices =>
    refine State.guard_of_ask ?_ ?_ .linkUnit
    · exact h.same rfl rfl rfl rfl rfl rfl
    · exact pages
  | counted l r => exact h
  | accepted l bits => exact State.guard_of_ask (s := s.acceptMessage l bits) h pages .tracker
  | sweepAsked g =>
    refine State.guard_of_ask ?_ ?_ .messageStore
    · exact h
    · exact pages
  | swept => exact h
  | walked _ _ _ _ => exact h.works pages s.walkStep_works
  | walkEnded _ _ _ => exact h.works pages (s.walkStep_works.trans s.walkStep.walkEnd_works)
  | unit _ w => exact h.works pages (w.canon_works.2.trans (State.endUnit_works _ w.producer))
  | pageClosed => exact h.works pages ⟨s.ex.closeIfDue_reported s.stamp, s.ex.closeIfDue_seats s.stamp⟩

/-! ## The page law (R168, R172, R174) -/

theorem State.did_pageLaw (pages : s.ex.writer.PageLaw) (d : s.Did t) : t.ex.writer.PageLaw := by
  have asked {u : State} (law : u.ex.writer.PageLaw) (p : Producer) : (u.ask p).ex.writer.PageLaw :=
    (u.ask_reported p).law law
  have woken {x : Exchange} (law : x.writer.PageLaw) (loading : Bool) : (x.wakeIntake loading).writer.PageLaw := by
    obtain same | worked := x.wakeIntake_reported loading
    · exact same.symm ▸ law
    · exact worked.law law
  have answers {u : State} (law : u.ex.writer.PageLaw) (code : AnswerCode) (data : List Word) :
      (u.answer code data).ex.writer.PageLaw := by
    unfold State.answer
    split
    · next n p _ =>
      exact woken (x := { (u.ex.answering n (Posting.code p) code data).giveBack u.stamp .intake with intake := .idle })
        ((Exchange.giveBack_reported _ _ _).law law) _
    · exact law
  cases d with
  | nothing => exact pages
  | powerOn => exact Writer.reset_pageLaw
  | loaded profile =>
    refine asked (u := s.loadedBlocks profile) ?_ .monitor
    rw [State.loadedBlocks_ex, Exchange.loaded_writer]
    exact Writer.reset_pageLaw
  | engineReset =>
    refine asked (asked (u := s.resetBlocks) ?_ .rollWalk) .monitor
    rw [State.resetBlocks_ex, Exchange.engineReset_writer]
    exact Writer.reset_pageLaw
  | hosted => exact pages
  | bodyWritten w rest outside => exact pages
  | posted n rest free lt =>
    refine woken ?_ _
    exact pages
  | withdrawn n rest posted =>
    refine woken ?_ _
    exact pages
  | slotReturned n rest answered => exact pages
  | pageReturned p rest filled => exact (Exchange.returnPage_reported _ _ _).law pages
  | mirrored m => exact pages
  | taken n rest taking queue => exact pages
  | takenNone taking queue => exact (s.ex.giveBack_reported s.stamp .intake).law pages
  | requested n p working code =>
    obtain ⟨u, g, acts, same⟩ | ⟨code, data, -, same⟩ := s.message_cases p
    · rw [same]
      exact acts.works.reported.law pages
    · rw [same]
      exact answers pages code data
  | copied n p c working other => exact pages
  | answered n p code data working other o =>
    exact answers (o.works_or_signals.elim (fun w => w.reported.law pages) fun g => g.pageLaw pages) code data
  | boundary =>
    rw [State.boundary_eq]
    exact State.reportSteps_keeps (law := fun t => t.ex.writer.PageLaw) (fun _ law => law) _
      (fun t i _ law => (t.takeItem_works i).reported.law law) (s.beforeReports_signals.pageLaw pages)
  | monitored m from_ => exact asked (u := s.setMonitor m) pages .monitor
  | built run => exact (State.built_acts run).works.reported.law pages
  | observed l kind at_ bit choices =>
    refine asked ?_ .linkUnit
    exact pages
  | counted l r => exact pages
  | accepted l bits => exact asked (u := s.acceptMessage l bits) pages .tracker
  | sweepAsked g =>
    refine asked ?_ .messageStore
    exact pages
  | swept => exact pages
  | walked _ _ _ _ => exact s.walkStep_works.reported.law pages
  | walkEnded _ _ _ => exact (s.walkStep_works.trans s.walkStep.walkEnd_works).reported.law pages
  | unit _ w => exact (w.canon_works.2.trans (State.endUnit_works _ w.producer)).reported.law pages
  | pageClosed => exact (s.ex.closeIfDue_reported s.stamp).law pages

end

/-- Settles O4: the moves of a slot keep the agreement of queue, slot map and count, and work at the report writer leaves
them. -/
theorem stepKeepsGuardLaw : Obligations.StepKeepsGuardLaw := by
  unfold Obligations.StepKeepsGuardLaw
  intro s t tidy pages h run
  refine (step_keeps (law := fun s => s.Tidy ∧ s.ex.writer.PageLaw ∧ s.ex.GuardLaw) ?_ ?_ ⟨tidy, pages, h⟩ run).2.2
  · exact fun s rest law => ⟨⟨law.1.mem, law.1.slots, law.1.subscribers, law.1.records⟩, law.2⟩
  · exact fun s t ⟨tidy, pages, guard⟩ d => ⟨tidy.did d, State.did_pageLaw pages d, State.did_guard tidy pages guard d⟩

end Sys2Proof.Machine
end

section
/-! Every step keeps the reserved total within room and what the posting in hand may still need (O5). -/

namespace Sys2Proof.Machine

/-! ## The writer's laws in one -/

/-- The laws of R169, R170, R174 and R83 together. -/
structure Exchange.Roomy (x : Exchange) : Prop where
  pages : x.writer.PageLaw
  room : x.writer.RoomLaw
  intake : x.IntakeLaw

section
variable {x y : Exchange} {p : Producer} {n : Nat}

theorem Exchange.Roomy.same (h : x.Roomy) (writer : y.writer = x.writer) (intake : y.intake = x.intake)
    (progress : y.progress = x.progress) : y.Roomy := by
  refine ⟨writer ▸ h.pages, writer ▸ h.room, ?_⟩
  unfold Exchange.IntakeLaw Exchange.least
  rw [writer, intake, progress]
  exact h.intake

/-- A unit of work that leaves of its reservation what may stand between two commands keeps the law of R169. -/
theorem Writer.Owes.room {w : Writer} (h : w.Owes p n) (left : p.least ≤ w.left p) : w.RoomLaw := by
  refine ⟨h.within, h.once, h.asked, fun g held => ?_⟩
  obtain ⟨m, i, -, most⟩ := h.left
  have entry {k : Nat} (j : (p, k) ∈ w.held) : k = m := (Writer.left_eq h.once j).symm.trans (Writer.left_eq h.once i)
  obtain ⟨q, k⟩ := g
  by_cases own : q = p
  · subst own
    rw [Writer.left_eq h.once held] at left
    exact ⟨left, (entry held).symm ▸ most⟩
  · exact h.stands _ held own

/-- A posting in hand between two requests, with at least the positions its point may still need (R83). -/
theorem Writer.Owes.roomy (h : x.writer.Owes .intake n) (least : x.least ≤ n) (five : 5 ≤ n) : x.Roomy := by
  obtain ⟨m, i, le, -⟩ := h.left
  have left : x.writer.left .intake = m := Writer.left_eq h.once i
  refine ⟨h.law, h.room ?_, fun k held => ?_⟩
  · exact left.symm ▸ Nat.le_trans five le
  · rw [← Writer.left_eq h.once held, left]
    exact Nat.le_trans least le

/-- The intake unit, holding its reservation, may hand what its posting may still need (R83). -/
theorem Exchange.Roomy.owes_intake (h : x.Roomy) (holds : x.writer.holds .intake = true) : x.writer.Owes .intake x.least := by
  have owes := h.room.owes h.pages holds
  obtain ⟨m, i, -, most⟩ := owes.left
  exact { owes with left := ⟨m, i, h.intake m i, most⟩ }

/-- The intake unit wakes only where it works on no posting (R82). -/
theorem Exchange.Roomy.wakeIntake (h : x.Roomy) (loading : Bool) : (x.wakeIntake loading).Roomy := by
  unfold Exchange.wakeIntake
  split
  · next wakes =>
    refine ⟨?_, Exchange.request_room (x := { x with intake := .roomWait }) h.room h.pages .intake, ?_⟩
    · exact (Exchange.request_reported { x with intake := .roomWait } .intake).law h.pages
    refine Writer.IntakeWhole.law (Exchange.request_whole (x := { x with intake := .roomWait }) h.room h.pages ?_ .intake)
    intro k held
    have whole := h.intake k held
    simp only [Exchange.least, wakes.1] at whole
    exact whole
  · exact h

end

section
variable {s t u : State} {p : Producer}

theorem Exchange.Roomy.spares (h : s.ex.Roomy) (pages : t.ex.writer.PageLaw) (room : t.ex.writer.RoomLaw)
    (spares : s.Spares t) : t.ex.Roomy := ⟨pages, room, spares.law h.pages.requests h.intake⟩

theorem Exchange.Roomy.ask (h : s.ex.Roomy) (ne : p ≠ .intake) : (s.ask p).ex.Roomy :=
  h.spares ((s.ask_reported p).law h.pages) (State.ask_room h.room h.pages p) (s.ask_spares ne)

theorem Exchange.Roomy.takeItem (h : s.ex.Roomy) {i : ReportItem} (ne : i ≠ .ask .intake) : (s.takeItem i).ex.Roomy :=
  have laws := State.takeItem_room h.room h.pages i
  h.spares laws.2 laws.1 (s.takeItem_spares ne)

theorem Exchange.Roomy.signals {x y : Exchange} (h : x.Roomy) (g : x.Signals y) : y.Roomy := by
  unfold Exchange.Signals at g
  rw [g]
  exact h.same rfl rfl rfl

theorem Exchange.Roomy.boundary (h : s.ex.Roomy) : s.boundary.ex.Roomy := by
  rw [State.boundary_eq]
  refine State.reportSteps_keeps (law := fun t => t.ex.Roomy) ?_ _ ?_ ?_
  · exact fun n h => h.same rfl rfl rfl
  · exact fun t i ne h => h.takeItem ne
  · exact h.signals s.beforeReports_signals

theorem execBuildCandidate_ex (h : execBuildCandidate s = .next t) : t.ex = s.ex := by
  obtain same | ⟨b, c, targets, tag, -, -, -, -, rfl⟩ := execBuildCandidate_cases h
  · rw [same]
  · exact State.place_ex _ _ _ _ _

/-! ## Units of work (R170) -/

/-- Every unit of work leaves the intake unit. -/
theorem State.Worked.spares (w : s.Worked p u) : s.Spares u := by
  cases w with
  | reference r => exact s.hand_spares (by decide) r
  | lateBuild r => exact s.hand_spares (by decide) r
  | linkReport l => exact s.appendLinkReport_spares l
  | settled e rest _ => exact State.settleRecord_spares (s.takeSettle rest) e _
  | discarded rest => exact .refl _
  | returned e rest => exact State.processReturn_spares { s with tracker := { s.tracker with reverse := rest } } e
  | deadline n i d _ => exact (s.missLatch_spares n).trans ((s.missLatch n).deadlineFate_spares i d)
  | deadlineGone n i => exact s.missLatch_spares n
  | sweepPassed => exact .refl _
  | sweepClosed i w _ => exact s.close_spares (by decide) i .expired
  | airStop i rest o _ => exact s.close_spares (by decide) i o
  | walk => exact s.walkVisit_spares

/-- Every unit of work hands no more than its producer's reservation has left. -/
theorem State.Worked.owes (w : s.Worked p u) (room : s.ex.writer.RoomLaw) (pages : s.ex.writer.PageLaw)
    (holds : s.ex.writer.holds p = true) : u.ex.writer.Owes p 0 := by
  have owes := room.owes pages holds
  have fewer {v : State} (h : v.ex.writer.Owes p 1) : v.ex.writer.Owes p 0 := h.fewer (by decide)
  cases w with
  | reference r => exact State.hand_owes owes r
  | lateBuild r => exact State.hand_owes owes r
  | linkReport l => exact State.appendLinkReport_owes owes l
  | settled e rest _ => exact fewer (State.settleRecord_owes (s := s.takeSettle rest) (n := 1) owes e _)
  | discarded rest => exact owes.fewer (by decide)
  | returned e rest =>
    exact fewer (State.processReturn_owes (s := { s with tracker := { s.tracker with reverse := rest } }) (n := 1) owes e)
  | deadline n i d _ => exact State.deadlineFate_owes (State.missLatch_owes (n := 3) owes n) i d
  | deadlineGone n i => exact Writer.Owes.fewer (n := 3) (State.missLatch_owes (n := 3) owes n) (by decide)
  | sweepPassed => exact owes.fewer (by decide)
  | sweepClosed i w _ => exact Writer.Owes.fewer (n := 1) (State.close_owes (n := 1) owes i .expired) (by decide)
  | airStop i rest o _ => exact Writer.Owes.fewer (n := 1) (State.close_owes (n := 1) owes i o) (by decide)
  | walk => exact Writer.Owes.fewer (n := 1) (State.walkVisit_owes (n := 1) owes) (by decide)

/-! ## The posting in hand (R83, R95) -/

theorem State.applyAmend_ex (s : State) (n : Nat) (p : Posting) : (s.applyAmend n p).ex = (s.rollIfStale n).ex := by
  unfold State.applyAmend
  simp only
  split
  · rfl
  · exact State.moveSlot_ex _ n _

/-- What an order has changed leaves the posting in hand, since the intake unit asks for no reservation while it works (R83). -/
theorem State.Ordered.intake (o : s.Ordered t) (free : .intake ∉ s.ex.writer.waiting) : t.ex.intake = s.ex.intake := by
  cases o with
  | amended n p live =>
    rw [State.applyAmend_ex]
    exact s.rollIfStale_intake n
  | retired n r none => exact s.hand_intake .intake r
  | credited n amount live => exact (State.applyCredit_intake _ n amount).trans (s.rollIfStale_intake n)
  | periodClosed rests => exact (State.ask_spares _ (by decide)).intake free
  | cancelled i occupied rests => exact s.close_intake .intake i .cancelled
  | released n => rw [State.releaseAll_ex]
  | asFound | provisioned | barred | planned | marked | clocked | settings | linked | receiving | airStarted | airStopped => rfl

/-- What an order may still need after what it has changed: no answer of an order hands more than three records before it
(R83). -/
theorem State.Ordered.owes (o : s.Ordered t) (h : s.ex.writer.Owes .intake 8) : t.ex.writer.Owes .intake 0 := by
  have unchanged : s.ex.writer.Owes .intake 0 := h.fewer (by decide)
  cases o with
  | amended n p live =>
    rw [State.applyAmend_ex]
    exact (State.rollIfStale_owes (n := 7) h n).fewer (by decide)
  | retired n r none => exact (State.hand_owes (n := 7) h r).fewer (by decide)
  | credited n amount live =>
    exact (State.applyCredit_owes (State.rollIfStale_owes (n := 7) h n) n amount).fewer (by decide)
  | periodClosed rests =>
    refine State.ask_owes ?_ .rollWalk
    exact unchanged
  | cancelled i occupied rests => exact (State.close_owes (n := 5) h i .cancelled).fewer (by decide)
  | released n =>
    rw [State.releaseAll_ex]
    exact unchanged
  | asFound | provisioned | barred | planned | marked | clocked | settings | linked | receiving | airStarted | airStopped =>
    exact unchanged

/-- While a posting is in hand the intake unit holds its reservation, and so waits for none (R83, R170). -/
theorem Exchange.GuardLaw.waits_not (guard : s.ex.GuardLaw) (pages : s.ex.writer.PageLaw) {n : Nat} {q : Posting}
    (working : s.ex.intake = .working n q) : .intake ∉ s.ex.writer.waiting := fun waits => by
  have holds := guard.reserved (.inr ⟨n, q, working⟩)
  rw [pages.requests _ waits] at holds
  cases holds

theorem State.answer_laws {n k : Nat} {q : Posting} (h : s.ex.writer.Owes .intake n) (working : s.ex.intake = .working k q)
    (code : AnswerCode) (data : List Word) : (s.answer code data).ex.writer.RoomLaw ∧ (s.answer code data).ex.IntakeLaw :=
  ⟨State.answer_room h working code data, (State.answer_whole h working code data).law⟩

/-- A message's requests draw on the reservation as far as the point they come to says (R83, R85 to R91). -/
theorem State.message_laws (h : s.ex.Roomy) (holds : s.ex.writer.holds .intake = true) {k : Nat} {q : Posting}
    (working : s.ex.intake = .working k q) (code : (Posting.code q).toNat = 0x01) :
    (s.message q).ex.writer.RoomLaw ∧ (s.message q).ex.IntakeLaw := by
  have owes := h.owes_intake holds
  have least {x : Exchange} (same : x.intake = s.ex.intake) : x.least = x.progress.least := by
    unfold Exchange.least
    rw [same, working]
    exact if_pos code
  have advanced {v : State} {g : Progress} (o : v.ex.writer.Owes .intake g.least) (same : v.ex.intake = s.ex.intake) :
      (v.advance g).ex.writer.RoomLaw ∧ (v.advance g).ex.IntakeLaw := by
    have law : (v.advance g).ex.Roomy := Writer.Owes.roomy (n := g.least) o (Nat.le_of_eq (least same)) g.least_le.1
    exact ⟨law.room, law.intake⟩
  rw [least rfl] at owes
  have checks (eight : 8 ≤ s.ex.progress.least) :
      (s.checkMessage q).ex.writer.RoomLaw ∧ (s.checkMessage q).ex.IntakeLaw := by
    unfold State.checkMessage
    split
    · exact advanced (owes.fewer (Nat.le_trans (Progress.least_le _).2 eight)) rfl
    · exact advanced (owes.fewer (Nat.le_trans (Progress.least_le _).2 eight)) rfl
  unfold State.message
  split
  · next e => exact checks (by rw [e]; decide)
  · next e => exact checks (by rw [e]; exact Nat.le_refl 8)
  · next d e =>
    rw [e] at owes
    have rolled := State.rollIfStale_owes (n := 7) owes d.subscriber
    unfold State.rateMessage
    simp only
    split
    · refine advanced ?_ ?_
      · rw [State.charged_ex]
        exact rolled
      · rw [State.charged_ex]
        exact s.rollIfStale_intake d.subscriber
    · exact advanced (rolled.fewer (show 5 ≤ 7 by decide)) (s.rollIfStale_intake d.subscriber)
  · next d c e =>
    rw [e] at owes
    have kept := s.commit_writer d c.rating.charge c.refundable
    exact advanced (by rw [kept.1]; exact owes) kept.2
  · next d c e eq =>
    rw [eq] at owes
    have reported := State.reportMessage_owes (n := 5) owes d c e
    have law : (s.reportMessage d c e).ex.Roomy := reported.1.roomy (Nat.le_of_eq (least reported.2)) (Nat.le_refl 5)
    exact ⟨law.room, law.intake⟩
  · exact State.answer_laws owes working _ _

/-! ## Every case -/

theorem State.did_room (guard : s.ex.GuardLaw) (h : s.ex.Roomy) (d : s.Did t) :
    t.ex.writer.RoomLaw ∧ t.ex.IntakeLaw := by
  have laws {v : State} (r : v.ex.Roomy) : v.ex.writer.RoomLaw ∧ v.ex.IntakeLaw := ⟨r.room, r.intake⟩
  have same {v : State} (writer : v.ex.writer = s.ex.writer) (intake : v.ex.intake = s.ex.intake)
      (progress : v.ex.progress = s.ex.progress) : v.ex.Roomy := h.same writer intake progress
  have reset {x : Exchange} (writer : x.writer = Writer.reset) : x.Roomy := by
    refine ⟨writer ▸ Writer.reset_pageLaw, writer ▸ Writer.reset_room, ?_⟩
    unfold Exchange.IntakeLaw
    rw [writer]
    nofun
  cases d with
  | nothing => exact laws h
  | powerOn => exact laws (reset rfl)
  | loaded profile =>
    rw [State.load_eq]
    refine laws (.ask (reset ?_) (by decide))
    rw [State.loadedBlocks_ex, Exchange.loaded_writer]
  | engineReset =>
    have blocks : s.resetBlocks.ex.Roomy := reset (by rw [State.resetBlocks_ex, Exchange.engineReset_writer])
    have asked := (blocks.ask (p := .rollWalk) (by decide)).ask (p := .monitor) (by decide)
    rw [← State.engineReset_eq] at asked
    exact laws (asked.same rfl rfl rfl)
  | hosted => exact laws (same rfl rfl rfl)
  | bodyWritten w rest outside => exact laws (same rfl rfl rfl)
  | posted n rest free lt =>
    refine laws (.wakeIntake ?_ _)
    exact h.same rfl rfl rfl
  | withdrawn n rest posted =>
    refine laws (.wakeIntake ?_ _)
    exact h.same rfl rfl rfl
  | slotReturned n rest answered => exact laws (same rfl rfl rfl)
  | pageReturned p rest filled =>
    exact ⟨Exchange.returnPage_room (x := s.ex.took rest) h.room h.pages filled s.stamp,
      (Exchange.returnPage_spares (s.ex.took rest) s.stamp p).law h.pages.requests h.intake⟩
  | mirrored m => exact laws (same rfl rfl rfl)
  | taken n rest taking queue =>
    refine ⟨h.room, fun k held => Nat.le_trans (Exchange.least_le _) ?_⟩
    have whole := h.intake k held
    simp only [Exchange.least, taking] at whole
    exact whole
  | takenNone taking queue =>
    have owes := h.owes_intake (guard.reserved (.inl taking))
    exact ⟨Exchange.giveBack_room owes s.stamp, Writer.IntakeWhole.law (s.ex.giveBack_whole s.stamp)⟩
  | requested n p working code => exact State.message_laws h (guard.reserved (.inr ⟨n, p, working⟩)) working code
  | copied n p c working other =>
    refine ⟨h.room, fun k held => ?_⟩
    have whole := h.intake k held
    simp only [Exchange.least, State.advance_intake, working, if_neg other] at whole ⊢
    exact whole
  | answered n p code data working other o =>
    have owes := h.owes_intake (guard.reserved (.inr ⟨n, p, working⟩))
    simp only [Exchange.least, working, if_neg other] at owes
    exact State.answer_laws (o.owes owes) ((o.intake (guard.waits_not h.pages working)).trans working) code data
  | boundary => exact laws h.boundary
  | monitored m from_ => exact laws (.ask (s := s.setMonitor m) (same rfl rfl rfl) (by decide))
  | built run => exact laws (same (by rw [execBuildCandidate_ex run]) (by rw [execBuildCandidate_ex run])
      (by rw [execBuildCandidate_ex run]))
  | observed l kind at_ bit choices =>
    refine laws (.ask ?_ (by decide))
    exact h.same rfl rfl rfl
  | counted l r => exact laws h
  | accepted l bits => exact laws (.ask (s := s.acceptMessage l bits) h (by decide))
  | sweepAsked g =>
    refine laws (.ask ?_ (by decide))
    exact h
  | swept => exact laws h
  | walked holds flies more left =>
    have owes := State.walkVisit_owes (n := 1) (h.room.owes h.pages holds)
    exact ⟨owes.room left, s.walkVisit_spares.law h.pages.requests h.intake⟩
  | walkEnded holds flies past =>
    have visit := State.walkVisit_owes (n := 1) (h.room.owes h.pages holds)
    have handed (r : Record) : (s.walkStep.hand .rollWalk r).ex.writer.Owes .rollWalk 0 := State.hand_owes (s := s.walkStep) visit r
    refine ⟨State.giveBack_room (handed _), ?_⟩
    refine Exchange.SparesIntake.law (s.walkVisit_spares.trans ?_) h.pages.requests h.intake
    exact (s.walkStep.hand_spares (by decide) _).trans (Exchange.giveBack_spares _ _ _)
  | unit holds w =>
    exact ⟨State.endUnit_room (w.owes h.room h.pages holds), (w.spares.trans (State.endUnit_spares _ w.producer)).law h.pages.requests h.intake⟩
  | pageClosed =>
    exact ⟨Exchange.closeIfDue_room h.room h.pages s.stamp,
      (s.ex.closeIfDue_spares s.stamp).law h.pages.requests h.intake⟩

end

/-- Settles O5: every unit of work hands within its reservation, and returns what is left of it. -/
theorem stepKeepsPageLaw : Obligations.StepKeepsPageLaw := by
  unfold Obligations.StepKeepsPageLaw
  refine ⟨fun s t pages run => ?_, fun s t guard pages room intake run => ?_⟩
  · exact step_keeps (law := fun s => s.ex.writer.PageLaw) (fun s rest law => law) (fun s t => State.did_pageLaw) pages run
  · exact step_reaches (pre := fun s => s.ex.GuardLaw ∧ s.ex.Roomy) (post := fun t => t.ex.writer.RoomLaw ∧ t.ex.IntakeLaw)
      (fun s rest law => law) (fun s t law => State.did_room law.1 law.2) ⟨guard, pages, room, intake⟩ run

end Sys2Proof.Machine
end

section
/-! Every step keeps keying to KEYED links with a zone, a frame and a usable reference (O6). -/

namespace Sys2Proof.Machine

/-! ## What leaves the law -/

section
variable {s t u : State} {p : Producer}

/-- A link that keys on, was keyed before, stands KEYED where it stood KEYED, and keeps its settings then. -/
def Link.KeysOn (c d : Link) : Prop :=
  d.keyed = true → c.keyed = true ∧ (c.state = .keyed → d.state = .keyed ∧ d.settings = c.settings)

theorem Link.KeysOn.refl (c : Link) : c.KeysOn c := fun keyed => ⟨keyed, fun state => ⟨state, rfl⟩⟩

/-- Nothing is keyed anew, and engine, frame and reference go on. -/
theorem State.KeyLaw.goesOn (h : s.KeyLaw) (links : ∀ l, (s.link l).KeysOn (t.link l))
    (engine : s.engine.state = .running ∨ s.engine.state = .stopping → t.engine.state = .running ∨ t.engine.state = .stopping)
    (frame : t.frame = s.frame)
    (reference : s.air.monitor.state = .locked ∨ s.air.monitor.state = .holdover →
      t.air.monitor.state = .locked ∨ t.air.monitor.state = .holdover) : t.KeyLaw where
  keyed := fun l keyed => by
    obtain ⟨was, stands⟩ := links l keyed
    obtain ⟨state, zone⟩ := h.keyed l was
    obtain ⟨still, settings⟩ := stands state
    exact ⟨still, settings ▸ zone⟩
  engine := fun l keyed => engine (h.engine l (links l keyed).1)
  frame := fun l keyed => frame ▸ h.frame l (links l keyed).1
  reference := fun l keyed => reference (h.reference l (links l keyed).1)

/-- The parts of the state the law reads. -/
structure State.SameKeying (s t : State) : Prop where
  links : t.links = s.links
  engine : t.engine = s.engine
  frame : t.frame = s.frame
  air : t.air = s.air

theorem State.KeyLaw.same (h : s.KeyLaw) (links : t.links = s.links) (engine : t.engine = s.engine) (frame : t.frame = s.frame)
    (air : t.air.monitor.state = s.air.monitor.state) : t.KeyLaw := by
  refine h.goesOn (fun l => ?_) (fun e => engine ▸ e) frame fun e => air ▸ e
  unfold State.link
  rw [links]
  exact .refl _

theorem State.KeyLaw.beside (h : s.KeyLaw) (k : s.SameKeying t) : t.KeyLaw :=
  h.same k.links k.engine k.frame (by rw [k.air])

/-- With no link keyed the law holds of any state. -/
theorem State.KeyLaw.dark (none : ∀ l, (s.link l).keyed = false) : s.KeyLaw := by
  have never (l : Index8) (keyed : (s.link l).keyed = true) : False := by
    rw [none] at keyed
    cases keyed
  exact ⟨fun l k => (never l k).elim, fun l k => (never l k).elim, fun l k => (never l k).elim, fun l k => (never l k).elim⟩

theorem Link.KeysOn.of_dark {c d : Link} (none : d.keyed = false) : c.KeysOn d := fun keyed => by
  rw [none] at keyed
  cases keyed

theorem State.KeyLaw.setLink (h : s.KeyLaw) {l : Index8} {c : Link} (on : (s.link l).KeysOn c) : (s.setLink l c).KeyLaw := by
  refine h.goesOn (fun k => ?_) id rfl id
  rw [State.link_setLink]
  split
  · next same => exact same ▸ on
  · exact .refl _

/-! ## A controller's observations and marks (R135 to R142) -/

theorem Link.takeFault_keysOn (d : Link) (kind : Observation) (at_ : Sighting) : d.KeysOn (d.takeFault kind at_) := by
  unfold Link.takeFault
  extract_lets strike
  have struck : d.KeysOn strike := by
    unfold strike
    split
    · exact .of_dark rfl
    · exact .refl d
  split
  case h_1 | h_2 => exact struck
  all_goals exact .refl d

theorem Link.takeClear_keysOn (d : Link) (at_ : Sighting) : d.KeysOn (d.takeClear at_) := by
  unfold Link.takeClear
  split
  case h_3 tripped =>
    simp only
    split
    · exact fun keyed => ⟨keyed, fun other => absurd (tripped.symm.trans other) (by decide)⟩
    · exact .refl d
  all_goals exact .refl d

/-- An observation that leaves a link keyed leaves its state and settings. -/
theorem Link.observe_keysOn (c : Link) (kind : Observation) (at_ : Sighting) : c.KeysOn (c.observe kind at_) := by
  unfold Link.observe
  split
  · exact .refl c
  cases kind with
  | clear => exact Link.takeClear_keysOn { c.countTaken .clear with lastObservation := some .clear, alert := _ } at_
  | alarm => exact Link.takeFault_keysOn { c.countTaken .alarm with lastObservation := some .alarm, alert := _ } .alarm at_
  | silent => exact Link.takeFault_keysOn { c.countTaken .silent with lastObservation := some .silent, alert := _ } .silent at_

/-- The mark ends the keying of the frame before. -/
theorem Link.beforeKeying_keyed (c : Link) (v : MarkView) : (c.beforeKeying v).keyed = false := by
  have ended : (c.endFrame v).keyed = false := by
    rw [← Bool.not_eq_true]
    intro keyed
    unfold Link.endFrame at keyed
    simp only at keyed
    split at keyed
    · split at keyed
      · exact Bool.false_ne_true (Link.observe_keysOn { c with carried := c.keyed, keyed := false } _ _ keyed).1
      · exact Bool.false_ne_true keyed
    · exact Bool.false_ne_true keyed
  have cleaned : ((c.endFrame v).cleanFrame v).keyed = false := ((c.endFrame v).cleanFrame_spec v).2.2.1.trans ended
  unfold Link.beforeKeying Link.changeOver
  simp only
  split_ifs
  all_goals first | exact cleaned | rfl

/-- A link a mark leaves keyed is KEYED with a zone, the engine RUNNING and the reference usable (R137). -/
theorem Link.takeMark_keyed {c : Link} {v : MarkView} (keyed : (c.takeMark v).keyed = true) :
    (c.takeMark v).state = .keyed ∧ (c.takeMark v).settings.zone.isSome = true ∧ v.running = true ∧ v.reference = true := by
  unfold Link.takeMark at keyed ⊢
  rw [Link.raiseDivider_eq] at keyed ⊢
  have off := c.beforeKeying_keyed v
  revert off keyed
  generalize c.beforeKeying v = d
  unfold Link.judgeKeying
  split
  · next judged =>
    intro keyed off
    simp only [Bool.and_eq_true] at keyed ⊢
    exact ⟨judged.2, keyed.2, judged.1, keyed.1.1⟩
  · intro keyed off
    exact absurd (off.symm.trans keyed) Bool.false_ne_true

/-! ## The boundary (R1, R4, R137) -/

theorem State.offerStatus_keysOn (l k : Index8) : (s.link k).KeysOn ((s.offerStatus l).link k) := by
  unfold State.offerStatus
  simp only
  split
  all_goals
    rw [State.link_setLink]
    split
    · next same => exact same ▸ .refl _
    · exact .refl _

theorem State.KeyLaw.takeItem (h : s.KeyLaw) (i : ReportItem) : (s.takeItem i).KeyLaw := by
  cases i with
  | age => exact h.same rfl rfl rfl rfl
  | ask p => exact h.same (by simp [State.takeItem]) (by simp) (by simp) (by simp)
  | offer l => exact h.goesOn (State.offerStatus_keysOn l) (by simp) (by simp) (by simp)

theorem State.beginFrame_frame (s : State) (m : Nat) (lit : Nat → ZoneSet) : (s.beginFrame m lit).frame.isSome = true := by
  unfold State.beginFrame
  simp

/-- A mark keys links anew, the engine RUNNING and the reference usable, for the frame it begins (R137, R145). -/
theorem State.takeMark_keyLaw (s : State) : s.takeMark.KeyLaw := by
  have taken (l : Index8) : s.handReport.linksTakeMark.link l = (s.handReport.link l).takeMark s.handReport.markView := by
    simp [State.linksTakeMark, State.link]
  unfold State.takeMark
  simp only
  split
  · next running =>
    have links (m : Nat) (lit : Nat → ZoneSet) (l : Index8) :
        (s.handReport.linksTakeMark.beginFrame m lit).link l = (s.handReport.link l).takeMark s.handReport.markView := by
      rw [State.link, State.beginFrame_links, ← State.link, taken]
    refine ⟨fun l keyed => ?_, fun _ _ => .inl (by simpa using running), fun _ _ => State.beginFrame_frame _ _ _, fun l keyed => ?_⟩
    · rw [links] at keyed ⊢
      have marked := Link.takeMark_keyed keyed
      exact ⟨marked.1, marked.2.1⟩
    · rw [links] at keyed
      have reference := (Link.takeMark_keyed keyed).2.2.2
      simpa [State.markView] using reference
  · next rests =>
    refine .dark fun l => ?_
    rw [State.link, State.endStopping_links, ← State.link, taken, ← Bool.not_eq_true]
    intro keyed
    have running := (Link.takeMark_keyed keyed).2.2.1
    simp only [State.markView, State.handReport_engine, decide_eq_true_eq] at running
    exact rests running

/-- The holdover count moves the monitor from HOLDOVER to LOST alone (R10). -/
theorem Monitor.countHoldover_state (m : Monitor) (limit : Nat) :
    (m.countHoldover limit).state = m.state ∨ (m.state = .holdover ∧ (m.countHoldover limit).state = .lost) := by
  unfold Monitor.countHoldover
  split_ifs with holdover uncounted past
  · exact .inl rfl
  · exact .inr ⟨holdover, rfl⟩
  · exact .inl holdover.symm
  · exact .inl rfl

/-- A change of the monitor that leaves a usable reference usable. -/
theorem State.KeyLaw.setMonitor (h : s.KeyLaw) {m : Monitor}
    (usable : s.air.monitor.state = .locked ∨ s.air.monitor.state = .holdover → m.state = .locked ∨ m.state = .holdover) :
    (s.setMonitor m).KeyLaw := by
  refine h.goesOn (fun l => .refl _) (fun engine => ?_) rfl usable
  obtain e | e := engine
  all_goals simp [State.setMonitor, e]

theorem State.KeyLaw.beforeReports (h : s.KeyLaw) : s.beforeReports.KeyLaw := by
  unfold State.beforeReports
  split_ifs with mark lost
  · exact State.takeMark_keyLaw _
  · exact .dark fun l => by simp [State.endKeying, State.link]
  · unfold State.airSteps at lost ⊢
    have ticked : (s.tick false).KeyLaw := h.same (by simp) (by simp) (by simp) rfl
    refine ticked.setMonitor fun usable => ?_
    obtain same | ⟨holdover, entered⟩ :=
      (s.tick false).air.monitor.countHoldover_state (s.tick false).engine.office.holdoverLimit
    · exact same.symm ▸ usable
    · exact absurd ⟨holdover, entered⟩ lost

theorem State.KeyLaw.boundary (h : s.KeyLaw) : s.boundary.KeyLaw := by
  rw [State.boundary_eq]
  exact State.reportSteps_keeps (law := State.KeyLaw) (fun n h => h.same rfl rfl rfl rfl) _
    (fun t i _ h => h.takeItem i) h.beforeReports

/-! ## The other cases -/

/-- A pulse and an expiry leave a usable reference usable: LOCKED falls to HOLDOVER, and HOLDOVER rises to LOCKED (R8, R9). -/
def Monitor.Usable (m n : Monitor) : Prop :=
  m.state = .locked ∨ m.state = .holdover → n.state = .locked ∨ n.state = .holdover

theorem Monitor.missed_usable (m : Monitor) (onBoundary : Bool) : m.Usable (m.missed onBoundary) := by
  unfold Monitor.missed
  split
  case h_3 => exact fun _ => .inr rfl
  all_goals exact id

theorem Monitor.goodPulse_usable (m : Monitor) : m.Usable m.goodPulse := by
  have raised : m.Usable m.raiseGood := by
    unfold Monitor.raiseGood
    split
    · exact fun _ => .inl rfl
    · exact id
  unfold Monitor.goodPulse
  split
  case h_1 | h_3 => exact id
  all_goals exact raised

theorem Monitor.startingPulse_usable (m : Monitor) : m.Usable m.startingPulse := by
  unfold Monitor.startingPulse
  split
  case h_1 absent =>
    rintro (e | e)
    · rw [absent] at e
      cases e
    · rw [absent] at e
      cases e
  all_goals exact id

theorem Monitor.pulse_usable (m : Monitor) (time next : Nat) : m.Usable (m.pulse time next) := by
  have judged : m.Usable (m.judgePulse time next) := by
    unfold Monitor.judgePulse
    split
    · exact m.startingPulse_usable
    · split_ifs
      · exact m.missed_usable _
      · exact m.goodPulse_usable
      · exact fun usable => Monitor.startingPulse_usable _ (m.missed_usable _ usable)
  exact judged

theorem Monitor.expire_usable (m : Monitor) (next : Nat) : m.Usable (m.expire next) := by
  unfold Monitor.expire
  split
  · exact m.missed_usable _
  · exact id

theorem State.applyAmend_keying (s : State) (n : Nat) (p : Posting) : s.SameKeying (s.applyAmend n p) := by
  unfold State.applyAmend
  simp only
  split
  · exact ⟨by simp, by simp, by simp, by simp⟩
  · exact ⟨by simp, by simp, by simp, by simp⟩

theorem State.message_keying (s : State) (p : Posting) : s.SameKeying (s.message p) := by
  have checked : s.SameKeying (s.checkMessage p) := by
    unfold State.checkMessage
    split
    · exact ⟨rfl, rfl, rfl, rfl⟩
    · exact ⟨rfl, rfl, rfl, rfl⟩
  unfold State.message
  split
  case h_1 | h_2 => exact checked
  all_goals exact ⟨by simp, by simp, by simp, by simp⟩

theorem execBuildCandidate_keying (h : execBuildCandidate s = .next t) : s.SameKeying t := by
  obtain same | ⟨b, c, targets, tag, -, -, -, -, rfl⟩ := execBuildCandidate_cases h
  · rw [same]
    exact ⟨rfl, rfl, rfl, rfl⟩
  · exact ⟨by simp, by simp, by simp, by simp⟩

theorem State.KeyLaw.ordered (h : s.KeyLaw) (o : s.Ordered t) : t.KeyLaw := by
  have idle (rests : ¬ (s.engine.state = .running ∨ s.engine.state = .stopping)) (l : Index8) : (s.link l).keyed = false :=
    Bool.not_eq_true _ ▸ fun keyed => rests (h.engine l keyed)
  cases o with
  | asFound => exact h
  | provisioned p vacant => exact h.same rfl rfl rfl rfl
  | amended n p live => exact h.beside (s.applyAmend_keying n p)
  | barred n to_ live served => exact h.same rfl rfl rfl rfl
  | retired n r none => exact h.same rfl rfl rfl rfl
  | credited n amount live => exact h.same (by simp) (by simp) (by simp) (by simp)
  | planned plans => exact h.same rfl rfl rfl rfl
  | periodClosed rests => exact h.same (by simp) (by simp) (by simp) (by simp)
  | marked i flies => exact h.same rfl rfl rfl rfl
  | cancelled i occupied rests => exact h.same (by simp) (by simp) (by simp) (by simp)
  | released n => exact h.same (by simp) (by simp) (by simp) (by simp)
  | clocked day second => exact h.same rfl rfl rfl rfl
  | settings o classes => exact h.goesOn (fun l => .refl _) id rfl id
  | linked l c keying =>
    refine h.setLink fun keyed => ?_
    obtain ⟨was, setup | stands⟩ := keying keyed
    · have engine := h.engine l was
      rw [setup] at engine
      simp at engine
    · exact ⟨was, stands⟩
  | receiving l r => exact h.same rfl rfl rfl rfl
  | airStarted setup next cause => exact .dark (idle (by simp [setup]))
  | airStopped next from_ =>
    obtain starting | ⟨-, rfl⟩ := from_
    · exact .dark (idle (by simp [starting]))
    · exact h.goesOn (fun l => .refl _) (fun _ => .inr rfl) rfl id

/-- A link report appended clears the report alone (R143). -/
theorem State.KeyLaw.appendLinkReport (h : s.KeyLaw) (l : Index8) : (s.appendLinkReport l).KeyLaw := by
  have handed (r : Record) : (s.hand .linkUnit r).KeyLaw := h.same rfl rfl rfl rfl
  unfold State.appendLinkReport
  simp only
  split
  · split
    · exact (handed _).setLink (.refl (s.link l))
    · exact h
  · split
    · exact (handed _).setLink (.refl (s.link l))
    · exact h

theorem State.KeyLaw.worked (h : s.KeyLaw) (w : s.Worked p u) : u.KeyLaw := by
  cases w with
  | linkReport l => exact h.appendLinkReport l
  | reference r => exact h.same (by simp) (by simp) (by simp) rfl
  | lateBuild r => exact h.same (by simp) (by simp) (by simp) (by simp)
  | settled e rest _ =>
    exact (h.same (t := s.takeSettle rest) rfl rfl rfl rfl).same (by simp) (by simp) (by simp) (by simp)
  | discarded rest => exact h.same rfl rfl rfl rfl
  | returned e rest => exact h.same (by simp) (by simp) (by simp) (by simp)
  | deadline n i d _ => exact h.same (by simp) (by simp) (by simp) (by simp)
  | deadlineGone n i => exact h.same (by simp) (by simp) (by simp) (by simp)
  | sweepPassed => exact h.same rfl rfl rfl rfl
  | sweepClosed i w _ => exact h.same (by simp) (by simp) (by simp) (by simp)
  | airStop i rest o _ => exact h.same (by simp) (by simp) (by simp) (by simp)
  | walk => exact h.same (by simp [State.walkStep]) (by simp [State.walkStep]) (by simp [State.walkStep]) (by simp [State.walkStep])

theorem State.KeyLaw.did (h : s.KeyLaw) (d : s.Did t) : t.KeyLaw := by
  cases d with
  | nothing => exact h
  | powerOn => exact .dark fun l => by simp [State.link, State.reset, Link.reset]
  | loaded profile =>
    rw [State.load_eq]
    exact .dark fun l => by simp [State.link, State.loadedBlocks, Link.reset]
  | engineReset =>
    rw [State.engineReset_eq]
    exact .dark fun l => by simp [State.link, State.resetBlocks, Link.reset]
  | hosted => exact h.same rfl rfl rfl rfl
  | bodyWritten w rest outside => exact h.same rfl rfl rfl rfl
  | posted n rest free lt => exact h.same rfl rfl rfl rfl
  | withdrawn n rest posted => exact h.same rfl rfl rfl rfl
  | slotReturned n rest answered => exact h.same rfl rfl rfl rfl
  | pageReturned p rest filled => exact h.same rfl rfl rfl rfl
  | mirrored m => exact h.same rfl rfl rfl rfl
  | taken n rest taking queue => exact h.same rfl rfl rfl rfl
  | takenNone taking queue => exact h.same rfl rfl rfl rfl
  | requested n p working code => exact h.beside (s.message_keying p)
  | copied n p c working other => exact h.same rfl rfl rfl rfl
  | answered n p code data working other o => exact (h.ordered o).same (by simp) (by simp) (by simp) (by simp)
  | boundary => exact h.boundary
  | monitored m from_ =>
    have usable : s.air.monitor.Usable m := by
      obtain ⟨time, rfl⟩ | rfl := from_
      · exact s.air.monitor.pulse_usable time _
      · exact s.air.monitor.expire_usable _
    exact (h.setMonitor usable).same (by simp) (by simp) (by simp) (by simp)
  | built run => exact h.beside (execBuildCandidate_keying run)
  | observed l kind at_ bit choices =>
    have observed : (s.setLink l (Link.observe { s.link l with statusTaken := true } kind at_)).KeyLaw :=
      h.setLink (Link.observe_keysOn { s.link l with statusTaken := true } kind at_)
    exact observed.same (by simp) (by simp) (by simp) (by simp)
  | counted l r => exact h.same rfl rfl rfl rfl
  | accepted l bits =>
    exact (h.same (t := s.acceptMessage l bits) rfl rfl rfl rfl).same (by simp) (by simp) (by simp) (by simp)
  | sweepAsked g => exact h.same (by simp) (by simp) (by simp) (by simp)
  | swept => exact h.same rfl rfl rfl rfl
  | walked holds flies more left =>
    exact h.worked .walk
  | walkEnded holds flies past =>
    exact (h.worked .walk).same (by simp) (by simp) (by simp) (by simp)
  | unit holds w => exact (h.worked w).same (by simp) (by simp) (by simp) (by simp)
  | pageClosed => exact h.same rfl rfl rfl rfl

end

/-- Settles O6: a link is keyed anew at a frame mark alone, which judges the law whole; what ends RUNNING, the frame or the
reference ends keying. -/
theorem stepKeepsKeyLaw : Obligations.StepKeepsKeyLaw := by
  unfold Obligations.StepKeepsKeyLaw
  exact fun s t h run => step_keeps (law := State.KeyLaw) (fun s rest h => h.same rfl rfl rfl rfl) (fun s t h => h.did) h run

end Sys2Proof.Machine
end

section
/-! Every step keeps the period numbers at the office period, or one behind it ahead of the roll walk (O8). -/

namespace Sys2Proof.Machine

section
variable {s t u : State} {p : Producer}

/-- What the law reads of a state, with each period number as it was or at the office period (R57, R60). -/
structure State.SamePeriods (s t : State) : Prop where
  period : t.account.period = s.account.period
  flies : t.account.walk.inFlight = s.account.walk.inFlight
  next : t.account.walk.next = s.account.walk.next
  current : ∀ n, (t.sub n).billing.state ≠ .vacant → (t.sub n).billing.period = s.account.period ∨
    ((s.sub n).billing.state ≠ .vacant ∧ (t.sub n).billing.period = (s.sub n).billing.period)

theorem State.SamePeriods.of (account : t.account = s.account) : s.SamePeriods t := by
  refine ⟨by rw [account], by rw [account], by rw [account], fun n live => ?_⟩
  unfold State.sub at live ⊢
  rw [account] at live ⊢
  exact .inr ⟨live, rfl⟩

theorem State.SamePeriods.trans (h : s.SamePeriods t) (k : t.SamePeriods u) : s.SamePeriods u := by
  refine ⟨k.period.trans h.period, k.flies.trans h.flies, k.next.trans h.next, fun n live => ?_⟩
  obtain office | ⟨was, same⟩ := k.current n live
  · exact .inl (office.trans h.period)
  · rw [same]
    exact h.current n was

theorem State.PeriodLaw.along (h : s.PeriodLaw) (k : s.SamePeriods t) : t.PeriodLaw := by
  refine ⟨k.period ▸ h.office, fun n lt live => ?_⟩
  rw [k.period, k.flies, k.next]
  obtain office | ⟨was, same⟩ := k.current n live
  · exact .inl office
  · rw [same]
    exact h.current n lt was

/-- A subscriber's record written with a billing group that is VACANT, or at a period number it may have. -/
theorem State.SamePeriods.setSub (c : s.Canon) (n : Nat) (v : Subscriber)
    (current : v.billing.state ≠ .vacant → v.billing.period = s.account.period ∨
      ((s.sub n).billing.state ≠ .vacant ∧ v.billing.period = (s.sub n).billing.period)) : s.SamePeriods (s.setSub n v) := by
  refine ⟨rfl, rfl, rfl, fun m live => ?_⟩
  rw [State.sub_setSub c.subscribers] at live ⊢
  split at live
  · next same =>
    rw [if_pos same, same]
    exact current live
  · next other =>
    rw [if_neg other]
    exact .inr ⟨live, rfl⟩

theorem State.Acts.samePeriods (h : s.Acts p t) (c : s.Canon) : s.SamePeriods t := by
  induction h with
  | refl => exact .of rfl
  | hand _ _ ih => exact ih.trans (.of rfl)
  | message _ _ _ ih => exact ih.trans (.of rfl)
  | reach before n r ih => exact ih.trans (.setSub (before.canon c) n _ fun live => .inr ⟨live, rfl⟩)
  | group before n g ih => exact ih.trans (.setSub (before.canon c) n _ fun live => .inr ⟨live, rfl⟩)
  | billing before n b state period ih =>
    refine ih.trans (.setSub (before.canon c) n _ fun live => ?_)
    exact period.symm.imp id fun same => ⟨state ▸ live, same⟩
  | notice _ _ ih => exact ih.trans (.of rfl)
  | aside _ _ subscribers period flies next _ ih =>
    refine ih.trans ⟨period, flies, next, fun n live => .inr ?_⟩
    unfold State.sub at live ⊢
    rw [subscribers] at live ⊢
    exact ⟨live, rfl⟩

/-- Where no subscriber is in service the law holds. -/
theorem State.PeriodLaw.vacant (office : s.account.period < 65536) (none : ∀ n, (s.sub n).billing.state = .vacant) :
    s.PeriodLaw := ⟨office, fun n _ live => absurd (none n) live⟩

/-- While no walk is in flight every period number is the office period. -/
theorem State.PeriodLaw.rests (h : s.PeriodLaw) (rests : s.account.walk.inFlight = false) {n : Nat}
    (lt : n < Config.subscribers) (live : (s.sub n).billing.state ≠ .vacant) :
    (s.sub n).billing.period = s.account.period := by
  obtain office | ⟨flies, -⟩ := h.current n lt live
  · exact office
  · rw [rests] at flies
    cases flies

/-! ## The walk (R59 to R63) -/

theorem State.walkVisit_visited (c : s.Canon) (live : ((s.walkVisit).sub s.account.walk.next).billing.state ≠ .vacant) :
    ((s.walkVisit).sub s.account.walk.next).billing.period = s.account.period := by
  unfold State.walkVisit at live ⊢
  simp only at live ⊢
  split
  · have handed (r : Record) : Table.wf Subscriber.powerOn (s.hand .rollWalk r).account.subscribers = true := c.subscribers
    show ((s.roll .rollWalk s.account.walk.next .walk).sub s.account.walk.next).billing.period = _
    rw [State.roll, State.setBilling, State.sub_setSub (handed _), if_pos rfl]
  · next passed =>
    rw [if_neg passed] at live
    by_contra stale
    exact passed ⟨live, decide_eq_true stale⟩

theorem State.PeriodLaw.walkStep (h : s.PeriodLaw) (c : s.Canon) : s.walkStep.PeriodLaw := by
  have visit := State.walkVisit_acts.samePeriods c
  have visited := h.along visit
  refine ⟨visited.office, fun n lt live => ?_⟩
  obtain office | ⟨flies, next, behind⟩ := visited.current n lt live
  · exact .inl office
  · obtain here | past := Nat.eq_or_lt_of_le next
    · have same : n = s.account.walk.next := here.symm.trans visit.next
      rw [same] at live ⊢
      exact .inl ((State.walkVisit_visited c live).trans visit.period.symm)
    · exact .inr ⟨flies, past, behind⟩

/-- Past the last subscriber every period number is the office period (R63). -/
theorem State.PeriodLaw.walkEnd (h : s.PeriodLaw) (past : Config.subscribers ≤ s.account.walk.next) : s.walkEnd.PeriodLaw := by
  refine ⟨h.office, fun n lt live => .inl ?_⟩
  obtain office | ⟨-, next, -⟩ := h.current n lt live
  · exact office
  · omega

theorem State.PeriodLaw.periodClosed (h : s.PeriodLaw) (rests : s.account.walk.inFlight = false) :
    ({ s with account := { s.account with period := (s.account.period + 1) % 65536, walk := ⟨true, 0, 0⟩ } } : State).PeriodLaw := by
  refine ⟨Nat.mod_lt _ (by decide), fun n lt live => .inr ⟨rfl, Nat.zero_le n, ?_⟩⟩
  have office := h.office
  have current := h.rests rests lt live
  show (s.sub n).billing.period = ((s.account.period + 1) % 65536 + 65535) % 65536
  omega

/-! ## Every case -/

theorem State.PeriodLaw.ordered (h : s.PeriodLaw) (c : s.Canon) (o : s.Ordered t) : t.PeriodLaw := by
  cases o with
  | asFound => exact h
  | provisioned p vacant => exact h.along (.setSub c p.subscriber _ fun _ => .inl rfl)
  | amended n p live => exact h.along ((State.applyAmend_acts n p).samePeriods c)
  | barred n to_ live served => exact h.along (.setSub c n _ fun _ => .inr ⟨live, rfl⟩)
  | retired n r none =>
    have handed : (s.hand .intake r).Canon := ⟨c.subscribers, c.records⟩
    exact h.along (.trans (t := s.hand .intake r) (.of rfl) (.setSub handed n Subscriber.powerOn fun live => absurd rfl live))
  | credited n amount live =>
    exact h.along (((State.rollIfStale_acts n).trans (State.applyCredit_acts n amount)).samePeriods c)
  | planned plans => exact h.along ⟨rfl, rfl, rfl, fun n live => .inr ⟨live, rfl⟩⟩
  | periodClosed rests => exact (h.periodClosed rests).along (.of (by simp))
  | marked i flies => exact h.along (.of rfl)
  | cancelled i occupied rests => exact h.along ((State.close_acts i .cancelled).samePeriods c)
  | released n => exact h.along ((State.releaseAll_acts (p := .intake) n).samePeriods c)
  | clocked day second => exact h.along (.of rfl)
  | settings o classes => exact h.along (.of rfl)
  | linked l d keying => exact h.along (.of rfl)
  | receiving l r => exact h.along (.of rfl)
  | airStarted setup next cause => exact h.along (.of rfl)
  | airStopped next from_ => exact h.along (.of rfl)

/-- An engine reset leaves a subscriber's billing group (R182). -/
theorem State.resetBlocks_sub (c : s.Canon) (n : Nat) :
    s.resetBlocks.sub n = { s.sub n with store := StoreGroup.reset, reach := Reach.reset } :=
  Table.get_mapValues (f := fun _ (u : Subscriber) => { u with store := StoreGroup.reset, reach := Reach.reset })
    (fun _ => rfl) c.subscribers n

/-- An engine reset frees every record (R104, R182). -/
theorem State.resetBlocks_msg (c : s.Canon) (i : Nat) : s.resetBlocks.msg i = (s.msg i).freed :=
  Table.get_mapValues (f := fun _ (r : MessageRecord) => r.freed) (fun _ => rfl) c.records i

theorem State.PeriodLaw.did (h : s.PeriodLaw) (tidy : s.Tidy) (d : s.Did t) : t.PeriodLaw := by
  have c := tidy.canon
  have none : ∀ n, (Table.get Subscriber.powerOn [] n).billing.state = .vacant := fun n => by rw [Table.get_nil]; rfl
  cases d with
  | nothing => exact h
  | powerOn => exact .vacant (show 0 < 65536 by decide) none
  | loaded profile =>
    rw [State.load_eq]
    exact .along (.vacant (s := s.loadedBlocks profile) (show 0 < 65536 by decide) none) (.of (by simp))
  | engineReset =>
    rw [State.engineReset_eq]
    have blocks : s.SamePeriods s.resetBlocks := by
      refine ⟨rfl, rfl, rfl, fun n live => .inr ?_⟩
      rw [State.resetBlocks_sub c] at live ⊢
      exact ⟨live, rfl⟩
    exact (h.along blocks).along (.of (by simp))
  | hosted => exact h.along (.of rfl)
  | bodyWritten w rest outside => exact h.along (.of rfl)
  | posted n rest free lt => exact h.along (.of rfl)
  | withdrawn n rest posted => exact h.along (.of rfl)
  | slotReturned n rest answered => exact h.along (.of rfl)
  | pageReturned p rest filled => exact h.along (.of rfl)
  | mirrored m => exact h.along (.of rfl)
  | taken n rest taking queue => exact h.along (.of rfl)
  | takenNone taking queue => exact h.along (.of rfl)
  | requested n p working code =>
    obtain ⟨u, g, acts, same⟩ | ⟨code, data, -, same⟩ := s.message_cases p
    · rw [same]
      exact (h.along (acts.samePeriods c)).along (.of rfl)
    · rw [same]
      exact h.along (.of (by simp))
  | copied n p c working other => exact h.along (.of rfl)
  | answered n p code data working other o => exact (h.ordered c o).along (.of (by simp))
  | boundary => exact h.along (.of (by simp))
  | monitored m from_ => exact h.along (.of (by simp))
  | built run => exact h.along ((State.built_acts run).samePeriods c)
  | observed l kind at_ bit choices => exact h.along (.of (by simp))
  | counted l r => exact h.along (.of rfl)
  | accepted l bits => exact h.along (.trans (t := s.acceptMessage l bits) (.of rfl) (.of (by simp)))
  | sweepAsked g => exact h.along (.of (by simp))
  | swept => exact h.along (.of rfl)
  | walked holds flies more left => exact h.walkStep c
  | walkEnded holds flies past => exact (h.walkStep c).walkEnd past
  | @unit u p holds w =>
    refine State.PeriodLaw.along (s := u) ?_ (.of (by simp))
    obtain acts | ⟨-, rfl⟩ := w.acts
    · exact h.along (acts.samePeriods c)
    · exact h.walkStep c
  | pageClosed => exact h.along (.of rfl)

end

/-- Settles O8: a billing group written keeps its period number or takes the office period, and the walk passes no
subscriber it has not rolled. -/
theorem stepKeepsPeriodLaw : Obligations.StepKeepsPeriodLaw := by
  unfold Obligations.StepKeepsPeriodLaw
  intro s t tidy h run
  refine step_reaches (pre := fun s => s.Tidy ∧ s.PeriodLaw) (post := State.PeriodLaw) ?_ ?_ ⟨tidy, h⟩ run
  · exact fun s rest law => ⟨⟨law.1.mem, law.1.slots, law.1.subscribers, law.1.records⟩, law.2.along (.of rfl)⟩
  · exact fun s t law d => law.2.did law.1 d

end Sys2Proof.Machine
end

section
/-! The release of a subscriber (R103, R165): what it leaves of the records, of the lists, and of everything else. -/

namespace Sys2Proof.Machine

/-- The record as a release leaves it (R103). -/
def MessageRecord.released (r : MessageRecord) : MessageRecord :=
  { r with
    state := .waiting, attempts := 0, eligible := 0, deadline := none, cancelPending := false, ackedPending := false }

/-- One HELD record released: WAITING, in the list of its subscriber's slot. -/
def State.releaseOne (s : State) (i : Nat) : State := s.makeWaiting i { s.msg i with attempts := 0, eligible := 0 }

section
variable {s : State}

theorem State.releaseOne_msg (c : s.Canon) (i j : Nat) :
    (s.releaseOne i).msg j = if j = i then (s.msg i).released else s.msg j := State.msg_setMsg c.records i j _

theorem State.releaseOne_canon (c : s.Canon) (i : Nat) : (s.releaseOne i).Canon :=
  ⟨c.subscribers, Table.wf_set c.records i _⟩

/-- A release leaves every key, so the record enters its list by the key it has. -/
theorem State.releaseOne_key (c : s.Canon) (i j : Nat) : ((s.releaseOne i).msg j).key = (s.msg j).key := by
  rw [State.releaseOne_msg c]
  split
  · next same => rw [same]; rfl
  · rfl

theorem State.releaseOne_lists (c : s.Canon) (i : Nat) (f : Fin 32) :
    (s.releaseOne i).store.lists.get f = if f = (s.sub (s.msg i).subscriber).billing.slot then
      insertByKey (fun j => (s.msg j).key) i (s.store.lists.get f) else s.store.lists.get f := by
  have moved := (State.makeWaiting_moves c i { s.msg i with attempts := 0, eligible := 0 }).lists f
  simp only [true_and] at moved
  refine moved.trans (if_congr Iff.rfl ?_ rfl)
  exact congrArg (insertByKey · i _) (funext fun j => State.releaseOne_key c i j)

/-- What releasing a subscriber's records one after the other leaves. -/
theorem State.foldl_releaseOne {is : List Nat} (c : s.Canon) {n : Nat} (all : ∀ i, i ∈ is → (s.msg i).subscriber = n) :
    (∀ j, (is.foldl State.releaseOne s).msg j = if j ∈ is then (s.msg j).released else s.msg j) ∧
    (∀ f : Fin 32, (is.foldl State.releaseOne s).store.lists.get f =
      if f = (s.sub n).billing.slot then
        is.foldl (fun l i => insertByKey (fun j => (s.msg j).key) i l) (s.store.lists.get f)
      else s.store.lists.get f) ∧
    is.foldl State.releaseOne s = { s with store := { s.store with
      records := (is.foldl State.releaseOne s).store.records, lists := (is.foldl State.releaseOne s).store.lists } } := by
  induction is generalizing s with
  | nil => simp
  | cons i rest ih =>
    have here := all i List.mem_cons_self
    have msg := State.releaseOne_msg c i
    have keys : (fun j => ((s.releaseOne i).msg j).key) = fun j => (s.msg j).key := funext (State.releaseOne_key c i)
    obtain ⟨msgs, lists, frame⟩ := ih (State.releaseOne_canon c i) fun j m => by
      rw [msg]
      split
      · exact here
      · exact all j (List.mem_cons_of_mem _ m)
    refine ⟨fun j => ?_, fun f => ?_, frame⟩
    · rw [List.foldl_cons, msgs, msg]
      by_cases e : j = i
      · subst e
        simp [MessageRecord.released]
      · simp [e]
    · have entered := State.releaseOne_lists c i f
      rw [here] at entered
      rw [List.foldl_cons, List.foldl_cons, lists, keys]
      show (if f = (s.sub n).billing.slot then _ else _) = _
      rw [entered]
      split
      · rfl
      · rfl

/-- The indexes of a subscriber's HELD records. -/
theorem State.mem_held (c : s.Canon) (n i : Nat) :
    (i ∈ s.msgsWhere fun r => decide (r.subscriber = n ∧ r.state = .held)) ↔
      (s.msg i).subscriber = n ∧ (s.msg i).state = .held :=
  (State.mem_msgsWhere c (decide_eq_false fun h => nomatch h.2) i).trans decide_eq_true_iff

/-- The reach group a release leaves (R165). -/
def State.reachable (s : State) (n : Nat) : State :=
  s.setReach n { (s.sub n).reach with unreachable := false, missCount := 0 }

theorem State.reachable_sub (c : s.Canon) (n k : Nat) : (s.reachable n).sub k =
    if k = n then { s.sub n with reach := { (s.sub n).reach with unreachable := false, missCount := 0 } } else s.sub k :=
  State.sub_setSub c.subscribers n k _

/-- The release of a subscriber (R103, R165): what it leaves. -/
theorem State.releaseAll_spec (c : s.Canon) (n : Nat) :
    let held := s.msgsWhere fun r => decide (r.subscriber = n ∧ r.state = .held)
    let t := (s.releaseAll n).1
    (∀ k, t.sub k =
      if k = n then { s.sub n with reach := { (s.sub n).reach with unreachable := false, missCount := 0 } } else s.sub k) ∧
    (∀ i, t.msg i = if (s.msg i).subscriber = n ∧ (s.msg i).state = .held then (s.msg i).released else s.msg i) ∧
    (∀ f : Fin 32, t.store.lists.get f =
      if f = (s.sub n).billing.slot then held.foldl (fun l i => insertByKey (fun j => (s.msg j).key) i l) (s.store.lists.get f)
      else s.store.lists.get f) ∧
    t = { s with
      account := { s.account with subscribers := t.account.subscribers }
      store := { s.store with records := t.store.records, lists := t.store.lists } } := by
  intro held t
  obtain ⟨msg, lists, frame⟩ := State.foldl_releaseOne (s := s.reachable n) (is := held) (n := n)
    ⟨Table.wf_set c.subscribers n _, c.records⟩ fun i m => ((State.mem_held c n i).mp m).1
  have slot : ((s.reachable n).sub n).billing.slot = (s.sub n).billing.slot := by rw [State.reachable_sub c, if_pos rfl]
  have account : t.account = (s.reachable n).account := (congrArg State.account frame :)
  have sub (k : Nat) : t.sub k = (s.reachable n).sub k := by rw [State.sub, account, State.sub]
  refine ⟨fun k => (sub k).trans (State.reachable_sub c n k), fun i => ?_, fun f => ?_, ?_⟩
  · exact (msg i).trans (if_congr (State.mem_held c n i) rfl rfl)
  · exact (lists f).trans (by rw [slot]; rfl)
  · refine frame.trans ?_
    rw [account]
    rfl

end

end Sys2Proof.Machine
end

section
/-! The law of R163 through the requests: a record enters WAITING only where its subscriber is reachable. -/

namespace Sys2Proof.Machine

/-- A step that marks no subscriber unreachable, and makes a record WAITING only where its subscriber is reachable (R102). -/
structure State.Heeds (s t : State) : Prop where
  canon : s.Canon → t.Canon
  waits : s.Canon → ∀ i, (t.msg i).state = .waiting →
    ((s.msg i).state = .waiting ∧ (t.msg i).subscriber = (s.msg i).subscriber) ∨
      (t.sub (t.msg i).subscriber).reach.unreachable = false
  reach : s.Canon → ∀ n, (s.sub n).reach.unreachable = false → (t.sub n).reach.unreachable = false

section
variable {s t u : State} {p : Producer}

theorem State.UnreachableLaw.heeds (h : s.UnreachableLaw) (c : s.Canon) (k : s.Heeds t) : t.UnreachableLaw := by
  intro i waits
  obtain ⟨was, same⟩ | reachable := k.waits c i waits
  · rw [same]
    exact k.reach c _ (h i was)
  · exact reachable

theorem State.Heeds.trans (h : s.Heeds t) (k : t.Heeds u) : s.Heeds u where
  canon c := k.canon (h.canon c)
  waits c i waits := by
    obtain ⟨was, same⟩ | reachable := k.waits (h.canon c) i waits
    · obtain before | reachable := h.waits c i was
      · exact .inl ⟨before.1, same.trans before.2⟩
      · exact .inr (k.reach (h.canon c) _ (same ▸ reachable))
    · exact .inr reachable
  reach c n r := k.reach (h.canon c) n (h.reach c n r)

/-- A step that leaves the records and the subscribers. -/
theorem State.Heeds.beside (records : t.store.records = s.store.records)
    (subscribers : t.account.subscribers = s.account.subscribers) : s.Heeds t where
  canon c := ⟨subscribers ▸ c.subscribers, records ▸ c.records⟩
  waits _ i waits := by
    unfold State.msg at waits ⊢
    rw [records] at waits ⊢
    exact .inl ⟨waits, rfl⟩
  reach _ n r := by
    unfold State.sub at r ⊢
    rw [subscribers]
    exact r

theorem State.Heeds.refl (s : State) : s.Heeds s := .beside rfl rfl

theorem State.setSub_heeds (s : State) (n : Nat) (v : Subscriber)
    (reach : (s.sub n).reach.unreachable = false → v.reach.unreachable = false) : s.Heeds (s.setSub n v) where
  canon c := c.setSub n v
  waits _ i waits := .inl ⟨waits, rfl⟩
  reach c k r := by
    rw [State.sub_setSub c.subscribers]
    split
    · next same => exact reach (same ▸ r)
    · exact r

theorem State.setBilling_heeds (s : State) (n : Nat) (b : Billing) : s.Heeds (s.setBilling n b) := s.setSub_heeds n _ id

theorem State.setStoreGroup_heeds (s : State) (n : Nat) (g : StoreGroup) : s.Heeds (s.setStoreGroup n g) := s.setSub_heeds n _ id

theorem State.setReach_heeds (s : State) (n : Nat) (r : Reach)
    (reach : (s.sub n).reach.unreachable = false → r.unreachable = false) : s.Heeds (s.setReach n r) := s.setSub_heeds n _ reach

theorem State.setMsg_heeds (s : State) (i : Nat) (r : MessageRecord)
    (waits : r.state = .waiting → (s.sub r.subscriber).reach.unreachable = false) : s.Heeds (s.setMsg i r) where
  canon c := c.setMsg i r
  waits c j w := by
    rw [State.msg_setMsg c.records] at w ⊢
    split at w
    · next same =>
      rw [if_pos same]
      exact .inr (waits w)
    · next other =>
      rw [if_neg other]
      exact .inl ⟨w, rfl⟩
  reach _ _ r := r

/-! ## The store's requests (R102, R103) -/

theorem State.makeWaiting_heeds (s : State) (i : Nat) (r : MessageRecord)
    (reachable : (s.sub r.subscriber).reach.unreachable = false) : s.Heeds (s.makeWaiting i r) :=
  .trans (t := s.setMsg i { r with state := .waiting, deadline := none, cancelPending := false, ackedPending := false })
    (s.setMsg_heeds i _ fun _ => reachable) (.beside rfl rfl)

theorem State.makeHeld_heeds (s : State) (i : Nat) (r : MessageRecord) : s.Heeds (s.makeHeld i r) :=
  s.setMsg_heeds i { r with state := .held, deadline := none, cancelPending := false, ackedPending := false } nofun

theorem State.makeAwaiting_heeds (s : State) (i : Nat) (r : MessageRecord) (d : Nat) : s.Heeds (s.makeAwaiting i r d) :=
  .trans (t := s.setMsg i
      { r with state := .awaitingAck, deadline := some d, cancelPending := false, ackedPending := false })
    (s.setMsg_heeds i _ nofun) (.beside rfl rfl)

theorem State.leaveCollections_heeds (s : State) (i : Nat) : s.Heeds (s.leaveCollections i) := by
  unfold State.leaveCollections
  split
  · exact .beside rfl rfl
  · exact .beside rfl rfl
  · exact .refl s

theorem State.freeRecord_heeds (s : State) (i : Nat) : s.Heeds (s.freeRecord i) := by
  have freed := (s.leaveCollections_heeds i).trans (State.setMsg_heeds _ i
    { s.msg i with state := .free, deadline := none, cancelPending := false, ackedPending := false } nofun)
  exact (freed.trans (State.setStoreGroup_heeds _ (s.msg i).subscriber _)).trans (.beside rfl rfl)

theorem State.hand_heeds (s : State) (p : Producer) (r : Record) : s.Heeds (s.hand p r) := .beside rfl rfl

theorem State.judgeLow_heeds (s : State) (p : Producer) (n : Nat) (e : BalanceEvent) : s.Heeds (s.judgeLow p n e) := by
  unfold State.judgeLow
  simp only
  split
  · exact s.setBilling_heeds n _
  · exact (s.setBilling_heeds n _).trans (State.hand_heeds _ _ _)

theorem State.refund_heeds (s : State) (p : Producer) (i : Nat) (r : MessageRecord) (o : CloseOutcome) :
    s.Heeds (s.refund p i r o) := by
  refine .trans ?_ (State.judgeLow_heeds _ _ _ _)
  exact (s.setBilling_heeds r.subscriber _).trans (State.hand_heeds _ _ _)

theorem State.roll_heeds (s : State) (p : Producer) (n : Nat) (source : SummarySource) : s.Heeds (s.roll p n source) :=
  (s.hand_heeds p _).trans (State.setBilling_heeds _ n _)

theorem State.rollIfStale_heeds (s : State) (n : Nat) : s.Heeds (s.rollIfStale n) := by
  unfold State.rollIfStale
  split
  · exact s.roll_heeds .intake n .intake
  · exact .refl s

theorem State.applyCredit_heeds (s : State) (n : Nat) (amount : Int) : s.Heeds (s.applyCredit n amount) := by
  refine .trans ?_ (State.judgeLow_heeds _ _ _ _)
  exact (s.setBilling_heeds n _).trans (State.hand_heeds _ _ _)

theorem State.walkVisit_heeds (s : State) : s.Heeds s.walkVisit := by
  unfold State.walkVisit
  simp only
  split
  · exact (s.roll_heeds .rollWalk s.account.walk.next .walk).trans (.beside rfl rfl)
  · exact .refl s

theorem State.charged_heeds (s : State) (d : Draft) : s.Heeds (s.charged d) := by
  unfold State.charged
  simp only
  split
  · exact (s.setBilling_heeds d.subscriber _).trans (State.setBilling_heeds _ d.subscriber _)
  · exact s.setBilling_heeds d.subscriber _

theorem State.close_heeds (s : State) (p : Producer) (i : Nat) (o : CloseOutcome) : s.Heeds (s.close p i o) := by
  unfold State.close
  simp only
  split
  · exact ((s.freeRecord_heeds i).trans (State.hand_heeds _ _ _)).trans (State.refund_heeds _ _ _ _ _)
  · exact (s.freeRecord_heeds i).trans (State.hand_heeds _ _ _)

/-- Requests folded over records. -/
theorem State.Heeds.foldl {f : State → Nat → State} (each : ∀ (t : State) i, t.Heeds (f t i)) (is : List Nat) (s : State) :
    s.Heeds (is.foldl f s) := by
  induction is generalizing s with
  | nil => exact .refl s
  | cons i rest ih => exact (each s i).trans (ih (f s i))

theorem State.returnPlaced_heeds (s : State) (m : Nat) : s.Heeds (s.returnPlaced m) := by
  refine .foldl (fun t i => ?_) _ s
  unfold State.returnOne
  simp only
  split
  · exact .beside rfl rfl
  · split
    · exact t.makeHeld_heeds i _
    · next reachable => exact t.makeWaiting_heeds i _ (Bool.not_eq_true _ ▸ reachable)

theorem State.moveSlot_heeds (s : State) (n : Nat) (slot : Fin 32) : s.Heeds (s.moveSlot n slot) := by
  unfold State.moveSlot
  simp only
  have left (is : List Nat) : s.Heeds (is.foldl State.delist s) :=
    .foldl (f := State.delist) (fun t i => .beside rfl rfl) is s
  have entered (is : List Nat) (t : State) : t.Heeds (is.foldl State.enlist t) :=
    .foldl (f := State.enlist) (fun t i => .beside rfl rfl) is t
  exact ((left _).trans (State.setBilling_heeds _ n _)).trans (entered _ _)

theorem State.applyAmend_heeds (s : State) (n : Nat) (q : Posting) : s.Heeds (s.applyAmend n q) := by
  unfold State.applyAmend
  simp only
  split
  · exact (s.rollIfStale_heeds n).trans (State.setBilling_heeds _ n _)
  · exact ((s.rollIfStale_heeds n).trans (State.setBilling_heeds _ n _)).trans (State.moveSlot_heeds _ n _)

theorem State.releaseAll_heeds (s : State) (n : Nat) : s.Heeds (s.releaseAll n).1 where
  canon c := (State.releaseAll_acts (p := .intake) n).canon c
  waits c i waits := by
    obtain ⟨sub, msg, -, -⟩ := State.releaseAll_spec c n
    rw [msg] at waits ⊢
    split
    · next held =>
      refine .inr ?_
      rw [sub, if_pos (show (s.msg i).released.subscriber = n from held.1)]
    · next other =>
      rw [if_neg other] at waits
      exact .inl ⟨waits, rfl⟩
  reach c k reachable := by
    obtain ⟨sub, -, -, -⟩ := State.releaseAll_spec c n
    rw [sub]
    split
    · rfl
    · exact reachable

theorem State.place_heeds (s : State) (serial i : Nat) (tag : Option (Fin 8)) (targets : ZoneSet) :
    s.Heeds (s.place serial i tag targets) := by
  have placed : s.Heeds ((s.delist i).setMsg i
      { s.msg i with state := .placed, tag := tag, placedSerial := some serial, placedZones := targets }) :=
    .trans (t := s.delist i) (.beside rfl rfl) (State.setMsg_heeds _ i _ nofun)
  exact (placed.trans (State.setStoreGroup_heeds _ (s.msg i).subscriber _)).trans (.beside rfl rfl)

theorem State.commit_heeds (s : State) (d : Draft) (charge : Nat) (refundable : Bool) :
    s.Heeds (s.commit d charge refundable) := by
  unfold State.commit
  extract_lets i r g t _ u
  have counted : s.Heeds u := .trans (t := t) (s.setStoreGroup_heeds d.subscriber _) (.beside rfl rfl)
  split
  · exact counted.trans (State.makeHeld_heeds _ _ _)
  · next reachable => exact counted.trans (State.makeWaiting_heeds _ _ _ (Bool.not_eq_true _ ▸ reachable))

/-- The airing request puts on the air the records placed for the serial, but for those an air-stop close waits for (R102). -/
theorem State.airing_msg (c : s.Canon) (serial i : Nat) : (s.airing serial).msg i =
    if (s.msg i).state = .placed ∧ (s.msg i).placedSerial = some serial ∧ i ∉ s.store.airStop then
      { s.msg i with state := .onAir }
    else s.msg i :=
  Table.get_mapValues (f := fun i (r : MessageRecord) =>
      if r.state = .placed ∧ r.placedSerial = some serial ∧ i ∉ s.store.airStop then { r with state := .onAir } else r)
    (fun _ => if_neg fun never => nomatch never.1) c.records i

theorem State.airing_heeds (s : State) (serial : Nat) : s.Heeds (s.airing serial) where
  canon c := ⟨c.subscribers, Table.wf_mapValues _ c.records⟩
  waits c i waits := by
    rw [State.airing_msg c] at waits ⊢
    split at waits
    · cases waits
    · next other =>
      rw [if_neg other]
      exact .inl ⟨waits, rfl⟩
  reach _ _ r := r

/-! ## The tracker's items (R158 to R164) -/

theorem State.settleRecord_heeds (s : State) (e : SettleEntry) {r : MessageRecord} (airs : r.state = .onAir) :
    s.Heeds (s.settleRecord e r) := by
  unfold State.settleRecord
  simp only
  split_ifs with acked cancelled expired heldBack again twoWay sent late
  · exact s.close_heeds _ _ _
  · exact s.close_heeds _ _ _
  · exact s.close_heeds _ _ _
  · exact s.makeHeld_heeds _ _
  · exact s.makeWaiting_heeds _ _ (Bool.not_eq_true _ ▸ fun unreachable => heldBack ⟨again, unreachable⟩)
  · exact s.makeAwaiting_heeds _ _ _
  · refine .trans (s.setMsg_heeds e.record _ fun waits => ?_) (State.close_heeds _ _ _ _)
    exact absurd (airs.symm.trans waits) (by decide)
  · exact s.makeHeld_heeds _ _
  · exact s.makeWaiting_heeds _ _ (Bool.not_eq_true _ ▸ late)

theorem Reach.debounce_unreachable (r : Reach) (confirm : Nat) (z : Zone) (arrival : Nat) :
    (r.debounce confirm z arrival).unreachable = r.unreachable := by
  unfold Reach.debounce
  extract_lets count moved
  split
  · rfl
  · rfl

theorem State.heard_heeds (s : State) (n : Nat) (e : ReverseEntry) : s.Heeds (s.heard n e) := by
  unfold State.heard
  extract_lets _ t released u before after v
  have confirmed : s.Heeds u := by
    have missed : s.Heeds t := s.setReach_heeds n _ id
    unfold u
    split
    · exact (missed.trans (t.releaseAll_heeds n)).trans (State.hand_heeds _ _ _)
    · exact missed
  have placed : s.Heeds v := confirmed.trans (u.setReach_heeds n _ fun r => (Reach.debounce_unreachable _ _ _ _).trans r)
  split
  · exact placed.trans (v.hand_heeds _ _)
  · exact placed

theorem State.matchAck_heeds (s : State) (n : Nat) (e : ReverseEntry) : s.Heeds (s.matchAck n e) := by
  unfold State.matchAck
  split
  · exact s.hand_heeds _ _
  · simp only
    split
    · next flies => 
      refine s.setMsg_heeds _ _ fun waits => ?_
      rcases flies with state | state
      · exact absurd (state.symm.trans waits) (by decide)
      · exact absurd (state.symm.trans waits) (by decide)
    · exact s.close_heeds _ _ _

theorem State.processReturn_heeds (s : State) (e : ReverseEntry) : s.Heeds (s.processReturn e) := by
  unfold State.processReturn
  simp only
  split_ifs
  · exact s.hand_heeds _ _
  · exact .refl s
  · exact (s.matchAck_heeds _ _).trans (State.heard_heeds _ _ _)
  · exact s.heard_heeds _ _

theorem State.deadlineFate_heeds (s : State) (i d : Nat) : s.Heeds (s.deadlineFate i d) := by
  have dropped : s.Heeds (s.dropDeadline i) := .beside rfl rfl
  unfold State.deadlineFate
  simp only
  split_ifs with undelivered expired unreachable
  · exact s.close_heeds _ _ _
  · exact s.close_heeds _ _ _
  · exact dropped.trans (State.makeHeld_heeds _ _ _)
  · exact dropped.trans (State.makeWaiting_heeds _ _ _ (Bool.not_eq_true _ ▸ unreachable))

end

end Sys2Proof.Machine
end

section
/-! Every step keeps the laws of the message store (O7). -/

namespace Sys2Proof.Machine

section
variable {s t u : State} {p : Producer}

/-! ## A second boundary (R1, R4) -/

/-- The message store's part of a frame mark: records go on the air, or are returned; the sweep may start (R102, R108). -/
theorem State.takeMark_cases {related : State → State → Prop}
    (trans : ∀ {a b c : State}, related a b → related b c → related a c)
    (beside : ∀ {a b : State}, b.store.records = a.store.records → b.store.freeCount = a.store.freeCount →
      b.account.subscribers = a.account.subscribers → related a b)
    (airing : ∀ (a : State) m, related a (a.airing m)) (returned : ∀ (a : State) m, related a (a.returnPlaced m)) (s : State) :
    related s s.takeMark := by
  have marked : related s s.handReport.linksTakeMark := beside (by simp) (by simp) (by simp)
  have swept (a : State) (m : Nat) : related a (a.startSweep m) := by
    unfold State.startSweep
    split
    · exact beside rfl rfl rfl
    · exact beside rfl rfl rfl
  unfold State.takeMark
  simp only
  split
  · refine trans marked (trans (airing _ s.air.serial) (trans ?_ (swept _ s.air.serial)))
    exact beside (by simp) (by simp) (by simp)
  · refine trans marked (trans (b := (s.handReport.linksTakeMark.cutBuild s.air.serial fun _ => 0).stopBuild) ?_ ?_)
    · exact beside (by simp) (by simp) (by simp)
    · refine trans (returned _ s.air.serial) (trans ?_ (swept _ s.air.serial))
      exact beside rfl rfl rfl

/-- The blocks' part of a second boundary, in the same way. -/
theorem State.boundary_cases {related : State → State → Prop}
    (trans : ∀ {a b c : State}, related a b → related b c → related a c)
    (beside : ∀ {a b : State}, b.store.records = a.store.records → b.store.freeCount = a.store.freeCount →
      b.account.subscribers = a.account.subscribers → related a b)
    (airing : ∀ (a : State) m, related a (a.airing m)) (returned : ∀ (a : State) m, related a (a.returnPlaced m)) (s : State) :
    related s s.boundary := by
  have before : related s s.beforeReports := by
    unfold State.beforeReports
    split_ifs
    · exact trans (b := s.airSteps true) (beside (by simp) (by simp) (by simp))
        (State.takeMark_cases (related := related) trans beside airing returned _)
    · exact trans (b := s.airSteps false) (beside (by simp) (by simp) (by simp)) (beside rfl rfl rfl)
    · exact beside (by simp) (by simp) (by simp)
  rw [State.boundary_eq]
  exact trans before (beside (by simp) (by simp) (by simp))

theorem State.boundary_heeds (s : State) : s.Heeds s.boundary :=
  State.boundary_cases .trans (fun records _ subscribers => .beside records subscribers) State.airing_heeds
    State.returnPlaced_heeds s

theorem State.boundary_ebbs (s : State) : s.Ebbs s.boundary := by
  refine State.boundary_cases .trans (fun records free subscribers => ?_) (fun a m => ?_) State.returnPlaced_ebbs s
  · exact .of_eq free subscribers fun c => records ▸ c.records
  · exact .of_eq rfl rfl fun c => Table.wf_mapValues _ c.records

/-- The intake unit through a second boundary. -/
theorem State.boundary_spares (s : State) : s.Spares s.boundary := by
  have before : s.Spares s.beforeReports := by
    have signals := s.beforeReports_signals
    unfold Exchange.Signals at signals
    exact .same (by rw [signals]) (by rw [signals]) (by rw [signals]) (by rw [signals])
  rw [State.boundary_eq]
  exact State.reportSteps_keeps (law := s.Spares) (fun _ k => k.trans (.same rfl rfl rfl rfl)) _
    (fun t i ne k => k.trans (t.takeItem_spares ne)) before

/-! ## The law of R163 -/

/-- A miss that marks its subscriber unreachable holds every WAITING message of it (R163). -/
theorem State.UnreachableLaw.missLatch (h : s.UnreachableLaw) (c : s.Canon) (n : Nat) : (s.missLatch n).UnreachableLaw := by
  by_cases latches : s.latches n
  · rw [State.missLatch_of_latches latches]
    have missed := State.missed_sub c n true
    obtain ⟨msg, -, frame⟩ := State.holdAll_spec (s := s.missed n true) ⟨Table.wf_set c.subscribers n _, c.records⟩ n
    have account : ((s.missed n true).holdAll n).1.account = (s.missed n true).account := (congrArg State.account frame :)
    intro i waits
    have was : (((s.missed n true).holdAll n).1.msg i).state = .waiting := waits
    show ((((s.missed n true).holdAll n).1.sub (((s.missed n true).holdAll n).1.msg i).subscriber)).reach.unreachable = false
    rw [State.sub, account, ← State.sub]
    rw [msg] at was ⊢
    split at was
    · cases was
    · next other =>
      have apart : ((s.missed n true).msg i).subscriber ≠ n := fun same => other ⟨same, was⟩
      rw [if_neg other, missed, if_neg apart]
      exact h i was
  · rw [State.missLatch_of_not latches]
    exact h.heeds c (s.setReach_heeds n _ id)

theorem State.Worked.unreachable (w : s.Worked p u) (h : s.UnreachableLaw) (c : s.Canon) : u.UnreachableLaw := by
  cases w with
  | reference r => exact h.heeds c (.beside rfl rfl)
  | lateBuild r => exact h.heeds c (.beside rfl rfl)
  | linkReport l => exact h.heeds c (.beside (by simp) (by simp))
  | settled e rest airs =>
    exact h.heeds c (.trans (t := s.takeSettle rest) (.beside rfl rfl) (State.settleRecord_heeds _ e airs))
  | discarded rest => exact h.heeds c (.beside rfl rfl)
  | returned e rest =>
    refine h.heeds c (.trans ?_ (State.processReturn_heeds _ e))
    exact .beside rfl rfl
  | deadline n i d _ =>
    exact (h.missLatch c n).heeds ((State.missLatch_acts n).canon c) (State.deadlineFate_heeds _ i d)
  | deadlineGone n i => exact (h.missLatch c n).heeds ((State.missLatch_acts n).canon c) (.beside rfl rfl)
  | sweepPassed => exact h.heeds c (.beside rfl rfl)
  | sweepClosed i w _ =>
    refine h.heeds c (.trans (s.close_heeds .messageStore i .expired) ?_)
    exact .beside rfl rfl
  | airStop i rest o _ =>
    refine h.heeds c (.trans (s.close_heeds .messageStore i o) ?_)
    exact .beside rfl rfl
  | walk =>
    refine h.heeds c (.trans s.walkVisit_heeds ?_)
    exact .beside rfl rfl

theorem State.Ordered.heeds (o : s.Ordered t) : s.Heeds t := by
  cases o with
  | asFound => exact .refl s
  | provisioned p vacant => exact s.setBilling_heeds _ _
  | amended n p live => exact s.applyAmend_heeds n p
  | barred n to_ live served => exact s.setBilling_heeds _ _
  | retired n r none => exact (s.hand_heeds .intake r).trans (State.setSub_heeds _ n Subscriber.powerOn fun _ => rfl)
  | credited n amount live => exact (s.rollIfStale_heeds n).trans (State.applyCredit_heeds _ n amount)
  | planned plans => exact .beside rfl rfl
  | periodClosed rests => exact .beside (by simp) (by simp)
  | marked i flies =>
    refine s.setMsg_heeds i _ fun waits => ?_
    rcases flies with state | state
    · exact absurd (state.symm.trans waits) (by decide)
    · exact absurd (state.symm.trans waits) (by decide)
  | cancelled i occupied rests => exact s.close_heeds .intake i .cancelled
  | released n => exact s.releaseAll_heeds n
  | clocked day second => exact .beside rfl rfl
  | settings o classes => exact .beside rfl rfl
  | linked l c keying => exact .beside rfl rfl
  | receiving l r => exact .beside rfl rfl
  | airStarted setup next cause => exact .beside rfl rfl
  | airStopped next from_ => exact .beside rfl rfl

theorem State.message_heeds (s : State) (q : Posting) : s.Heeds (s.message q) := by
  have checked : s.Heeds (s.checkMessage q) := .beside (by simp) (by simp)
  unfold State.message
  split
  · exact checked
  · exact checked
  · next d _ =>
    unfold State.rateMessage
    simp only
    split
    · exact ((s.rollIfStale_heeds _).trans (State.charged_heeds _ d)).trans (.beside rfl rfl)
    · exact (s.rollIfStale_heeds _).trans (.beside rfl rfl)
  · exact (s.commit_heeds _ _ _).trans (.beside rfl rfl)
  · exact .beside (by simp) (by simp)
  · exact .beside (by simp) (by simp)

theorem execBuildCandidate_heeds (h : execBuildCandidate s = .next t) : s.Heeds t := by
  obtain same | ⟨b, c, targets, tag, -, -, -, -, rfl⟩ := execBuildCandidate_cases h
  · exact .beside (by rw [same]) (by rw [same])
  · exact .trans (t := s.setBuild { b with candidate := none }) (.beside rfl rfl) (State.place_heeds _ _ _ _ _)

/-- Where no record is occupied the law holds. -/
theorem State.UnreachableLaw.free (free : ∀ i, (s.msg i).state = .free) : s.UnreachableLaw := fun i waits =>
  absurd ((free i).symm.trans waits) (by decide)

end

end Sys2Proof.Machine
end

section
/-! Every step keeps the laws of the message store (O7): the cases. -/

namespace Sys2Proof.Machine

section
variable {s t u : State} {p : Producer}

/-! ## The laws of R105 and R106 -/

theorem State.Stocked.worked (h : s.Stocked) (w : s.Worked p u) : u.Stocked := by
  cases w with
  | reference r => exact h.of_eq rfl rfl
  | lateBuild r => exact h.of_eq rfl rfl
  | linkReport l => exact h.of_eq (by simp) (by simp)
  | settled e rest airs => exact State.Stocked.settleRecord (s := s.takeSettle rest) (h.of_eq rfl rfl) airs
  | discarded rest => exact h.of_eq rfl rfl
  | returned e rest =>
    refine State.Stocked.processReturn ?_ e
    exact h.of_eq rfl rfl
  | deadline n i d awaits => exact (h.missLatch n).deadlineFate awaits
  | deadlineGone n i => exact (h.missLatch n).of_eq rfl rfl
  | sweepPassed => exact h.swept rfl rfl rfl rfl rfl
  | sweepClosed i w rests =>
    have occupied : (s.msg i).state ≠ .free := by
      rcases rests with state | state
      · rw [state]; decide
      · rw [state]; decide
    have apart : (s.msg i).state ≠ .placed := by
      rcases rests with state | state
      · rw [state]; decide
      · rw [state]; decide
    exact (h.close .messageStore .expired occupied (h.notStopped apart)).swept rfl rfl rfl rfl rfl
  | airStop i rest o head =>
    have placed := (h.store.stopped i (head ▸ List.mem_cons_self)).1
    have rising := h.store.rising
    rw [head, List.pairwise_cons] at rising
    refine h.closeHolding .messageStore o (by rw [placed]; decide) rising.2 (fun j listed => ⟨?_, ?_⟩) rfl rfl
    · exact head ▸ List.mem_cons_of_mem i listed
    · exact Nat.ne_of_gt (rising.1 j listed)
  | walk => exact (h.quiet s.walkVisit_quiet).of_eq rfl rfl

/-- A subscriber with no open message has its store group at the reset values (R105). -/
theorem State.Stocked.group_reset (h : s.Stocked) {n : Nat} (none : (s.sub n).store.openCount = 0) :
    (s.sub n).store = StoreGroup.reset := by
  have clear (k : Fin 8) : (s.sub n).store.tags.getLsbD k.val = false := by
    rw [← Bool.not_eq_true, h.store.tags]
    rintro ⟨i, occupied, here, -⟩
    exact occupied (h.noneOpen none i here)
  have tags : (s.sub n).store.tags = 0 := BitVec.eq_of_getLsbD_eq fun k lt => by
    rw [clear ⟨k, lt⟩]
    simp
  rw [show (s.sub n).store = ⟨(s.sub n).store.openCount, (s.sub n).store.tags⟩ from rfl, none, tags]
  rfl

theorem State.Stocked.ordered (h : s.Stocked) (o : s.Ordered t) : t.Stocked := by
  cases o with
  | asFound => exact h
  | provisioned p vacant =>
    have none := h.store.vacant _ vacant
    exact h.setSub none (h.group_reset none)
  | amended n p live =>
    have written := (h.quiet (s.rollIfStale_quiet n)).setBilling n
      (b := amendBilling p ((s.rollIfStale n).sub n).billing) rfl id
    unfold State.applyAmend
    simp only
    split
    · exact written
    · exact written.moveSlot n _
  | barred n to_ live served => exact h.setBilling n rfl fun vacant => absurd vacant served
  | retired n r none => exact (h.quiet (s.hand_quiet .intake r)).setSub none rfl
  | credited n amount live => exact (h.quiet (s.rollIfStale_quiet n)).quiet (State.applyCredit_quiet _ n amount)
  | planned plans => exact h.of_eq rfl rfl
  | periodClosed rests => exact h.of_eq (by simp) (by simp)
  | marked i flies =>
    have states : (s.msg i).state ≠ .free ∧ (s.msg i).state ≠ .waiting := by
      rcases flies with state | state
      · rw [state]; decide
      · rw [state]; decide
    exact h.setMsg ⟨rfl, rfl, rfl⟩ states.1 states.2 states.1 states.2 id fun stopped =>
      ⟨(h.store.stopped i stopped).1, .inr rfl⟩
  | cancelled i occupied rests => exact h.close .intake .cancelled occupied (h.notStopped fun placed => rests (.inl placed))
  | released n => exact h.releaseAll n
  | clocked day second => exact h.of_eq rfl rfl
  | settings o classes => exact h.of_eq rfl rfl
  | linked l c keying => exact h.of_eq rfl rfl
  | receiving l r => exact h.of_eq rfl rfl
  | airStarted setup next cause => exact h.of_eq rfl rfl
  | airStopped next from_ => exact h.of_eq rfl rfl

theorem State.charged_quiet (s : State) (d : Draft) : s.Quiet (s.charged d) := by
  unfold State.charged
  simp only
  split
  · exact (s.applyCharge_quiet _ _).trans (State.setBilling_quiet _ rfl rfl)
  · exact s.applyCharge_quiet _ _

/-- The commit of a message past its checks finds its room (R87, R89). -/
theorem State.Stocked.message (h : s.Stocked) (admission : s.AdmissionLaw) (q : Posting) : (s.message q).Stocked := by
  have checked : (s.checkMessage q).Stocked := h.of_eq (by simp) (by simp)
  unfold State.message
  split
  · exact checked
  · exact checked
  · next d _ =>
    unfold State.rateMessage
    simp only
    split
    · exact ((h.quiet (s.rollIfStale_quiet _)).quiet (State.charged_quiet _ d)).of_eq rfl rfl
    · exact (h.quiet (s.rollIfStale_quiet _)).of_eq rfl rfl
  · next d c e =>
    obtain ⟨-, known, few, some⟩ := admission d (by rw [e]; rfl)
    exact (h.commit d _ _ some few known).of_eq rfl rfl
  · exact h.of_eq (by simp) (by simp)
  · exact h.of_eq (by simp) (by simp)

theorem State.Stocked.boundary (h : s.Stocked) : s.boundary.Stocked := by
  have before : s.beforeReports.Stocked := by
    unfold State.beforeReports
    split_ifs
    · exact State.takeMark_stocked (s := s.airSteps true) (h.of_eq (by simp) (by simp))
    · exact (h.of_eq (t := s.airSteps false) (by simp) (by simp)).of_eq rfl rfl
    · exact h.of_eq (by simp) (by simp)
  rw [State.boundary_eq]
  exact before.of_eq (by simp) (by simp)

theorem lists_empty (f : Fin 32) : (Vector.replicate 32 ([] : List Nat)).get f = [] := by
  simp

/-- Power-on leaves every record FREE and every store group at its reset values (R20, R99). -/
theorem State.Stocked.powerOn (store : s.store = MessageStore.powerOn) (account : s.account = Account.powerOn) :
    s.Stocked ∧ s.UnreachableLaw := by
  have free (i : Nat) : (s.msg i).state = .free := by rw [State.msg, store]; exact congrArg MessageRecord.state (Table.get_nil _ i)
  have group (n : Nat) : (s.sub n).store = StoreGroup.reset := by
    rw [State.sub, account]
    exact congrArg Subscriber.store (Table.get_nil _ n)
  refine ⟨.empty ⟨by rw [account]; rfl, by rw [store]; rfl⟩ free group ?_ ?_ fun f => ?_, .free free⟩
  · rw [store]; rfl
  · rw [store]; rfl
  · rw [store]
    exact lists_empty f

/-- An engine reset frees every record and resets every store group (R182). -/
theorem State.resetBlocks_stocked (c : s.Canon) : s.resetBlocks.Stocked ∧ s.resetBlocks.UnreachableLaw := by
  have free (i : Nat) : (s.resetBlocks.msg i).state = .free := by
    rw [State.resetBlocks_msg c]
    rfl
  refine ⟨.empty ⟨Table.wf_mapValues _ c.subscribers, Table.wf_mapValues _ c.records⟩ free (fun n => ?_) rfl rfl lists_empty,
    .free free⟩
  rw [State.resetBlocks_sub c]

theorem State.Stocked.did (h : s.Stocked) (admission : s.AdmissionLaw) (d : s.Did t) : t.Stocked := by
  cases d with
  | nothing => exact h
  | powerOn => exact (State.Stocked.powerOn rfl rfl).1
  | loaded profile =>
    rw [State.load_eq]
    exact (State.Stocked.powerOn (s := s.loadedBlocks profile) rfl rfl).1.of_eq (by simp) (by simp)
  | engineReset =>
    rw [State.engineReset_eq]
    exact (State.resetBlocks_stocked h.canon).1.of_eq (by simp) (by simp)
  | hosted => exact h.of_eq rfl rfl
  | bodyWritten w rest outside => exact h.of_eq rfl rfl
  | posted n rest free lt => exact h.of_eq rfl rfl
  | withdrawn n rest posted => exact h.of_eq rfl rfl
  | slotReturned n rest answered => exact h.of_eq rfl rfl
  | pageReturned p rest filled => exact h.of_eq rfl rfl
  | mirrored m => exact h.of_eq rfl rfl
  | taken n rest taking queue => exact h.of_eq rfl rfl
  | takenNone taking queue => exact h.of_eq rfl rfl
  | requested n p working code => exact h.message admission p
  | copied n p c working other => exact h.of_eq rfl rfl
  | answered n p code data working other o => exact (h.ordered o).of_eq (by simp) (by simp)
  | boundary => exact h.boundary
  | monitored m from_ => exact h.of_eq (by simp) (by simp)
  | built run => exact h.buildCandidate run
  | observed l kind at_ bit choices => exact h.of_eq (by simp) (by simp)
  | counted l r => exact h.of_eq rfl rfl
  | accepted l bits => exact (h.of_eq (t := s.acceptMessage l bits) rfl rfl).of_eq (by simp) (by simp)
  | sweepAsked g => exact h.swept (by simp) (by simp) (by simp) (by simp) (by simp)
  | swept => exact h.swept rfl rfl rfl rfl rfl
  | walked holds flies more left => exact h.worked .walk
  | walkEnded holds flies past => exact (h.worked .walk).of_eq rfl rfl
  | unit holds w => exact (h.worked w).of_eq (by simp) (by simp)
  | pageClosed => exact h.of_eq rfl rfl

/-! ## The law of R163 -/

theorem State.UnreachableLaw.did (h : s.UnreachableLaw) (c : s.Canon) (d : s.Did t) : t.UnreachableLaw := by
  have beside {v : State} (records : v.store.records = s.store.records)
      (subscribers : v.account.subscribers = s.account.subscribers) : v.UnreachableLaw := h.heeds c (.beside records subscribers)
  cases d with
  | nothing => exact h
  | powerOn => exact (State.Stocked.powerOn rfl rfl).2
  | loaded profile =>
    rw [State.load_eq]
    have loaded := State.Stocked.powerOn (s := s.loadedBlocks profile) rfl rfl
    exact loaded.2.heeds loaded.1.canon (.beside (by simp) (by simp))
  | engineReset =>
    rw [State.engineReset_eq]
    exact (State.resetBlocks_stocked c).2.heeds (State.resetBlocks_stocked c).1.canon (.beside (by simp) (by simp))
  | hosted => exact beside rfl rfl
  | bodyWritten w rest outside => exact beside rfl rfl
  | posted n rest free lt => exact beside rfl rfl
  | withdrawn n rest posted => exact beside rfl rfl
  | slotReturned n rest answered => exact beside rfl rfl
  | pageReturned p rest filled => exact beside rfl rfl
  | mirrored m => exact beside rfl rfl
  | taken n rest taking queue => exact beside rfl rfl
  | takenNone taking queue => exact beside rfl rfl
  | requested n p working code => exact h.heeds c (s.message_heeds p)
  | copied n p c working other => exact beside rfl rfl
  | answered n p code data working other o => exact h.heeds c (o.heeds.trans (.beside (by simp) (by simp)))
  | boundary => exact h.heeds c s.boundary_heeds
  | monitored m from_ => exact beside (by simp) (by simp)
  | built run => exact h.heeds c (execBuildCandidate_heeds run)
  | observed l kind at_ bit choices => exact beside (by simp) (by simp)
  | counted l r => exact beside rfl rfl
  | accepted l bits => exact h.heeds c (.trans (t := s.acceptMessage l bits) (.beside rfl rfl) (.beside (by simp) (by simp)))
  | sweepAsked g => exact beside (by simp) (by simp)
  | swept => exact beside rfl rfl
  | walked holds flies more left => exact State.Worked.walk.unreachable h c
  | walkEnded holds flies past =>
    exact (State.Worked.walk.unreachable h c).heeds (State.Worked.walk.canon_works.1 c) (.beside rfl rfl)
  | unit holds w => exact (w.unreachable h c).heeds (w.canon_works.1 c) (.beside (by simp) (by simp))
  | pageClosed => exact beside rfl rfl

end

end Sys2Proof.Machine
end

section
/-! A message past its checks still finds room, and the sections their bounds, after every step (O7). -/

namespace Sys2Proof.Machine

section
variable {s t u : State} {p : Producer}

/-! ## The law of R87 -/

theorem State.Worked.ebbs (w : s.Worked p u) : s.Ebbs u := by
  cases w with
  | reference r => exact .store rfl rfl
  | lateBuild r => exact .store rfl rfl
  | linkReport l => exact .store (by simp) (by simp)
  | settled e rest _ => exact .trans (t := s.takeSettle rest) (.store rfl rfl) (State.settleRecord_ebbs _ e _)
  | discarded rest => exact .store rfl rfl
  | returned e rest =>
    refine .trans ?_ (State.processReturn_ebbs _ e)
    exact .store rfl rfl
  | deadline n i d _ => exact (s.missLatch_ebbs n).trans (State.deadlineFate_ebbs _ i d)
  | deadlineGone n i => exact (s.missLatch_ebbs n).trans (.store rfl rfl)
  | sweepPassed => exact .of_eq rfl rfl fun c => c.records
  | sweepClosed i w _ => exact (s.close_ebbs .messageStore i .expired).trans (.of_eq rfl rfl fun c => c.records)
  | airStop i rest o _ => exact (s.close_ebbs .messageStore i o).trans (.of_eq rfl rfl fun c => c.records)
  | walk => exact s.walkVisit_quiet.ebbs.trans (.store rfl rfl)

theorem execBuildCandidate_ebbs (h : execBuildCandidate s = .next t) : s.Ebbs t := by
  obtain same | ⟨b, c, targets, tag, -, -, -, -, rfl⟩ := execBuildCandidate_cases h
  · exact .store (by rw [same]) (by rw [same])
  · exact .trans (t := s.setBuild { b with candidate := none }) (.store rfl rfl) (State.place_ebbs _ _ _ _ _)

/-- While a message has a draft the intake unit holds its reservation and asks for none (R83). -/
theorem State.AdmissionLaw.keeps (h : s.AdmissionLaw) (c : s.Canon) (guard : s.ex.GuardLaw) (pages : s.ex.writer.PageLaw)
    (spares : s.Spares t) (ebbs : s.Ebbs t) : t.AdmissionLaw := by
  cases draft : s.ex.progress.draft with
  | none => exact .none (by rw [spares.progress, draft])
  | some d =>
    obtain ⟨⟨n, p, working, -⟩, -⟩ := h d draft
    exact h.ebbs c spares (guard.waits_not pages working) ebbs

/-- The law through the rating, which changes the subscriber's balance and period alone. -/
theorem State.AdmissionLaw.rated (h : s.AdmissionLaw) (c : s.Canon) {d : Draft} (draft : s.ex.progress.draft = some d)
    (quiet : s.Quiet t) (intake : t.ex.intake = s.ex.intake) (k : Charged) : (t.advance (.charged d k)).AdmissionLaw := by
  intro d' same
  obtain rfl := Option.some.inj same
  obtain ⟨hand, known, few, some⟩ := h d draft
  have sub : (t.advance (.charged d k)).sub d.subscriber = t.sub d.subscriber := rfl
  have free : (t.advance (.charged d k)).store.freeCount = t.store.freeCount := rfl
  obtain ⟨group, -, state⟩ := quiet.subs c d.subscriber
  rw [State.advance_intake, intake, sub, free, group, state, quiet.store]
  exact ⟨hand, known, few, some⟩

theorem Exchange.wakeIntake_progress (x : Exchange) (loading : Bool) : (x.wakeIntake loading).progress = x.progress := by
  unfold Exchange.wakeIntake
  split
  · exact (Exchange.request_reported { x with intake := .roomWait } .intake).progress
  · rfl

/-- An answer given, the posting's progress starts anew (R95). -/
theorem State.answer_progress {n : Nat} {q : Posting} (working : s.ex.intake = .working n q) (code : AnswerCode)
    (data : List Word) : (s.answer code data).ex.progress = .begun := by
  unfold State.answer
  rw [working]
  exact (Exchange.wakeIntake_progress _ _).trans
    (Exchange.giveBack_reported (s.ex.answering n (Posting.code q) code data) s.stamp .intake).progress

/-- A message's requests: the checks passed give the law, the rating leaves it, and the commit takes the room (R87 to R89). -/
theorem State.AdmissionLaw.message (h : s.AdmissionLaw) (c : s.Canon) {n : Nat} {q : Posting}
    (working : s.ex.intake = .working n q) (code : (Posting.code q).toNat = 0x01) : (s.message q).AdmissionLaw := by
  have checked : (s.checkMessage q).AdmissionLaw := by
    unfold State.checkMessage
    split
    · exact .none rfl
    · next d passed =>
      obtain ⟨kind, -, -, free, rfl⟩ := State.checked_passed.mp passed
      obtain ⟨active, -, few, some⟩ := State.refusal_none.mp free
      intro d draft
      obtain rfl := Option.some.inj draft
      exact ⟨⟨n, q, working, code⟩, fun vacant => absurd (active.symm.trans vacant) (by decide), few, some⟩
  unfold State.message
  split
  · exact checked
  · exact checked
  · next d e =>
    unfold State.rateMessage
    simp only
    split
    · refine h.rated c (by rw [e]; rfl) ((s.rollIfStale_quiet d.subscriber).trans (State.charged_quiet _ d)) ?_ _
      rw [State.charged_ex, State.rollIfStale_intake]
    · exact .none rfl
  · exact .none rfl
  · exact .none rfl
  · exact .none (by rw [State.answer_progress working]; rfl)

theorem State.AdmissionLaw.did (h : s.AdmissionLaw) (c : s.Canon) (guard : s.ex.GuardLaw) (pages : s.ex.writer.PageLaw)
    (d : s.Did t) : t.AdmissionLaw := by
  have keeps {v : State} (spares : s.Spares v) (ebbs : s.Ebbs v) : v.AdmissionLaw := h.keeps c guard pages spares ebbs
  have beside {v : State} (progress : v.ex.progress = s.ex.progress) (waiting : v.ex.writer.waiting = s.ex.writer.waiting)
      (held : v.ex.writer.held = s.ex.writer.held) (intake : v.ex.intake = s.ex.intake) (ebbs : s.Ebbs v) : v.AdmissionLaw :=
    keeps (.same progress waiting held intake) ebbs
  have rests (idle : ∀ n p, s.ex.intake ≠ .working n p) : s.ex.progress.draft = Option.none := by
    cases draft : s.ex.progress.draft with
    | none => rfl
    | some k =>
      obtain ⟨⟨n, p, working, -⟩, -⟩ := h k draft
      exact absurd working (idle n p)
  have woken {x : Exchange} (progress : x.progress = s.ex.progress) (intake : x.intake = s.ex.intake)
      (writer : x.writer = s.ex.writer) : State.AdmissionLaw { s with ex := x.wakeIntake s.loading } := by
    by_cases idle : x.intake = .idle
    · exact .none ((congrArg Progress.draft ((x.wakeIntake_progress _).trans progress)).trans (rests (by rw [← intake, idle]; nofun)))
    · have same : x.wakeIntake s.loading = x := if_neg fun wakes => idle wakes.1
      rw [same]
      exact beside progress (by rw [writer]) (by rw [writer]) intake (.store rfl rfl)
  cases d with
  | nothing => exact h
  | powerOn => exact .none rfl
  | loaded profile =>
    rw [State.load_eq]
    refine .none (congrArg Progress.draft (?_ : _ = Progress.begun))
    rw [((s.loadedBlocks profile).ask_reported .monitor).progress, State.loadedBlocks_ex, Exchange.loaded_progress]
  | engineReset =>
    rw [State.engineReset_eq]
    refine .none (congrArg Progress.draft (?_ : _ = Progress.begun))
    show ((s.resetBlocks.ask .rollWalk).ask .monitor).ex.progress = .begun
    rw [(State.ask_reported _ .monitor).progress, (s.resetBlocks.ask_reported .rollWalk).progress, State.resetBlocks_ex,
      Exchange.engineReset_progress]
  | hosted => exact beside rfl rfl rfl rfl (.store rfl rfl)
  | bodyWritten w rest outside => exact beside rfl rfl rfl rfl (.store rfl rfl)
  | posted n rest free lt => exact woken rfl rfl rfl
  | withdrawn n rest posted => exact woken rfl rfl rfl
  | slotReturned n rest answered => exact beside rfl rfl rfl rfl (.store rfl rfl)
  | pageReturned p rest filled => 
    refine keeps (.trans (y := s.ex.took rest) ?_ (Exchange.returnPage_spares (s.ex.took rest) s.stamp p)) (.store rfl rfl)
    exact .same rfl rfl rfl rfl
  | mirrored m => exact beside rfl rfl rfl rfl (.store rfl rfl)
  | taken n rest taking queue => exact .none rfl
  | takenNone taking queue =>
    have progress : (s.ex.giveBack s.stamp .intake).progress = s.ex.progress := (s.ex.giveBack_reported s.stamp .intake).progress
    exact .none ((congrArg Progress.draft progress).trans (rests (by rw [taking]; nofun)))
  | requested n p working code => exact h.message c working code
  | copied n p k working other => exact .none rfl
  | answered n p code data working other o =>
    exact .none (by rw [State.answer_progress ((o.intake (guard.waits_not pages working)).trans working)]; rfl)
  | boundary => exact keeps s.boundary_spares s.boundary_ebbs
  | monitored m from_ => 
    refine keeps (.trans ?_ (State.ask_spares (s.setMonitor m) (by decide))) (.store (by simp) (by simp))
    exact .same rfl rfl rfl rfl
  | built run =>
    exact keeps (.of (execBuildCandidate_ex run)) (execBuildCandidate_ebbs run)
  | observed l kind at_ bit choices =>
    refine keeps (.trans ?_ (State.ask_spares _ (by decide))) (.store (by simp) (by simp))
    exact .same rfl rfl rfl rfl
  | counted l r => exact beside rfl rfl rfl rfl (.store rfl rfl)
  | accepted l bits =>
    exact keeps (State.ask_spares (s.acceptMessage l bits) (by decide))
      (.trans (t := s.acceptMessage l bits) (.store rfl rfl) (.store (by simp) (by simp)))
  | sweepAsked g =>
    refine keeps (.trans ?_ (State.ask_spares _ (by decide))) (.of_eq (by simp) (by simp) fun k => by simpa using k.records)
    exact .same rfl rfl rfl rfl
  | swept => exact beside rfl rfl rfl rfl (.of_eq rfl rfl fun k => k.records)
  | walked holds flies more left => exact keeps State.Worked.walk.spares State.Worked.walk.ebbs
  | walkEnded holds flies past =>
    refine keeps (State.Worked.walk.spares.trans ?_) (State.Worked.walk.ebbs.trans (.store rfl rfl))
    exact (s.walkStep.hand_spares (by decide) _).trans (Exchange.giveBack_spares _ _ _)
  | unit holds w =>
    exact keeps (w.spares.trans (State.endUnit_spares _ w.producer)) (w.ebbs.trans (.store (by simp) (by simp)))
  | pageClosed => exact keeps (s.ex.closeIfDue_spares s.stamp) (.store rfl rfl)

/-! ## The law of R116 -/

theorem State.SectionLaw.buildDue (h : s.SectionLaw) (m : Nat) (lit : Nat → ZoneSet) : (s.buildDue m lit).SectionLaw := by
  unfold State.buildDue
  simp only
  split
  · exact (h.emptyPage (m + 2)).of_eq rfl
  · exact (h.emptyPage (m + 2)).of_eq rfl

theorem State.cutBuild_pages (s : State) (m : Nat) (lit : Nat → ZoneSet) :
    (s.cutBuild m lit).builder.pages = s.builder.pages := by
  unfold State.cutBuild State.endBuild
  split
  · split_ifs
    · split
      · rfl
      · rfl
    · rfl
  · rfl

theorem State.SectionLaw.beginFrame (h : s.SectionLaw) (m : Nat) (lit : Nat → ZoneSet) : (s.beginFrame m lit).SectionLaw := by
  have airs : (s.airing m).SectionLaw := h.of_eq (by simp)
  unfold State.beginFrame
  extract_lets _ _ aired
  have cut : (aired.cutBuild m lit).SectionLaw := (airs.of_eq (t := aired) rfl).of_eq (State.cutBuild_pages _ _ _)
  exact (cut.buildDue m lit).of_eq (by simp)

/-- A frame mark empties pages alone (R115, R126). -/
theorem State.SectionLaw.takeMark (h : s.SectionLaw) : s.takeMark.SectionLaw := by
  unfold State.takeMark
  simp only
  split
  · exact State.SectionLaw.beginFrame (h.of_eq (by simp)) _ _
  · refine .empty ?_
    unfold State.endStopping
    simp [State.emptyPages]

theorem State.SectionLaw.boundary (h : s.SectionLaw) : s.boundary.SectionLaw := by
  have before : s.beforeReports.SectionLaw := by
    unfold State.beforeReports
    split_ifs
    · exact State.SectionLaw.takeMark (s := s.airSteps true) (h.of_eq (by simp))
    · exact (h.of_eq (t := s.airSteps false) (by simp)).of_eq rfl
    · exact h.of_eq (by simp)
  rw [State.boundary_eq]
  exact before.of_eq (by simp)

theorem State.Worked.pages (w : s.Worked p u) : u.builder.pages = s.builder.pages := by
  cases w with
  | reference | lateBuild | discarded | sweepPassed => rfl
  | settled e rest _ => simp [State.takeSettle]
  | walk => simp [State.walkStep]
  | _ => simp

theorem State.Ordered.pages (o : s.Ordered t) : t.builder.pages = s.builder.pages := by
  cases o with
  | amended n p live =>
    unfold State.applyAmend
    simp only
    split
    · simp
    · simp
  | clocked day second => rfl
  | _ => simp

theorem State.message_builder (s : State) (q : Posting) : (s.message q).builder = s.builder := by
  unfold State.message
  split
  all_goals simp

theorem State.SectionLaw.did (h : s.SectionLaw) (d : s.Did t) : t.SectionLaw := by
  cases d with
  | nothing => exact h
  | powerOn => exact .empty rfl
  | loaded profile =>
    rw [State.load_eq]
    refine .empty ?_
    rw [State.ask_builder]
    rfl
  | engineReset =>
    rw [State.engineReset_eq]
    refine .empty ?_
    rw [State.reply_builder, State.ask_builder, State.ask_builder]
    rfl
  | hosted => exact h.of_eq rfl
  | bodyWritten w rest outside => exact h.of_eq rfl
  | posted n rest free lt => exact h.of_eq rfl
  | withdrawn n rest posted => exact h.of_eq rfl
  | slotReturned n rest answered => exact h.of_eq rfl
  | pageReturned p rest filled => exact h.of_eq rfl
  | mirrored m => exact h.of_eq rfl
  | taken n rest taking queue => exact h.of_eq rfl
  | takenNone taking queue => exact h.of_eq rfl
  | requested n p working code => exact h.of_eq (by rw [State.message_builder])
  | copied n p k working other => exact h.of_eq rfl
  | answered n p code data working other o => exact h.of_eq (by rw [State.answer_builder, o.pages])
  | boundary => exact h.boundary
  | monitored m from_ => exact h.of_eq (by simp)
  | built run => exact h.buildCandidate run
  | observed l kind at_ bit choices => exact h.of_eq (by simp)
  | counted l r => exact h.of_eq rfl
  | accepted l bits => exact (h.of_eq (t := s.acceptMessage l bits) rfl).of_eq (by simp)
  | sweepAsked g => exact h.of_eq (by simp)
  | swept => exact h.of_eq rfl
  | walked holds flies more left => exact h.of_eq State.Worked.walk.pages
  | walkEnded holds flies past => exact (h.of_eq State.Worked.walk.pages).of_eq rfl
  | unit holds w => exact (h.of_eq w.pages).of_eq (by simp)
  | pageClosed => exact h.of_eq rfl

end

/-- Settles O7: every request on a record keeps the laws of R105 and R106 and takes no room from a message past its checks; a
record becomes WAITING only where its subscriber is reachable; and a placement keeps to the room of its sections. -/
theorem stepKeepsUnreachableLaw : Obligations.StepKeepsUnreachableLaw := by
  unfold Obligations.StepKeepsUnreachableLaw
  have queue (s : State) (rest : List Instr) (tidy : s.Tidy) : ({ s with pending := rest } : State).Tidy :=
    ⟨tidy.mem, tidy.slots, tidy.subscribers, tidy.records⟩
  refine ⟨fun s t tidy h run => ?_, fun s t tidy guard pages admission store lists run => ?_, fun s t h run => ?_⟩
  · exact step_reaches (pre := fun s => s.Tidy ∧ s.UnreachableLaw) (fun s rest law => ⟨queue s rest law.1, law.2⟩)
      (fun s t law d => law.2.did law.1.canon d) ⟨tidy, h⟩ run
  · refine step_reaches (pre := fun s => s.Stocked ∧ s.ex.GuardLaw ∧ s.ex.writer.PageLaw ∧ s.AdmissionLaw)
      (post := fun t => t.StoreLaw ∧ t.ListLaw ∧ t.AdmissionLaw) ?_ ?_ ⟨⟨tidy.canon, store, lists⟩, guard, pages, admission⟩ run
    · exact fun s rest ⟨stocked, guard, pages, admission⟩ => ⟨stocked.of_eq rfl rfl, guard, pages, admission⟩
    · intro s t ⟨stocked, guard, pages, admission⟩ d
      have kept := stocked.did admission d
      exact ⟨kept.store, kept.lists, admission.did stocked.canon guard pages d⟩
  · exact step_keeps (law := State.SectionLaw) (fun s rest law => law) (fun s t law d => law.did d) h run

end Sys2Proof.Machine
end

section
/-! The step itself and its first state (O1, O2), and the accesses of the host (O11, O13, O16). -/

namespace Sys2Proof.Machine

section
variable {s : State}

/-! ## Power-on (R177) -/

theorem Exchange.powerOn_guard : Exchange.powerOn.GuardLaw :=
  .empty rfl rfl rfl (by decide) rfl

/-- Settles O1: a step is the meaning of the command at the front. -/
theorem stepRunsFrontCommand : Obligations.StepRunsFrontCommand := fun _ _ _ => rfl

/-- Settles O2: nothing is posted, reserved, keyed, in service or occupied at power-on. -/
theorem resetIsLawful : Obligations.ResetIsLawful := by
  unfold Obligations.ResetIsLawful
  have store := State.Stocked.powerOn (s := State.reset) rfl rfl
  exact
    { tidy := ⟨by decide, rfl, rfl, rfl⟩
      guard := Exchange.powerOn_guard
      pages := Writer.reset_pageLaw
      room := Writer.reset_room
      intake := nofun
      admission := .none rfl
      key := .dark fun l => by simp [State.link, State.reset, Link.reset]
      unreachable := store.2
      store := store.1.store
      lists := store.1.lists
      sections := .empty rfl
      period := .vacant (show 0 < 65536 by decide) fun n =>
        congrArg (fun u : Subscriber => u.billing.state) (Table.get_nil Subscriber.powerOn n) }

/-! ## Accesses (R177, R182, R183) -/

/-- In LOADING a write to the register block is answered with retry (R177). -/
theorem State.registerWrite_loading (loading : s.engine.state = .loading) (t : State) : s.registerWrite t = s.reply .retry :=
  if_pos (decide_eq_true loading)

/-- Outside LOADING it is accepted (R177). -/
theorem State.registerWrite_done (live : s.engine.state ≠ .loading) (t : State) : s.registerWrite t = t.reply .done :=
  if_neg (by simpa [State.loading] using live)

/-- A bit of byte 0 is written 1 where the data holds 1 and byte 0 is enabled (R188). -/
theorem writesOne_low (data : Word) (e : BitVec 4) {k : Nat} (low : k < 8) :
    writesOne data e k = (data.getLsbD k && e.getLsbD 0) := by
  have byte (c : Bool) (x : Word) : (if c = true then x else 0).getLsbD k = (c && x.getLsbD k) := by
    cases c
    · simp
    · simp
  have own : ∀ k : Fin 8, ((0xFF <<< (8 * 0) : Nat) : Word).getLsbD k.val = true := by decide
  have above : ∀ k : Fin 8, ((0xFF <<< (8 * 1) : Nat) : Word).getLsbD k.val = false ∧
      ((0xFF <<< (8 * 2) : Nat) : Word).getLsbD k.val = false ∧ ((0xFF <<< (8 * 3) : Nat) : Word).getLsbD k.val = false := by
    decide
  obtain ⟨second, third, fourth⟩ := above ⟨k, low⟩
  simp only [writesOne, maskEnabled, BitVec.getLsbD_and, BitVec.getLsbD_or, byte, own ⟨k, low⟩, second, third, fourth,
    Bool.and_true, Bool.and_false, Bool.or_false]

/-- Settles O11: in LOADING no access reaches a register or the window. -/
theorem accessRetriedInLoading : Obligations.AccessRetriedInLoading := by
  unfold Obligations.AccessRetriedInLoading
  intro s o data e loading retried
  have on : s.loading = true := decide_eq_true loading
  have register (t : State) : Host.Outcome.next (s.registerWrite t) = retried :=
    congrArg Host.Outcome.next (State.registerWrite_loading loading t)
  have inside {size : Nat} (lt : o < size) : ¬ size ≤ o := Nat.not_le.mpr lt
  refine ⟨?_, fun lt => ⟨?_, ?_⟩, register _, register _, register _, register _, register _, register _, register _,
    register _, fun lt => ?_⟩
  · exact congrArg Host.Outcome.next (if_pos on)
  · exact (if_neg (inside lt)).trans (if_pos on)
  · exact (if_neg (inside lt)).trans (if_pos (.inl on))
  · exact (if_neg (inside lt)).trans (register s)

/-- Settles O13: each write clears its own bit where the data holds 1 in an enabled byte 0. -/
theorem eventBitsClearOnWriteOfOne : Obligations.EventBitsClearOnWriteOfOne := by
  unfold Obligations.EventBitsClearOnWriteOfOne
  intro s data e live one bits after
  have accepted (t : State) : (Host.Outcome.next (s.registerWrite t) : Host.Outcome State Fault Refusal) =
      .next (t.reply .done) := congrArg Host.Outcome.next (State.registerWrite_done live t)
  have bit {k : Nat} (low : k < 8) : writesOne data e k = one k := writesOne_low data e low
  refine ⟨(accepted _).trans ?_, (accepted _).trans ?_, (accepted _).trans ?_, (accepted _).trans ?_, (accepted _).trans ?_,
    (accepted _).trans ?_⟩
  case refine_3 =>
    rw [bit (by decide)]
    cases one 2 with
    | false => rfl
    | true => cases s.ex.fence.isSome with
      | false => rfl
      | true => rfl
  all_goals
    rw [bit (by decide)]
    split
    · next clears => simp [clears, after, State.reply, bits]
    · next stands => simp [stands, after, State.reply, bits]

/-- Settles O16: the word joins the tail of the buffer, or is answered with retry. -/
theorem hostWriteJoinsBuffer : Obligations.HostWriteJoinsBuffer := by
  unfold Obligations.HostWriteJoinsBuffer
  intro s o data e live
  have off : s.loading = false := decide_eq_false live
  refine ⟨fun lt aligned few => ?_, fun lt full => ?_, fun past => if_pos past⟩
  · have whole : wordOffset o = o := Nat.div_mul_cancel (Nat.dvd_of_mod_eq_zero aligned)
    have room : ¬ (s.loading = true ∨ Config.bufferSize ≤ s.ex.buffer.length) := by
      rw [off]
      rintro (never | full)
      · cases never
      · exact absurd few (Nat.not_lt.mpr full)
    refine (if_neg (Nat.not_le.mpr lt)).trans ((if_neg room).trans ?_)
    rw [whole]
    rfl
  · exact (if_neg (Nat.not_le.mpr lt)).trans (if_pos (.inr full))

end

end Sys2Proof.Machine
end

section
/-! The register block as it reads and as it is written (O14). -/

namespace Sys2Proof.Machine

/-! ## Words made of fields -/

theorem wordFlag_bit (b : Bool) (k : Nat) : (wordFlag b).getLsbD k = (decide (k = 0) && b) := by
  cases b
  · simp [wordFlag]
  · by_cases zero : k = 0
    · simp [wordFlag, zero]
    · simp [wordFlag, zero]

/-- A field below 2^n has no bit from n on. -/
theorem field_bit {x : Word} {n k : Nat} (small : x.toNat < 2 ^ n) (past : n ≤ k) : x.getLsbD k = false := by
  rw [← BitVec.testBit_toNat]
  exact Nat.testBit_lt_two_pow (Nat.lt_of_lt_of_le small (Nat.pow_le_pow_right (by decide) past))

theorem EventBits.toWord_bit (b : EventBits) (k : Nat) : b.toWord.getLsbD k =
    ((decide (k = 0) && b.answers) || (decide (k = 1) && b.pageClosed) || (decide (k = 2) && b.fence) ||
      (decide (k = 3) && b.link) || (decide (k = 4) && b.reference) || (decide (k = 5) && b.engine)) := by
  have shifted (f : Bool) (n : Nat) (small : n < 6) : (wordFlag f <<< n).getLsbD k = (decide (k = n) && f) := by
    rw [BitVec.getLsbD_shiftLeft, wordFlag_bit]
    by_cases same : k = n
    · subst same
      simp [show k < 32 by omega]
    · by_cases below : k < n
      · simp [below, same]
      · have apart : k - n ≠ 0 := by omega
        simp [same, apart]
  simp only [EventBits.toWord, BitVec.getLsbD_or, wordFlag_bit, shifted _ 1 (by decide), shifted _ 2 (by decide),
    shifted _ 3 (by decide), shifted _ 4 (by decide), shifted _ 5 (by decide)]

/-- What is written to EVENT ENABLE reads back, bits 31:6 as 0 (R183). -/
theorem EventBits.toWord_ofWord (w : Word) : (EventBits.ofWord w).toWord = w &&& 0x3F := by
  refine BitVec.eq_of_getLsbD_eq fun k lt => ?_
  rw [EventBits.toWord_bit, BitVec.getLsbD_and]
  have mask : ∀ k : Fin 32, (0x3F : Word).getLsbD k.val = decide (k.val < 6) := by decide
  rw [mask ⟨k, lt⟩]
  unfold EventBits.ofWord
  by_cases event : k < 6
  · interval_cases k
    all_goals simp
  · have apart : k ≠ 0 ∧ k ≠ 1 ∧ k ≠ 2 ∧ k ≠ 3 ∧ k ≠ 4 ∧ k ≠ 5 := by omega
    simp [apart, event]

/-- The bits set in both. -/
def EventBits.both (a b : EventBits) : EventBits :=
  ⟨a.answers && b.answers, a.pageClosed && b.pageClosed, a.fence && b.fence, a.link && b.link, a.reference && b.reference,
    a.engine && b.engine⟩

theorem EventBits.toWord_both (a b : EventBits) : a.toWord &&& b.toWord = (a.both b).toWord := by
  refine BitVec.eq_of_getLsbD_eq fun k lt => ?_
  simp only [BitVec.getLsbD_and, EventBits.toWord_bit, EventBits.both]
  by_cases event : k < 6
  · interval_cases k
    all_goals simp
  · have apart : k ≠ 0 ∧ k ≠ 1 ∧ k ≠ 2 ∧ k ≠ 3 ∧ k ≠ 4 ∧ k ≠ 5 := by omega
    simp [apart]

theorem EventBits.toWord_ne_zero (e : EventBits) : e.toWord ≠ 0 ↔
    (e.answers || e.pageClosed || e.fence || e.link || e.reference || e.engine) = true := by
  obtain ⟨answers, pageClosed, fence, link, reference, engine⟩ := e
  revert answers pageClosed fence link reference engine
  decide

/-! ## ENGINE STATE and FENCE RECORD (R188) -/

/-- Three bits of a word made of fields, from bit `n` on. -/
theorem extract_field {w x : Word} {n m : Nat} (bits : ∀ k, k < m → w.getLsbD (n + k) = x.getLsbD k) :
    w.extractLsb' n m = x.setWidth m := by
  refine BitVec.eq_of_getLsbD_eq fun k lt => ?_
  rw [BitVec.getLsbD_extractLsb', BitVec.getLsbD_setWidth, bits k lt]

/-- The bit of a field shifted into its place. -/
theorem shifted_bit {x : Word} {n k : Nat} (lt : k < 32) : (x <<< n).getLsbD k = (decide (n ≤ k) && x.getLsbD (k - n)) := by
  rw [BitVec.getLsbD_shiftLeft]
  by_cases below : k < n
  · simp [below, Nat.not_le.mpr below]
  · simp [below, Nat.not_lt.mp below, lt]

theorem EngineState.code_small (e : EngineState) : e.code.toNat < 2 ^ 3 := by cases e <;> decide

theorem MonitorState.code_small (m : MonitorState) : m.code.toNat < 2 ^ 3 := by cases m <;> decide

theorem RestartCause.code_small (c : RestartCause) : c.code.toNat < 2 ^ 2 := by cases c <;> decide

theorem FenceKind.code_small (k : FenceKind) : k.code.toNat < 2 ^ 3 := by cases k <;> decide

theorem State.engineStateWord_bit (s : State) {k : Nat} (lt : k < 32) : s.engineStateWord.getLsbD k =
    (s.engine.state.code.getLsbD k || (decide (4 ≤ k) && s.air.monitor.state.code.getLsbD (k - 4)) ||
      (decide (8 ≤ k) && s.engine.cause.code.getLsbD (k - 8)) || (decide (k = 12) && s.engine.profileDefaulted)) := by
  simp only [State.engineStateWord, BitVec.getLsbD_or, shifted_bit lt, wordFlag_bit]
  congr 1
  by_cases same : k = 12
  · simp [same]
  · have apart : ¬ (12 ≤ k ∧ k - 12 = 0) := by omega
    rw [← Bool.and_assoc, ← Bool.decide_and, decide_eq_false apart, decide_eq_false same]

/-- ENGINE STATE reads with each field in its bits (R188). -/
theorem State.engineStateWord_fields (s : State) :
    let w := s.engineStateWord
    w.extractLsb' 0 3 = s.engine.state.code.setWidth 3 ∧ w.extractLsb' 4 3 = s.air.monitor.state.code.setWidth 3 ∧
    w.extractLsb' 8 2 = s.engine.cause.code.setWidth 2 ∧ w.getLsbD 12 = s.engine.profileDefaulted ∧
    w.getLsbD 3 = false ∧ w.getLsbD 7 = false ∧ w.extractLsb' 10 2 = 0 ∧ w.extractLsb' 13 19 = 0 := by
  intro w
  have bit {k : Nat} (lt : k < 32) : w.getLsbD k = _ := s.engineStateWord_bit lt
  have state {k : Nat} (past : 3 ≤ k) : s.engine.state.code.getLsbD k = false := field_bit s.engine.state.code_small past
  have monitor {k : Nat} (past : 3 ≤ k) : s.air.monitor.state.code.getLsbD k = false :=
    field_bit s.air.monitor.state.code_small past
  have cause {k : Nat} (past : 2 ≤ k) : s.engine.cause.code.getLsbD k = false := field_bit s.engine.cause.code_small past
  have zero {n m : Nat} (clear : ∀ k, k < m → w.getLsbD (n + k) = false) : w.extractLsb' n m = 0 := by
    refine BitVec.eq_of_getLsbD_eq fun k lt => ?_
    rw [BitVec.getLsbD_extractLsb', clear k lt]
    simp
  refine ⟨extract_field fun k lt => ?_, extract_field fun k lt => ?_, extract_field fun k lt => ?_, ?_, ?_, ?_,
    zero fun k lt => ?_, zero fun k lt => ?_⟩
  · rw [bit (by omega), Nat.zero_add]
    simp [show ¬ 4 ≤ k by omega, show ¬ 8 ≤ k by omega, show k ≠ 12 by omega]
  · rw [bit (by omega), state (by omega)]
    simp [show ¬ 8 ≤ 4 + k by omega, show 4 + k ≠ 12 by omega]
  · rw [bit (by omega), state (by omega), monitor (by omega)]
    simp [show 8 + k ≠ 12 by omega]
  · rw [bit (by omega), state (by omega), monitor (by omega), cause (by omega)]
    simp
  · rw [bit (by omega), state (by omega)]
    simp
  · rw [bit (by omega), state (by omega), monitor (by omega)]
    simp
  · rw [bit (by omega), state (by omega), monitor (by omega), cause (by omega)]
    simp [show 10 + k ≠ 12 by omega]
  · rw [bit (by omega), state (by omega), monitor (by omega), cause (by omega)]
    simp [show 13 + k ≠ 12 by omega]

/-- FENCE RECORD reads with each field in its bits (R188). -/
theorem State.fenceRecordWord_fields {s : State} {f : Fence} (fence : s.ex.fence = some f)
    (seen : ∀ v, f.seen = some v → v.toNat < 4) :
    let w := s.fenceRecordWord
    w.extractLsb' 0 3 = f.kind.code.setWidth 3 ∧ w.getLsbD 3 = f.seen.isSome ∧
    w.extractLsb' 4 2 = (f.seen.getD 0).setWidth 2 ∧ (w.extractLsb' 6 18).toNat = f.offset / 4 % 2 ^ 18 ∧
    (w.extractLsb' 24 8).toNat = f.later % 256 := by
  intro w
  have small : (f.seen.getD 0).toNat < 2 ^ 2 := by
    cases seen' : f.seen with
    | none => decide
    | some v => exact seen v seen'
  have bit {k : Nat} (lt : k < 32) : w.getLsbD k =
      (f.kind.code.getLsbD k || (decide (3 ≤ k) && (decide (k - 3 = 0) && f.seen.isSome)) ||
        (decide (4 ≤ k) && (f.seen.getD 0).getLsbD (k - 4)) ||
        (decide (6 ≤ k) && (word (f.offset / 4 % 0x40000)).getLsbD (k - 6)) ||
        (decide (24 ≤ k) && (word f.later).getLsbD (k - 24))) := by
    simp only [w, State.fenceRecordWord, fence, BitVec.getLsbD_or, shifted_bit lt, wordFlag_bit]
  have kind {k : Nat} (past : 3 ≤ k) : f.kind.code.getLsbD k = false := field_bit f.kind.code_small past
  have state {k : Nat} (past : 2 ≤ k) : (f.seen.getD 0).getLsbD k = false := field_bit small past
  have offset {k : Nat} (past : 18 ≤ k) : (word (f.offset / 4 % 0x40000)).getLsbD k = false := by
    refine field_bit (n := 18) ?_ past
    rw [word, BitVec.toNat_ofNat]
    omega
  refine ⟨extract_field fun k lt => ?_, ?_, extract_field fun k lt => ?_, ?_, ?_⟩
  · rw [bit (by omega), Nat.zero_add]
    simp [show ¬ 3 ≤ k by omega, show ¬ 4 ≤ k by omega, show ¬ 6 ≤ k by omega, show ¬ 24 ≤ k by omega]
  · rw [bit (by omega), kind (by omega)]
    simp
  · rw [bit (by omega), kind (by omega)]
    simp [show 4 + k - 3 ≠ 0 by omega, show ¬ 6 ≤ 4 + k by omega, show ¬ 24 ≤ 4 + k by omega]
  · have field : w.extractLsb' 6 18 = (word (f.offset / 4 % 0x40000)).setWidth 18 := by
      refine extract_field fun k lt => ?_
      rw [bit (by omega), kind (by omega), state (by omega)]
      simp [show 6 + k - 3 ≠ 0 by omega, show ¬ 24 ≤ 6 + k by omega]
    rw [field, BitVec.toNat_setWidth, word, BitVec.toNat_ofNat]
    omega
  · have field : w.extractLsb' 24 8 = (word f.later).setWidth 8 := by
      refine extract_field fun k lt => ?_
      rw [bit (by omega), kind (by omega), state (by omega), offset (by omega)]
      simp [show 24 + k - 3 ≠ 0 by omega]
    rw [field, BitVec.toNat_setWidth, word, BitVec.toNat_ofNat]
    omega

/-- Settles O14: the words of the registers bit by bit. -/
theorem enableWriteAndInterruptLine : Obligations.EnableWriteAndInterruptLine := by
  unfold Obligations.EnableWriteAndInterruptLine
  refine ⟨fun s data e live => ?_, fun s o data e live => ⟨fun lt => ?_, fun past => if_pos past⟩, fun s => ?_,
    State.engineStateWord_fields, fun s => ⟨fun none => ?_, fun f fence seen => State.fenceRecordWord_fields fence seen⟩,
    fun s o place => ?_⟩
  · refine ⟨_, congrArg Host.Outcome.next (State.registerWrite_done live _), rfl, fun on => ?_, fun off => ?_⟩
    · show (s.ex.enable.written data e).toWord = _
      rw [EventBits.written, if_pos on, EventBits.toWord_ofWord]
    · show s.ex.enable.written data e = _
      rw [EventBits.written, if_neg (by rw [off]; decide)]
  · exact (if_neg (Nat.not_le.mpr lt)).trans (congrArg Host.Outcome.next (State.registerWrite_done live s))
  · show _ ↔ s.ex.summary.toWord &&& s.ex.enable.toWord ≠ 0
    rw [EventBits.toWord_both, EventBits.toWord_ne_zero]
    rfl
  · show s.fenceRecordWord = 0
    rw [State.fenceRecordWord, none]
  · unfold State.registerWord
    rw [if_neg (by omega), if_neg (by omega), if_neg (by omega), if_neg (by omega)]

end Sys2Proof.Machine
end

section
/-! The host's window: delayed reads, the guard's judgement of a host write, the mirrors and the store arbiter (O15, O17,
O18, O20, O21, O22). -/

namespace Sys2Proof.Machine

/-! ## The delayed read (R68) -/

theorem State.loading_false {s : State} (ran : s.engine.state ≠ .loading) : s.loading = false := decide_eq_false ran

section
variable {s : State} {o : Nat}

theorem execHostWindowRead_outside (past : 0x100000 ≤ o) : execHostWindowRead o s = .fault (.outsideWindow o) := if_pos past

theorem execHostWindowRead_none (ran : s.engine.state ≠ .loading) (inside : o < 0x100000) (read : s.ex.read = none) :
    execHostWindowRead o s = .next { s with ex := { s.ex with read := some ⟨o / 4 * 4, 0, none⟩, bus := .retry } } := by
  refine (if_neg (Nat.not_le.mpr inside)).trans ((if_neg (by rw [State.loading_false ran]; decide)).trans ?_)
  rw [read]
  rfl

theorem execHostWindowRead_other {r : DelayedRead} (ran : s.engine.state ≠ .loading) (inside : o < 0x100000)
    (read : s.ex.read = some r) (other : o / 4 * 4 ≠ r.offset) : execHostWindowRead o s = .next (s.reply .retry) := by
  refine (if_neg (Nat.not_le.mpr inside)).trans ((if_neg (by rw [State.loading_false ran]; decide)).trans ?_)
  rw [read]
  exact if_neg (Ne.symm other)

theorem execHostWindowRead_same {r : DelayedRead} (ran : s.engine.state ≠ .loading) (inside : o < 0x100000)
    (read : s.ex.read = some r) (same : o / 4 * 4 = r.offset) : execHostWindowRead o s =
      match s.ex.readWord r with
      | some w => .next (State.reply { s with ex.read := none } (.data w))
      | none => .next (s.reply .retry) := by
  refine (if_neg (Nat.not_le.mpr inside)).trans ((if_neg (by rw [State.loading_false ran]; decide)).trans ?_)
  rw [read]
  exact if_pos same.symm

end

/-- A retried attempt leaves the read in progress. -/
theorem State.reply_read {s : State} {r : DelayedRead} (read : s.ex.read = some r) :
    s.reply .retry = { s with ex := { s.ex with read := some r, bus := .retry } } := by
  rw [← read]
  rfl

theorem Exchange.readWord_arrived {x : Exchange} {r : DelayedRead} {w : Word} (data : r.data = some w) :
    x.readWord r = some w := by
  unfold Exchange.readWord
  rw [data]

theorem Exchange.readWord_waiting {x : Exchange} {r : DelayedRead} (data : r.data = none)
    (wait : r.offset < 0x29000 ∨ r.after < x.buffer.length) : x.readWord r = none := by
  unfold Exchange.readWord
  rw [data]
  refine if_neg fun ready => ?_
  have judged : x.buffer.length ≤ r.after := of_decide_eq_true ready.2
  have unused : 0x29000 ≤ r.offset := ready.1
  omega

theorem Exchange.readWord_unused {x : Exchange} {r : DelayedRead} (data : r.data = none) (unused : 0x29000 ≤ r.offset)
    (judged : x.buffer.length ≤ r.after) : x.readWord r = some 0 := by
  unfold Exchange.readWord
  rw [data]
  exact if_pos ⟨unused, decide_eq_true judged⟩

section
variable {x : Exchange} {o : Nat}

theorem Exchange.windowWord_header (h : o < 0x1000) : x.windowWord o = Memory.readWord x.mem o := by
  rw [Exchange.windowWord, regionOf_header h]

theorem Exchange.windowWord_slotState {n : Nat} (h : n < 512) : x.windowWord (0x1000 + n * 0x100) = (x.slot n).code := by
  rw [Exchange.windowWord, regionOf_slotState h]

theorem Exchange.windowWord_slotBody {n k : Nat} (h : n < 512) (pos : 0 < k) (lt : k < 0x100) :
    x.windowWord (0x1000 + n * 0x100 + k) = Memory.readWord x.mem (0x1000 + n * 0x100 + k) := by
  rw [Exchange.windowWord, regionOf_slotBody h pos lt]

theorem Exchange.windowWord_pageState (p : Index8) :
    x.windowWord (0x21000 + p.val * 0x1000) = (x.writer.pages.get p).code := by
  rw [Exchange.windowWord, regionOf_pageState p]

theorem Exchange.windowWord_pageBody (p : Index8) {k : Nat} (pos : 0 < k) (lt : k < 0x1000) :
    x.windowWord (0x21000 + p.val * 0x1000 + k) = Memory.readWord x.mem (0x21000 + p.val * 0x1000 + k) := by
  rw [Exchange.windowWord, regionOf_pageBody p pos lt]

end

/-- Settles O15: an attempt by the phase of the read in progress, and the burst by whether it is granted to the read and what
region the read's word lies in. -/
theorem hostReadReturnsWord : Obligations.HostReadReturnsWord := by
  unfold Obligations.HostReadReturnsWord
  refine ⟨fun s ran => ⟨fun o past => execHostWindowRead_outside past, fun read o inside => ?_, fun r read =>
    ⟨fun o inside other => ?_, fun o inside same => ⟨fun w data => ?_, fun data wait => ?_, fun data unused judged => ?_⟩⟩⟩,
    fun s encoder q r read => ?_⟩
  · exact execHostWindowRead_none ran inside read
  · exact (execHostWindowRead_other ran inside read other).trans (by rw [State.reply_read read])
  · refine (execHostWindowRead_same ran inside read same).trans ?_
    rw [Exchange.readWord_arrived data]
    rfl
  · refine (execHostWindowRead_same ran inside read same).trans ?_
    rw [Exchange.readWord_waiting data (wait.imp (fun used => by omega) id)]
    exact congrArg _ (State.reply_read read)
  · refine (execHostWindowRead_same ran inside read same).trans ?_
    rw [Exchange.readWord_unused data (by omega) judged]
    rfl
  · refine ⟨_, rfl, ?_⟩
    generalize arbiter : s.arbiter.grant s.engine.office.weight encoder q = a
    intro fetched granted
    have taken (h : granted) (used : r.offset < 0x29000) : fetched (s.ex.windowWord r.offset) := by
      obtain ⟨port, data, judged⟩ := h
      exact (if_pos port).trans (Exchange.fetch_eq read data used judged)
    refine ⟨fun h => ⟨fun n lt offset => ?_, fun p offset => ?_, fun header => ?_, fun n k lt pos low offset => ?_,
      fun p k pos low offset => ?_, fun unused => ?_⟩, fun h => ?_, rfl⟩
    · rw [← Exchange.windowWord_slotState lt, ← offset]
      exact taken h (by omega)
    · have := p.isLt
      rw [← Exchange.windowWord_pageState p, ← offset]
      exact taken h (by omega)
    · rw [← Exchange.windowWord_header header]
      exact taken h (by omega)
    · rw [offset, ← Exchange.windowWord_slotBody lt pos low, ← offset]
      exact taken h (by omega)
    · have := p.isLt
      rw [offset, ← Exchange.windowWord_pageBody p pos low, ← offset]
      exact taken h (by omega)
    · exact (if_pos h.1).trans (Exchange.fetch_idle read (.inr (.inl unused)))
    · by_cases port : a.port = .client .hostWindow
      · refine (if_pos port).trans (Exchange.fetch_idle read ?_)
        by_contra waits
        refine h ⟨port, ?_, ?_⟩
        · by_contra data
          exact waits (.inl data)
        · exact Nat.not_lt.mp fun late => waits (.inr (.inr late))
      · exact if_neg port

/-! ## The guard's judgement (R71, R75, R76) -/

theorem Exchange.judged_cons {x : Exchange} {w : BufferedWrite} {rest : List BufferedWrite} (buffer : x.buffer = w :: rest) :
    x.judged = some (w, x.verdict w, x.took rest) := by
  unfold Exchange.judged
  rw [buffer]
  rfl

section
variable {x : Exchange} {w : BufferedWrite} {n : Nat}

theorem Exchange.verdict_body {k : Nat} (h : n < 512) (pos : 0 < k) (lt : k < 0x100)
    (offset : w.offset = 0x1000 + n * 0x100 + k) (owned : x.slot n = .free ∨ x.slot n = .posted) : x.verdict w = .body := by
  unfold Exchange.verdict
  rw [offset, regionOf_slotBody h pos lt]
  exact if_pos owned

theorem Exchange.verdict_slotOwned {k : Nat} (h : n < 512) (pos : 0 < k) (lt : k < 0x100)
    (offset : w.offset = 0x1000 + n * 0x100 + k) (owned : x.slot n = .taken ∨ x.slot n = .answered) :
    x.verdict w = .drop .slotOwned (some (x.slot n).code) := by
  unfold Exchange.verdict
  rw [offset, regionOf_slotBody h pos lt]
  refine if_neg fun host => ?_
  rcases owned with e | e <;> rw [e] at host <;> rcases host with f | f <;> cases f

/-- The judgement of a write over a slot's state word (R71). -/
theorem Exchange.verdict_state (h : n < 512) (offset : w.offset = 0x1000 + n * 0x100) : x.verdict w =
    if w.enables = 0xF ∧ w.data = 1 ∧ x.slot n = .free then .post n
    else if w.enables = 0xF ∧ w.data = 0 ∧ x.slot n = .posted then .withdraw n
    else if w.enables = 0xF ∧ w.data = 0 ∧ x.slot n = .answered then .takeBack n
    else .drop .state (some (x.slot n).code) := by
  unfold Exchange.verdict
  rw [offset, regionOf_slotState h]
  rfl

theorem Exchange.verdict_header (h : w.offset < 0x1000) : x.verdict w = .drop .readOnly none := by
  unfold Exchange.verdict
  rw [regionOf_header h]

theorem Exchange.verdict_unused (h : 0x29000 ≤ w.offset) : x.verdict w = .drop .outside none := by
  unfold Exchange.verdict
  rw [regionOf_unused h]

theorem Exchange.verdict_pageReturn {p : Index8} (offset : w.offset = 0x21000 + p.val * 0x1000) (enables : w.enables = 0xF)
    (data : w.data = 0) (filled : x.writer.pages.get p = .filled) : x.verdict w = .pageReturn p := by
  unfold Exchange.verdict
  rw [offset, regionOf_pageState p]
  exact if_pos ⟨enables, data, filled⟩

theorem Exchange.verdict_report {p : Index8} {k : Nat} (lt : k < 0x1000) (offset : w.offset = 0x21000 + p.val * 0x1000 + k)
    (other : ¬ (k = 0 ∧ w.enables = 0xF ∧ w.data = 0 ∧ x.writer.pages.get p = .filled)) :
    x.verdict w = .drop .report (some (x.writer.pages.get p).code) := by
  unfold Exchange.verdict
  by_cases state : k = 0
  · rw [state, Nat.add_zero] at offset
    rw [offset, regionOf_pageState p]
    exact if_neg fun returned => other ⟨state, returned⟩
  · rw [offset, regionOf_pageBody p (Nat.pos_of_ne_zero state) lt]

end

/-- Settles O17: the one word judged is written in its enabled bytes. -/
theorem slotBodyWritten : Obligations.SlotBodyWritten := by
  unfold Obligations.SlotBodyWritten
  intro s n k data e rest tidy slot aligned pos lt buffer owned
  have verdict : s.ex.verdict ⟨0x1000 + n * 0x100 + k, data, e⟩ = .body := Exchange.verdict_body slot pos lt rfl owned
  have ran : exec .slotBodyWrite s = .next { s with ex := { s.ex.took rest with
      mem := Memory.writeEnabled s.ex.mem (0x1000 + n * 0x100 + k) data e } } := by
    show execSlotBodyWrite s = _
    unfold execSlotBodyWrite
    rw [Exchange.judged_cons buffer, verdict]
    rfl
  exact ⟨_, ran, fun i low => Memory.read_writeEnabled_byte tidy.mem _ data e low,
    fun a out => Memory.read_writeEnabled_other out data e, rfl⟩

theorem fenceAfter_some (f : Fence) (offset : Nat) (kind : FenceKind) (seen : Option Word) :
    fenceAfter (some f) offset kind seen = { f with later := if f.later < 255 then f.later + 1 else 255 } := by
  have capped : saturate 255 f.later 1 = if f.later < 255 then f.later + 1 else 255 := by
    unfold saturate
    split <;> omega
  rw [← capped]
  rfl

theorem execDroppedWrite_drop {s : State} {w : BufferedWrite} {rest : List BufferedWrite} {kind : FenceKind}
    {seen : Option Word} (buffer : s.ex.buffer = w :: rest) (verdict : s.ex.verdict w = .drop kind seen) :
    execDroppedWrite s = .next { s with ex := { s.ex with
      buffer := rest, fence := some (fenceAfter s.ex.fence w.offset kind seen), summary.fence := true } } := by
  unfold execDroppedWrite
  rw [Exchange.judged_cons buffer, verdict]
  rfl

/-- Settles O20: the verdict on the word at the head of the buffer, region by region. -/
theorem droppedWriteFenced : Obligations.DroppedWriteFenced := by
  unfold Obligations.DroppedWriteFenced
  intro s w rest buffer fenced
  have dropped {kind : FenceKind} {seen : Option Word} (verdict : s.ex.verdict w = .drop kind seen) : fenced kind seen := by
    refine (execDroppedWrite_drop buffer verdict).trans ?_
    cases s.ex.fence with
    | none => rfl
    | some f =>
      rw [fenceAfter_some]
  refine ⟨fun header => dropped (Exchange.verdict_header header), fun unused => dropped (Exchange.verdict_unused unused),
    fun n k slot pos lt offset owned => dropped (Exchange.verdict_slotOwned slot pos lt offset owned),
    fun n slot offset other => dropped ?_, fun p k lt offset other => dropped (Exchange.verdict_report lt offset other)⟩
  rw [Exchange.verdict_state slot offset, if_neg fun h => other ⟨h.1, .inl h.2⟩,
    if_neg fun h => other ⟨h.1, .inr ⟨h.2.1, .inl h.2.2⟩⟩, if_neg fun h => other ⟨h.1, .inr ⟨h.2.1, .inr h.2.2⟩⟩]

/-! ## The state word of a slot (R70 to R72, R74) -/

/-- A request leaves all but the requests, the reservations and the intake unit's state. -/
theorem Exchange.request_eq (x : Exchange) (p : Producer) :
    x.request p = { x with writer := (x.request p).writer, intake := (x.request p).intake } := x.request_requested p

/-- What R82 can do: it writes the requests, the reservations and the intake unit's state. -/
theorem Exchange.wakeIntake_requested (x : Exchange) (loading : Bool) : x.Requested (x.wakeIntake loading) := by
  unfold Exchange.wakeIntake
  split
  · exact Exchange.Requested.trans (y := { x with intake := .roomWait }) rfl (Exchange.request_requested _ _)
  · rfl

theorem Exchange.wakeIntake_pages (x : Exchange) (loading : Bool) : (x.wakeIntake loading).writer.pages = x.writer.pages := by
  unfold Exchange.wakeIntake
  split
  · exact (Exchange.request_pages { x with intake := .roomWait } .intake).1
  · rfl

theorem Exchange.wakeIntake_busy {x : Exchange} (busy : x.intake ≠ .idle) (loading : Bool) : x.wakeIntake loading = x :=
  if_neg fun wakes => busy wakes.1

/-- An IDLE intake unit that finds the queue nonempty enters ROOM WAIT, or is granted its room in the same step (R82, R83). -/
theorem Exchange.wakeIntake_wakes {x : Exchange} (idle : x.intake = .idle) (queue : x.queue ≠ []) :
    (x.wakeIntake false).intake = .roomWait ∨ (x.wakeIntake false).intake = .taking := by
  have woken : x.wakeIntake false = Exchange.request { x with intake := .roomWait } .intake := if_pos ⟨idle, queue, rfl⟩
  rw [woken]
  exact (Exchange.request_reported { x with intake := .roomWait } .intake).intake

theorem Exchange.notice_queue {x : Exchange} (m : Mirror) : m ∈ (x.notice m).notices := Exchange.notice_mem.mpr (.inr rfl)

/-- A slot's move noticed to the queue-length mirror, with the queue that stands then (R72, R77, R82). -/
def Exchange.queued (x : Exchange) (n : Nat) (v : SlotState) (queue : List Nat) (loading : Bool) : Exchange :=
  Exchange.wakeIntake { (x.setSlot n v).notice .queueLength with queue := queue } loading

section
variable {x : Exchange} {n : Nat} {v : SlotState} {queue : List Nat} {loading : Bool}

theorem Exchange.queued_eq : x.queued n v queue loading =
    { (x.setSlot n v).notice .queueLength with
      queue := queue, writer := (x.queued n v queue loading).writer, intake := (x.queued n v queue loading).intake } :=
  Exchange.wakeIntake_requested { (x.setSlot n v).notice .queueLength with queue := queue } loading

theorem Exchange.queued_pages : (x.queued n v queue loading).writer.pages = x.writer.pages :=
  Exchange.wakeIntake_pages { (x.setSlot n v).notice .queueLength with queue := queue } loading

theorem Exchange.queued_slot (slots : Table.wf SlotState.free x.slots = true) (m : Nat) :
    (x.queued n v queue loading).slot m = if m = n then v else x.slot m := by
  rw [Exchange.queued_eq]
  exact Exchange.slot_setSlot slots n m v

theorem Exchange.queued_busy (busy : x.intake ≠ .idle) :
    x.queued n v queue loading = { (x.setSlot n v).notice .queueLength with queue := queue } :=
  Exchange.wakeIntake_busy (x := { (x.setSlot n v).notice .queueLength with queue := queue }) busy loading

theorem Exchange.queued_wakes (idle : x.intake = .idle) (nonempty : queue ≠ []) :
    (x.queued n v queue false).intake = .roomWait ∨ (x.queued n v queue false).intake = .taking :=
  Exchange.wakeIntake_wakes (x := { (x.setSlot n v).notice .queueLength with queue := queue }) idle nonempty

theorem Exchange.queued_notices : Mirror.queueLength ∈ (x.queued n v queue loading).notices := by
  rw [Exchange.queued_eq]
  exact Exchange.notice_queue (x := x.setSlot n v) .queueLength

end

/-- Settles O18: posting, withdrawal and return, each as the move of its slot with what R72 and R74 move with it. -/
theorem slotStateWritesMoveSlot : Obligations.SlotStateWritesMoveSlot := by
  unfold Obligations.SlotStateWritesMoveSlot
  intro s n rest tidy slot moved
  have slots : Table.wf SlotState.free (s.ex.took rest).slots = true := tidy.slots
  have queuedMove {v : SlotState} {queue : List Nat} :
      moved v { s with ex := (s.ex.took rest).queued n v queue s.loading } := by
    refine ⟨Exchange.queued_slot slots, ?_⟩
    show (_ : Prop)
    refine ⟨by rw [Exchange.queued_eq]; rfl, fun a _ _ => by rw [Exchange.queued_eq]; rfl, by rw [Exchange.queued_eq]; rfl,
      by rw [Exchange.queued_eq]; rfl, by rw [Exchange.queued_eq]; rfl, by rw [Exchange.queued_eq]; rfl,
      by rw [Exchange.queued_eq]; rfl, by rw [Exchange.queued_eq]; rfl, Exchange.queued_pages, rfl⟩
  refine ⟨fun buffer free => ?_, fun buffer posted => ?_, fun buffer answered => ?_⟩
  · have ran : exec .slotPost s =
        .next { s with ex := (s.ex.took rest).queued n .posted (s.ex.queue ++ [n]) s.loading } := by
      show execSlotPost s = _
      unfold execSlotPost
      rw [Exchange.judged_cons buffer, Exchange.verdict_state slot rfl, if_pos ⟨rfl, rfl, free⟩]
      rfl
    refine ⟨_, ran, queuedMove, ?_⟩
    refine ⟨by rw [Exchange.queued_eq], by rw [Exchange.queued_eq]; rfl, by rw [Exchange.queued_eq]; rfl,
      Exchange.queued_notices, fun busy => ?_, fun idle ran => ?_⟩
    · exact (congrArg Exchange.intake (Exchange.queued_busy (x := s.ex.took rest) busy) :)
    · show (Exchange.queued _ _ _ _ s.loading).intake = _ ∨ (Exchange.queued _ _ _ _ s.loading).intake = _
      rw [State.loading_false ran]
      exact Exchange.queued_wakes (x := s.ex.took rest) idle (List.append_ne_nil_of_right_ne_nil _ (List.cons_ne_nil _ _))
  · have ran : exec .slotWithdraw s =
        .next { s with ex := (s.ex.took rest).queued n .free (s.ex.queue.filter fun m => decide (m ≠ n)) s.loading } := by
      show execSlotWithdraw s = _
      unfold execSlotWithdraw
      rw [Exchange.judged_cons buffer, Exchange.verdict_state slot rfl, if_neg fun h => absurd h.2.1 (show ¬ (0 : Word) = 1 by decide),
        if_pos ⟨rfl, rfl, posted⟩]
      rfl
    refine ⟨_, ran, queuedMove, ?_⟩
    exact ⟨by rw [Exchange.queued_eq], by rw [Exchange.queued_eq]; rfl, by rw [Exchange.queued_eq]; rfl,
      Exchange.queued_notices⟩
  · have ran : exec .slotReturn s =
        .next { s with ex := ((s.ex.took rest).setSlot n .free).setAnswered (s.ex.answered - 1) } := by
      show execSlotReturn s = _
      unfold execSlotReturn
      rw [Exchange.judged_cons buffer, Exchange.verdict_state slot rfl, if_neg fun h => absurd h.2.1 (show ¬ (0 : Word) = 1 by decide),
        if_neg fun h => by rw [answered] at h; exact absurd h.2.2 (by decide), if_pos ⟨rfl, rfl, answered⟩]
      rfl
    refine ⟨_, ran, ?_, rfl, rfl, ?_, rfl⟩
    · exact ⟨Exchange.slot_setSlot (x := s.ex.took rest) slots n (v := .free), rfl,
        fun a past _ => Memory.read_writeWord_other (.inr past) _, rfl, rfl, rfl, rfl, rfl, rfl, rfl, rfl⟩
    · exact Memory.readWord_writeWord_same tidy.mem 0 _

/-! ## Mirrors (R77, R185) -/

theorem State.mirrorWords_length (s : State) (m : Mirror) :
    4 * (s.mirrorWords m).length = if m = .officeClock then 8 else 4 := by cases m <;> rfl

/-- Settles O21: the mirror's words are written at its offset, and its notice is dropped. -/
theorem mirrorWritten : Obligations.MirrorWritten := by
  unfold Obligations.MirrorWritten
  intro s m tidy noticed
  have words := Memory.readWords_writeWords_same tidy.mem (mirrorOffset m) (s.mirrorWords m)
  refine ⟨_, if_pos noticed, fun i => of_decide_eq_true (List.mem_filter.mp i).2 rfl, fun k other => ?_, rfl, fun a out => ?_, ?_⟩
  · simp [other]
  · exact Memory.read_writeWords_other (by rw [s.mirrorWords_length]; exact out)
  · cases m with
    | officeClock =>
      obtain ⟨second, day⟩ := List.cons.inj words
      exact ⟨second, (List.cons.inj day).1⟩
    | _ => exact (List.cons.inj words).1

/-! ## The store arbiter (R78, R79) -/

/-- Of a list in rising order of `f`, the first element that satisfies `p` is the one of lowest `f` that does. -/
theorem find_of_lowest {α : Type} {l : List α} {f : α → Nat} {p : α → Bool} {c : α} (rising : l.Pairwise fun a b => f a < f b)
    (listed : c ∈ l) (holds : p c = true) (lowest : ∀ d, p d = true → f c ≤ f d) : l.find? p = some c := by
  induction l with
  | nil => cases listed
  | cons a rest ih =>
    obtain ⟨first, rising⟩ := List.pairwise_cons.mp rising
    rcases List.mem_cons.mp listed with e | listed
    · rw [← e]
      exact List.find?_cons_of_pos holds
    · have above := first c listed
      rw [List.find?_cons_of_neg fun h => Nat.not_le.mpr above (lowest a h)]
      exact ih rising listed

/-- How many clients after `h` the rotation comes to `c` (R79). -/
def turnsAfter (h c : Client) : Nat := (rotationAfter h).idxOf c

theorem rotationAfter_rising (h : Client) : (rotationAfter h).Pairwise fun a b => turnsAfter h a < turnsAfter h b := by
  cases h <;> decide

theorem mem_rotationAfter (h c : Client) : c ∈ rotationAfter h := by cases h <;> cases c <;> decide

section
variable {a : Arbiter} {weight : Client → Nat} {r : Requests}

theorem Arbiter.grant_stays (requested : requestOf r a.holder = true) (ran : 0 < a.run) (below : a.run < weight a.holder) :
    a.grant weight false r = ⟨a.holder, a.run + 1, .client a.holder⟩ :=
  (if_neg Bool.false_ne_true).trans (if_pos ⟨requested, ran, below⟩)

theorem Arbiter.grant_moves (moves : ¬ (requestOf r a.holder = true ∧ 0 < a.run ∧ a.run < weight a.holder)) :
    a.grant weight false r = match (rotationAfter a.holder).find? (requestOf r) with
      | some c => ⟨c, 1, .client c⟩
      | none => { a with port := .idle } := (if_neg Bool.false_ne_true).trans (if_neg moves)

end

/-- Settles O22: the encoder, the holder below its weight, the first requesting client of the rotation, and the idle port. -/
theorem burstGrantedByRotation : Obligations.BurstGrantedByRotation := by
  unfold Obligations.BurstGrantedByRotation
  intro s r place a after stays granted
  have runs {encoder : Bool} {b : Arbiter} (grant : s.arbiter.grant s.engine.office.weight encoder r = b) :
      exec (.storeBurstGrant encoder r) s = granted b := by
    rw [← grant]
    rfl
  have place_after (c : Client) : after c = turnsAfter a.holder c := by
    show (place c + 5 - place a.holder) % 6 = _
    generalize a.holder = h
    cases h <;> cases c <;> decide
  refine ⟨runs rfl, fun h => runs (Arbiter.grant_stays h.1 h.2.1 h.2.2), fun h c requested lowest => runs ?_, fun idle => runs ?_⟩
  · have first : (rotationAfter a.holder).find? (requestOf r) = some c :=
      find_of_lowest (rotationAfter_rising a.holder) (mem_rotationAfter _ c) requested fun d asks => by
        rw [← place_after, ← place_after]
        exact lowest d asks
    rw [Arbiter.grant_moves h, first]
  · have nobody : (rotationAfter a.holder).find? (requestOf r) = none :=
      List.find?_eq_none.mpr fun c _ asks => by rw [idle c] at asks; cases asks
    have moves : ¬ stays := fun h => Bool.false_ne_true ((idle a.holder).symm.trans h.1)
    rw [Arbiter.grant_moves moves, nobody]

end Sys2Proof.Machine
end

section
/-! What the two resets and the load leave (O9, O10, O12). -/

namespace Sys2Proof.Machine

/-! ## The bytes of the window -/

theorem Memory.readWords_add (m : List Host.Cell) (a j k : Nat) :
    Memory.readWords m a (j + k) = Memory.readWords m a j ++ Memory.readWords m (a + 4 * j) k := by
  induction j generalizing a with
  | zero => rw [Nat.zero_add]; rfl
  | succ j ih =>
    have next : a + 4 + 4 * j = a + 4 * (j + 1) := by omega
    rw [Nat.succ_add, Memory.readWords, Memory.readWords, ih, next, List.cons_append]

theorem Memory.readWords_eight {m : List Host.Cell} {x y z : List Word} (first : Memory.readWords m 0x00 4 = x)
    (second : Memory.readWords m 0x10 2 = y) (third : Memory.readWords m 0x18 2 = z) :
    Memory.readWords m 0x00 8 = x ++ (y ++ z) := by
  rw [← first, ← second, ← third]
  exact (Memory.readWords_add m 0x00 4 4).trans (congrArg _ (Memory.readWords_add m 0x10 2 2))

section
variable {m : List Host.Cell}

/-- The first four mirrors a reset leaves (R77). -/
theorem Memory.readWords_resetBytes_counts (h : Memory.wf m = true) :
    Memory.readWords (resetBytes m) 0x00 4 = [0, 0, 16384, 0] :=
  Memory.readWords_writeWords_same (Memory.wf_writeWords (Memory.wf_clearPageHeaders h) _ _) 0x00
    [0, 0, word Config.records, 0]

/-- The two report page mirrors a reset leaves (R77, R168). -/
theorem Memory.readWords_resetBytes_pages (h : Memory.wf m = true) : Memory.readWords (resetBytes m) 0x18 2 = [0, 0] := by
  unfold resetBytes
  rw [Memory.readWords_writeWords_other (.inr (by decide))]
  exact Memory.readWords_writeWords_same (Memory.wf_clearPageHeaders h) 0x18 [0, 0]

/-- The record count and sequence number of each page header a reset leaves (R168). -/
theorem Memory.readWords_resetBytes_header (h : Memory.wf m = true) (p : Index8) :
    Memory.readWords (resetBytes m) (pageBase p + 4) 2 = [0, 0] := by
  have past : 0x20 ≤ pageBase p + 4 := by unfold pageBase Config.pagesBase; omega
  unfold resetBytes
  rw [Memory.readWords_writeWords_other (.inr (Nat.le_trans (show 0 + 4 * 4 ≤ 0x20 by decide) past)),
    Memory.readWords_writeWords_other (.inr past)]
  exact Memory.readWords_clearPageHeaders h p

theorem pageBase_val (p : Index8) : pageBase p = 0x21000 + p.val * 0x1000 := rfl

/-- A reset leaves slot bodies (R70). -/
theorem Memory.read_resetBytes_body {n a : Nat} (slot : n < 512) (body : inBody n a) :
    Memory.read (resetBytes m) a = Memory.read m a := by
  have from_ : 0x1000 + n * 0x100 + 4 ≤ a := body.1
  have upTo : a < 0x1000 + n * 0x100 + 0x100 := body.2
  exact Memory.read_resetBytes (.inl (by omega)) fun p => .inl (by rw [pageBase_val]; omega)

/-- A reset leaves the records of the report pages (R168). -/
theorem Memory.read_resetBytes_record {a : Nat} (pages : inPages a) (record : 0x40 ≤ (a - 0x21000) % 0x1000) :
    Memory.read (resetBytes m) a = Memory.read m a := by
  have from_ : 0x21000 ≤ a := pages.1
  refine Memory.read_resetBytes (.inl (by omega)) fun p => ?_
  rw [pageBase_val]
  omega

end

/-! ## Power-on reset -/

/-- The bytes of the window after power-on reset. -/
def powerOnBytes (m : List Host.Cell) : List Host.Cell := Memory.writeWords (resetBytes m) 0x10 [0, 0]

/-- The state after power-on reset (R177). -/
def State.poweredOn (s : State) : State :=
  { State.reset with
    pending := s.pending, ex := { Exchange.powerOn with choices := s.ex.choices, mem := powerOnBytes s.ex.mem } }

theorem exec_powerOnReset (s : State) : exec .powerOnReset s = .next s.poweredOn := rfl

theorem State.poweredOn_mem (s : State) : s.poweredOn.ex.mem = powerOnBytes s.ex.mem := by
  simp only [State.poweredOn]

/-- Every mirror after power-on reset (R77, R177). -/
theorem Memory.readWords_powerOnBytes {m : List Host.Cell} (h : Memory.wf m = true) :
    Memory.readWords (powerOnBytes m) 0x00 8 = [0, 0, 16384, 0, 0, 0, 0, 0] := by
  have counts : Memory.readWords (powerOnBytes m) 0x00 4 = [0, 0, 16384, 0] :=
    (Memory.readWords_writeWords_other (.inl (by decide))).trans (Memory.readWords_resetBytes_counts h)
  have clock : Memory.readWords (powerOnBytes m) 0x10 2 = [0, 0] :=
    Memory.readWords_writeWords_same (Memory.wf_resetBytes h) 0x10 [0, 0]
  have pages : Memory.readWords (powerOnBytes m) 0x18 2 = [0, 0] :=
    (Memory.readWords_writeWords_other (.inr (by decide))).trans (Memory.readWords_resetBytes_pages h)
  exact Memory.readWords_eight counts clock pages

/-- Past the mirrors, power-on reset leaves what a reset leaves. -/
theorem Memory.read_powerOnBytes {m : List Host.Cell} {a : Nat} (past : 0x18 ≤ a) :
    Memory.read (powerOnBytes m) a = Memory.read (resetBytes m) a := Memory.read_writeWords_other (.inr past)

/-- Settles O9: each field of the reset state read off, and the window's bytes by the lemmas about them. -/
theorem powerOnResetEntersLoading : Obligations.PowerOnResetEntersLoading := by
  unfold Obligations.PowerOnResetEntersLoading
  intro s tidy
  refine ⟨_, exec_powerOnReset s, rfl, rfl, rfl, rfl, rfl, fun _ => rfl, fun k => ?_, rfl, rfl, fun _ => rfl, rfl, rfl,
    fun f => ?_, rfl, rfl, rfl, rfl, rfl, fun k z => ?_, rfl, rfl, rfl, rfl, fun l => ?_, fun _ => rfl, rfl, rfl, rfl, rfl,
    rfl, rfl, rfl, rfl, fun p => ?_, rfl, rfl, rfl, rfl, rfl, ?_, fun p => ?_,
    fun n a slot body => ?_, fun a pages record => ?_, fun l => ?_, rfl, rfl, rfl, rfl, rfl, rfl, rfl, rfl, rfl, rfl, rfl⟩
  · exact Vector.getElem_replicate k.isLt
  · exact Vector.getElem_replicate f.isLt
  · have page : Builder.reset.pages.get k = Vector.replicate 4 [] := Vector.getElem_replicate k.isLt
    exact (congrArg (fun v => Vector.get v z) page).trans (Vector.getElem_replicate z.isLt)
  · have receiver : Tracker.powerOn.receivers.get l = Receiver.powerOn (defaultZone l) := Vector.getElem_ofFn l.isLt
    show Tracker.powerOn.receivers.get l = ⟨(Tracker.powerOn.receivers.get l).zone, false, 0, 0, 0, 0, 0⟩
    rw [receiver]
    rfl
  · exact Vector.getElem_replicate p.isLt
  · rw [State.poweredOn_mem]
    exact Memory.readWords_powerOnBytes tidy.mem
  · rw [State.poweredOn_mem]
    exact (Memory.readWords_writeWords_other (.inr (show 0x10 + 4 * 2 ≤ _ by omega))).trans
      (Memory.readWords_resetBytes_header tidy.mem p)
  · have from_ : 0x1000 + n * 0x100 + 4 ≤ a := body.1
    rw [State.poweredOn_mem]
    exact (Memory.read_powerOnBytes (by omega)).trans (Memory.read_resetBytes_body slot body)
  · have from_ : 0x21000 ≤ a := pages.1
    rw [State.poweredOn_mem]
    exact (Memory.read_powerOnBytes (by omega)).trans (Memory.read_resetBytes_record pages record)
  · have link : State.reset.links.get l = Link.reset (LinkSettings.powerOn (some (defaultZone l))) := Vector.getElem_ofFn l.isLt
    show State.reset.links.get l = Link.reset (LinkSettings.powerOn (State.reset.links.get l).settings.zone)
    rw [link]
    rfl

/-! ## The load -/

theorem State.load_link (s : State) (q : Option Profile) (l : Index8) :
    (s.load q).link l = Link.reset (LinkSettings.powerOn (loadedZone q l)) := by
  rw [State.load_eq, State.link, State.ask_links]
  exact Vector.getElem_ofFn l.isLt

theorem State.load_receiver (s : State) (q : Option Profile) (l : Index8) :
    (s.load q).receiver l = Receiver.powerOn (loadedReceiverZone q l) := by
  rw [State.load_eq, State.receiver, State.ask_tracker]
  exact Vector.getElem_ofFn l.isLt

theorem State.load_engine (s : State) (q : Option Profile) : (s.load q).engine = s.engine.loaded q := by
  rw [State.load_eq, State.ask_engine]
  rfl

theorem State.load_summary (s : State) (q : Option Profile) : (s.load q).ex.summary.engine = true := by
  rw [State.load_eq, ((s.loadedBlocks q).ask_reported .monitor).engineBit, State.loadedBlocks_ex]
  simp only [Exchange.loaded]

/-- The office code is the low six bits of profile byte 0 (R190). -/
theorem officeCode_profile (p : Profile) :
    (Fin.ofNat 64 (profileWord p 0).toNat) = Fin.ofNat 64 ((p.get 0).toNat % 64) := by
  refine Fin.ext ?_
  show (profileWord p 0).toNat % 64 = (p.get 0).toNat % 64 % 64
  have split : (profileWord p 0).toNat = (p.get 1).toNat <<< 8 ||| (p.get 0).toNat := BitVec.toNat_append (p.get 1) (p.get 0)
  have low : (p.get 0).toNat < 2 ^ 8 := (p.get 0).isLt
  rw [split, Nat.shiftLeft_eq, Nat.mul_comm, ← Nat.two_pow_add_eq_or_of_lt low]
  omega

/-- Settles O10: the profile the load uses is the one read exactly where its word sum is 0. -/
theorem loadUsesProfileOrDefaults : Obligations.LoadUsesProfileOrDefaults := by
  unfold Obligations.LoadUsesProfileOrDefaults
  intro s q loading
  have ran : exec (.loadingComplete q) s = .next (s.load (goodProfile q)) :=
    congrArg Host.Outcome.next (if_pos (decide_eq_true loading) : _ = s.load (goodProfile q))
  have good (p : Profile) (read : q = some p) (sum : profileSum p = 0) : goodProfile q = some p := by
    rw [read]
    exact Option.filter_some_pos (by simpa using sum)
  have bad (unread : q = none ∨ ∃ p, q = some p ∧ profileSum p ≠ 0) : goodProfile q = none := by
    rcases unread with none | ⟨p, read, sum⟩
    · rw [none]
      rfl
    · rw [read]
      exact Option.filter_some_neg (by simpa using sum)
  refine ⟨_, ran, ?_, ?_, State.load_summary _ _, ?_, ?_, ?_, fun k => ?_, fun l => ?_, fun l => ?_, fun p read sum => ?_,
    fun unread => ?_⟩
  · rw [State.load_engine]
    rfl
  · rw [State.load_engine]
    rfl
  · rw [State.load_eq, State.ask_air]
    rfl
  · rw [State.load_eq, State.ask_arbiter]
    rfl
  · rw [State.load_eq, State.ask_pending]
    rfl
  · rw [State.load_engine]
    exact Vector.getElem_replicate k.isLt
  · rw [State.load_link]
    exact ⟨rfl, rfl⟩
  · rw [State.load_receiver]
    rfl
  · rw [good p read sum]
    refine ⟨?_, ?_, ?_, ?_, fun l => ?_, fun l => ?_⟩
    · rw [State.load_engine]
      rfl
    · rw [State.load_engine, ← officeCode_profile]
      rfl
    · rw [State.load_engine]
      rfl
    · rw [State.load_engine]
      rfl
    · rw [State.load_link]
      rfl
    · rw [State.load_receiver]
      rfl
  · rw [bad unread]
    refine ⟨?_, ?_, ?_, ?_, fun l => ?_, fun l => ?_⟩
    · rw [State.load_engine]
      rfl
    · rw [State.load_engine]
      rfl
    · rw [State.load_engine]
      rfl
    · rw [State.load_engine]
      rfl
    · rw [State.load_link]
      rfl
    · rw [State.load_receiver]
      rfl

end Sys2Proof.Machine
end

section
/-! What ENGINE_RESET leaves (O12). -/

namespace Sys2Proof.Machine

/-! ## A request with nobody else waiting (R170) -/

theorem Writer.judgeOrder_one (w : Writer) {p : Producer} (waiting : w.waiting = [p]) : w.judgeOrder = [p] := by
  unfold Writer.judgeOrder
  rw [waiting]
  cases p <;> rfl

/-- A request that waits alone and fits is granted in the same step. -/
theorem Exchange.request_alone {x : Exchange} {p : Producer} (nobody : x.writer.waiting = []) (free : x.writer.holds p = false)
    (fits : p.amount ≤ x.writer.unreserved) : x.request p =
      { x with
        writer := { x.writer with held := x.writer.held ++ [(p, p.amount)] }
        intake := if p = .intake then .taking else x.intake } := by
  have asks : ¬ (p ∈ x.writer.waiting ∨ x.writer.holds p = true) := by
    rw [nobody, free]
    simp
  refine (if_neg asks).trans ?_
  unfold Exchange.judge
  rw [Writer.judgeOrder_one _ (show x.writer.waiting ++ [p] = [p] by rw [nobody, List.nil_append])]
  refine (if_pos (c := p.amount ≤ x.writer.unreserved) fits).trans ?_
  unfold Exchange.grant
  simp [nobody]

/-- Requests that a reset's empty report pages can all hold. -/
theorem Writer.unreserved_reset (held : List (Producer × Nat)) :
    ({ Writer.reset with held := held } : Writer).unreserved = 504 - (held.map (·.2)).sum := by
  have room : Writer.reset.room = 504 := by decide
  show Writer.reset.room - _ = _
  rw [room]
  rfl

/-- The state with this report writer. -/
def State.withWriter (s : State) (w : Writer) : State := { s with ex := { s.ex with writer := w } }

theorem State.withWriter_twice (s : State) (v w : Writer) : (s.withWriter v).withWriter w = s.withWriter w := rfl

theorem State.withWriter_monitor (s : State) (w : Writer) : (s.withWriter w).hasWork .monitor = s.hasWork .monitor := rfl

/-- A producer asks for room in the pages a reset has emptied. -/
theorem State.ask_fresh {s : State} {p : Producer} {held : List (Producer × Nat)}
    (writer : s.ex.writer = { Writer.reset with held := held }) (free : held.any (fun h => decide (h.1 = p)) = false)
    (fits : p.amount ≤ 504 - (held.map (·.2)).sum) (ne : p ≠ .intake) :
    s.ask p =
      s.withWriter { Writer.reset with held := held ++ (if s.hasWork p then [(p, p.amount)] else []) } := by
  unfold State.ask State.withWriter
  split
  · next work =>
    rw [Exchange.request_alone (by rw [writer]; rfl) (by rw [writer]; exact free)
      (by rw [writer, Writer.unreserved_reset]; exact fits), if_neg ne, writer]
  · rw [List.append_nil, ← writer]

/-! ## The state after an engine reset -/

/-- The reservations a reset leaves: the roll walk's and the REFERENCE report's, where there is one (R182). -/
def State.resetHeld (s : State) : List (Producer × Nat) :=
  (if s.account.walk.inFlight then [(.rollWalk, 8)] else []) ++ (if s.air.monitor.report.isSome then [(.monitor, 1)] else [])

section
variable (s : State)

theorem State.resetBlocks_writer : s.resetBlocks.ex.writer = Writer.reset := by
  rw [State.resetBlocks_ex, Exchange.engineReset_writer]

theorem State.resetBlocks_walk : s.resetBlocks.hasWork .rollWalk = s.account.walk.inFlight := by
  simp only [State.hasWork, State.resetBlocks, Account.engineReset]

theorem State.resetBlocks_report : s.resetBlocks.hasWork .monitor = s.air.monitor.report.isSome := by
  simp only [State.hasWork, State.resetBlocks, Air.engineReset]

theorem State.engineReset_blocks :
    s.engineReset = s.resetBlocks.withWriter { Writer.reset with held := s.resetHeld } := by
  have walk : s.resetBlocks.ask .rollWalk = s.resetBlocks.withWriter
      { Writer.reset with held := if s.account.walk.inFlight then [(.rollWalk, 8)] else [] } := by
    rw [← s.resetBlocks_walk]
    exact State.ask_fresh (held := []) s.resetBlocks_writer rfl (by decide) (by decide)
  rw [State.engineReset_eq, walk, State.ask_fresh (p := .monitor) (s := s.resetBlocks.withWriter _) rfl ?_ ?_ (by decide),
    State.withWriter_twice, State.withWriter_monitor, s.resetBlocks_report]
  · rfl
  · split <;> rfl
  · split <;> decide

/-- The state an engine reset leaves, with the write that asked for it accepted (R182). -/
def State.restarted : State := (s.resetBlocks.withWriter { Writer.reset with held := s.resetHeld }).reply .done

theorem State.engineReset_reply : s.engineReset.reply .done = s.restarted := by
  rw [State.engineReset_blocks, State.restarted]

theorem State.restarted_account : s.restarted.account = s.resetBlocks.account := by
  simp only [State.restarted, State.reply, State.withWriter]

theorem State.restarted_store : s.restarted.store = s.resetBlocks.store := by
  simp only [State.restarted, State.reply, State.withWriter]

theorem State.restarted_sub (c : s.Canon) (n : Nat) :
    s.restarted.sub n = ⟨(s.sub n).billing, StoreGroup.reset, Reach.reset⟩ := by
  rw [State.sub, State.restarted_account, ← State.sub, State.resetBlocks_sub c]

theorem State.restarted_msg (c : s.Canon) (i : Nat) : s.restarted.msg i = (s.msg i).freed := by
  rw [State.msg, State.restarted_store, ← State.msg, State.resetBlocks_msg c]

theorem State.restarted_link (l : Index8) : s.restarted.link l = Link.reset (s.link l).settings :=
  Vector.getElem_ofFn l.isLt

theorem State.restarted_receiver (l : Index8) :
    s.restarted.receiver l = { Receiver.powerOn (s.receiver l).zone with enabled := (s.receiver l).enabled } :=
  Vector.getElem_ofFn l.isLt

theorem State.restarted_exchange : s.restarted.ex =
    { s.ex.engineReset with writer := { Writer.reset with held := s.resetHeld }, bus := .done } := by
  rw [State.restarted, State.reply, State.withWriter, State.resetBlocks_ex]

end

/-- Only a notice of the office clock outlives a reset (R77). -/
theorem Exchange.engineReset_notices {x : Exchange} {m : Mirror} (h : m ∈ x.engineReset.notices) :
    m = .officeClock ∧ m ∈ x.notices := by
  have kept : m ∈ (x.notices.filter fun m => decide (m ≠ .lastPageIndex ∧ m ≠ .lastPageSequence)).filter
      fun m => decide (m = .officeClock) := by
    simpa only [Exchange.engineReset, Exchange.resetWriter] using h
  exact ⟨of_decide_eq_true (List.mem_filter.mp kept).2, (List.mem_filter.mp (List.mem_filter.mp kept).1).1⟩

/-- The office clock mirror stands over a reset (R77). -/
theorem Memory.readWords_resetBytes_clock (m : List Host.Cell) :
    Memory.readWords (resetBytes m) 0x10 2 = Memory.readWords m 0x10 2 := by
  refine Memory.readWords_congr fun c from_ upTo => Memory.read_resetBytes (.inr ⟨from_, by omega⟩) fun p => .inl ?_
  rw [pageBase_val]
  omega

/-- Settles O12: the blocks where the reset leaves them, then the two requests that ask again. -/
theorem engineResetAppliesWhole : Obligations.EngineResetAppliesWhole := by
  unfold Obligations.EngineResetAppliesWhole
  intro s data e live tidy
  have ran : exec (.engineReset data e) s =
      .next ((if (data.getLsbD 0 && e.getLsbD 0) = true then s.engineReset else s).reply .done) := by
    rw [← writesOne_low data e (show 0 < 8 by decide)]
    exact congrArg Host.Outcome.next (State.registerWrite_done live _)
  refine ⟨fun zero => ?_, fun one => ?_⟩
  · rw [ran, if_neg (by rw [zero]; exact Bool.false_ne_true)]
    rfl
  rw [if_pos one] at ran
  rw [s.engineReset_reply] at ran
  refine ⟨_, ran, rfl, rfl, rfl, s.restarted_sub tidy.canon, rfl, rfl, rfl, fun i => ?_, rfl, rfl, fun f => Vector.getElem_replicate f.isLt, rfl,
    rfl, rfl, s.restarted_link, rfl, s.restarted_receiver, rfl, rfl, rfl, rfl, rfl, ?_⟩
  · rw [s.restarted_msg tidy.canon]
    exact ⟨rfl, rfl⟩
  rw [s.restarted_exchange]
  have slots := s.ex.engineReset_slots
  have queue := s.ex.engineReset_queue
  have answered := s.ex.engineReset_answered
  have intake := s.ex.engineReset_intake
  have progress := s.ex.engineReset_progress
  have read := s.ex.engineReset_read
  have buffer := s.ex.engineReset_buffer
  have fence := s.ex.engineReset_fence
  have enable := s.ex.engineReset_enable
  have summary := s.ex.engineReset_summary
  have mem := s.ex.engineReset_mem
  have notices (m : Mirror) := Exchange.engineReset_notices (x := s.ex) (m := m)
  generalize s.ex.engineReset = y at *
  refine ⟨fun n => ?_, queue, answered, intake, progress, read, buffer, fence, enable, summary,
    fun p => Vector.getElem_replicate p.isLt, rfl, rfl, rfl, rfl, rfl, ?_⟩
  · show Table.get SlotState.free y.slots n = .free
    rw [slots]
    rfl
  show Memory.readWords y.mem 0x00 4 = _ ∧ Memory.readWords y.mem 0x10 2 = _ ∧
    Memory.readWords y.mem 0x18 2 = _ ∧ (∀ m, m ∈ y.notices → _) ∧
    (∀ p : Index8, Memory.readWords y.mem _ 2 = _) ∧
    (∀ n a, n < 512 → inBody n a → Memory.read y.mem a = _) ∧ ∀ a, inPages a → _ → Memory.read y.mem a = _
  rw [mem]
  exact ⟨Memory.readWords_resetBytes_counts tidy.mem, Memory.readWords_resetBytes_clock s.ex.mem,
    Memory.readWords_resetBytes_pages tidy.mem, notices, Memory.readWords_resetBytes_header tidy.mem,
    fun n a => Memory.read_resetBytes_body, fun a => Memory.read_resetBytes_record⟩

end Sys2Proof.Machine
end

section
/-! The judgement of the waiting requests, and a FILLED page returned by the host (O19, O45). -/

namespace Sys2Proof.Machine

/-! ## Requests judged one after the other (R170) -/

theorem Producer.amount_pos (p : Producer) : 0 < p.amount := by cases p <;> decide

/-- What judging requests leaves: waiting requests that become reservations of their amounts, and the intake unit that takes
(R83, R170). -/
structure Exchange.Judges (x y : Exchange) : Prop where
  waiting : ∀ p, p ∈ y.writer.waiting → p ∈ x.writer.waiting
  served : ∀ p, p ∈ x.writer.waiting → p ∈ y.writer.waiting ∨ (p, p.amount) ∈ y.writer.held
  held : ∀ h, h ∈ x.writer.held → h ∈ y.writer.held
  unreserved : y.writer.unreserved ≤ x.writer.unreserved
  room : y.writer.room = x.writer.room
  within : x.writer.reserved ≤ x.writer.room → y.writer.reserved ≤ y.writer.room
  frame : y = { x with writer := { x.writer with waiting := y.writer.waiting, held := y.writer.held }, intake := y.intake }

theorem Exchange.Judges.refl (x : Exchange) : x.Judges x :=
  ⟨fun _ => id, fun _ => .inl, fun _ => id, Nat.le_refl _, rfl, id, rfl⟩

theorem Exchange.Judges.trans {x y z : Exchange} (h : x.Judges y) (k : y.Judges z) : x.Judges z where
  waiting p i := h.waiting p (k.waiting p i)
  served p i := (h.served p i).elim (k.served p) fun held => .inr (k.held _ held)
  held e i := k.held e (h.held e i)
  unreserved := Nat.le_trans k.unreserved h.unreserved
  room := k.room.trans h.room
  within i := k.within (h.within i)
  frame := by
    have first := h.frame
    have second := k.frame
    rw [first] at second
    exact second

/-- A reservation granted takes its amount of the unreserved room. -/
theorem Exchange.grant_reserved (x : Exchange) (p : Producer) :
    (x.grant p).writer.reserved = x.writer.reserved + p.amount := by
  simp [Exchange.grant, Writer.reserved]

theorem Exchange.grant_room (x : Exchange) (p : Producer) : (x.grant p).writer.room = x.writer.room := rfl

theorem Exchange.judgeOne_judges (x : Exchange) (p : Producer) : x.Judges (x.judgeOne p) := by
  unfold Exchange.judgeOne
  split
  · next fits =>
    have reserved := x.grant_reserved p
    have room := x.grant_room p
    refine ⟨fun q i => (List.mem_filter.mp i).1, fun q i => ?_, fun h i => List.mem_append_left _ i, ?_, room, ?_, rfl⟩
    · by_cases same : q = p
      · exact .inr (by rw [same]; exact List.mem_append_right _ (List.mem_singleton_self _))
      · exact .inl (List.mem_filter.mpr ⟨i, decide_eq_true same⟩)
    · unfold Writer.unreserved
      omega
    · unfold Writer.unreserved at fits
      have := p.amount_pos
      omega
  · exact .refl x

theorem Exchange.foldl_judges (ps : List Producer) (x : Exchange) : x.Judges (ps.foldl Exchange.judgeOne x) := by
  induction ps generalizing x with
  | nil => exact .refl x
  | cons p rest ih => exact (x.judgeOne_judges p).trans (ih _)

/-- A request still waiting after it is judged did not fit, and nothing was granted. -/
theorem Exchange.judgeOne_left {x : Exchange} {p : Producer} (left : p ∈ (x.judgeOne p).writer.waiting) :
    x.writer.unreserved < p.amount ∧ x.judgeOne p = x := by
  have small : ¬ p.amount ≤ x.writer.unreserved := fun fits => by
    have granted : x.judgeOne p = x.grant p := if_pos fits
    rw [granted] at left
    exact of_decide_eq_true (List.mem_filter.mp left).2 rfl
  exact ⟨Nat.not_le.mp small, if_neg small⟩

/-- A request that does not fit is left waiting. -/
theorem Exchange.judgeOne_waits {x : Exchange} {q : Producer} (waits : q ∈ x.writer.waiting) (p : Producer)
    (apart : p ≠ q ∨ x.writer.unreserved < q.amount) : q ∈ (x.judgeOne p).writer.waiting := by
  unfold Exchange.judgeOne
  split
  · next fits =>
    refine List.mem_filter.mpr ⟨waits, decide_eq_true fun same => ?_⟩
    rcases apart with ne | small
    · exact ne same.symm
    · rw [same] at small
      exact Nat.not_le.mpr small fits
  · exact waits

theorem Exchange.foldl_waits {q : Producer} (ps : List Producer) {x : Exchange} (waits : q ∈ x.writer.waiting)
    (apart : q ∉ ps ∨ x.writer.unreserved < q.amount) : q ∈ (ps.foldl Exchange.judgeOne x).writer.waiting := by
  induction ps generalizing x with
  | nil => exact waits
  | cons p rest ih =>
    refine ih (Exchange.judgeOne_waits waits p ?_) ?_
    · exact apart.imp (fun out same => out (same ▸ List.mem_cons_self)) id
    · exact apart.imp (fun out i => out (List.mem_cons_of_mem _ i)) fun small =>
        Nat.lt_of_le_of_lt (x.judgeOne_judges p).unreserved small

/-- A request left waiting in its turn stops every later one for as much or more. -/
theorem Exchange.foldl_stops {x : Exchange} {p : Producer} {first rest : List Producer}
    (left : p ∈ ((first ++ p :: rest).foldl Exchange.judgeOne x).writer.waiting) :
    ((first ++ p :: rest).foldl Exchange.judgeOne x).writer.unreserved < p.amount ∧
      ∀ q, q ∈ x.writer.waiting → q ∉ first → p.amount ≤ q.amount →
        q ∈ ((first ++ p :: rest).foldl Exchange.judgeOne x).writer.waiting := by
  rw [List.foldl_append, List.foldl_cons] at left ⊢
  generalize reached : first.foldl Exchange.judgeOne x = y at left ⊢
  obtain ⟨small, same⟩ := Exchange.judgeOne_left ((Exchange.foldl_judges rest _).waiting p left)
  rw [same]
  refine ⟨Nat.lt_of_le_of_lt (Exchange.foldl_judges rest y).unreserved small, fun q waits out more => ?_⟩
  have still : q ∈ y.writer.waiting := reached ▸ Exchange.foldl_waits first waits (.inl out)
  exact Exchange.foldl_waits rest still (.inr (Nat.lt_of_lt_of_le small more))

/-! ## The order of a judgement -/

/-- A waiting request's turn: behind those for less, and behind those for the same that were made before it (R170). -/
theorem Writer.judgeOrder_split (w : Writer) {p : Producer} {before after : List Producer}
    (waiting : w.waiting = before ++ p :: after) : ∃ first rest, w.judgeOrder = first ++ p :: rest ∧
      ∀ q, q ∈ first → q.amount < p.amount ∨ (q.amount = p.amount ∧ q ∈ before) := by
  have turn (n : Nat) (own : p.amount = n) : w.waiting.filter (fun q => decide (q.amount = n)) =
      before.filter (fun q => decide (q.amount = n)) ++ p :: after.filter fun q => decide (q.amount = n) := by
    rw [waiting, List.filter_append, List.filter_cons_of_pos (by simpa using own)]
  have amounts : p.amount = 1 ∨ p.amount = 4 ∨ p.amount = 8 := by cases p <;> decide
  unfold Writer.judgeOrder
  rcases amounts with own | own | own
  · refine ⟨before.filter fun q => decide (q.amount = 1), (after.filter fun q => decide (q.amount = 1)) ++
      ((w.waiting.filter fun q => decide (q.amount = 4)) ++ w.waiting.filter fun q => decide (q.amount = 8)), ?_, fun q i => .inr ?_⟩
    · rw [turn 1 own]
      simp only [List.append_assoc, List.cons_append]
    · simpa [own, and_comm] using i
  · refine ⟨(w.waiting.filter fun q => decide (q.amount = 1)) ++ before.filter fun q => decide (q.amount = 4),
      (after.filter fun q => decide (q.amount = 4)) ++ w.waiting.filter fun q => decide (q.amount = 8), ?_,
      fun q i => ?_⟩
    · rw [turn 4 own]
      simp only [List.append_assoc, List.cons_append]
    · rcases List.mem_append.mp i with i | i
      · have : q.amount = 1 := of_decide_eq_true (List.mem_filter.mp i).2
        exact .inl (by omega)
      · exact .inr (by simpa [own, and_comm] using i)
  · refine ⟨((w.waiting.filter fun q => decide (q.amount = 1)) ++ w.waiting.filter fun q => decide (q.amount = 4)) ++
      before.filter fun q => decide (q.amount = 8), after.filter fun q => decide (q.amount = 8), ?_, fun q i => ?_⟩
    · rw [turn 8 own]
      simp only [List.append_assoc]
    · rcases List.mem_append.mp i with i | i
      · simp only [List.mem_append, List.mem_filter, decide_eq_true_eq] at i
        exact .inl (by omega)
      · exact .inr (by simpa [own, and_comm] using i)

theorem Exchange.judge_judges (x : Exchange) : x.Judges x.judge := Exchange.foldl_judges _ x

/-- A request left waiting by a judgement does not fit the room that remains, and stops every later one for as much or more. -/
theorem Exchange.judge_left {x : Exchange} {p : Producer} (left : p ∈ x.judge.writer.waiting) :
    x.judge.writer.unreserved < p.amount ∧ ∀ q, q ∈ x.writer.waiting →
      p.amount < q.amount ∨ (p.amount = q.amount ∧ x.writer.waiting.idxOf p < x.writer.waiting.idxOf q) →
      q ∈ x.judge.writer.waiting := by
  obtain ⟨before, after, waiting, new⟩ := List.eq_append_cons_of_mem (x.judge_judges.waiting p left)
  obtain ⟨first, rest, order, ahead⟩ := x.writer.judgeOrder_split waiting
  unfold Exchange.judge at left ⊢
  rw [order] at left ⊢
  obtain ⟨small, stops⟩ := Exchange.foldl_stops left
  refine ⟨small, fun q waits later => stops q waits (fun i => ?_) (later.elim Nat.le_of_lt fun l => Nat.le_of_eq l.1)⟩
  rcases ahead q i with less | ⟨same, earlier⟩
  · omega
  · rcases later with more | ⟨-, behind⟩
    · omega
    · rw [waiting, List.idxOf_append_of_notMem new, List.idxOf_append_of_mem earlier] at behind
      have := List.idxOf_lt_length_of_mem earlier
      omega

theorem Exchange.judge_intake_cases (x : Exchange) :
    x.judge.intake = x.intake ∨ (x.judge.intake = .taking ∧ .intake ∈ x.writer.waiting) := by
  by_cases asks : Producer.intake ∈ x.writer.waiting
  · exact (x.judge_reported.intake).imp id fun taking => ⟨taking, asks⟩
  · exact .inl (Exchange.judge_intake asks)

theorem Exchange.foldl_held (ps : List Producer) {x : Exchange} {h : Producer × Nat}
    (held : h ∈ (ps.foldl Exchange.judgeOne x).writer.held) :
    h ∈ x.writer.held ∨ (h.1 ∈ ps ∧ h.2 = h.1.amount) := by
  induction ps generalizing x with
  | nil => exact .inl held
  | cons p rest ih =>
    rcases ih held with held | ⟨listed, amount⟩
    · unfold Exchange.judgeOne at held
      split at held
      · rcases List.mem_append.mp held with held | one
        · exact .inl held
        · rw [List.mem_singleton.mp one]
          exact .inr ⟨List.mem_cons_self, rfl⟩
      · exact .inl held
    · exact .inr ⟨List.mem_cons_of_mem _ listed, amount⟩

/-- A reservation a judgement makes is of a request that waited. -/
theorem Exchange.judge_held {x : Exchange} {h : Producer × Nat} (held : h ∈ x.judge.writer.held) :
    h ∈ x.writer.held ∨ (h.1 ∈ x.writer.waiting ∧ h.2 = h.1.amount) :=
  (Exchange.foldl_held _ held).imp id fun ⟨listed, amount⟩ => ⟨Writer.waiting_of_judgeOrder listed, amount⟩

/-- Settles O45: requests are judged in rising order of amount, and room only falls as they are granted. -/
theorem judgementGrantsWhatFits : Obligations.JudgementGrantsWhatFits := by
  unfold Obligations.JudgementGrantsWhatFits
  intro x law y amount
  have amounts : amount = Producer.amount := funext fun p => by cases p <;> rfl
  rw [amounts]
  have judged := x.judge_judges
  exact ⟨fun p i => ⟨judged.waiting p i, (Exchange.judge_left i).1⟩, judged.served,
    fun p q i j more => (Exchange.judge_left i).2 q j (.inl more),
    fun p q i j same behind => (Exchange.judge_left i).2 q j (.inr ⟨same, behind⟩), judged.held, fun h => Exchange.judge_held,
    judged.within, judged.room, judged.frame, x.judge_intake_cases⟩

/-! ## Room that rises (R173, R175) -/

/-- A close by age leaves the requests and only takes room. -/
theorem Exchange.closeIfDue_unreserved {x : Exchange} (one : x.writer.OneFilling) (st : Stamp) :
    (x.closeIfDue st).writer.unreserved ≤ x.writer.unreserved := by
  unfold Exchange.closeIfDue
  split
  · cases filling : x.writer.filling with
    | none => rw [Exchange.closePage_eq, filling]
    | some p =>
      have room := Exchange.closePage_room one filling st .age
      have reserved := Writer.reserved_congr (x.closePage_asks st .age).1
      have before : x.writer.room = x.writer.freePositions + Config.pageRecords * x.writer.run := rfl
      unfold Writer.unreserved
      omega
  · exact Nat.le_refl _

/-- Where room rises, every waiting request is judged: it is granted its amount, or does not fit the room that remains. -/
theorem Exchange.roomRose_judges {x : Exchange} (one : x.writer.OneFilling) (st : Stamp) :
    (∀ p, p ∈ (x.roomRose st).writer.waiting → p ∈ x.writer.waiting ∧ (x.roomRose st).writer.unreserved < p.amount) ∧
      ∀ p, p ∈ x.writer.waiting → p ∈ (x.roomRose st).writer.waiting ∨ (p, p.amount) ∈ (x.roomRose st).writer.held := by
  have closeFirst (y : Exchange) :
      (∀ p, p ∈ (y.closeIfDue st).judge.writer.waiting →
        p ∈ y.writer.waiting ∧ (y.closeIfDue st).judge.writer.unreserved < p.amount) ∧
        ∀ p, p ∈ y.writer.waiting →
          p ∈ (y.closeIfDue st).judge.writer.waiting ∨ (p, p.amount) ∈ (y.closeIfDue st).judge.writer.held := by
    have judged := (y.closeIfDue st).judge_judges
    rw [← (y.closeIfDue_asks st).2]
    exact ⟨fun p i => ⟨judged.waiting p i, (Exchange.judge_left i).1⟩, judged.served⟩
  have judgeFirst (y : Exchange) (one : y.writer.OneFilling) :
      (∀ p, p ∈ (y.judge.closeIfDue st).writer.waiting →
        p ∈ y.writer.waiting ∧ (y.judge.closeIfDue st).writer.unreserved < p.amount) ∧
        ∀ p, p ∈ y.writer.waiting →
          p ∈ (y.judge.closeIfDue st).writer.waiting ∨ (p, p.amount) ∈ (y.judge.closeIfDue st).writer.held := by
    have judged := y.judge_judges
    obtain ⟨held, waiting⟩ := y.judge.closeIfDue_asks st
    rw [held, waiting]
    exact ⟨fun p i => ⟨judged.waiting p i, Nat.lt_of_le_of_lt (Exchange.closeIfDue_unreserved (y.judge_reported.one one) st)
      (Exchange.judge_left i).1⟩, judged.served⟩
  unfold Exchange.roomRose
  split
  · simp only
    split
    · exact closeFirst { x with choices := x.choices + 1 }
    · exact judgeFirst { x with choices := x.choices + 1 } one
  · exact closeFirst x

/-- Settles O19: the page becomes EMPTY, and the room that rises is judged. -/
theorem filledPageReturned : Obligations.FilledPageReturned := by
  unfold Obligations.FilledPageReturned
  intro s p rest law buffer filled amount
  have amounts : amount = Producer.amount := funext fun p => by cases p <;> rfl
  rw [amounts]
  have ran : exec .reportPageReturn s = .next { s with ex := (s.ex.took rest).returnPage s.stamp p } := by
    show execReportPageReturn s = _
    unfold execReportPageReturn
    rw [Exchange.judged_cons buffer, Exchange.verdict_pageReturn rfl rfl rfl filled]
  have emptied := (s.ex.took rest).emptied_reported p
  have reported := (s.ex.took rest).returnPage_reported s.stamp p
  obtain ⟨waits, served⟩ := Exchange.roomRose_judges (emptied.one law.one) s.stamp
  have quiet := Exchange.roomRose_noRecord
    { s.ex.took rest with writer.pages := s.ex.writer.pages.set p.val .empty p.isLt } s.stamp
  have pages (q : Index8) : (s.ex.writer.pages.set p.val .empty p.isLt).get q =
      if q = p then .empty else s.ex.writer.pages.get q := pages_set _ _ _ _
  refine ⟨_, ran, ?_, fun q ne => ?_, waits, served, quiet.held, reported.buffer, reported.slots, reported.queue,
    reported.answered, reported.fence, reported.enable, reported.bus, reported.read, reported.progress, rfl⟩
  · show (Exchange.returnPage _ _ _).writer.pages.get p = _
    rcases quiet.pages with ⟨same, -⟩ | ⟨-, r, filling, shut, -⟩
    · exact (congrArg (fun v => Vector.get v p) same).trans ((pages p).trans (if_pos rfl))
    · have apart : p ≠ r := fun e => by rw [← e, pages p, if_pos rfl] at filling; cases filling
      exact (congrArg (fun v => Vector.get v p) shut).trans
        ((pages_set _ _ _ _).trans ((if_neg apart).trans ((pages p).trans (if_pos rfl))))
  · show (Exchange.returnPage _ _ _).writer.pages.get q = _ ∨ _ ∧ (Exchange.returnPage _ _ _).writer.pages.get q = _ ∧ _
    rcases quiet.pages with ⟨same, -⟩ | ⟨due, r, filling, shut, -⟩
    · exact .inl ((congrArg (fun v => Vector.get v q) same).trans ((pages q).trans (if_neg ne)))
    · have after : ((s.ex.took rest).returnPage s.stamp p).writer.pages.get q =
          if q = r then .filled else s.ex.writer.pages.get q :=
        (congrArg (fun v => Vector.get v q) shut).trans
          ((pages_set _ _ _ _).trans (by rw [show Vector.get _ q = _ from pages q, if_neg ne]))
      by_cases closed : q = r
      · have was : s.ex.writer.pages.get q = .filling := by
          have := pages q
          rw [if_neg ne] at this
          rw [← this, closed]
          exact filling
        exact .inr ⟨was, after.trans (if_pos closed), due⟩
      · exact .inl (after.trans (if_neg closed))

end Sys2Proof.Machine
end

section
/-! The settings orders, AIR START and AIR STOP, the link orders and PERIOD CLOSE (O35, O40 to O43). -/

namespace Sys2Proof.Machine

/-! ## An order that writes fields outside the exchange and answers -/

/-- An order that answers over a state whose exchange is as found leaves that state but for the exchange (R95). -/
theorem State.InHand.order_written {s u : State} {n : Nat} {p : Posting} {k : Nat} (h : s.InHand n p k) (ex : u.ex = s.ex)
    {f : Posting → State} {code : AnswerCode} {data : List Word} (meaning : f p = u.answer code data) :
    s.order k f = .next (u.answer code data) ∧ Answered s (u.answer code data) n (word k) code data ∧
      u.answer code data = { u with ex := (u.answer code data).ex } := by
  have answered := h.answered ex code data
  rw [h.code_eq] at answered
  exact ⟨by rw [State.order_inHand h, meaning], answered, State.answer_eq u code data⟩

/-- An order that writes one link controller and answers (R130, R95). -/
theorem State.InHand.order_setLink {s : State} {n : Nat} {p : Posting} {k : Nat} (h : s.InHand n p k) {f : Posting → State}
    {l : Index8} {c : Link} {code : AnswerCode} {data : List Word} (meaning : f p = (s.setLink l c).answer code data) :
    ∃ t, s.order k f = .next t ∧ t.link l = c ∧ (∀ j, j ≠ l → t.link j = s.link j) ∧
      Answered s t n (word k) code data ∧ t = { s with links := t.links, ex := t.ex } := by
  obtain ⟨ran, answered, frame⟩ := h.order_written (u := s.setLink l c) (f := f) rfl meaning
  have link (j : Index8) : ((s.setLink l c).answer code data).link j = if j = l then c else s.link j := by
    rw [State.link, State.answer_links, ← State.link, State.link_setLink]
  refine ⟨_, ran, by rw [link, if_pos rfl], fun j ne => by rw [link, if_neg ne], answered, ?_⟩
  rw [State.answer_links]
  exact frame

/-- An order that writes one receiver link and answers (R150, R95). -/
theorem State.InHand.order_setReceiver {s : State} {n : Nat} {p : Posting} {k : Nat} (h : s.InHand n p k)
    {f : Posting → State} {l : Index8} {r : Receiver} {code : AnswerCode} {data : List Word}
    (meaning : f p = (s.setReceiver l r).answer code data) :
    ∃ t, s.order k f = .next t ∧ t.receiver l = r ∧ (∀ j, j ≠ l → t.receiver j = s.receiver j) ∧
      Answered s t n (word k) code data ∧
      t = { s with tracker := { s.tracker with receivers := t.tracker.receivers }, ex := t.ex } := by
  obtain ⟨ran, answered, frame⟩ := h.order_written (u := s.setReceiver l r) (f := f) rfl meaning
  have receiver (j : Index8) : ((s.setReceiver l r).answer code data).receiver j = if j = l then r else s.receiver j := by
    rw [State.receiver, State.answer_tracker, ← State.receiver, State.receiver_setReceiver]
  refine ⟨_, ran, by rw [receiver, if_pos rfl], fun j ne => by rw [receiver, if_neg ne], answered, ?_⟩
  rw [State.answer_tracker]
  exact frame

/-! ## Values fitted to their range (R93) -/

theorem fitOne_eq {limit : Nat} (pos : 0 < limit) (v : Nat) : fitOne limit v = if v = 0 then 1 else min limit v := by
  unfold fitOne clamp
  split <;> omega

theorem foldl_max_spec (l : List Nat) (m : Nat) : (l.foldl max m = m ∨ l.foldl max m ∈ l) ∧ m ≤ l.foldl max m ∧
    ∀ a, a ∈ l → a ≤ l.foldl max m := by
  induction l generalizing m with
  | nil => exact ⟨.inl rfl, Nat.le_refl m, fun a i => absurd i List.not_mem_nil⟩
  | cons b rest ih =>
    obtain ⟨among, least, bound⟩ := ih (max m b)
    refine ⟨?_, Nat.le_trans (Nat.le_max_left m b) least, fun a i => ?_⟩
    · rcases among with same | later
      · rcases Nat.le_total b m with le | le
        · exact .inl (same.trans (Nat.max_eq_left le))
        · exact .inr (by rw [List.foldl_cons, same, Nat.max_eq_right le]; exact List.mem_cons_self)
      · exact .inr (List.mem_cons_of_mem _ later)
    · rcases List.mem_cons.mp i with same | later
      · rw [same]
        exact Nat.le_trans (Nat.le_max_right m b) least
      · exact bound a later

/-- A value rounded down is the greatest allowed value at or below it (R131, R180). -/
theorem roundDown_spec {allowed : List Nat} (zero : 0 ∈ allowed) (v : Nat) :
    roundDown allowed v ≤ v ∧ roundDown allowed v ∈ allowed ∧ ∀ a, a ∈ allowed → a ≤ v → a ≤ roundDown allowed v := by
  have spec := foldl_max_spec (allowed.filter fun a => decide (a ≤ v)) 0
  have listed : roundDown allowed v ∈ allowed.filter fun a => decide (a ≤ v) := by
    rcases spec.1 with same | listed
    · show List.foldl max 0 _ ∈ _
      rw [same]
      exact List.mem_filter.mpr ⟨zero, decide_eq_true (Nat.zero_le v)⟩
    · exact listed
  exact ⟨of_decide_eq_true (List.mem_filter.mp listed).2, (List.mem_filter.mp listed).1,
    fun a i le => spec.2.2 a (List.mem_filter.mpr ⟨i, decide_eq_true le⟩)⟩

/-- An office code is lowered to 63 (R180). -/
theorem officeCode_fitted (v : Nat) : (Fin.ofNat 64 (min 63 v)) = if h : v < 64 then (⟨v, h⟩ : Fin 64) else 63 := by
  refine Fin.ext ?_
  split
  · show min 63 v % 64 = v
    omega
  · show min 63 v % 64 = 63
    omega

theorem officeCode_val (v : Nat) : ((Fin.ofNat 64 (min 63 v)) : Fin 64).val = min 63 v := by
  show min 63 v % 64 = _
  omega

theorem flag_nonzero (w : Word) : decide (w ≠ 0) = decide (w.toNat ≠ 0) :=
  decide_eq_decide.mpr (word_ne_zero_iff w)

theorem wordFlag_nonzero (k : Nat) : wordFlag (decide (k ≠ 0)) = if k = 0 then 0 else 1 := by
  by_cases zero : k = 0
  · simp [zero, wordFlag]
  · simp [zero, wordFlag]

theorem word_eq_iff (w : Word) {k : Nat} (lt : k < 2 ^ 32) : w = BitVec.ofNat 32 k ↔ w.toNat = k := by
  refine ⟨fun e => by rw [e, BitVec.toNat_ofNat, Nat.mod_eq_of_lt lt], fun e => BitVec.eq_of_toNat_eq ?_⟩
  rw [e, BitVec.toNat_ofNat, Nat.mod_eq_of_lt lt]

theorem skipOf_eq (w : Word) : skipOf w =
    if w.toNat = 5 then .oneIn5 else if w.toNat = 6 then .oneIn6 else if w.toNat = 7 then .oneIn7 else .none := by
  simp only [skipOf, ← word_eq_iff w (show 5 < 2 ^ 32 by decide), ← word_eq_iff w (show 6 < 2 ^ 32 by decide),
    ← word_eq_iff w (show 7 < 2 ^ 32 by decide)]
  rfl

/-! ## SET OFFICE and SET CLASS -/

theorem State.inSetup_refused {s : State} (busy : s.engine.state ≠ .setup) (f : State) :
    s.inSetup f = s.answer .notInSetup [s.engine.state.code] := if_neg busy

theorem State.inSetup_acts {s : State} (setup : s.engine.state = .setup) (f : State) : s.inSetup f = f := if_pos setup

/-- The service class fitted, its two flags by their values (R181). -/
theorem fittedClass_eq (p : Posting) : fittedClass p =
    { twoWay := decide ((p.param 2).toNat ≠ 0)
      alphaAllowed := decide ((p.param 3).toNat ≠ 0)
      repeatCount := fitOne 4 (p.param 4).toNat
      retryLimit := fitOne 15 (p.param 5).toNat
      ackWindow := if (p.param 6).toNat < 2 then 2 else min 31 (p.param 6).toNat
      backoffCap := min 15 (p.param 7).toNat
      lifetime := fitOne 255 ((p.param 8).toNat % 256) } := by
  rw [fittedClass, flag_nonzero, flag_nonzero, clamp_eq (show 2 ≤ 31 by decide)]
  rfl

/-- Settles O40: the refusal, and the fitted values field by field. -/
theorem officeAndClassFitted : Obligations.OfficeAndClassFitted := by
  unfold Obligations.OfficeAndClassFitted
  intro s n p code h v byte one refused settled
  have fit {limit : Nat} (pos : 0 < limit) (k : Nat) : fitOne limit k = one limit k := fitOne_eq pos k
  refine ⟨fun order => ?_, fun order => ?_⟩
  · subst order
    refine ⟨fun busy => h.order_answer (State.inSetup_refused busy _), fun setup => ?_⟩
    obtain ⟨below, allowed, greatest⟩ := roundDown_spec (allowed := missLatchAllowed) (by decide) (v 3)
    refine ⟨roundDown missLatchAllowed (v 3), below, allowed, greatest, ?_⟩
    have acts {o : Office} {ws : List Word} (office : fittedOffice p = o) (words : (fittedOffice p).words = ws) :
        settled .setOffice { s.engine with office := o } p.officeCarried ws := by
      rw [← office, ← words]
      exact ⟨_, h.order_written (u := { s with engine := { s.engine with office := fittedOffice p } }) rfl
        (State.inSetup_acts setup _)⟩
    refine acts ?_ ?_
    · rw [fittedOffice, officeCode_fitted, fit (by decide), fit (by decide), fit (by decide), fit (by decide),
        fit (by decide), fit (by decide), fit (by decide), fit (by decide), fit (by decide)]
      rfl
    · rw [Office.words, fittedOffice, officeCode_val, fit (by decide), fit (by decide), fit (by decide), fit (by decide),
        fit (by decide), fit (by decide), fit (by decide), fit (by decide), fit (by decide)]
      rfl
  · subst order
    refine ⟨fun busy => h.order_answer (State.inSetup_refused busy _), fun setup => ?_⟩
    intro cls
    have fitted : fittedClass p = cls := by
      rw [fittedClass_eq, fit (by decide), fit (by decide), fit (by decide)]
    have acts : settled .setClass { s.engine with classes := s.engine.classes.set p.link.val cls p.link.isLt }
        (p.number :: p.params 2 7 ++ [word (p.low8 8)]) (p.number :: cls.words) := by
      rw [← fitted]
      exact ⟨_, h.order_written
        (u := { s with engine := { s.engine with classes := s.engine.classes.set p.link.val (fittedClass p) p.link.isLt } })
        rfl (State.inSetup_acts setup _)⟩
    exact acts

/-! ## SET LINK and SET RECEIVER -/

/-- Settles O41: the refusal, and the fitted settings of the one link or receiver. -/
theorem linkAndReceiverFitted : Obligations.LinkAndReceiverFitted := by
  unfold Obligations.LinkAndReceiverFitted
  intro s n p code h v l refused
  refine ⟨fun order => ?_, fun order => ?_⟩
  · subst order
    refine ⟨fun busy => h.order_answer (State.inSetup_refused busy _), fun setup => ?_⟩
    obtain ⟨below, allowed, greatest⟩ := roundDown_spec (allowed := linkLatchAllowed) (by decide) (v 7)
    refine ⟨roundDown linkLatchAllowed (v 7), below, allowed, greatest, ?_⟩
    intro zone skip blanking trips cadence written carried
    have fitted : fittedLink p = ⟨zone, skip, blanking, trips, v 6 % 256, roundDown linkLatchAllowed (v 7), cadence⟩ := by
      rw [fittedLink, fitOne_eq (by decide), fitOne_eq (by decide), skipOf_eq]
      rfl
    have meaning : s.inSetup (s.setLinkSettings p) = (s.setLink l ((s.link l).setSettings (fittedLink p))).answerFitted
        carried (p.number :: (fittedLink p).words) := State.inSetup_acts setup _
    rw [fitted] at meaning
    exact h.order_setLink (f := fun p => s.inSetup (s.setLinkSettings p)) meaning
  · subst order
    refine ⟨fun busy => h.order_answer (State.inSetup_refused busy _), fun setup => ?_⟩
    intro zone written
    have meaning : s.inSetup (s.setReceiverSettings p) =
        (s.setReceiver l { s.receiver l with zone := zone, enabled := decide (p.param 3 ≠ 0) }).answerFitted
          [p.number, p.param 2, p.param 3] [p.number, word zone.val, wordFlag (decide (p.param 3 ≠ 0))] :=
      State.inSetup_acts setup _
    rw [flag_nonzero, wordFlag_nonzero] at meaning
    exact h.order_setReceiver (f := fun p => s.inSetup (s.setReceiverSettings p)) meaning

/-! ## AIR START and AIR STOP -/

/-- Settles O42: each case by the engine state it finds. -/
theorem airStartAndStop : Obligations.AirStartAndStop := by
  unfold Obligations.AirStartAndStop
  intro s n p code h bit refused moved
  have hb : bit.InHand n p code := ⟨h.intake, h.slot, h.code, ⟨h.tidy.mem, h.tidy.slots, h.tidy.subscribers, h.tidy.records⟩, h.pages⟩
  have acts {c : Instr} {f : Posting → State} {e : Engine} {data : EngineState} (meaning : exec c s = s.order code f)
      (acts : f p = (State.setEngineBit { s with engine := e }).answer .accepted [data.code]) : moved c e data := by
    obtain ⟨-, answered, frame⟩ := hb.order_written (u := State.setEngineBit { s with engine := e }) (f := f) rfl acts
    refine ⟨_, ?_, answered, frame⟩
    rw [meaning, State.order_inHand h, acts]
  refine ⟨fun order => ?_, fun order => ?_⟩
  · subst order
    refine ⟨fun busy => h.order_answer (if_neg busy), fun setup locked => ?_, fun setup unlocked => ?_⟩
    · exact acts rfl ((if_pos setup).trans (by rw [if_pos locked]))
    · exact acts rfl ((if_pos setup).trans (by rw [if_neg unlocked]))
  · subst order
    refine ⟨fun starting running => h.order_answer ((if_neg starting).trans (if_neg running)), fun starting => ?_,
      fun running => ?_⟩
    · exact acts rfl (if_pos starting)
    · exact acts rfl ((if_neg (by rw [running]; decide)).trans (if_pos running))

/-! ## The link orders -/

theorem Link.moveTo_eq {c : Link} {state : LinkState} (other : state ≠ .keyed) :
    c.moveTo state = { c with state := state, cleanRun := 0 } := by
  rw [Link.moveTo, if_neg other]

/-- Settles O43: each order's effect on the controller, by the state it finds. -/
theorem linkOrdersActOnController : Obligations.LinkOrdersActOnController := by
  unfold Obligations.LinkOrdersActOnController
  intro s n p code h l c done standby override framed
  have acts {i : Instr} {a : AnswerCode} {d : Link} {f : Posting → State} (meaning : exec i s = s.order code f)
      (order : f p = s.linkOrder l d a) : done i a d := by
    obtain ⟨t, ran, rest⟩ := h.order_setLink order
    exact ⟨t, meaning.trans ran, rest⟩
  have toStandby : c.toStandby = standby := by
    rw [Link.toStandby, Link.moveTo_eq (by decide)]
  have effect {d e : Link} (a : AnswerCode) (same : d = e) : s.linkOrder l d a = s.linkOrder l e a := by rw [same]
  refine ⟨fun order => ?_, fun order => ?_, fun order => ?_, fun order => ?_, fun order => ?_⟩
  · subst order
    exact ⟨fun off => acts rfl (effect .accepted ((if_pos off).trans toStandby)),
      fun on => acts rfl (effect .accepted (if_neg on))⟩
  · subst order
    refine ⟨fun off => acts rfl (effect .accepted (if_pos off)), fun on => acts rfl (effect .accepted ((if_neg on).trans ?_))⟩
    rw [Link.moveTo_eq (by decide)]
    rfl
  · subst order
    have meaning {d : Link} {deferred : Bool}
        (same : c.keyOff (decide (p.param 2 ≠ 0)) (decide framed) = (d, deferred)) :
        done .keyOff (if deferred then .deferred else .accepted) d := by
      refine acts (f := fun p => s.linkOrder p.link ((s.link p.link).keyOff (decide (p.param 2 ≠ 0)) (decide framed)).1
        (if ((s.link p.link).keyOff (decide (p.param 2 ≠ 0)) (decide framed)).2 then .deferred else .accepted)) rfl ?_
      show s.linkOrder l (c.keyOff (decide (p.param 2 ≠ 0)) (decide framed)).1
        (if (c.keyOff (decide (p.param 2 ≠ 0)) (decide framed)).2 then .deferred else .accepted) = _
      rw [same]
    refine ⟨fun still => meaning (if_pos still), fun on keyed => ⟨fun immediate => ?_, fun boundary frames => ?_⟩⟩
    · have now : ¬ (decide (p.param 2 ≠ 0) = false ∧ decide framed = true) := fun wait =>
        immediate.elim (fun ne => of_decide_eq_false wait.1 ne) fun unframed => unframed (of_decide_eq_true wait.2)
      have moved : c.toOverride = override := by rw [Link.toOverride, Link.moveTo_eq (by decide)]
      exact meaning ((if_neg fun off => off.elim on keyed).trans ((if_neg now).trans (by rw [moved])))
    · exact meaning ((if_neg fun off => off.elim on keyed).trans
        (if_pos ⟨decide_eq_false (not_not_intro boundary), decide_eq_true frames⟩))
  · subst order
    have unset (clear : c.keyOffPending = false) : ¬ c.keyOffPending = true := by
      rw [clear]
      decide
    exact ⟨fun pending => acts rfl (effect .accepted (if_pos pending)),
      fun clear off => acts rfl (effect .accepted ((if_neg (unset clear)).trans ((if_pos off).trans toStandby))),
      fun clear other => acts rfl (effect .accepted ((if_neg (unset clear)).trans (if_neg other)))⟩
  · subst order
    have restored := congrArg
      (fun d : Link => { d with latchCounter := 0, faultRun := 0, clearRun := 0, blanking := 0 }) toStandby
    exact ⟨fun shut => acts rfl (effect .accepted ((if_pos shut).trans restored)), fun trip latch =>
      acts rfl (effect .accepted (if_neg fun shut => shut.elim trip latch))⟩

/-! ## PERIOD CLOSE -/

theorem Exchange.closeIfDue_keepsAsks {x : Exchange} {p : Producer} (h : x.writer.Asks p) (st : Stamp) :
    (x.closeIfDue st).writer.Asks p := by
  obtain ⟨held, waiting⟩ := x.closeIfDue_asks st
  rw [Writer.Asks, Writer.holds, held, waiting]
  exact h

/-- A producer that waits or holds still does when room rises. -/
theorem Exchange.roomRose_asks {x : Exchange} {p : Producer} (h : x.writer.Asks p) (st : Stamp) :
    (x.roomRose st).writer.Asks p := by
  have counted : ({ x with choices := x.choices + 1 } : Exchange).writer.Asks p := h
  unfold Exchange.roomRose
  split
  · simp only
    split
    · exact Exchange.judge_asks (Exchange.closeIfDue_keepsAsks counted st)
    · exact Exchange.closeIfDue_keepsAsks (Exchange.judge_asks counted) st
  · exact Exchange.judge_asks (Exchange.closeIfDue_keepsAsks h st)

theorem Exchange.giveBack_asks {x : Exchange} {p q : Producer} (h : x.writer.Asks p) (ne : p ≠ q) (st : Stamp) :
    (x.giveBack st q).writer.Asks p := by
  refine Exchange.roomRose_asks (x := { x with writer.held := x.writer.held.filter fun h => decide (h.1 ≠ q) })
    (h.imp (fun holds => ?_) id) st
  unfold Writer.holds at holds ⊢
  obtain ⟨e, held, own⟩ := List.any_eq_true.mp holds
  exact List.any_eq_true.mpr ⟨e, List.mem_filter.mpr ⟨held, decide_eq_true (by rw [of_decide_eq_true own]; exact ne)⟩, own⟩

theorem Exchange.request_keepsAsks {x : Exchange} {p : Producer} (h : x.writer.Asks p) (q : Producer) :
    (x.request q).writer.Asks p := by
  unfold Exchange.request
  split
  · exact h
  · exact Exchange.judge_asks (h.imp id fun waits => List.mem_append_left _ waits)

theorem Exchange.wakeIntake_asks {x : Exchange} {p : Producer} (h : x.writer.Asks p) (loading : Bool) :
    (x.wakeIntake loading).writer.Asks p := by
  unfold Exchange.wakeIntake
  split
  · exact Exchange.request_keepsAsks (x := { x with intake := .roomWait }) h .intake
  · exact h

/-- An answer takes no other producer's reservation or request (R95, R170). -/
theorem State.answer_asks {s : State} {p : Producer} (h : s.ex.writer.Asks p) (ne : p ≠ .intake) (code : AnswerCode)
    (data : List Word) : (s.answer code data).ex.writer.Asks p := by
  unfold State.answer
  split
  · next k q _ =>
    have marked : (s.ex.answering k (Posting.code q) code data).writer.Asks p := h
    exact Exchange.wakeIntake_asks
      (x := { (s.ex.answering k (Posting.code q) code data).giveBack s.stamp .intake with intake := .idle })
      (Exchange.giveBack_asks marked ne s.stamp) s.loading
  · exact h

/-- A request is a judgement of the requests with one more. -/
theorem Exchange.request_judges (x : Exchange) (p : Producer) : x.request p = x ∨
    ({ x with writer.waiting := x.writer.waiting ++ [p] } : Exchange).Judges (x.request p) := by
  unfold Exchange.request
  split
  · exact .inl rfl
  · exact .inr (Exchange.judge_judges _)

theorem Exchange.request_intake {x : Exchange} {p : Producer} (quiet : .intake ∉ x.writer.waiting) (ne : p ≠ .intake) :
    (x.request p).intake = x.intake := by
  unfold Exchange.request
  split
  · rfl
  · exact Exchange.judge_intake (x := { x with writer.waiting := x.writer.waiting ++ [p] })
      fun waits => (List.mem_append.mp waits).elim quiet fun i => ne (List.mem_singleton.mp i).symm

/-- Another producer's request leaves the posting in hand (R83, R170). -/
theorem State.InHand.request {s : State} {n : Nat} {p : Posting} {code : Nat} (h : s.InHand n p code)
    (quiet : .intake ∉ s.ex.writer.waiting) {q : Producer} (ne : q ≠ .intake) :
    State.InHand { s with ex := s.ex.request q } n p code :=
  have rep := s.ex.request_reported q
  ⟨(Exchange.request_intake quiet ne).trans h.intake, h.slot, h.code,
    ⟨rep.wf h.tidy.mem, rep.slots ▸ h.tidy.slots, h.tidy.subscribers, h.tidy.records⟩, rep.law h.pages⟩

/-- An answer over a state in which another producer has asked room is one over the state before it: the request writes the
requests and reservations alone, and loses none. -/
theorem Answered.of_request {s t : State} {q : Producer} {n : Nat} {posting : Word} {code : AnswerCode} {data : List Word}
    (a : Answered { s with ex := s.ex.request q } t n posting code data) : Answered s t n posting code data := by
  rcases s.ex.request_judges q with same | judged
  · rw [same] at a
    exact a
  · have held := judged.held
    have next : (s.ex.request q).writer.next = s.ex.writer.next := (congrArg (fun y => y.writer.next) judged.frame :)
    have pages : (s.ex.request q).writer.pages = s.ex.writer.pages := (congrArg (fun y => y.writer.pages) judged.frame :)
    have count : (s.ex.request q).writer.count = s.ex.writer.count := (congrArg (fun y => y.writer.count) judged.frame :)
    have due : (s.ex.request q).writer.due = s.ex.writer.due := (congrArg (fun y => y.writer.due) judged.frame :)
    have sequence : (s.ex.request q).writer.sequence = s.ex.writer.sequence :=
      (congrArg (fun y => y.writer.sequence) judged.frame :)
    rw [s.ex.request_eq q] at a
    generalize (s.ex.request q).writer = w at *
    exact
      { body := a.body, slots := a.slots, count := a.count, header := a.header, mem := a.mem, queue := a.queue
        buffer := a.buffer, fence := a.fence, enable := a.enable, bus := a.bus, read := a.read, progress := a.progress
        answers := a.answers, others := a.others, intake := a.intake, notices := a.notices
        reports := .trans (y := { s.ex with writer := { w with held := w.held.filter fun h => decide (h.1 ≠ .intake) } })
          ⟨fun _ _ _ => rfl, next, fun e i => List.mem_filter.mpr ⟨held e (List.mem_filter.mp i).1, (List.mem_filter.mp i).2⟩,
            .inl ⟨pages, count, due, sequence, rfl⟩⟩
          ⟨a.reports.records, a.reports.next, a.reports.held, a.reports.pages⟩ }

/-- Settles O35: the refusal while a walk is in flight, and the answer over the walk's request otherwise. -/
theorem periodClosedOrBusy : Obligations.PeriodClosedOrBusy := by
  unfold Obligations.PeriodClosedOrBusy
  intro s n p h guard period
  refine ⟨fun busy => h.order_answer (if_pos busy), fun idle => ?_⟩
  have quiet : .intake ∉ s.ex.writer.waiting := guard.waits_not h.pages h.intake
  have meaning : s.periodClose =
      State.answer { s with account := { s.account with period := period, walk := ⟨true, 0, 0⟩ }, ex := s.ex.request .rollWalk }
        .accepted [word period] := by
    exact (if_neg (by rw [idle]; decide)).trans (congrArg (fun t => State.answer t .accepted [word period])
      (State.ask_of_work (s := { s with account := { s.account with period := period, walk := ⟨true, 0, 0⟩ } })
        (p := .rollWalk) rfl))
  have answered := Answered.of_request ((h.request quiet (by decide)).order_written (f := fun _ => s.periodClose)
    (u := { s with account := { s.account with period := period, walk := ⟨true, 0, 0⟩ }, ex := s.ex.request .rollWalk })
    rfl meaning).2.1
  refine ⟨_, State.order_inHand h fun _ => s.periodClose, ?_, ?_, ?_, ?_⟩
  · rw [meaning, State.answer_account]
  · rw [meaning]
    exact State.answer_asks (s.ex.request_asks .rollWalk) (by decide) _ _
  · rw [meaning]
    exact answered
  · rw [meaning, State.answer_account]
    exact State.answer_eq _ _ _

end Sys2Proof.Machine
end

section
/-! The low-balance flag, PROVISION, the queries, CANCEL and RELEASE (O27, O28, O32, O37, O38). -/

namespace Sys2Proof.Machine

/-! ## The low-balance flag (R49, R50) -/

/-- Settles O27: the flag judged is one change of the billing group, and its alert the one record of the change. -/
theorem lowBalanceFlagJudged : Obligations.LowBalanceFlagJudged := by
  unfold Obligations.LowBalanceFlagJudged
  intro s p n e tidy b plan t flag
  have bills := (State.Bills.refl tidy.canon p n).judgeLow e
  have judged {low : Bool} (after : lowBalanceAfter plan b.lowBalance b.balance = low) :
      flag low ∧ t.ex = (s.handAll p (alertOnChange n plan b low e)).ex := by
    rw [← after]
    exact ⟨bills.here, bills.ex⟩
  have kept {low : Bool} (was : b.lowBalance = low) (after : lowBalanceAfter plan b.lowBalance b.balance = low) :
      flag low ∧ t.ex = s.ex := by
    obtain ⟨here, ex⟩ := judged after
    rw [alertOnChange, if_pos was.symm] at ex
    exact ⟨here, ex⟩
  have changed {low : Bool} (was : low ≠ b.lowBalance) (after : lowBalanceAfter plan b.lowBalance b.balance = low) :
      flag low ∧ t.ex = (s.hand p (recordBalanceAlert n low b.balance plan.warningLevel plan.recoveryMargin b.plan e)).ex := by
    obtain ⟨here, ex⟩ := judged after
    rw [alertOnChange, if_neg was] at ex
    exact ⟨here, ex⟩
  have whenClear (clear : b.lowBalance = false) :
      lowBalanceAfter plan b.lowBalance b.balance = decide (b.balance < plan.warningLevel) :=
    if_neg (by rw [clear]; decide)
  have whenSet (set : b.lowBalance = true) :
      lowBalanceAfter plan b.lowBalance b.balance = decide (b.balance < plan.warningLevel + plan.recoveryMargin) :=
    if_pos set
  refine ⟨fun k ne => bills.other ne, fun clear level => kept clear ((whenClear clear).trans (decide_eq_false ?_)),
    fun set level => kept set ((whenSet set).trans (decide_eq_true level)),
    fun clear level => changed (by rw [clear]; decide) ((whenClear clear).trans (decide_eq_true level)),
    fun set level => changed (by rw [set]; decide) ((whenSet set).trans (decide_eq_false ?_)), bills.frame⟩
  · omega
  · omega

/-! ## Fields checked in order (R23 to R25) -/

/-- The checks of the fields `fields`, field `k` passing where `check k` does. -/
def fieldChecks (fields : List Nat) (check : Nat → Bool) : List (Nat × Bool) := fields.map fun k => (k, check k)

section
variable {fields : List Nat} {check : Nat → Bool}

/-- Of fields in rising order the first out of range is the lowest (R23). -/
theorem firstBad_lowest {k : Nat} (rising : fields.Pairwise (· < ·)) (field : k ∈ fields) (bad : check k = false)
    (before : ∀ j, j ∈ fields → j < k → check j = true) : firstBad (fieldChecks fields check) = some k := by
  have first : fields.find? (fun j => !check j) = some k := by
    induction fields with
    | nil => cases field
    | cons a rest ih =>
      obtain ⟨below, rising⟩ := List.pairwise_cons.mp rising
      rcases List.mem_cons.mp field with e | field
      · rw [← e]
        exact List.find?_cons_of_pos (by rw [bad]; rfl)
      · rw [List.find?_cons_of_neg (by rw [before a List.mem_cons_self (below k field)]; decide)]
        exact ih rising field fun j i lt => before j (List.mem_cons_of_mem a i) lt
  rw [firstBad, fieldChecks, List.find?_map, Option.map_map]
  exact congrArg (Option.map _) first

theorem firstBad_none (good : ∀ j, j ∈ fields → check j = true) : firstBad (fieldChecks fields check) = none := by
  have none : fields.find? (fun j => !check j) = none :=
    List.find?_eq_none.mpr fun j i => by rw [good j i]; decide
  rw [firstBad, fieldChecks, List.find?_map, Option.map_map]
  exact congrArg (Option.map _) none

end

/-! ## PROVISION -/

/-- Whether PROVISION's field `k` is in range (R23, R24). -/
def provisionField (p : Posting) : Nat → Bool
  | 2 => upTo 7 (p.param 2)
  | 3 => upTo 15 (p.param 3)
  | 4 => upTo 31 (p.param 4)
  | 5 => zonesOk (p.param 5)
  | 6 => decide (p.param 6 ≠ unchangedMarker)
  | _ => upTo 2147483647 (p.param 7)

theorem provisionChecks_eq (p : Posting) : provisionChecks p = fieldChecks [2, 3, 4, 5, 6, 7] (provisionField p) := rfl

theorem zonesOk_iff (w : Word) : zonesOk w = true ↔ w ≠ 0 ∧ w.toNat ≤ 15 := by
  rw [zonesOk, Bool.and_eq_true, upTo, decide_eq_true_eq, decide_eq_true_eq]

theorem upTo_iff (limit : Nat) (w : Word) : upTo limit w = true ↔ w.toNat ≤ limit := decide_eq_true_iff

section
variable {s : State} {p : Posting}

theorem State.provision_malformed {k : Nat} (bad : firstBad (provisionChecks p) = some k) :
    s.provision p = s.answer .malformed [word p.subscriber, word k] := by
  unfold State.provision
  rw [bad]
  rfl

theorem State.provision_inUse (good : firstBad (provisionChecks p) = none)
    (used : (s.sub p.subscriber).billing.state ≠ .vacant) :
    s.provision p = s.answer .inUse [word p.subscriber, (s.sub p.subscriber).billing.state.code] := by
  unfold State.provision
  rw [good]
  exact if_pos used

theorem State.provision_accepted (good : firstBad (provisionChecks p) = none)
    (vacant : (s.sub p.subscriber).billing.state = .vacant) :
    s.provision p = (s.setSub p.subscriber
      { s.sub p.subscriber with billing := provisioned p s.account.period }).answer .accepted
      [word p.subscriber, word (s.radioAddress p.subscriber), word s.account.period] := by
  unfold State.provision
  rw [good]
  exact if_neg (not_not_intro vacant)

end

/-- Settles O28: the fields in the order of their checks, then the record as found. -/
theorem subscriberProvisioned : Obligations.SubscriberProvisioned := by
  unfold Obligations.SubscriberProvisioned
  intro s n p h m ok
  have field (k : Nat) (low : 2 ≤ k) (high : k ≤ 7) : provisionField p k = true ↔ ok k := by
    have fields : k = 2 ∨ k = 3 ∨ k = 4 ∨ k = 5 ∨ k = 6 ∨ k = 7 := by omega
    rcases fields with rfl | rfl | rfl | rfl | rfl | rfl
    · exact upTo_iff _ _
    · exact upTo_iff _ _
    · exact upTo_iff _ _
    · exact zonesOk_iff _
    · exact decide_eq_true_iff
    · exact upTo_iff _ _
  have range (j : Nat) (i : j ∈ [2, 3, 4, 5, 6, 7]) : 2 ≤ j ∧ j ≤ 7 := by
    simp only [List.mem_cons, List.not_mem_nil, or_false] at i
    omega
  refine ⟨fun k low high before bad => h.order_answer (State.provision_malformed ?_), fun good => ?_⟩
  · rw [provisionChecks_eq]
    refine firstBad_lowest (by decide) ?_ (Bool.eq_false_iff.mpr fun pass => bad ((field k low high).mp pass)) fun j i lt => ?_
    · simp only [List.mem_cons, List.not_mem_nil, or_false]
      omega
    · exact (field j (range j i).1 (range j i).2).mpr (before j (range j i).1 lt)
  · have pass : firstBad (provisionChecks p) = none := by
      rw [provisionChecks_eq]
      exact firstBad_none fun j i => (field j (range j i).1 (range j i).2).mpr (good j (range j i).1 (range j i).2)
    exact ⟨fun used => h.order_answer (State.provision_inUse pass used),
      fun vacant => h.order_setSub_answer h rfl (State.provision_accepted pass vacant)⟩

/-! ## Handles (R92, R100) -/

theorem handleGeneration_toNat {w : Word} (short : w.toNat < 0x400000) :
    (handleGeneration w).toNat = w.toNat / 16384 := by
  rw [handleGeneration, BitVec.extractLsb'_toNat, Nat.shiftRight_eq_div_pow]
  omega

theorem handleWord_current {w : Word} {g : BitVec 8} (short : w.toNat < 0x400000) (current : g.toNat = w.toNat / 16384) :
    handleWord g (w.toNat % 16384) = w := by
  refine BitVec.eq_of_toNat_eq ?_
  rw [handleWord, word, BitVec.toNat_ofNat, current]
  omega

section
variable {s : State} {p : Posting} {f : Nat → State}

theorem State.withHandle_malformed (long : 0x400000 ≤ (p.param 1).toNat) :
    s.withHandle p f = s.answer .malformed [p.param 1, 1] := if_pos (decide_eq_true long)

theorem State.withHandle_free (short : (p.param 1).toNat < 0x400000) (free : (s.msg ((p.param 1).toNat % 16384)).state = .free) :
    s.withHandle p f = s.answer .noSuchMessage [p.param 1, 0] :=
  (if_neg (by rw [handleMalformed, decide_eq_true_iff]; omega)).trans (if_pos free)

theorem State.withHandle_stale (short : (p.param 1).toNat < 0x400000)
    (occupied : (s.msg ((p.param 1).toNat % 16384)).state ≠ .free)
    (stale : (s.msg ((p.param 1).toNat % 16384)).generation.toNat ≠ (p.param 1).toNat / 16384) :
    s.withHandle p f = s.answer .noSuchMessage [p.param 1, 1] :=
  (if_neg (by rw [handleMalformed, decide_eq_true_iff]; omega)).trans ((if_neg occupied).trans
    (if_pos fun same => stale ((congrArg BitVec.toNat same).trans (handleGeneration_toNat short))))

theorem State.withHandle_current (short : (p.param 1).toNat < 0x400000)
    (occupied : (s.msg ((p.param 1).toNat % 16384)).state ≠ .free)
    (current : (s.msg ((p.param 1).toNat % 16384)).generation.toNat = (p.param 1).toNat / 16384) :
    s.withHandle p f = f ((p.param 1).toNat % 16384) :=
  (if_neg (by rw [handleMalformed, decide_eq_true_iff]; omega)).trans ((if_neg occupied).trans
    (if_neg (not_not_intro (BitVec.eq_of_toNat_eq (current.trans (handleGeneration_toNat short).symm)))))

end

/-! ## The queries and an unknown code -/

theorem captureWords_eq (o : Option Capture) : captureWords o =
    [(match o with | some x => word x.serial | none => 0xFFFFFFFF), (match o with | some x => word x.position | none => 0xFFFFFFFF),
      (match o with | some x => x.kind.code | none => 0xFFFFFFFF),
      (match o with | some x => x.alarms.setWidth 32 | none => 0xFFFFFFFF)] := by
  cases o <;> rfl

theorem wordLater_trip (o : Option TripReport) :
    wordLater (o.map (·.later)) = match o with | some x => word x.later | none => 0xFF := by
  cases o <;> rfl

theorem wordLater_recovery (o : Option RecoveryReport) :
    wordLater (o.map (·.later)) = match o with | some x => word x.later | none => 0xFF := by
  cases o <;> rfl

/-- Settles O32: each query answers over the state as found, QUERY SUBSCRIBER once its two copies are taken. -/
theorem queriesAnswerWithoutChange : Obligations.QueriesAnswerWithoutChange := by
  unfold Obligations.QueriesAnswerWithoutChange
  intro s n p k h told
  have tells {c : Instr} {f : Posting → State} {code : AnswerCode} {data : List Word} (order : exec c s = s.order k f)
      (meaning : f p = s.answer code data) : told c code data := by
    obtain ⟨t, ran, answered, frame⟩ := h.order_answer meaning
    rw [← h.code_eq] at answered
    exact ⟨t, order.trans ran, answered, frame⟩
  refine ⟨fun code => ?_, fun code => ?_, fun code => ?_, fun code => ?_, fun unknown => ?_⟩
  · subst code
    intro m u v copying
    have order : exec .querySubscriber s = s.order 0x17 fun p => s.querySubscriber p.subscriber := rfl
    refine ⟨fun fresh => ?_, fun b copied => ?_, fun b g copied => tells order ?_⟩
    · rw [order, State.order_inHand h]
      unfold State.querySubscriber
      split
      · next c => exact absurd c (fresh _)
      · next c => exact absurd c (fresh _)
      all_goals rfl
    · rw [order, State.order_inHand h]
      unfold State.querySubscriber
      rw [copied]
      rfl
    · unfold State.querySubscriber
      rw [copied]
      rfl
  · subst code
    intro w i r
    have order : exec .queryMessage s =
        s.order 0x21 fun p => s.withHandle p fun i => s.answer .accepted (messageData i (s.msg i)) := rfl
    refine ⟨fun long => tells order (State.withHandle_malformed long),
      fun short free => tells order (State.withHandle_free short free),
      fun short occupied stale => tells order (State.withHandle_stale short occupied stale),
      fun short occupied current => tells order ((State.withHandle_current short occupied current).trans ?_)⟩
    rw [messageData, handleWord_current short current]
    rfl
  · subst code
    refine tells (f := fun p => s.answer .accepted (s.linkData p.link)) rfl (congrArg (s.answer .accepted) ?_)
    rw [State.linkData, captureWords_eq, wordLater_trip, wordLater_recovery]
    rfl
  · subst code
    exact tells (f := fun p => s.answer .accepted (s.receiverData p.link)) rfl rfl
  · have other : ¬ (Posting.code p).toNat ∈ postingCodes := fun known => unknown (h.code ▸ known)
    refine ⟨s.answer .unknownOrder [Posting.code p], ?_, h.answered rfl _ _, State.answer_eq s _ _⟩
    show execUnknownOrder s = _
    unfold execUnknownOrder State.posting
    rw [h.intake]
    exact if_neg other

/-! ## CANCEL -/

theorem State.Acts.intake {p : Producer} {s t : State} (h : s.Acts p t) : t.ex.intake = s.ex.intake := by
  induction h with
  | refl => rfl
  | hand _ r ih => exact (State.hand_intake _ p r).trans ih
  | message _ _ _ ih => exact ih
  | reach _ _ _ ih => exact ih
  | group _ _ _ ih => exact ih
  | billing _ _ _ _ _ ih => exact ih
  | notice _ _ ih => exact ih
  | aside _ _ _ _ _ _ ex ih => exact (congrArg Exchange.intake ex).trans ih

/-- An operation of the owners leaves the posting in hand (R84). -/
theorem State.Acts.inHand {q : Producer} {s t : State} (acts : s.Acts q t) {n : Nat} {p : Posting} {code : Nat}
    (h : s.InHand n p code) : t.InHand n p code :=
  have reported := acts.works.reported
  have canon := acts.canon h.tidy.canon
  ⟨acts.intake.trans h.intake, h.slot, h.code,
    ⟨reported.wf h.tidy.mem, reported.slots ▸ h.tidy.slots, canon.subscribers, canon.records⟩, reported.law h.pages⟩

/-- An order that answers over what it has done (R95). -/
theorem State.InHand.order_over {s u v : State} {n : Nat} {p : Posting} {k : Nat} (h : s.InHand n p k) (hu : u.InHand n p k)
    (ex : v.ex = u.ex) {f : Posting → State} {code : AnswerCode} {data : List Word} (meaning : f p = v.answer code data) :
    s.order k f = .next (v.answer code data) ∧ Answered u (v.answer code data) n (word k) code data ∧
      v.answer code data = { v with ex := (v.answer code data).ex } := by
  have answered := hu.answered ex code data
  rw [h.code_eq] at answered
  exact ⟨by rw [State.order_inHand h, meaning], answered, State.answer_eq v code data⟩

/-- A message cancelled is refunded its charge where that is refundable (R54). -/
theorem MessageRecord.refundAmount_cancelled (r : MessageRecord) :
    r.refundAmount .cancelled = if r.refundable then r.charge else 0 := by
  unfold MessageRecord.refundAmount MessageRecord.refunded
  cases r.refundable with
  | false => rfl
  | true =>
    by_cases charged : 0 < r.charge
    · simp [charged]
    · simp [Nat.eq_zero_of_not_pos charged]

/-- Settles O37: the handle's checks, then the record's state. -/
theorem cancelByState : Obligations.CancelByState := by
  unfold Obligations.CancelByState
  intro s n p h w i r found refused
  refine ⟨fun long => h.order_answer (State.withHandle_malformed long),
    fun short free => h.order_answer (State.withHandle_free short free),
    fun short occupied stale => h.order_answer (State.withHandle_stale short occupied stale), fun short current => ?_⟩
  have handle (occupied : r.state ≠ .free) : s.withHandle p s.cancelRecord = s.cancelRecord i :=
    State.withHandle_current short occupied current
  have listed : [handleWord r.generation i, r.state.code, wordFlag r.cancelPending, wordFlag r.ackedPending] = found := by
    rw [handleWord_current short current]
  refine ⟨fun closable => ?_, fun airing => ?_⟩
  · have grounded : ¬ (r.state = .placed ∨ r.state = .onAir) := by
      rcases closable with e | e | e <;> rw [e] <;> decide
    have occupied : r.state ≠ .free := by rcases closable with e | e | e <;> rw [e] <;> decide
    have refund := r.refundAmount_cancelled
    have meaning : s.cancelRecord i = (s.close .intake i .cancelled).answer .accepted
        (found ++ [word r.attempts, word (if r.refundable then r.charge else 0)]) := by
      rw [← listed, ← refund]
      exact if_neg grounded
    exact ⟨_, h.order_over ((s.close_acts i .cancelled).inHand h) rfl ((handle occupied).trans meaning)⟩
  · have occupied : r.state ≠ .free := by rcases airing with e | e <;> rw [e] <;> decide
    refine ⟨fun acked => ?_, fun open_ => ?_⟩
    · exact h.order_answer ((handle occupied).trans ((if_pos airing).trans ((if_pos acked).trans (by rw [← listed]))))
    · have meaning : s.cancelRecord i = (s.setMsg i { r with cancelPending := true }).answer .deferred found := by
        rw [← listed]
        exact (if_pos airing).trans (if_neg (by rw [show (s.msg i).ackedPending = false from open_]; decide))
      obtain ⟨ran, answered, frame⟩ := h.order_over h (v := s.setMsg i { r with cancelPending := true }) rfl
        (f := fun p => s.withHandle p s.cancelRecord) ((handle occupied).trans meaning)
      have msg (j : Nat) : ((s.setMsg i { r with cancelPending := true }).answer .deferred found).msg j =
          if j = i then { r with cancelPending := true } else s.msg j := by
        rw [State.msg, State.answer_store, ← State.msg, State.msg_setMsg h.tidy.records]
      refine ⟨_, ran, by rw [msg, if_pos rfl], fun j ne => by rw [msg, if_neg ne], answered, ?_⟩
      rw [State.answer_store]
      exact frame

/-! ## RELEASE -/

/-- Settles O38: the release of the HELD records, where the subscriber is unreachable. -/
theorem subscriberReleased : Obligations.SubscriberReleased := by
  unfold Obligations.SubscriberReleased
  intro s n p h m u held
  refine ⟨fun vacant => h.order_answer ((if_pos vacant).trans (State.refuseSubscriber_vacant vacant _)),
    fun live reachable => h.order_answer ((if_neg live).trans (if_neg (by rw [show (s.sub m).reach.unreachable = false from reachable]; decide))),
    fun live unreachable => ?_⟩
  have meaning : s.release p = (s.releaseAll m).1.answer .accepted [word m, 1, word held.length] :=
    (if_neg live).trans (if_pos unreachable)
  obtain ⟨sub, msg, lists, frame⟩ := State.releaseAll_spec h.tidy.canon m
  obtain ⟨ran, answered, answer⟩ := h.order_over h (v := (s.releaseAll m).1) (by rw [frame]) (f := s.release) meaning
  refine ⟨_, ran, ?_, fun k ne => ?_, fun i => ?_, fun f => ?_, answered, ?_⟩
  · rw [State.sub, State.answer_account, ← State.sub, sub, if_pos rfl]
  · rw [State.sub, State.answer_account, ← State.sub, sub, if_neg ne]
  · rw [State.msg, State.answer_store, ← State.msg, msg]
    rfl
  · rw [State.answer_store]
    exact lists f
  · rw [State.answer_store, State.answer_account]
    refine answer.trans ?_
    generalize ((s.releaseAll m).1.answer _ _).ex = x
    rw [frame]

end Sys2Proof.Machine
end

section
/-! AMEND (R25 to R28): the slot move, and what an accepted order leaves (O29). -/

namespace Sys2Proof.Machine

/-! ## The slot move (R27) -/

/-- A state whose frame lists alone differ. -/
def State.Relists (s t : State) : Prop := t = { s with store := { s.store with lists := t.store.lists } }

section
variable {s t u : State}

theorem State.Relists.trans (h : s.Relists t) (k : t.Relists u) : s.Relists u := by
  unfold State.Relists at *
  rw [h] at k
  exact k

theorem State.Relists.msg (h : s.Relists t) (i : Nat) : t.msg i = s.msg i := by rw [h]; rfl

theorem State.Relists.sub (h : s.Relists t) (n : Nat) : t.sub n = s.sub n := by rw [h]; rfl

theorem State.Relists.account (h : s.Relists t) : t.account = s.account := by rw [h]

theorem State.Relists.canon (h : s.Relists t) (c : s.Canon) : t.Canon := by
  rw [h]
  exact ⟨c.subscribers, c.records⟩

/-- A subscriber's records taken out of the list of its slot, one after the other (R27). -/
theorem State.foldl_delist {is : List Nat} {n : Nat} (own : ∀ i, i ∈ is → (s.msg i).subscriber = n) :
    s.Relists (is.foldl State.delist s) ∧ ∀ f : Fin 32, (is.foldl State.delist s).store.lists.get f =
      if f = (s.sub n).billing.slot then (s.store.lists.get f).filter (fun i => decide (i ∉ is))
      else s.store.lists.get f := by
  induction is generalizing s with
  | nil =>
    refine ⟨rfl, fun f => ?_⟩
    simp
  | cons i rest ih =>
    obtain ⟨frame, lists⟩ := ih (s := s.delist i) fun j m => own j (List.mem_cons_of_mem i m)
    have first : s.Relists (s.delist i) := rfl
    have left := s.delist_lists i
    rw [own i List.mem_cons_self] at left
    refine ⟨first.trans frame, fun f => ?_⟩
    rw [List.foldl_cons, lists f, left f, first.sub]
    by_cases here : f = (s.sub n).billing.slot
    · rw [if_pos here, if_pos here, if_pos here, List.filter_filter]
      refine List.filter_congr fun j _ => ?_
      simp only [List.mem_cons, not_or, Bool.decide_and]
      exact Bool.and_comm _ _
    · rw [if_neg here, if_neg here, if_neg here]

/-- A subscriber's records entered into the list of its slot by key, one after the other (R27). -/
theorem State.foldl_enlist {is : List Nat} {n : Nat} (own : ∀ i, i ∈ is → (s.msg i).subscriber = n) :
    s.Relists (is.foldl State.enlist s) ∧ ∀ f : Fin 32, (is.foldl State.enlist s).store.lists.get f =
      if f = (s.sub n).billing.slot then
        is.foldl (fun l i => insertByKey (fun j => (s.msg j).key) i l) (s.store.lists.get f)
      else s.store.lists.get f := by
  induction is generalizing s with
  | nil =>
    refine ⟨rfl, fun f => ?_⟩
    simp
  | cons i rest ih =>
    obtain ⟨frame, lists⟩ := ih (s := s.enlist i) fun j m => own j (List.mem_cons_of_mem i m)
    have first : s.Relists (s.enlist i) := rfl
    have entered := s.enlist_lists i
    rw [own i List.mem_cons_self] at entered
    refine ⟨first.trans frame, fun f => ?_⟩
    rw [List.foldl_cons, lists f, entered f, first.sub]
    by_cases here : f = (s.sub n).billing.slot
    · rw [if_pos here, if_pos here, if_pos here]
      rfl
    · rw [if_neg here, if_neg here, if_neg here]

end

/-- A slot move: what it leaves (R27). -/
theorem State.moveSlot_spec {s : State} (c : s.Canon) (n : Nat) {slot : Fin 32} (other : slot ≠ (s.sub n).billing.slot) :
    let moved := s.msgsWhere fun r => decide (r.subscriber = n ∧ r.state = .waiting)
    let t := s.moveSlot n slot
    (∀ k, t.sub k = if k = n then { s.sub n with billing := { (s.sub n).billing with slot := slot } } else s.sub k) ∧
    (∀ f : Fin 32, t.store.lists.get f =
      if f = (s.sub n).billing.slot then (s.store.lists.get f).filter fun i => decide (i ∉ moved)
      else if f = slot then moved.foldl (fun l i => insertByKey (fun j => (s.msg j).key) i l) (s.store.lists.get f)
      else s.store.lists.get f) ∧
    t = { s with
      account := { s.account with subscribers := t.account.subscribers }, store := { s.store with lists := t.store.lists } } := by
  intro moved t
  have own (i : Nat) (m : i ∈ moved) : (s.msg i).subscriber = n := ((State.mem_waiting c n i).mp m).1
  obtain ⟨out, left⟩ := State.foldl_delist own
  generalize outEq : moved.foldl State.delist s = a at out left
  have written (m : Nat) := State.sub_setBilling (out.canon c) n m { (a.sub n).billing with slot := slot }
  have msg (i : Nat) : (a.setBilling n { (a.sub n).billing with slot := slot }).msg i = s.msg i := out.msg i
  obtain ⟨in_, entered⟩ := State.foldl_enlist (s := a.setBilling n { (a.sub n).billing with slot := slot }) (n := n)
    fun i m => (congrArg MessageRecord.subscriber (msg i)).trans (own i m)
  have whole : t = moved.foldl State.enlist (a.setBilling n { (a.sub n).billing with slot := slot }) := by rw [← outEq]; rfl
  have keys : (fun j => ((a.setBilling n { (a.sub n).billing with slot := slot }).msg j).key) = fun j => (s.msg j).key :=
    funext fun j => congrArg MessageRecord.key (msg j)
  have here : ((a.setBilling n { (a.sub n).billing with slot := slot }).sub n).billing.slot = slot := by
    rw [written n, if_pos rfl]
  rw [here, keys] at entered
  rw [whole]
  refine ⟨fun k => ?_, fun f => ?_, ?_⟩
  · rw [in_.sub, written k, out.sub, out.sub]
  · have lists : (a.setBilling n { (a.sub n).billing with slot := slot }).store.lists.get f = a.store.lists.get f := rfl
    rw [entered f, lists, left f]
    by_cases old : f = (s.sub n).billing.slot
    · rw [if_pos old, if_pos old, if_neg fun new => other (new.symm.trans old)]
    · rw [if_neg old, if_neg old]
  · generalize moved.foldl State.enlist _ = e at in_
    rw [in_, out]
    rfl

/-! ## AMEND -/

/-- Whether AMEND's field `k` is unchanged or in range (R25). -/
def amendField (p : Posting) : Nat → Bool
  | 2 => amendOk (p.param 2) (upTo 7)
  | 3 => amendOk (p.param 3) (upTo 15)
  | 4 => amendOk (p.param 4) (upTo 31)
  | 5 => amendOk (p.param 5) zonesOk
  | _ => amendOk (p.param 7) (upTo 2147483647)

theorem amendChecks_eq (p : Posting) : amendChecks p = fieldChecks [2, 3, 4, 5, 7] (amendField p) := rfl

theorem amendOk_iff {w : Word} {ok : Word → Bool} {P : Prop} (range : ok w = true ↔ P) :
    amendOk w ok = true ↔ (w ≠ 0xFFFFFFFF → P) := by
  rw [amendOk, Bool.or_eq_true, decide_eq_true_iff, range]
  exact ⟨fun h ne => h.resolve_left ne, fun h => (Decidable.em (w = 0xFFFFFFFF)).imp id h⟩

/-- The billing group an accepted AMEND leaves: rolled, the fields given, the slot given (R26, R58). -/
def State.amendedBilling (s : State) (n : Nat) (p : Posting) : Billing :=
  { amendBilling p (s.rolled n) with slot := amendSlot p (s.rolled n) }

/-- The PERIOD SUMMARY of a stale record rolled at an intake request (R58). -/
def State.rollRecords (s : State) (n : Nat) : List Record :=
  if s.stale n then [recordPeriodSummary n (s.sub n).billing .intake] else []

/-- What an accepted AMEND leaves before its answer (R26, R27). -/
structure State.Amends (s t : State) (n : Nat) (p : Posting) : Prop where
  sub : ∀ k, t.sub k = if k = n then { s.sub n with billing := s.amendedBilling n p } else s.sub k
  lists : ∀ f : Fin 32, t.store.lists.get f =
    let moved := s.msgsWhere fun r => decide (r.subscriber = n ∧ r.state = .waiting)
    let slot := amendSlot p (s.sub n).billing
    if slot = (s.sub n).billing.slot then s.store.lists.get f
    else if f = (s.sub n).billing.slot then (s.store.lists.get f).filter fun i => decide (i ∉ moved)
    else if f = slot then moved.foldl (fun l i => insertByKey (fun j => (s.msg j).key) i l) (s.store.lists.get f)
    else s.store.lists.get f
  ex : t.ex = (s.handAll .intake (s.rollRecords n)).ex
  frame : t = { s with
    account := { s.account with subscribers := t.account.subscribers }
    store := { s.store with lists := t.store.lists }
    ex := t.ex }

theorem State.applyAmend_amends {s : State} (c : s.Canon) (n : Nat) (p : Posting) : s.Amends (s.applyAmend n p) n p := by
  have rolled := State.rollIfStale_bills c n
  have bills := rolled.setBilling (amendBilling p (s.rolled n))
  have billing : ((s.rollIfStale n).sub n).billing = s.rolled n := rolled.billing
  unfold State.applyAmend
  simp only [billing]
  generalize (s.rollIfStale n).setBilling n (amendBilling p (s.rolled n)) = u at bills
  have store : u.store = s.store := by rw [bills.frame]
  split
  · next same =>
    have kept : s.amendedBilling n p = amendBilling p (s.rolled n) := by
      rw [State.amendedBilling, same]
      rfl
    refine ⟨fun k => by rw [kept]; exact bills.sub k, fun f => ?_, bills.ex, ?_⟩
    · rw [store]
      exact (if_pos same).symm
    · rw [store]
      exact bills.frame
  · next other =>
    have slot : (u.sub n).billing.slot = (s.sub n).billing.slot := by rw [bills.billing]; rfl
    obtain ⟨sub, lists, frame⟩ := State.moveSlot_spec bills.canon n (slot := amendSlot p (s.rolled n)) (by rw [slot]; exact other)
    refine ⟨fun k => ?_, fun f => ?_, ?_, ?_⟩
    · rw [sub k, bills.here]
      split
      · rfl
      · next ne => exact bills.other ne
    · have msgs : u.msgsWhere (fun r => decide (r.subscriber = n ∧ r.state = .waiting)) =
          s.msgsWhere fun r => decide (r.subscriber = n ∧ r.state = .waiting) := by
        rw [State.msgsWhere, store, State.msgsWhere]
      have keys : (fun j => (u.msg j).key) = fun j => (s.msg j).key := by
        funext j
        rw [State.msg, store, State.msg]
      rw [lists f, slot, msgs, keys, store]
      exact (if_neg other).symm
    · rw [frame]
      exact bills.ex
    · generalize u.moveSlot n (amendSlot p (s.rolled n)) = e at frame
      rw [frame, bills.frame]

section
variable {s : State} {p : Posting}

theorem State.amend_malformed {k : Nat} (bad : firstBad (amendChecks p) = some k) :
    s.amend p = s.answer .malformed [word p.subscriber, word k] := by
  unfold State.amend
  rw [bad]
  rfl

theorem State.amend_vacant (good : firstBad (amendChecks p) = none) (vacant : (s.sub p.subscriber).billing.state = .vacant) :
    s.amend p = s.answer .unknownSubscriber [word p.subscriber, 0] := by
  unfold State.amend
  rw [good]
  exact (if_pos vacant).trans (State.refuseSubscriber_vacant vacant _)

theorem State.amend_open (good : firstBad (amendChecks p) = none) (live : (s.sub p.subscriber).billing.state ≠ .vacant)
    (changed : amended (p.param 2) (s.sub p.subscriber).billing.serviceClass (Fin.ofNat 8 (p.param 2).toNat) ≠
      (s.sub p.subscriber).billing.serviceClass) (messages : 0 < (s.sub p.subscriber).store.openCount) :
    s.amend p = s.answer .openMessages [word p.subscriber, (s.sub p.subscriber).billing.state.code] := by
  unfold State.amend
  rw [good]
  exact (if_neg live).trans (if_pos ⟨changed, messages⟩)

theorem State.amend_accepted (good : firstBad (amendChecks p) = none) (live : (s.sub p.subscriber).billing.state ≠ .vacant)
    (free : amended (p.param 2) (s.sub p.subscriber).billing.serviceClass (Fin.ofNat 8 (p.param 2).toNat) =
      (s.sub p.subscriber).billing.serviceClass ∨ (s.sub p.subscriber).store.openCount = 0) :
    s.amend p = (s.applyAmend p.subscriber p).answer .accepted
      (amendAnswer ((s.applyAmend p.subscriber p).sub p.subscriber).billing) := by
  unfold State.amend
  rw [good]
  refine (if_neg live).trans (if_neg fun refused => ?_)
  rcases free with same | none
  · exact refused.1 same
  · exact absurd refused.2 (by rw [none]; decide)

end

/-- Settles O29: the fields in the order of their checks, the subscriber as found, and what an accepted AMEND leaves. -/
theorem subscriberAmended : Obligations.SubscriberAmended := by
  unfold Obligations.SubscriberAmended
  intro s n p h m u b given ok refused newClass newSlot stale after moved
  have field (k : Nat) (i : k ∈ [2, 3, 4, 5, 7]) : amendField p k = true ↔ ok k := by
    have fields : k = 2 ∨ k = 3 ∨ k = 4 ∨ k = 5 ∨ k = 7 := by simpa using i
    rcases fields with rfl | rfl | rfl | rfl | rfl
    · exact amendOk_iff (upTo_iff _ _)
    · exact amendOk_iff (upTo_iff _ _)
    · exact amendOk_iff (upTo_iff _ _)
    · exact amendOk_iff (zonesOk_iff _)
    · exact amendOk_iff (upTo_iff _ _)
  have range (j : Nat) (i : j ∈ [2, 3, 4, 5, 7]) : 2 ≤ j ∧ j ≤ 7 := by
    simp only [List.mem_cons, List.not_mem_nil, or_false] at i
    omega
  refine ⟨fun k low high before bad => h.order_answer (State.amend_malformed ?_), fun good => ?_⟩
  · have checked : k ∈ [2, 3, 4, 5, 7] := by
      have six : k ≠ 6 := fun e => bad (e ▸ trivial)
      simp only [List.mem_cons, List.not_mem_nil, or_false]
      omega
    rw [amendChecks_eq]
    exact firstBad_lowest (by decide) checked (Bool.eq_false_iff.mpr fun pass => bad ((field k checked).mp pass))
      fun j i lt => (field j i).mpr (before j (range j i).1 lt)
  · have pass : firstBad (amendChecks p) = none := by
      rw [amendChecks_eq]
      exact firstBad_none fun j i => (field j i).mpr (good j (range j i).1 (range j i).2)
    refine ⟨fun vacant => h.order_answer (State.amend_vacant pass vacant),
      fun live changed messages => h.order_answer (State.amend_open pass live changed messages), fun live free => ?_⟩
    have amends := State.applyAmend_amends h.tidy.canon m p
    have billing : s.amendedBilling m p = after := rfl
    have meaning := State.amend_accepted pass live free
    obtain ⟨ran, answered, frame⟩ := h.order_over (h.handAll .intake (s.rollRecords m)) amends.ex meaning
    refine ⟨_, ran, ?_, fun k ne => ?_, fun i => ?_, fun f => ?_, ?_, ?_⟩
    · rw [State.sub, State.answer_account, ← State.sub, amends.sub, if_pos rfl, billing]
    · rw [State.sub, State.answer_account, ← State.sub, amends.sub, if_neg ne]
    · rw [State.msg, State.answer_store, amends.frame]
      rfl
    · rw [State.answer_store]
      exact amends.lists f
    · have here : ((s.applyAmend m p).sub m).billing = after := by rw [amends.sub, if_pos rfl, billing]
      have data := congrArg amendAnswer here
      exact (congrArg (fun d => Answered _ _ n _ .accepted d) data).mp answered
    · rw [State.answer_store, State.answer_account]
      refine frame.trans ?_
      generalize ((s.applyAmend m p).answer _ _).ex = x
      have written := amends.frame
      generalize s.applyAmend m p = e at written ⊢
      rw [written]

end Sys2Proof.Machine
end

section
/-! MESSAGE, request by request (O24, O25). -/

namespace Sys2Proof.Machine

/-! ## Checks 1 to 7 (R85 to R87) -/

section
variable {s : State} {p : Posting}

/-- A posting whose owners have answered nothing yet goes to its checks. -/
theorem State.message_checks (fresh : s.ex.progress = .begun ∨ ∃ c, s.ex.progress = .copied c) :
    s.message p = s.checkMessage p := by
  unfold State.message
  rcases fresh with begun | ⟨c, copied⟩
  · rw [begun]
  · rw [copied]

theorem State.checkMessage_passed {d : Draft} (passed : s.checked p = .passed d) :
    s.checkMessage p = s.advance (.checked d) := by
  unfold State.checkMessage
  rw [passed]

theorem State.checkMessage_refused {code : AnswerCode} {data : List Word} (refused : s.checked p = .refused code data) :
    s.checkMessage p = s.advance (.decided code data) := by
  unfold State.checkMessage
  rw [refused]

/-- Check 1: a kind code past 2 (R85). -/
theorem State.checked_kind (unknown : 2 < (p.param 2).toNat) :
    s.checked p = .refused .malformed [word p.subscriber, 2] := by
  have none : kindOf (p.param 2) = none := by
    have other (k : Word) (small : k.toNat ≤ 2) : p.param 2 ≠ k := fun e => by rw [e] at unknown; omega
    unfold kindOf
    rw [if_neg (other 0 (by decide)), if_neg (other 1 (by decide)), if_neg (other 2 (by decide))]
  unfold State.checked
  rw [none]
  rfl

/-- Check 2: a length out of its kind's range (R85). -/
theorem State.checked_length {kind : MessageKind} (known : kindOf (p.param 2) = some kind)
    (long : lengthOk kind (p.param 4) = false) : s.checked p = .refused .malformed [word p.subscriber, 4] := by
  unfold State.checked
  rw [known]
  exact if_pos long

/-- The draft check 3 makes of a posting (R86). -/
def Posting.draft (p : Posting) (kind : MessageKind) : Draft :=
  ⟨p.subscriber, kind, decide (p.param 3 ≠ 0), replacedText kind (p.postedText kind), p.param 5,
    replacedCount kind (p.postedText kind)⟩

/-- Checks 4 to 7 (R87). -/
theorem State.checked_refusal {kind : MessageKind} {code : AnswerCode} {value : Word} (known : kindOf (p.param 2) = some kind)
    (length : lengthOk kind (p.param 4) = true) (refusal : s.refusal (p.draft kind) = some (code, value)) :
    s.checked p = .refused code [word p.subscriber, value] := by
  unfold State.checked
  rw [known]
  refine (if_neg (by rw [length]; decide)).trans ?_
  show (match s.refusal (p.draft kind) with
    | some r => Checked.refused r.1 [word p.subscriber, r.2]
    | none => Checked.passed (p.draft kind)) = _
  rw [refusal]

end

/-! ## The rating (R39 to R50, R58) -/

section
variable {s : State} (c : s.Canon) (d : Draft)
include c

/-- A message is rated on the record as rolled (R58, R88). -/
theorem State.rating_rolled : (s.rollIfStale d.subscriber).rating d =
    rate (s.planOf d.subscriber) s.engine.office (s.air.second / 60) (s.rolled d.subscriber).counters.messages d.kind
      d.text.length d.urgent := by
  have bills := State.rollIfStale_bills c d.subscriber
  have engine : (s.rollIfStale d.subscriber).engine = s.engine := (congrArg State.engine bills.frame :)
  have air : (s.rollIfStale d.subscriber).air = s.air := (congrArg State.air bills.frame :)
  rw [State.rating, bills.planOf, bills.billing, engine, air]
  rfl

/-- A message the credit check refuses leaves the roll standing (R47, R58, R88). -/
theorem State.rateMessage_refused
    (refused : creditPasses (s.rolled d.subscriber).balance (s.rolled d.subscriber).creditLimit
      ((s.rollIfStale d.subscriber).rating d).charge = false) :
    s.rateMessage d = (s.rollIfStale d.subscriber).advance (.decided .insufficientCredit
      [word d.subscriber, word ((s.rollIfStale d.subscriber).rating d).charge,
        wordInt (s.rolled d.subscriber).balance]) := by
  have billing := (State.rollIfStale_bills c d.subscriber).billing
  rw [← billing] at refused ⊢
  refine if_neg ?_
  rw [State.affords, refused]
  decide

theorem State.rateMessage_passed
    (passed : creditPasses (s.rolled d.subscriber).balance (s.rolled d.subscriber).creditLimit
      ((s.rollIfStale d.subscriber).rating d).charge = true) :
    s.rateMessage d = ((s.rollIfStale d.subscriber).charged d).advance
      (.charged d ((s.rollIfStale d.subscriber).chargeOf d)) := by
  have billing := (State.rollIfStale_bills c d.subscriber).billing
  rw [← billing] at passed
  exact if_pos passed

end

/-- A change of one billing group, and how far the posting in hand has come. -/
theorem State.Bills.frame_advance {s t : State} {q : Producer} {n : Nat} {b : Billing} {records : List Record}
    (bills : s.Bills t q n b records) (g : Progress) : t.advance g =
      { s with
        account := { s.account with subscribers := t.account.subscribers }
        ex := { (s.handAll q records).ex with progress := g } } := by
  rw [← bills.ex]
  exact bills.frame_ex { t.ex with progress := g }

theorem State.message_rates {s : State} {p : Posting} {d : Draft} (checked : s.ex.progress = .checked d) :
    s.message p = s.rateMessage d := by
  unfold State.message
  rw [checked]

/-- Settles O25: the first check that fails, in order, and the credit check on the record as rolled. -/
theorem messageRefused : Obligations.MessageRefused := by
  unfold Obligations.MessageRefused
  intro s n p h decided
  have order : exec .message s = .next (s.message p) := State.order_inHand h s.message
  refine ⟨fun fresh => ?_, fun d checked => ?_⟩
  · intro m u refused
    have refuses {code : AnswerCode} {data : List Word} (checked : s.checked p = .refused code data) : refused code data := by
      show exec .message s = _
      rw [order, State.message_checks fresh, State.checkMessage_refused checked]
      rfl
    refine ⟨fun unknown => refuses (State.checked_kind unknown), fun kind known => ⟨fun long => refuses ?_, fun length => ?_⟩⟩
    · refine State.checked_length known ?_
      rcases long with ⟨rfl, long⟩ | ⟨rfl, long⟩
      · exact decide_eq_false (Nat.not_le.mpr long)
      · exact decide_eq_false (Nat.not_le.mpr long)
    · have refuse {code : AnswerCode} {value : Word} (refusal : s.refusal (p.draft kind) = some (code, value)) :
          refused code [word m, value] := refuses (State.checked_refusal known length refusal)
      refine ⟨fun vacant => refuse ?_, fun barred => refuse ?_, fun active => ?_⟩
      · refine (if_pos vacant).trans ?_
        rw [show (s.sub (p.draft kind).subscriber).billing.state = .vacant from vacant]
        rfl
      · have served : u.billing.state ≠ .vacant := by rw [barred]; decide
        refine (if_neg served).trans ((if_pos barred).trans ?_)
        rw [show (s.sub (p.draft kind).subscriber).billing.state = .barred from barred]
        rfl
      · have served : u.billing.state ≠ .vacant := by rw [active]; decide
        have unbarred : u.billing.state ≠ .barred := by rw [active]; decide
        refine ⟨fun alpha => refuse ?_, fun allowed => ?_⟩
        · exact (if_neg served).trans ((if_neg unbarred).trans (if_pos alpha))
        · have serves : ¬ (kind = .alpha ∧ (s.classOf m).alphaAllowed = false) := fun mismatch => by
            rw [allowed mismatch.1] at mismatch
            cases mismatch.2
          refine ⟨fun full => refuse ?_, fun few none => refuse ?_⟩
          · exact (if_neg served).trans ((if_neg unbarred).trans ((if_neg serves).trans (if_pos full)))
          · refine (if_neg served).trans ((if_neg unbarred).trans ((if_neg serves).trans
              ((if_neg (Nat.not_le.mpr few)).trans ((if_pos none).trans ?_))))
            rw [none]
            rfl
  · intro m u b stale counters charge above short
    have c := h.tidy.canon
    have bills := State.rollIfStale_bills c m
    have rating : ((s.rollIfStale m).rating d).charge = charge := congrArg Rating.charge (State.rating_rolled c d)
    have refused := State.rateMessage_refused c d (by
      rw [rating]
      refine decide_eq_false fun passes => ?_
      rcases passes with free | covered
      · exact absurd above (by rw [free]; decide)
      · exact absurd covered (Int.not_le.mpr short))
    rw [rating] at refused
    refine ⟨(s.rollIfStale m).advance (.decided .insufficientCredit [word m, word charge, wordInt b.balance]), ?_,
      bills.here, fun k => bills.other, ?_⟩
    · rw [order, State.message_rates checked, refused]
      rfl
    · exact bills.frame_advance _

end Sys2Proof.Machine
end

section
/-! MESSAGE admitted: the charge, the commit, the report and the answer (O24). -/

namespace Sys2Proof.Machine

section
variable {s : State} {p : Posting}

theorem State.message_commits {d : Draft} {c : Charged} (charged : s.ex.progress = .charged d c) :
    s.message p = s.commitMessage d c := by
  unfold State.message
  rw [charged]

theorem State.message_reports {d : Draft} {c : Charged} {e : Entered} (committed : s.ex.progress = .committed d c e) :
    s.message p = s.reportMessage d c e := by
  unfold State.message
  rw [committed]

theorem State.message_answers {code : AnswerCode} {data : List Word} (decided : s.ex.progress = .decided code data) :
    s.message p = s.answer code data := by
  unfold State.message
  rw [decided]

end

/-! ## The charge (R48) -/

section
variable {s t : State} {q : Producer} {b : Billing} {records : List Record} {d : Draft} {r : Rating}

/-- The billing group of a subscriber whose message was charged (R48). -/
def Billing.charged (b : Billing) (plan : RatePlan) (r : Rating) : Billing :=
  let balance := b.balance - r.charge
  { b with
    balance := balance
    lowBalance := if 0 < r.charge then lowBalanceAfter plan b.lowBalance balance else b.lowBalance
    counters := b.counters.countAdmission r.blocks r.charge }

/-- A charge writes one billing group of a state rolled before it, and hands no further record (R48). -/
theorem State.Bills.charged (bills : s.Bills t q d.subscriber b records) (rating : t.rating d = r) :
    s.Bills (t.charged d) q d.subscriber (b.charged (s.account.plans.get b.plan) r) records where
  sub k := by
    rw [State.sub_charged bills.canon, bills.here, bills.planOf, rating]
    split
    · rfl
    · next ne => exact bills.other ne
  canon := State.charged_canon bills.canon d
  ex := by rw [State.charged_ex]; exact bills.ex
  frame := by
    have account := State.charged_account t d
    have same : t.charged d = { t with account := (t.charged d).account } := by
      unfold State.charged
      simp only
      split <;> rfl
    rw [same, account, bills.frame]

/-- What the account unit keeps of a charge made on a state rolled before it (R48, R88). -/
theorem State.Bills.chargeOf (bills : s.Bills t q d.subscriber b records) (rating : t.rating d = r) : t.chargeOf d =
    let low := (b.charged (s.account.plans.get b.plan) r).lowBalance
    let plan := s.account.plans.get b.plan
    { rating := r
      period := b.period
      balance := b.balance - r.charge
      refundable := plan.refundable
      alert := if low = b.lowBalance then none else some ⟨low, plan.warningLevel, plan.recoveryMargin, b.plan⟩ } := by
  unfold State.chargeOf
  simp only [(bills.charged rating).billing, rating, bills.billing, bills.planOf]
  rfl

end

/-! ## The commit (R89) -/

/-- A record enters a frame list exactly where its subscriber is not unreachable (R89, R165). -/
theorem MessageState.entered_waiting (unreachable : Bool) :
    (if unreachable then MessageState.held else .waiting) = .waiting ↔ unreachable = false := by
  cases unreachable <;> decide

/-- The state a commit enters its record in: the open count, the admission sequence and the free count moved (R89, R101). -/
def State.opened (s : State) (n : Nat) : State :=
  let t := s.setStoreGroup n { (s.sub n).store with openCount := (s.sub n).store.openCount + 1 }
  State.notice { t with store.sequence := t.store.sequence + 1, store.freeCount := t.store.freeCount - 1 } .freeRecords

theorem State.opened_sub {s : State} (c : s.Canon) (n k : Nat) : (s.opened n).sub k =
    if k = n then { s.sub n with store := ⟨(s.sub n).store.openCount + 1, (s.sub n).store.tags⟩ } else s.sub k :=
  State.sub_setSub c.subscribers n k _

theorem State.opened_canon {s : State} (c : s.Canon) (n : Nat) : (s.opened n).Canon :=
  ⟨Table.wf_set c.subscribers n _, c.records⟩

/-- A commit enters its record as a move of that record over the counts moved (R89). -/
theorem State.commit_moves {s : State} (c : s.Canon) (d : Draft) (charge : Nat) (refundable : Bool) :
    (s.opened d.subscriber).Moves (s.commit d charge refundable) s.commitIndex
      { s.admitted (s.msg s.commitIndex) d charge refundable with
        state := if (s.sub d.subscriber).reach.unreachable then .held else .waiting }
      s.tracker.deadlines := by
  have reach : ((s.opened d.subscriber).sub d.subscriber).reach = (s.sub d.subscriber).reach := by
    rw [State.opened_sub c, if_pos rfl]
  have entered : s.commit d charge refundable =
      if (s.sub d.subscriber).reach.unreachable then
        (s.opened d.subscriber).makeHeld s.commitIndex (s.admitted (s.msg s.commitIndex) d charge refundable)
      else (s.opened d.subscriber).makeWaiting s.commitIndex (s.admitted (s.msg s.commitIndex) d charge refundable) := by
    rw [← reach]
    rfl
  rw [entered]
  split
  · exact State.makeHeld_moves (State.opened_canon c _) _ _
  · exact State.makeWaiting_moves (State.opened_canon c _) _ _

/-- The report of a message hands its ADMIT and its BALANCE ALERT in turn (R48, R91). -/
theorem State.reportMessage_hands (s : State) (d : Draft) (c : Charged) (e : Entered) : s.reportMessage d c e =
    (s.handAll .intake (recordAdmit d c e :: (c.alertRecord d.subscriber).toList)).advance
      (.decided .accepted [handleWord e.generation e.record, word c.rating.charge, wordInt c.balance, word c.rating.blocks,
        e.state.code, word d.replaced]) := by
  unfold State.reportMessage
  cases c.alertRecord d.subscriber with
  | none => rfl
  | some r => rfl

/-- Settles O24: the five takings of an admitted message. -/
theorem messageAdmitted : Obligations.MessageAdmitted := by
  unfold Obligations.MessageAdmitted
  intro s n p h
  have canon := h.tidy.canon
  have order : exec .message s = .next (s.message p) := State.order_inHand h s.message
  rw [order]
  refine ⟨fun fresh kind known length => ?_, fun d checked => ?_, fun d c i charged state_free => ?_, fun d c e committed => ?_,
    fun code data decided => ?_⟩
  · intro u posted active allowed few some draft
    have passed : s.checked p = .passed draft :=
      State.checked_passed.mpr ⟨kind, known, length, State.refusal_none.mpr ⟨active, allowed, few, some⟩, rfl⟩
    rw [State.message_checks fresh, State.checkMessage_passed passed]
    rfl
  · intro m u b plan stale counters r balance low charge passes
    have rolled := State.rollIfStale_bills canon d.subscriber
    have rating : (s.rollIfStale d.subscriber).rating d = r := State.rating_rolled canon d
    have bills := rolled.charged rating
    have rated := State.rateMessage_passed canon d (by rw [rating]; exact decide_eq_true passes)
    rw [rolled.chargeOf rating] at rated
    have ran : s.message p = ((s.rollIfStale d.subscriber).charged d).advance (.charged d charge) :=
      (State.message_rates checked).trans rated
    generalize (s.rollIfStale d.subscriber).charged d = t at ran bills
    exact ⟨t.advance (.charged d charge), by rw [ran], bills.here, fun k ne => bills.other ne, bills.frame_advance _⟩
  · intro lowest range m u state
    have index : s.commitIndex = i := State.commitIndex_lowest state_free range lowest
    have moves := State.commit_moves canon d c.rating.charge c.refundable
    rw [index] at moves
    have ran := State.message_commits (p := p) charged
    unfold State.commitMessage at ran
    rw [index] at ran
    simp only at ran
    have noticed := State.commit_ex s d c.rating.charge c.refundable
    generalize s.commit d c.rating.charge c.refundable = t at moves ran noticed
    obtain ⟨written, enlisted, tracker, frame⟩ := moves
    have here := written i
    rw [if_pos rfl] at here
    have sub : ∀ k, t.sub k = (s.opened m).sub k := fun k => by rw [frame]; rfl
    have place : ((s.opened m).sub m).billing.slot = u.billing.slot := by rw [State.opened_sub canon, if_pos rfl]
    refine ⟨t.advance (.committed d c ⟨i, (t.msg i).generation, (t.msg i).state⟩), by rw [ran],
      here, fun j ne => (written j).trans (if_neg ne),
      by rw [frame]; rfl, by rw [frame]; rfl, fun f => ?_, by rw [frame]; rfl, by rw [frame]; rfl, ?_, fun k ne => ?_,
      fun k => ?_, ?_⟩
    · refine (enlisted f).trans ?_
      rw [State.admitted, place]
      exact if_congr (and_congr_left fun _ => MessageState.entered_waiting _) rfl rfl
    · exact (sub m).trans ((State.opened_sub canon m m).trans (if_pos rfl))
    · exact (sub k).trans ((State.opened_sub canon m k).trans (if_neg ne))
    · rw [State.advance, noticed]
      exact Exchange.notice_mem
    · have whole : t =
          { s with account.subscribers := t.account.subscribers, store := t.store, ex := t.ex } := by
        rw [frame, tracker]
        rfl
      have ex : t.ex = { s.ex with notices := t.ex.notices } := by rw [noticed]; rfl
      rw [here, State.advance]
      conv_lhs => rw [whole, ex]
      rfl
  · intro r admission alert answer
    have told : (c.alertRecord d.subscriber).toList = alert := by
      unfold Charged.alertRecord
      simp only [alert]
      cases c.alert <;> rfl
    rw [State.message_reports committed, State.reportMessage_hands, told, State.handAll_eq, State.advance]
    rfl
  · rw [State.message_answers decided]
    obtain ⟨t, ran, rest⟩ := h.order_answer (f := fun _ => s.answer code data) rfl
    rw [State.order_inHand h] at ran
    exact ⟨t, ran, rest⟩

end Sys2Proof.Machine
end

section
/-! The record appended at the next position of the report pages, and the page close it brings (O44). -/

namespace Sys2Proof.Machine

/-! ## What an append leaves -/

section
variable (x y : Exchange) (st : Stamp) (page : Index8) (pos : Nat)

/-- The step from `x` to `y` closes this page, which held `pos` records (R174). -/
def Exchange.Shut (cause : Word) : Prop :=
  y.writer.pages.get page = .filled ∧
  Memory.readWords y.mem (0x21000 + page.val * 0x1000 + 4) 6 =
    [word pos, x.writer.sequence, cause, word st.serial, word st.second, word st.day] ∧
  y.writer.sequence = x.writer.sequence + 1 ∧ y.writer.lastIndex = page ∧ y.writer.lastSequence = x.writer.sequence ∧
  y.summary.pageClosed = true ∧ .lastPageIndex ∈ y.notices ∧ .lastPageSequence ∈ y.notices

/-- The step from `x` to `y` leaves this page FILLING with `pos` records (R171, R173). -/
def Exchange.Fills (due : Bool) : Prop :=
  y.writer.pages.get page = .filling ∧ y.writer.count = pos ∧ y.writer.sequence = x.writer.sequence ∧
  y.writer.age = (if x.writer.filling.isSome then x.writer.age else 0) ∧ y.writer.due = due ∧
  y.summary.pageClosed = x.summary.pageClosed ∧
  Memory.readWord y.mem (0x21000 + page.val * 0x1000 + 4) =
    if x.writer.filling.isSome then Memory.readWord x.mem (0x21000 + page.val * 0x1000 + 4) else 0

/-- What a record written at a position of a page leaves of the exchange (R171, R172). -/
structure Exchange.Logs (r : Record) : Prop where
  record : Memory.readWords y.mem (0x21000 + page.val * 0x1000 + pos * 0x40) 16 = r.padded
  pages : ∀ q, q ≠ page → y.writer.pages.get q = x.writer.pages.get q
  next : y.writer.next = if x.writer.filling.isSome then x.writer.next else x.writer.next + 1
  held : y.writer.held = x.writer.held
  waiting : y.writer.waiting = x.writer.waiting
  bytes : ∀ a, (a < 0x21000 + page.val * 0x1000 ∨ 0x21000 + page.val * 0x1000 + 28 ≤ a) →
    (a < 0x21000 + page.val * 0x1000 + pos * 0x40 ∨ 0x21000 + page.val * 0x1000 + pos * 0x40 + 64 ≤ a) →
    Memory.read y.mem a = Memory.read x.mem a
  frame : y = { x with mem := y.mem, writer := y.writer, notices := y.notices, summary := y.summary }

end

/-! ## The page opened (R171) -/

/-- The page the next record goes to (R171). -/
def Writer.page (w : Writer) : Index8 := w.filling.getD w.next

/-- The position the next record goes to (R171). -/
def Writer.position (w : Writer) : Nat := (if w.filling.isSome then w.count else 0) + 1

/-- The exchange with the page the next record goes to opened, where it was not FILLING (R171). -/
structure Exchange.Opens (x y : Exchange) : Prop where
  filling : y.writer.filling = some x.writer.page
  count : y.writer.count + 1 = x.writer.position
  sequence : y.writer.sequence = x.writer.sequence
  age : y.writer.age = if x.writer.filling.isSome then x.writer.age else 0
  due : y.writer.due = (x.writer.filling.isSome && x.writer.due)
  pages : ∀ q, q ≠ x.writer.page → y.writer.pages.get q = x.writer.pages.get q
  next : y.writer.next = if x.writer.filling.isSome then x.writer.next else x.writer.next + 1
  asks : y.writer.held = x.writer.held ∧ y.writer.waiting = x.writer.waiting
  header : Memory.readWord y.mem (pageBase x.writer.page + 4) =
    if x.writer.filling.isSome then Memory.readWord x.mem (pageBase x.writer.page + 4) else 0
  bytes : ∀ a, (a < pageBase x.writer.page ∨ pageBase x.writer.page + 28 ≤ a) → Memory.read y.mem a = Memory.read x.mem a
  frame : y = { x with mem := y.mem, writer := y.writer }

theorem Exchange.ensureOpen_opens {x : Exchange} (law : x.writer.PageLaw) (mem : Memory.wf x.mem = true) : x.Opens x.ensureOpen := by
  have opened := x.ensureOpen_reported.law law
  unfold Exchange.ensureOpen at opened ⊢
  cases f : x.writer.filling with
  | some p =>
    have page : x.writer.page = p := by rw [Writer.page, f]; rfl
    rw [if_pos (by rfl)]
    constructor <;> simp [Writer.position, f, page]
  | none =>
    have page : x.writer.page = x.writer.next := by rw [Writer.page, f]; rfl
    rw [f, if_neg (by decide)] at opened
    rw [if_neg (by decide)]
    constructor
    case filling => rw [page]; exact Writer.filling_eq opened.one x.openPage_filling
    case pages => intro q ne; rw [page] at ne; exact (pages_set _ _ _ _).trans (if_neg ne)
    case header => rw [page, f]; exact Memory.readWord_writeWord_same mem _ _
    case bytes => intro a out; rw [page] at out; exact Memory.read_writeWord_other (by omega) _
    all_goals simp [Writer.position, f, Exchange.openPage]

/-! ## The record written and the page closed (R172 to R174) -/

section
variable {x y : Exchange} {st : Stamp} {r : Record}

/-- A close leaves the run of EMPTY pages (R169). -/
theorem Exchange.closePage_run (x : Exchange) (st : Stamp) (c : CloseCause) : (x.closePage st c).writer.run = x.writer.run := by
  cases f : x.writer.filling with
  | none => rw [Exchange.closePage_eq, f]
  | some p =>
    obtain ⟨pages, -, next⟩ := Exchange.closePage_writer f st c
    unfold Writer.run
    rw [pages, next, emptyRun_set_other (by rw [Writer.filling_spec f]; decide) (by decide)]

theorem Exchange.closeIfDue_run (x : Exchange) (st : Stamp) : (x.closeIfDue st).writer.run = x.writer.run := by
  unfold Exchange.closeIfDue
  split
  · exact x.closePage_run st .age
  · rfl

/-- A record written leaves its page FILLING, before a close. -/
theorem Exchange.Opens.recorded_logs (o : x.Opens y) (mem : Memory.wf y.mem = true) :
    x.Logs (y.recorded r) x.writer.page x.writer.position r := by
  have written : (y.recorded r).mem =
      Memory.writeWords y.mem (pageBase x.writer.page + x.writer.position * 0x40) r.padded := by
    unfold Exchange.recorded
    rw [o.filling, o.count]
    rfl
  refine ⟨?_, o.pages, o.next, o.asks.1, o.asks.2, fun a header record => ?_, ?_⟩
  · have same := Memory.readWords_writeWords_same mem (pageBase x.writer.page + x.writer.position * 0x40) r.padded
    rw [Record.padded_length] at same
    rw [written]
    exact same
  · rw [written, Memory.read_writeWords_other (by rw [Record.padded_length, pageBase_val]; omega)]
    exact o.bytes a header
  · rw [o.frame]
    rfl

theorem Exchange.Opens.recorded_fills (o : x.Opens y) :
    x.Fills (y.recorded r) x.writer.page x.writer.position (x.writer.filling.isSome && x.writer.due) := by
  have position : 0 < x.writer.position := Nat.succ_pos _
  have frame : (y.recorded r).summary = x.summary := (congrArg Exchange.summary o.frame :)
  refine ⟨Writer.filling_spec o.filling, o.count, o.sequence, o.age, o.due, by rw [frame], Eq.trans ?_ o.header⟩
  unfold Exchange.recorded
  rw [o.filling, o.count]
  exact Memory.readWord_writeWords_other (.inl (by unfold recordBase; simp only [Option.getD_some, pageBase_val]; omega))

/-- What a close leaves of the exchange (R174). -/
structure Exchange.Closes (x y : Exchange) (st : Stamp) (page : Index8) (c : CloseCause) : Prop where
  bytes : y.mem = Memory.writeWords x.mem (pageBase page + 4)
    [word x.writer.count, x.writer.sequence, c.code, word st.serial, word st.second, word st.day]
  pages : ∀ q, y.writer.pages.get q = if q = page then .filled else x.writer.pages.get q
  next : y.writer.next = x.writer.next
  asks : y.writer.held = x.writer.held ∧ y.writer.waiting = x.writer.waiting
  marks : y.writer.sequence = x.writer.sequence + 1 ∧ y.writer.lastIndex = page ∧
    y.writer.lastSequence = x.writer.sequence ∧ y.summary.pageClosed = true ∧
    .lastPageIndex ∈ y.notices ∧ .lastPageSequence ∈ y.notices
  frame : y = { x with mem := y.mem, writer := y.writer, notices := y.notices, summary := y.summary }

theorem Exchange.closePage_closes {page : Index8} (found : x.writer.filling = some page) (st : Stamp) (c : CloseCause) :
    x.Closes (x.closePage st c) st page c where
  bytes := by
    rw [Exchange.closePage_eq, found]
    simp only [Exchange.notice, Exchange.pageShut_mem]
  pages q := by rw [(Exchange.closePage_writer found st c).1, pages_set]
  next := (Exchange.closePage_writer found st c).2.2
  asks := x.closePage_asks st c
  marks := by
    rw [Exchange.closePage_eq, found]
    exact ⟨rfl, rfl, rfl, rfl, Exchange.notice_mem.mpr (.inl (Exchange.notice_mem.mpr (.inr rfl))),
      Exchange.notice_mem.mpr (.inr rfl)⟩
  frame := by
    rw [Exchange.closePage_eq, found]
    simp only [Exchange.notice, Exchange.pageShut]

/-- The header of a page closed reads as R174 tables it. -/
theorem Exchange.Closes.header {page : Index8} {c : CloseCause} (closes : x.Closes y st page c)
    (mem : Memory.wf x.mem = true) : Memory.readWords y.mem (0x21000 + page.val * 0x1000 + 4) 6 =
      [word x.writer.count, x.writer.sequence, c.code, word st.serial, word st.second, word st.day] := by
  rw [closes.bytes]
  exact Memory.readWords_writeWords_same mem (pageBase page + 4) [_, _, _, _, _, _]

/-- A record's page closed. -/
theorem Exchange.Fills.shut {due : Bool} {page : Index8} {pos : Nat} (logs : x.Logs y page pos r)
    (fills : x.Fills y page pos due) (found : y.writer.filling = some page) (mem : Memory.wf y.mem = true) (past : 0 < pos)
    (c : CloseCause) :
    x.Logs (y.closePage st c) page pos r ∧ x.Shut (y.closePage st c) st page pos c.code := by
  obtain ⟨filling, count, sequence, age, isDue, closed, header⟩ := fills
  have closes := Exchange.closePage_closes found st c
  generalize y.closePage st c = z at closes
  have header := closes.header mem
  have marks := closes.marks
  rw [count, sequence] at header
  rw [sequence] at marks
  constructor
  · refine ⟨?_, fun q ne => (closes.pages q).trans ((if_neg ne).trans (logs.pages q ne)), closes.next.trans logs.next,
      closes.asks.1.trans logs.held, closes.asks.2.trans logs.waiting, fun a outside record => ?_, ?_⟩
    · rw [closes.bytes, Memory.readWords_writeWords_other (.inr ?_)]
      · exact logs.record
      · simp only [List.length_cons, List.length_nil, pageBase_val]
        omega
    · rw [closes.bytes, Memory.read_writeWords_other ?_]
      · exact logs.bytes a outside record
      · simp only [List.length_cons, List.length_nil, pageBase_val]
        omega
    · rw [closes.frame, logs.frame]
  · exact ⟨(closes.pages page).trans (if_pos rfl), header, marks⟩

/-- The record appended at the page and position due to it, with the close it brings (R171 to R174). -/
structure Exchange.Appends (x y : Exchange) (st : Stamp) (r : Record) : Prop where
  logs : x.Logs y x.writer.page x.writer.position r
  full : x.writer.position = 63 → x.Shut y st x.writer.page x.writer.position 0
  aged : x.writer.position < 63 → (x.writer.filling.isSome && x.writer.due) = true →
    x.writer.reserved ≤ 63 * y.writer.run → x.Shut y st x.writer.page x.writer.position 1
  fills : x.writer.position < 63 →
    ((x.writer.filling.isSome && x.writer.due) = false ∨ 63 * y.writer.run < x.writer.reserved) →
    x.Fills y x.writer.page x.writer.position (x.writer.filling.isSome && x.writer.due)

theorem Exchange.append_appends (law : x.writer.PageLaw) (mem : Memory.wf x.mem = true) (st : Stamp) (r : Record) :
    x.Appends ((x.append st r).closeIfDue st) st r := by
  have opens := Exchange.ensureOpen_opens law mem
  have openMem := x.ensureOpen_reported.wf mem
  have small : x.ensureOpen.writer.count < 63 := (x.ensureOpen_reported.law law).count
  rw [Exchange.append_eq]
  generalize x.ensureOpen = y at opens openMem small
  have logs := opens.recorded_logs (r := r) openMem
  have fills := opens.recorded_fills (r := r)
  have recordedMem : Memory.wf (y.recorded r).mem = true := Memory.wf_writeWords openMem _ _
  have found : (y.recorded r).writer.filling = some x.writer.page := opens.filling
  generalize y.recorded r = z at logs fills recordedMem found
  have past : 0 < x.writer.position := Nat.succ_pos _
  have counted : z.writer.count = x.writer.position := fills.2.1
  have due : z.writer.due = (x.writer.filling.isSome && x.writer.due) := fills.2.2.2.2.1
  have reserved : z.writer.reserved = x.writer.reserved := Writer.reserved_congr logs.held
  rw [counted]
  by_cases full : x.writer.position = Config.pageRecords
  · rw [if_pos full]
    obtain ⟨shutLogs, shut⟩ := fills.shut (st := st) logs found recordedMem past .count
    have idle : (z.closePage st .count).closeIfDue st = z.closePage st .count := by
      refine if_neg fun h => ?_
      rw [Exchange.closePage_eq, found] at h
      exact absurd h.1 Bool.false_ne_true
    rw [idle]
    exact ⟨shutLogs, fun _ => shut, fun less => absurd full (Nat.ne_of_lt less), fun less => absurd full (Nat.ne_of_lt less)⟩
  · rw [if_neg full]
    have run := z.closeIfDue_run st
    by_cases close : z.writer.due = true ∧ z.writer.reserved ≤ Config.pageRecords * z.writer.run
    · obtain ⟨shutLogs, shut⟩ := fills.shut (st := st) logs found recordedMem past .age
      have closes : z.closeIfDue st = z.closePage st .age := if_pos close
      rw [due, reserved] at close
      rw [closes] at run ⊢
      refine ⟨shutLogs, fun h => absurd h full, fun _ _ _ => shut, fun _ stays => ?_⟩
      rw [run] at stays
      rcases stays with stays | stays
      · rw [close.1] at stays
        cases stays
      · exact absurd close.2 (Nat.not_le.mpr stays)
    · have stays : z.closeIfDue st = z := if_neg close
      rw [due, reserved] at close
      rw [stays]
      exact ⟨logs, fun h => absurd h full, fun _ isDue covers => absurd ⟨isDue, covers⟩ close, fun _ _ => fills⟩

end

/-! ## HAND and LINK STATUS -/

/-- A record of at most sixteen words is written followed by zeros (R187). -/
theorem Record.padded_eq {r : Record} (short : r.length ≤ 16) : r.padded = r ++ List.replicate (16 - r.length) 0 := by
  unfold Record.padded
  rw [List.take_append, List.take_of_length_le short, List.take_replicate]
  congr 2
  omega

theorem Writer.PageLaw.use {w : Writer} (law : w.PageLaw) (p : Producer) : (w.use p).PageLaw :=
  ⟨law.one, law.count, fun q m => (w.holds_use p q).trans (law.requests q m)⟩

/-- A position used leaves the other producers' reservations (R171). -/
theorem Writer.mem_held_use {w : Writer} {p q : Producer} {k : Nat} (ne : q ≠ p) : (q, k) ∈ (w.use p).held ↔ (q, k) ∈ w.held := by
  unfold Writer.use
  simp only [List.mem_map]
  constructor
  · rintro ⟨h, mem, is⟩
    split at is
    · next own => exact absurd ((congrArg Prod.fst is).symm.trans own) ne
    · rw [← is]
      exact mem
  · exact fun mem => ⟨(q, k), mem, if_neg ne⟩

/-- Settles O44: the record handed and the LINK STATUS record offered are appended as `Exchange.Appends` says. -/
theorem handAppendsRecord : Obligations.HandAppendsRecord := by
  unfold Obligations.HandAppendsRecord
  refine ⟨fun s p r tidy law short => ?_, fun s l tidy law => ?_⟩
  · intro w page pos due t v closed filling _
    have appends := Exchange.append_appends (x := { s.ex with writer := w.use p }) (law.use p) tidy.mem s.stamp r
    have handed : t.ex = (({ s.ex with writer := w.use p } : Exchange).append s.stamp r).closeIfDue s.stamp := rfl
    rw [← handed] at appends
    have whole : t = { s with ex := t.ex } := rfl
    have frame := appends.logs.frame
    have reserved : v.reserved = (w.use p).reserved := Writer.reserved_congr appends.logs.held
    have held : v.held = (w.use p).held := appends.logs.held
    clear_value t
    refine ⟨appends.logs.record.trans (Record.padded_eq short), appends.full, fun less isDue covers => ?_, fun less stays => ?_,
      appends.logs.pages, appends.logs.next, fun q k ne => ?_, fun k mem => ?_, appends.logs.waiting, appends.logs.bytes,
      ?_⟩
    · exact appends.aged less isDue (reserved ▸ covers)
    · exact appends.fills less (reserved ▸ stays)
    · rw [held]
      exact Writer.mem_held_use ne
    · rw [held]
      exact List.mem_map.mpr ⟨(p, k), mem, if_pos rfl⟩
    · exact ⟨(congrArg Exchange.slots frame :), (congrArg Exchange.queue frame :), (congrArg Exchange.answered frame :),
        (congrArg Exchange.fence frame :), (congrArg Exchange.buffer frame :), (congrArg Exchange.enable frame :),
        (congrArg Exchange.intake frame :), (congrArg Exchange.bus frame :), (congrArg Exchange.read frame :),
        (congrArg Exchange.progress frame :), whole⟩
  · intro w c page pos due t v closed
    by_cases room : 0 < w.unreserved
    · have offered : t = State.setLink
          { s with ex := (s.ex.append s.stamp (recordLinkStatus l c s.air.serial)).closeIfDue s.stamp } l
          { c with clearCount := 0, alarmCount := 0, silentCount := 0, blankedCount := 0, dropped := 0 } := if_pos room
      have links : ∀ k, t.link k =
          if k = l then { c with clearCount := 0, alarmCount := 0, silentCount := 0, blankedCount := 0, dropped := 0 }
          else s.link k := fun k => by rw [offered]; exact State.link_setLink _ l k _
      have whole : t = { s with links := t.links, ex := t.ex } := by rw [offered]; rfl
      have appends := Exchange.append_appends law tidy.mem s.stamp (recordLinkStatus l c s.air.serial)
      have appended : t.ex = (s.ex.append s.stamp (recordLinkStatus l c s.air.serial)).closeIfDue s.stamp := by
        rw [offered]
        rfl
      rw [← appended] at appends
      clear_value t
      exact ⟨fun k ne => (links k).trans (if_neg ne), whole, fun none => absurd room (by rw [none]; decide), fun _ =>
        ⟨(links l).trans (if_pos rfl), appends.logs.record, appends.full, appends.aged, fun less stays =>
          let ⟨filling, count, sequence, age, isDue, bit, _⟩ := appends.fills less stays
          ⟨filling, count, sequence, age, isDue, bit⟩, appends.logs.pages, appends.logs.next, appends.logs.held,
          appends.logs.waiting, appends.logs.bytes⟩⟩
    · have dropped : t = s.setLink l { c with dropped := saturate 255 c.dropped 1 } := if_neg room
      have links : ∀ k, t.link k = if k = l then { c with dropped := saturate 255 c.dropped 1 } else s.link k := fun k => by
        rw [dropped]; exact State.link_setLink _ l k _
      have whole : t = { s with links := t.links, ex := t.ex } := by rw [dropped]; rfl
      have kept : t.ex = s.ex := by rw [dropped]; rfl
      clear_value t
      exact ⟨fun k ne => (links k).trans (if_neg ne), whole, fun _ => ⟨(links l).trans (if_pos rfl), kept⟩,
        fun some => absurd some room⟩

end Sys2Proof.Machine
end

section
/-! Pages closed by age and the pending reports appended (O46, O47). -/

namespace Sys2Proof.Machine

/-! ## Pending reports (R11, R125, R143) -/

/-- A unit that handed these records ends. -/
theorem State.UnitEnded.of_handed {s u : State} {p : Producer} {records : List Record}
    (ex : u.ex = (s.handAll p records).ex) : s.UnitEnded (u.endUnit p) p records := by
  have back : ({ u.endUnit p with ex := (s.handAll p records).ex } : State) = u := by
    rw [State.endUnit_eq]
    exact congrArg (fun x => { u with ex := x }) ex.symm
  rw [State.UnitEnded, back]

/-- The lowest-numbered link that satisfies a test is the first found. -/
theorem find_link {p : Index8 → Bool} {l : Index8} (holds : p l = true) (lowest : ∀ k, k < l → p k = false) :
    (List.finRange 8).find? p = some l :=
  find_of_lowest (f := Fin.val) (List.pairwise_lt_finRange 8) (List.mem_finRange l) holds fun k is =>
    Nat.le_of_not_lt fun lt => Bool.false_ne_true ((lowest k lt).symm.trans is)

theorem Link.reporting_false {c : Link} : c.reporting = false ↔ c.trip = none ∧ c.recovery = none := by
  unfold Link.reporting
  rw [Bool.or_eq_false_iff, Option.isSome_eq_false_iff, Option.isSome_eq_false_iff, Option.isNone_iff_eq_none,
    Option.isNone_iff_eq_none]

/-- A link report appended, whichever it is, leaves the other links and every block but the exchange (R143). -/
theorem State.linkReport_appended {s : State} {l : Index8} {d : Link} {record : Record} (found : s.reportingLink = some l)
    (holds : s.ex.writer.holds .linkUnit = true) (append : s.appendLinkReport l = (s.hand .linkUnit record).setLink l d) :
    ∃ t, exec .linkReportAppend s = .next t ∧ t.link l = d ∧ (∀ k, k ≠ l → t.link k = s.link k) ∧
      s.UnitEnded t .linkUnit [record] ∧ t = { s with links := t.links, ex := t.ex } := by
  have link : ∀ k, (((s.hand .linkUnit record).setLink l d).endUnit .linkUnit).link k = if k = l then d else s.link k := by
    intro k
    rw [State.endUnit_eq]
    exact State.link_setLink _ l k d
  have runs : exec .linkReportAppend s = .next (((s.hand .linkUnit record).setLink l d).endUnit .linkUnit) := by
    show execLinkReportAppend s = _
    unfold execLinkReportAppend
    rw [found, ← append]
    exact if_pos holds
  exact ⟨_, runs, (link l).trans (if_pos rfl), fun k ne => (link k).trans (if_neg ne), .of_handed rfl,
    by rw [State.endUnit_eq]; rfl⟩

/-- Settles O47: each producer appends its pending report and clears it. -/
theorem pendingReportsAppended : Obligations.PendingReportsAppended := by
  unfold Obligations.PendingReportsAppended
  intro s
  refine ⟨fun r pending holds => ?_, fun r pending holds => ?_, fun l holds lowest => ?_⟩
  · have runs : exec .referenceRecordAppend s = .next
        (State.endUnit { s.hand .monitor (recordReference r s.air.monitor.state) with air.monitor.report := none } .monitor) := by
      show execReferenceRecordAppend s = _
      unfold execReferenceRecordAppend
      rw [pending]
      exact if_pos holds
    exact ⟨_, runs, by rw [State.endUnit_eq]; rfl, .of_handed rfl, by rw [State.endUnit_eq]; rfl⟩
  · have runs : exec .lateBuildAppend s = .next
        (State.endUnit { s.hand .builder (recordLateBuild r) with builder.late := none } .builder) := by
      show execLateBuildAppend s = _
      unfold execLateBuildAppend
      rw [pending]
      exact if_pos holds
    exact ⟨_, runs, by rw [State.endUnit_eq]; rfl, .of_handed rfl, by rw [State.endUnit_eq]; rfl⟩
  · intro c appended
    have found : (s.link l).reporting = true → s.reportingLink = some l := fun here =>
      find_link here fun k lt => Link.reporting_false.mpr (lowest k lt)
    constructor
    · intro r trip first
      have tripFirst : c.tripFirst = true := by
        unfold Link.tripFirst
        rw [trip]
        cases recovery : c.recovery with
        | none => rfl
        | some v => exact decide_eq_true (first v recovery)
      refine State.linkReport_appended (found (by unfold Link.reporting; rw [trip]; rfl)) holds ?_
      unfold State.appendLinkReport
      rw [if_pos tripFirst, trip]
      rfl
    · intro v recovery first
      have recoveryFirst : ¬ c.tripFirst = true := by
        unfold Link.tripFirst
        rw [recovery]
        cases trip : c.trip with
        | none => exact Bool.false_ne_true
        | some r => exact fun h => Nat.not_le.mpr (first r trip) (of_decide_eq_true h)
      refine State.linkReport_appended
        (found (by unfold Link.reporting; rw [recovery]; exact Bool.or_true _)) holds ?_
      unfold State.appendLinkReport
      rw [if_neg recoveryFirst, recovery]
      rfl

end Sys2Proof.Machine
end

section
/-! The reference monitor's judgements of pulses and expiries (O48). -/

namespace Sys2Proof.Machine

/-! ## The monitor changed (R11, R178) -/

/-- The command `c` gives the monitor this value, with the report and the bits the change asks for (R11, R178). -/
def State.Judged (s : State) (c : Instr) (v : Monitor) : Prop :=
  let m := s.air.monitor
  let leave := decide (m.state = .lost ∧ v.state = .locked)
  let run := decide (s.engine.state = .starting ∧ v.state = .locked)
  ∃ t, exec c s = .next t ∧
    t.air = { s.air with monitor :=
      if leave then { v with report := some (match m.report with
        | none => ⟨false, s.air.serial, s.air.second, s.air.day, 0⟩
        | some r => { r with later := min 255 (r.later + 1) }) }
      else v } ∧
    t.engine = (if run then { s.engine with state := .running } else s.engine) ∧
    t.ex.summary = { s.ex.summary with
      reference := s.ex.summary.reference || leave, engine := s.ex.summary.engine || run } ∧
    (t.air.monitor.report.isSome = true →
      t.ex.writer.holds .monitor = true ∨ .monitor ∈ t.ex.writer.waiting) ∧
    t.ex.mem = s.ex.mem ∧ t.ex.slots = s.ex.slots ∧ t.ex.queue = s.ex.queue ∧ t.ex.writer.pages = s.ex.writer.pages ∧
    t = { s with air := t.air, engine := t.engine, ex := t.ex }

/-- A judgement carries the pending report and enters LOST from nowhere (R9, R11). -/
def Monitor.Carries (m v : Monitor) : Prop := v.report = m.report ∧ (v.state = .lost → m.state = .lost)

theorem Monitor.Carries.trans {m v w : Monitor} (h : m.Carries v) (k : v.Carries w) : m.Carries w :=
  ⟨k.1.trans h.1, fun lost => h.2 (k.2 lost)⟩

section
variable {m : Monitor}

theorem Monitor.missed_carries (m : Monitor) (b : Bool) : m.Carries (m.missed b) := by
  unfold Monitor.missed
  split
  case h_3 => exact ⟨rfl, nofun⟩
  all_goals exact ⟨rfl, id⟩

theorem Monitor.raiseGood_carries (m : Monitor) : m.Carries m.raiseGood := by
  unfold Monitor.raiseGood
  split
  · exact ⟨rfl, nofun⟩
  · exact ⟨rfl, id⟩

theorem Monitor.goodPulse_carries (m : Monitor) : m.Carries m.goodPulse := by
  unfold Monitor.goodPulse
  split
  case h_1 | h_3 => exact ⟨rfl, id⟩
  all_goals exact m.raiseGood_carries

theorem Monitor.startingPulse_carries (m : Monitor) : m.Carries m.startingPulse := by
  unfold Monitor.startingPulse
  split
  case h_1 => exact ⟨rfl, nofun⟩
  all_goals exact ⟨rfl, id⟩

theorem Monitor.judgePulse_carries (m : Monitor) (time next : Nat) : m.Carries (m.judgePulse time next) := by
  unfold Monitor.judgePulse
  split
  · exact m.startingPulse_carries
  · split_ifs
    · exact m.missed_carries _
    · exact m.goodPulse_carries
    · exact (m.missed_carries _).trans (Monitor.startingPulse_carries _)

theorem Monitor.pulse_carries (m : Monitor) (time next : Nat) : m.Carries (m.pulse time next) :=
  m.judgePulse_carries time next

theorem Monitor.expire_carries (m : Monitor) (next : Nat) : m.Carries (m.expire next) := by
  unfold Monitor.expire
  split
  · exact m.missed_carries _
  · exact ⟨rfl, id⟩

end

/-- A change that carries the pending report and does not enter LOST is reported where it leaves LOST alone (R11). -/
theorem reportedTransition_of_carries {m v : Monitor} (carries : m.Carries v) :
    reportedTransition m.state v.state = decide (m.state = .lost ∧ v.state = .locked) := by
  refine decide_eq_decide.mpr (or_iff_right fun h => ?_)
  have lost := carries.2 h.2
  rw [h.1] at lost
  cases lost

/-- Asking for a producer's pending work leaves memory, summary, slots, queue and pages (R170). -/
theorem State.ask_keeps (s : State) (p : Producer) :
    ((s.ask p).ex.mem = s.ex.mem ∧ (s.ask p).ex.summary = s.ex.summary ∧ (s.ask p).ex.slots = s.ex.slots ∧
      (s.ask p).ex.queue = s.ex.queue) ∧ (s.ask p).ex.writer.pages = s.ex.writer.pages ∧
      s.ask p = { s with ex := (s.ask p).ex } := by
  unfold State.ask
  split
  · exact ⟨s.ex.request_keeps p, (s.ex.request_pages p).1, rfl⟩
  · exact ⟨⟨rfl, rfl, rfl, rfl⟩, rfl, rfl⟩

/-- A producer with work waits or holds once it has asked (R170). -/
theorem State.ask_asks {s : State} {p : Producer} (work : s.hasWork p = true) : (s.ask p).ex.writer.Asks p := by
  rw [State.ask_of_work work]
  exact s.ex.request_asks p

theorem State.Judged.of_carries {s : State} {c : Instr} {v : Monitor}
    (runs : exec c s = .next ((s.setMonitor v).ask .monitor)) (carries : s.air.monitor.Carries v) : s.Judged c v := by
  obtain ⟨⟨mem, summary, slots, queue⟩, pages, frame⟩ := (s.setMonitor v).ask_keeps .monitor
  have asks := @State.ask_asks (s.setMonitor v) .monitor
  have edge := reportedTransition_of_carries carries
  have air : ((s.setMonitor v).ask .monitor).air = (s.setMonitor v).air := by rw [frame]
  have engine : ((s.setMonitor v).ask .monitor).engine = (s.setMonitor v).engine := by rw [frame]
  refine ⟨_, runs, ?_, ?_, ?_, fun pending => ?_, mem, slots, queue, pages, ?_⟩
  · rw [air]
    unfold State.setMonitor
    simp only [edge]
    split
    · next leave =>
      have locked := (of_decide_eq_true leave).2
      rw [carries.1, locked]
      unfold referenceReportAfter
      cases s.air.monitor.report <;> rfl
    · rfl
  · rw [engine]
    unfold State.setMonitor
    simp only
    split <;> rfl
  · rw [summary]
    unfold State.setMonitor
    simp only [edge]
  · rw [air] at pending
    exact asks pending
  · rw [frame]
    rfl

/-! ## Pulses and expiries (R7 to R9) -/

/-- Settles O48: each judgement is a value of the monitor, and `State.Judged` says what giving it does. -/
theorem pulsesAndExpiryJudged : Obligations.PulsesAndExpiryJudged := by
  unfold Obligations.PulsesAndExpiryJudged
  intro s time m boundary missed good starting judged
  have missedEq (m : Monitor) (at_ : Nat) : m.missed (decide (at_ = s.nextBoundary)) = missed m at_ := by
    simp only [missed]
    unfold Monitor.missed
    cases m.state <;> rfl
  have raiseEq (m : Monitor) : m.raiseGood =
      if m.good < 3 then { m with good := m.good + 1 }
      else { m with state := .locked, good := 0, holdover := 0, uncounted := false } := by
    unfold Monitor.raiseGood
    by_cases few : m.good < 3
    · rw [if_pos few, if_neg (by omega)]
    · rw [if_neg few, if_pos (by omega)]
  have goodEq (m : Monitor) : m.goodPulse = good m := by
    obtain ⟨state, window, run, holdover, report, uncounted⟩ := m
    cases state
    case absent | locked => rfl
    all_goals exact raiseEq _
  have startingEq (m : Monitor) : m.startingPulse = starting m := by
    simp only [starting]
    unfold Monitor.startingPulse
    cases m.state <;> rfl
  have pulses {v : Monitor} (is : m.judgePulse time s.nextBoundary = v) :
      judged (.referencePulse time) { v with window := some time } := by
    rw [← is]
    exact State.Judged.of_carries rfl (m.pulse_carries time s.nextBoundary)
  have expires {v : Monitor} (is : m.expire s.nextBoundary = v) : judged .windowExpiry v := by
    rw [← is]
    exact State.Judged.of_carries rfl (m.expire_carries s.nextBoundary)
  refine ⟨fun closed => pulses ?_, fun o opened => ⟨fun early => pulses ?_, fun late inside => pulses ?_,
    fun past => pulses ?_, expires ?_⟩, fun closed => expires ?_⟩
  · unfold Monitor.judgePulse
    rw [closed]
    exact startingEq m
  · unfold Monitor.judgePulse
    rw [opened]
    exact (if_pos early).trans (missedEq m time)
  · unfold Monitor.judgePulse
    rw [opened]
    exact (if_neg (Nat.not_lt.mpr late)).trans ((if_pos inside).trans (goodEq m))
  · unfold Monitor.judgePulse
    rw [opened]
    refine (if_neg (show ¬ time - o < 900000 by omega)).trans ((if_neg (Nat.not_le.mpr past)).trans ?_)
    rw [startingEq]
    exact congrArg starting (missedEq m _)
  · unfold Monitor.expire
    rw [opened]
    exact congrArg (fun v : Monitor => { v with window := none }) (missedEq m _)
  · unfold Monitor.expire
    rw [closed]

end Sys2Proof.Machine
end

section
/-! A second boundary: the air timing unit's steps, and what reaches the report writer (O46, O49). -/

namespace Sys2Proof.Machine

/-! ## The holdover count (R10) -/

/-- Whether the next count of HOLDOVER passes the limit (R10). -/
def Monitor.passes (m : Monitor) (limit : Nat) : Bool :=
  decide (m.state = .holdover ∧ m.uncounted = false ∧ 2 * limit < m.holdover + 1)

/-- The monitor with HOLDOVER's boundary counted (R10). -/
def Monitor.counted (m : Monitor) : Monitor :=
  if m.state ≠ .holdover then m
  else if m.uncounted then { m with uncounted := false }
  else { m with holdover := m.holdover + 1 }

section
variable (m : Monitor) (limit : Nat)

theorem Monitor.countHoldover_eq : m.countHoldover limit =
    if m.passes limit then { m.counted with state := .lost } else m.counted := by
  unfold Monitor.countHoldover Monitor.passes Monitor.counted
  by_cases holdover : m.state = .holdover
  · cases uncounted : m.uncounted with
    | true => simp [holdover]
    | false =>
      by_cases past : 2 * limit < m.holdover + 1
      · simp [holdover, past]
      · simp [holdover, past]
  · simp [holdover]

theorem Monitor.counted_state : m.counted.state = m.state := by
  unfold Monitor.counted
  split_ifs <;> rfl

theorem Monitor.counted_report : m.counted.report = m.report := by
  unfold Monitor.counted
  split_ifs <;> rfl

theorem reportedTransition_countHoldover :
    reportedTransition m.state (m.countHoldover limit).state = m.passes limit := by
  rw [m.countHoldover_eq]
  cases passes : m.passes limit with
  | true =>
    have holdover := (of_decide_eq_true passes).1
    rw [if_pos rfl, holdover]
    rfl
  | false =>
    rw [if_neg Bool.false_ne_true, m.counted_state]
    cases m.state <;> rfl

end

/-! ## The air timing unit's steps (R1, R2, R10, R11) -/

/-- The office clock one second on (R2). -/
theorem clockAfter_eq (second day : Nat) : clockAfter second day =
    (if second < 86399 then second + 1 else 0, if second < 86399 then day else if day < 65535 then day + 1 else 0) := by
  unfold clockAfter
  by_cases last : second < 86399
  · rw [if_pos (Nat.succ_le_of_lt last), if_pos last, if_pos last]
  · rw [if_neg (show ¬ second + 1 ≤ 86399 from last), if_neg last, if_neg last]
    rfl

/-- The second of day and the day number after a boundary (R2). -/
def State.nextClock (s : State) : Nat × Nat :=
  (if s.air.second < 86399 then s.air.second + 1 else 0,
    if s.air.second < 86399 then s.air.day else if s.air.day < 65535 then s.air.day + 1 else 0)

/-- The air timing unit after a boundary at which the serial becomes this one (R1, R2, R10, R11). -/
def State.airAfter (s : State) (serial : Nat) : Air :=
  { s.air with
    seconds := s.air.seconds + 1
    serial := serial
    firstNext := !s.air.firstNext
    second := s.nextClock.1
    day := s.nextClock.2
    monitor :=
      if s.air.monitor.passes s.engine.office.holdoverLimit then { s.air.monitor.counted with
        state := .lost
        report := some (match s.air.monitor.report with
          | none => ⟨true, serial, s.nextClock.1, s.nextClock.2, 0⟩
          | some r => { r with later := min 255 (r.later + 1) }) }
      else s.air.monitor.counted }

section
variable (s : State) (mark : Bool)

theorem State.tick_air : (s.tick mark).air =
    { s.air with
      seconds := s.air.seconds + 1
      serial := if mark then s.nextSerial else s.air.serial
      firstNext := !s.air.firstNext
      second := s.nextClock.1
      day := s.nextClock.2 } := by
  unfold State.tick State.nextClock
  rw [clockAfter_eq]
  cases mark <;> rfl

theorem State.tick_summary : (s.tick mark).ex.summary = s.ex.summary := by
  unfold State.tick
  cases mark <;> rfl

theorem State.tick_notices : .officeClock ∈ (s.tick mark).ex.notices ∧
    (mark = true → .frameSerial ∈ (s.tick mark).ex.notices) := by
  unfold State.tick
  cases mark with
  | true => exact ⟨Exchange.notice_mem.mpr (.inr rfl), fun _ => Exchange.notice_mem.mpr (.inl (Exchange.notice_mem.mpr (.inr rfl)))⟩
  | false => exact ⟨Exchange.notice_mem.mpr (.inr rfl), nofun⟩

/-- A boundary leaves the air timing unit one second on (R1). -/
theorem State.airSteps_air : (s.airSteps mark).air = s.airAfter (if mark then s.nextSerial else s.air.serial) := by
  have edge := reportedTransition_countHoldover s.air.monitor s.engine.office.holdoverLimit
  unfold State.airSteps State.setMonitor State.airAfter
  simp only [State.tick_air, State.tick_engine, edge]
  rw [Monitor.countHoldover_eq]
  cases passes : s.air.monitor.passes s.engine.office.holdoverLimit with
  | true =>
    simp only [if_true, Monitor.counted_report]
    unfold referenceReportAfter
    cases s.air.monitor.report <;> rfl
  | false => rfl

theorem State.airSteps_summary (still : s.engine.state = .starting → s.air.monitor.state ≠ .locked) :
    (s.airSteps mark).ex.summary = { s.ex.summary with
      reference := s.ex.summary.reference || s.air.monitor.passes s.engine.office.holdoverLimit } ∧
    (s.airSteps mark).engine = s.engine := by
  have edge := reportedTransition_countHoldover s.air.monitor s.engine.office.holdoverLimit
  have idle : decide (s.engine.state = .starting ∧
      (s.air.monitor.countHoldover s.engine.office.holdoverLimit).state = .locked) = false := by
    refine decide_eq_false fun h => ?_
    have locked := h.2
    rw [Monitor.countHoldover_eq] at locked
    split at locked
    · cases locked
    · exact still h.1 ((Monitor.counted_state _).symm.trans locked)
  unfold State.airSteps State.setMonitor
  simp only [State.tick_air, State.tick_engine, State.tick_summary, edge, idle, Bool.or_false, if_neg Bool.false_ne_true]
  exact ⟨trivial, trivial⟩

theorem State.airSteps_notices : .officeClock ∈ (s.airSteps mark).ex.notices ∧
    (mark = true → .frameSerial ∈ (s.airSteps mark).ex.notices) := s.tick_notices mark

end

/-! ## What reaches the report writer (R143, R144, R170, R173) -/

/-- A link whose LINK STATUS was offered once: its counts returned to 0, or its dropped count raised (R144). -/
def Link.Offered (c d : Link) : Prop :=
  d = { c with clearCount := 0, alarmCount := 0, silentCount := 0, blankedCount := 0, dropped := 0 } ∨
    d = { c with dropped := min 255 (c.dropped + 1) }

/-- The work of a boundary at the report writer, with these links offering LINK STATUS. -/
structure State.Reports (s t : State) (offers : List Index8) : Prop where
  reported : s.ex.Reported t.ex
  offered : ∀ l, l ∈ offers → (s.link l).Offered (t.link l)
  other : ∀ l, l ∉ offers → t.link l = s.link l
  frame : t = { s with links := t.links, ex := t.ex }

theorem State.takeItem_link {s : State} {i : ReportItem} {l : Index8} (ne : i ≠ .offer l) : (s.takeItem i).link l = s.link l := by
  cases i with
  | age => rfl
  | ask p =>
    show (s.ask p).link l = _
    rw [(s.ask_keeps p).2.2]
    rfl
  | offer k =>
    have ne : l ≠ k := fun same => ne (by rw [same])
    show (s.offerStatus k).link l = _
    unfold State.offerStatus
    simp only
    split
    · exact (State.link_setLink _ k l _).trans (if_neg ne)
    · exact (State.link_setLink _ k l _).trans (if_neg ne)

theorem State.offerStatus_offered (s : State) (l : Index8) : (s.link l).Offered ((s.offerStatus l).link l) := by
  unfold State.offerStatus
  simp only
  split
  · exact .inl ((State.link_setLink _ l l _).trans (if_pos rfl))
  · exact .inr ((State.link_setLink _ l l _).trans (if_pos rfl))

theorem State.takeItem_frame_links (s : State) (i : ReportItem) :
    s.takeItem i = { s with links := (s.takeItem i).links, ex := (s.takeItem i).ex } := by
  cases i with
  | age => rfl
  | ask p =>
    show s.ask p = { s with links := (s.ask p).links, ex := (s.ask p).ex }
    rw [(s.ask_keeps p).2.2]
  | offer l =>
    show s.offerStatus l = { s with links := (s.offerStatus l).links, ex := (s.offerStatus l).ex }
    unfold State.offerStatus
    simp only
    split <;> rfl

/-- What the pieces of work of a list leave, each taken once. -/
theorem State.foldl_takeItem {items : List ReportItem} (once : items.Nodup) (s : State) :
    let t := items.foldl State.takeItem s
    s.ex.Reported t.ex ∧ (∀ l, .offer l ∈ items → (s.link l).Offered (t.link l)) ∧
      (∀ l, .offer l ∉ items → t.link l = s.link l) ∧ t = { s with links := t.links, ex := t.ex } := by
  induction items generalizing s with
  | nil => exact ⟨.refl _, nofun, fun _ _ => rfl, rfl⟩
  | cons i rest ih =>
    obtain ⟨fresh, once⟩ := List.nodup_cons.mp once
    obtain ⟨reported, offered, other, frame⟩ := ih once (s.takeItem i)
    have first := s.takeItem_frame_links i
    refine ⟨(s.takeItem_works i).reported.trans reported, fun l listed => ?_, fun l absent => ?_, ?_⟩
    · rcases List.mem_cons.mp listed with here | later
      · have now : (s.takeItem i).link l = (s.offerStatus l).link l := by rw [← here]; rfl
        have after := other l (here ▸ fresh)
        rw [List.foldl_cons, after, now]
        exact s.offerStatus_offered l
      · have before : (s.takeItem i).link l = s.link l := State.takeItem_link fun same => fresh (same ▸ later)
        have after := offered l later
        rw [before] at after
        exact after
    · obtain ⟨not, later⟩ := not_or.mp (mt List.mem_cons.mpr absent)
      exact (other l later).trans (State.takeItem_link fun same => not same.symm)
    · rw [List.foldl_cons]
      rw [first] at frame ⊢
      exact frame

/-- No piece of work is listed twice. -/
theorem State.reportItems_nodup (s : State) {offers : List Index8} (once : offers.Nodup) : (s.reportItems offers).Nodup := by
  have asks : s.askers.Nodup := List.Nodup.filter _ (by decide)
  have age : (if s.ex.writer.filling.isSome ∨ offers ≠ [] then [ReportItem.age] else []).Nodup := by
    split
    · exact List.nodup_singleton _
    · exact List.nodup_nil
  unfold State.reportItems
  refine List.Nodup.append (List.Nodup.append age (asks.map fun p q same => ReportItem.ask.inj same) ?_)
    (once.map fun l k same => ReportItem.offer.inj same) ?_
  · intro i listed asks
    obtain ⟨p, -, rfl⟩ := List.mem_map.mp asks
    split at listed
    · cases List.mem_singleton.mp listed
    · cases listed
  · intro i listed offers
    obtain ⟨l, -, rfl⟩ := List.mem_map.mp offers
    rcases List.mem_append.mp listed with age | asks
    · split at age
      · cases List.mem_singleton.mp age
      · cases age
    · obtain ⟨p, -, same⟩ := List.mem_map.mp asks
      cases same

theorem State.mem_reportItems_offer {s : State} {offers : List Index8} {l : Index8} : .offer l ∈ s.reportItems offers ↔ l ∈ offers := by
  unfold State.reportItems
  simp only [List.mem_append, List.mem_map]
  constructor
  · rintro ((age | ⟨p, -, same⟩) | ⟨k, listed, same⟩)
    · split at age
      · cases List.mem_singleton.mp age
      · cases age
    · cases same
    · rwa [← ReportItem.offer.inj same]
  · exact fun listed => .inr ⟨l, listed, rfl⟩

theorem State.reportSteps_reports (s : State) {offers : List Index8} (once : offers.Nodup) :
    s.Reports (s.reportSteps offers) offers := by
  have perm := arrange_perm s.ex.choices (s.reportItems offers)
  have all := State.foldl_takeItem (perm.nodup_iff.mpr (s.reportItems_nodup once))
    { s with ex.choices := s.ex.choices + (s.reportItems offers).length }
  obtain ⟨reported, offered, other, frame⟩ := all
  have choices : s.ex.Reported { s.ex with choices := s.ex.choices + (s.reportItems offers).length } :=
    { Exchange.Reported.refl s.ex with }
  exact ⟨choices.trans reported, fun l listed => offered l (perm.mem_iff.mpr (State.mem_reportItems_offer.mpr listed)),
    fun l absent => other l fun listed => absent (State.mem_reportItems_offer.mp (perm.mem_iff.mp listed)), frame⟩

end Sys2Proof.Machine
end

section
/-! Second boundaries that are no mark: the page's age, the clock and the holdover count (O46, O49). -/

namespace Sys2Proof.Machine

/-! ## A boundary that is no mark -/

section
variable {s : State}

theorem State.markDue_false (no : s.air.firstNext = false ∨ (s.engine.state ≠ .running ∧ s.engine.state ≠ .stopping)) :
    s.markDue = false := by
  unfold State.markDue
  rcases no with second | ⟨running, stopping⟩
  · rw [second]
    rfl
  · rw [decide_eq_false (not_or.mpr ⟨running, stopping⟩), Bool.and_false]

/-- Before the report writer's work, a boundary that is no mark ends the keying where LOST is entered (R137). -/
theorem State.beforeReports_unmarked (no : s.markDue = false) : s.beforeReports =
    if s.air.monitor.passes s.engine.office.holdoverLimit then (s.airSteps false).endKeying else s.airSteps false := by
  have entered : (s.air.monitor.state = .holdover ∧ (s.airSteps false).air.monitor.state = .lost) ↔
      s.air.monitor.passes s.engine.office.holdoverLimit = true := by
    rw [State.airSteps_air]
    unfold State.airAfter
    cases passes : s.air.monitor.passes s.engine.office.holdoverLimit with
    | true => exact iff_of_true ⟨(of_decide_eq_true passes).1, rfl⟩ rfl
    | false =>
      refine iff_of_false (fun h => ?_) Bool.false_ne_true
      have lost : s.air.monitor.counted.state = .lost := h.2
      rw [Monitor.counted_state, h.1] at lost
      cases lost
  unfold State.beforeReports
  rw [no, if_neg Bool.false_ne_true]
  exact if_congr entered rfl rfl

theorem State.boundary_unmarked (no : s.markDue = false) : s.boundary = s.beforeReports.reportSteps [] := by
  rw [State.boundary_eq, no]
  rfl

end

/-! ## The page's age (R173) -/

/-- A page the list of pieces does not age keeps its age count. -/
theorem State.foldl_takeItem_keeps {items : List ReportItem} (absent : .age ∉ items) {s : State} (law : s.ex.writer.PageLaw)
    (page : Index8) : s.ex.writer.Ages (items.foldl State.takeItem s).ex.writer page s.ex.writer.age s.ex.writer.due := by
  induction items generalizing s with
  | nil => exact .of_eq rfl
  | cons i rest ih =>
    obtain ⟨not, later⟩ := not_or.mp (mt List.mem_cons.mpr absent)
    have first := State.takeItem_ages law i page
    rw [if_neg fun h => not h.symm, if_neg fun h => not h.symm] at first
    exact first.trans (ih later ((s.takeItem_works i).reported.law law))

/-- A page that the list of pieces ages once. -/
theorem State.foldl_takeItem_ages {items : List ReportItem} (once : items.Nodup) (listed : .age ∈ items) {s : State}
    (law : s.ex.writer.PageLaw) (page : Index8) :
    s.ex.writer.Ages (items.foldl State.takeItem s).ex.writer page (saturate 30 s.ex.writer.age 1)
      (s.ex.writer.due || decide (s.engine.office.flushInterval ≤ saturate 30 s.ex.writer.age 1)) := by
  induction items generalizing s with
  | nil => cases listed
  | cons i rest ih =>
    obtain ⟨fresh, once⟩ := List.nodup_cons.mp once
    have first := State.takeItem_ages law i page
    have law' := (s.takeItem_works i).reported.law law
    by_cases now : i = .age
    · rw [if_pos now, if_pos now] at first
      exact first.trans (State.foldl_takeItem_keeps (now ▸ fresh) law' page)
    · have later := (List.mem_cons.mp listed).resolve_left fun h => now h.symm
      have rest := ih once later law'
      rw [if_neg now, if_neg now] at first
      rw [State.takeItem_engine] at rest
      refine ⟨fun f => rest.filled (first.filled f), fun f => ?_⟩
      rcases first.filling f with ⟨still, age, due⟩ | full
      · rw [age, due] at rest
        exact rest.filling still
      · exact .inr (rest.filled full)

/-- A FILLING page at the end of a boundary's work is a second older (R173). -/
theorem State.reportSteps_ages {s : State} {offers : List Index8} (once : offers.Nodup) (law : s.ex.writer.PageLaw)
    {page : Index8} (filling : s.ex.writer.pages.get page = .filling) :
    s.ex.writer.Ages (s.reportSteps offers).ex.writer page (saturate 30 s.ex.writer.age 1)
      (s.ex.writer.due || decide (s.engine.office.flushInterval ≤ saturate 30 s.ex.writer.age 1)) := by
  have perm := arrange_perm s.ex.choices (s.reportItems offers)
  have listed : .age ∈ s.reportItems offers := by
    unfold State.reportItems
    rw [if_pos (.inl (Writer.filling_isSome filling))]
    simp
  exact State.foldl_takeItem_ages (s := { s with ex.choices := s.ex.choices + (s.reportItems offers).length })
    (perm.nodup_iff.mpr (s.reportItems_nodup once)) (perm.mem_iff.mpr listed) law page

theorem State.offering_nodup (s : State) : s.offering.Nodup := List.Nodup.filter _ (List.nodup_finRange 8)

theorem State.airSteps_office (s : State) (mark : Bool) : (s.airSteps mark).engine.office = s.engine.office := by
  unfold State.airSteps State.setMonitor
  simp only [State.tick_engine]

theorem State.takeMark_office (s : State) : s.takeMark.engine.office = s.engine.office := by
  unfold State.takeMark State.beginFrame State.endStopping
  simp only
  split <;> simp

theorem State.beforeReports_office (s : State) : s.beforeReports.engine.office = s.engine.office := by
  unfold State.beforeReports
  split_ifs
  · rw [State.takeMark_office, State.airSteps_office]
  · exact s.airSteps_office false
  · exact s.airSteps_office false

theorem State.beforeReports_writer (s : State) : s.beforeReports.ex.writer = s.ex.writer := by
  have signals := s.beforeReports_signals
  unfold Exchange.Signals at signals
  rw [signals]

/-- The air timing unit's steps move no block but the unit, the engine's state and the exchange's signals (R1). -/
theorem State.airSteps_parts (s : State) (mark : Bool) : s.airSteps mark =
    { s with air := (s.airSteps mark).air, engine := (s.airSteps mark).engine, ex := (s.airSteps mark).ex } := by
  unfold State.airSteps State.tick
  cases mark <;> rfl

theorem State.link_endKeying (s : State) (l : Index8) : s.endKeying.link l = { s.link l with keyed := false } := by
  unfold State.endKeying State.link
  exact Vector.getElem_ofFn _

/-- A boundary that is no mark, before the report writer's work (R1, R2, R10, R137). -/
structure State.Seconds (s u : State) : Prop where
  air : u.air = s.airAfter s.air.serial
  ex : u.ex = (s.airSteps false).ex
  link : ∀ l, u.link l =
    if s.air.monitor.passes s.engine.office.holdoverLimit then { s.link l with keyed := false } else s.link l
  frame : u = { s with air := u.air, links := u.links, ex := u.ex }

theorem State.beforeReports_seconds {s : State} (no : s.markDue = false)
    (still : s.engine.state = .starting → s.air.monitor.state ≠ .locked) : s.Seconds s.beforeReports := by
  have air := s.airSteps_air false
  have parts := s.airSteps_parts false
  rw [if_neg Bool.false_ne_true] at air
  rw [(s.airSteps_summary false still).2] at parts
  rw [State.beforeReports_unmarked no]
  have links (l : Index8) : (s.airSteps false).link l = s.link l := by rw [parts]; rfl
  by_cases lost : s.air.monitor.passes s.engine.office.holdoverLimit = true
  · rw [if_pos lost]
    refine ⟨air, rfl, fun l => ?_, ?_⟩
    · rw [if_pos lost, State.link_endKeying, links]
    · rw [parts]
      rfl
  · rw [if_neg lost]
    refine ⟨air, rfl, fun l => (links l).trans (if_neg lost).symm, ?_⟩
    rw [parts]

/-! ## Settled -/

/-- Settles O49: the boundary's work ages the page once, and leaves the clock, the count and the keying to the steps
before it. -/
theorem secondBoundaryAdvancesClock : Obligations.SecondBoundaryAdvancesClock := by
  unfold Obligations.SecondBoundaryAdvancesClock
  refine ⟨fun s page law filling => ⟨s.boundary, rfl, fun still => ?_⟩, fun s no still => ?_⟩
  · have writer := s.beforeReports_writer
    have offers : (if s.markDue then s.offering else []).Nodup := by
      split
      · exact s.offering_nodup
      · exact List.nodup_nil
    have ages := State.reportSteps_ages (s := s.beforeReports) offers (by rw [writer]; exact law) (page := page)
      (by rw [writer]; exact filling)
    rw [← State.boundary_eq, writer, State.beforeReports_office] at ages
    rcases ages.filling filling with ⟨-, age, due⟩ | full
    · exact ⟨age, due⟩
    · rw [still] at full
      cases full
  · intro m limit lost second day raised
    have no := State.markDue_false no
    have reports := s.beforeReports.reportSteps_reports List.nodup_nil
    rw [← State.boundary_unmarked no] at reports
    have seconds := State.beforeReports_seconds no still
    have summary := (s.airSteps_summary false still).1
    have signals := s.airSteps_signals false
    have notices := (s.airSteps_notices false).1
    unfold Exchange.Signals at signals
    have kept := seconds.ex.trans signals
    have bits := (congrArg Exchange.summary seconds.ex).trans summary
    have rep := reports.reported
    have air : s.boundary.air = s.airAfter s.air.serial := (State.boundary_unmarked no).symm ▸ (by simp [seconds.air])
    have frame : s.boundary = { s with air := s.boundary.air, links := s.boundary.links, ex := s.boundary.ex } := by
      have moved := reports.frame
      rw [seconds.frame] at moved
      exact moved.trans (by rw [air, seconds.air])
    refine ⟨congrArg Host.Outcome.next (if_neg (by rw [no]; decide)),
      fun stays => congrArg Host.Outcome.next (if_neg (Bool.not_eq_true _ ▸ stays)), s.boundary, rfl,
      fun passes => congrArg Host.Outcome.next (if_pos passes), air,
      fun l => (reports.other l List.not_mem_nil).trans (seconds.link l), ?_, ?_⟩
    · exact rep.notices _ (by rw [seconds.ex]; exact notices)
    · exact ⟨rep.referenceBit.trans (congrArg EventBits.reference bits :), rep.engineBit.trans (congrArg EventBits.engine bits :),
        rep.linkBit.trans (congrArg EventBits.link bits :), rep.fenceBit.trans (congrArg EventBits.fence bits :),
        rep.answers.trans (congrArg EventBits.answers bits :), rep.slots.trans (congrArg Exchange.slots kept :),
        rep.queue.trans (congrArg Exchange.queue kept :), rep.answered.trans (congrArg Exchange.answered kept :),
        rep.fence.trans (congrArg Exchange.fence kept :), rep.buffer.trans (congrArg Exchange.buffer kept :),
        rep.enable.trans (congrArg Exchange.enable kept :), rep.bus.trans (congrArg Exchange.bus kept :),
        rep.read.trans (congrArg Exchange.read kept :), rep.progress.trans (congrArg Exchange.progress kept :), frame⟩

/-! ## A page closed by age (R173) -/

/-- A close by age of the FILLING page. -/
theorem Exchange.closeIfDue_closes {x : Exchange} (law : x.writer.PageLaw) {page : Index8}
    (filling : x.writer.pages.get page = .filling) (due : x.writer.due = true) (covers : x.writer.reserved ≤ 63 * x.writer.run)
    (st : Stamp) : x.Closes (x.closeIfDue st) st page .age := by
  have closes : x.closeIfDue st = x.closePage st .age := if_pos ⟨due, covers⟩
  rw [closes]
  exact Exchange.closePage_closes (Writer.filling_eq law.one filling) st .age

theorem Exchange.closeIfDue_stays {x : Exchange} (short : 63 * x.writer.run < x.writer.reserved) (st : Stamp) :
    x.closeIfDue st = x := if_neg fun h => Nat.not_le.mpr short h.2

/-- A boundary in SETUP outside HOLDOVER with no producer at work brings the age step alone to the report writer. -/
theorem State.boundary_quiet {s : State} (setup : s.engine.state = .setup) (holdover : s.air.monitor.state ≠ .holdover)
    (report : s.air.monitor.report = none) (tracker : s.hasWork .tracker = false) (store : s.hasWork .messageStore = false)
    (links : s.hasWork .linkUnit = false) (builder : s.hasWork .builder = false)
    (filling : s.ex.writer.filling.isSome = true) :
    ∃ x, s.ex.Signals x ∧ s.boundary.ex = x.ageStep s.boundary.stamp s.engine.office.flushInterval := by
  have no : s.markDue = false :=
    State.markDue_false (.inr ⟨by rw [setup]; decide, by rw [setup]; decide⟩)
  have seconds := State.beforeReports_seconds no (fun h => by rw [setup] at h; cases h)
  have stays : s.air.monitor.passes s.engine.office.holdoverLimit = false := decide_eq_false fun h => holdover h.1
  have signals := s.beforeReports_signals
  have writer := s.beforeReports_writer
  have office := s.beforeReports_office
  obtain ⟨air, -, link, frame⟩ := seconds
  rw [State.boundary_unmarked no]
  generalize s.beforeReports = u at *
  have idle : u.askers = [] := by
    have monitor : u.hasWork .monitor = false := by
      have same : u.air.monitor.report = s.air.monitor.report := by
        rw [air]
        unfold State.airAfter
        rw [stays]
        exact Monitor.counted_report _
      unfold State.hasWork
      rw [same, report]
      rfl
    have tracker : u.hasWork .tracker = false := by
      have serial : u.air.serial = s.air.serial := by rw [air]; rfl
      rw [← tracker]
      unfold State.hasWork State.trackerReady State.deadlineDue
      rw [serial, frame]
    have store : u.hasWork .messageStore = false := by rw [← store, frame]; rfl
    have builder : u.hasWork .builder = false := by rw [← builder, frame]; rfl
    have links : u.hasWork .linkUnit = false := by
      rw [← links]
      unfold State.hasWork
      simp only [link, stays, if_neg Bool.false_ne_true]
    unfold State.askers
    simp [monitor, tracker, store, builder, links]
  have items : u.reportItems [] = [.age] := by
    unfold State.reportItems
    rw [idle, writer, if_pos (.inl filling)]
    rfl
  refine ⟨{ u.ex with choices := u.ex.choices + 1 }, ?_, ?_⟩
  · exact signals.trans rfl
  · rw [← office]
    unfold State.reportSteps
    simp only [items]
    rfl

/-- Settles O46: a close or none at once, and the boundary whole with what it brings where nothing else is at work. -/
theorem pageClosesByAge : Obligations.PageClosesByAge := by
  unfold Obligations.PageClosesByAge
  intro s page tidy law filling w closed
  have some := Writer.filling_isSome filling
  refine ⟨fun due covers => ?_, fun due short => ?_, fun due reached => ?_, fun due young => ?_⟩
  · have closes := Exchange.closeIfDue_closes law filling due covers s.stamp
    have runs : exec .pageAgeDue s = .next { s with ex := s.ex.closeIfDue s.stamp } := congrArg Host.Outcome.next (if_pos due)
    have header := closes.header tidy.mem
    generalize s.ex.closeIfDue s.stamp = x at closes runs header
    have frame := closes.frame
    exact ⟨_, runs, ⟨(closes.pages page).trans (if_pos rfl), header, closes.marks.1, closes.marks.2.2.2.1⟩, rfl,
      fun q ne => (closes.pages q).trans (if_neg ne), (congrArg Exchange.queue frame :), (congrArg Exchange.slots frame :),
      closes.asks.1, closes.asks.2⟩
  · refine congrArg Host.Outcome.next ((if_pos due).trans ?_)
    rw [Exchange.closeIfDue_stays short]
  · have ageDue : s.ageDue = true := by
      unfold State.ageDue
      rw [some]
      exact decide_eq_true reached
    refine ⟨s.boundary, congrArg Host.Outcome.next ((if_neg (by rw [due]; decide)).trans (if_pos ageDue)), rfl, ?_⟩
    intro setup holdover report tracker store links builder
    obtain ⟨x, signals, aged⟩ := State.boundary_quiet setup holdover report tracker store links builder some
    unfold Exchange.Signals at signals
    have writer : x.writer = w := (congrArg Exchange.writer signals :)
    have mem : x.mem = s.ex.mem := (congrArg Exchange.mem signals :)
    have now : (x.writer.due || decide (s.engine.office.flushInterval ≤ saturate 30 x.writer.age 1)) = true := by
      rw [writer, due]
      exact decide_eq_true reached
    unfold Exchange.ageStep at aged
    rw [if_pos (by rw [writer]; exact some)] at aged
    simp only [now] at aged
    rw [writer] at aged
    constructor
    · intro covers
      have closes := Exchange.closeIfDue_closes (page := page)
        (x := { x with writer := { w with age := saturate 30 w.age 1, due := true } }) ⟨law.one, law.count, law.requests⟩
        filling rfl covers s.boundary.stamp
      rw [← aged] at closes
      exact ⟨(closes.pages page).trans (if_pos rfl), closes.header (mem ▸ tidy.mem), closes.marks.1, closes.marks.2.2.2.1⟩
    · intro short
      rw [aged, Exchange.closeIfDue_stays (x := { x with writer := { w with age := saturate 30 w.age 1, due := true } }) short]
      exact ⟨filling, rfl⟩
  · have ageDue : ¬ s.ageDue = true := by
      unfold State.ageDue
      rw [some]
      exact fun h => Nat.not_le.mpr young (of_decide_eq_true h)
    exact congrArg Host.Outcome.next ((if_neg (by rw [due]; decide)).trans (if_neg ageDue))

end Sys2Proof.Machine
end

section
/-! The roll walk's visits and its end (O60). -/

namespace Sys2Proof.Machine

section
variable (s : State)

/-- Whether the walk's next subscriber is to be rolled (R61). -/
def State.walkRolls : Bool :=
  let b := (s.sub s.account.walk.next).billing
  decide (b.state ≠ .vacant ∧ b.period ≠ s.account.period)

/-- The records of the walk's next visit (R57, R61). -/
def State.walkRecords : List Record :=
  if s.walkRolls then [recordPeriodSummary s.account.walk.next (s.sub s.account.walk.next).billing .walk] else []

/-- The billing group the walk's next visit leaves (R57, R61). -/
def State.walkBilling : Billing :=
  let b := (s.sub s.account.walk.next).billing
  if s.walkRolls then { b with counters := Counters.zero, period := s.account.period } else b

/-- The count of rolled records after the walk's next visit (R61). -/
def State.walkCount : Nat := if s.walkRolls then s.account.walk.count + 1 else s.account.walk.count

end

/-- What the walk's next visit leaves (R57, R61). -/
structure State.Visits (s w : State) : Prop where
  here : w.sub s.account.walk.next = { s.sub s.account.walk.next with billing := s.walkBilling }
  other : ∀ k, k ≠ s.account.walk.next → w.sub k = s.sub k
  plans : w.account.plans = s.account.plans
  period : w.account.period = s.account.period
  walk : w.account.walk = ⟨s.account.walk.inFlight, s.account.walk.next + 1, s.walkCount⟩
  ex : w.ex = (s.handAll .rollWalk s.walkRecords).ex
  frame : w = { s with account := w.account, ex := w.ex }

theorem State.walkStep_visits {s : State} (c : s.Canon) : s.Visits s.walkStep := by
  have rolls : ((s.sub s.account.walk.next).billing.state ≠ .vacant ∧ s.stale s.account.walk.next = true) ↔
      s.walkRolls = true := by
    unfold State.walkRolls State.stale
    simp only [decide_eq_true_eq]
  have of_bills {t : State} {b : Billing} {records : List Record}
      (bills : s.Bills t .rollWalk s.account.walk.next b records) (count : Nat) (is : s.walkBilling = b)
      (handed : s.walkRecords = records) (counted : s.walkCount = count)
      (step : s.walkStep = { t with account.walk := ⟨s.account.walk.inFlight, s.account.walk.next + 1, count⟩ }) :
      s.Visits s.walkStep := by
    have frame := bills.frame
    rw [step]
    exact ⟨is ▸ bills.here, fun k => bills.other, (congrArg (·.account.plans) frame :), (congrArg (·.account.period) frame :),
      counted ▸ rfl, handed ▸ bills.ex,
      congrArg (fun v : State => ({ v with account := _, ex := _ } : State)) (frame.trans rfl)⟩
  have unrolled := State.Bills.refl c .rollWalk s.account.walk.next
  by_cases stale : s.walkRolls = true
  · have bills := (unrolled.hand (recordPeriodSummary s.account.walk.next (s.sub s.account.walk.next).billing .walk)).setBilling
      { (s.sub s.account.walk.next).billing with counters := Counters.zero, period := s.account.period }
    refine of_bills bills (s.account.walk.count + 1) (if_pos stale) (if_pos stale) (if_pos stale) ?_
    unfold State.walkStep State.walkVisit
    rw [if_pos (rolls.mpr stale)]
    rfl
  · refine of_bills unrolled s.account.walk.count (if_neg stale) (if_neg stale) (if_neg stale) ?_
    unfold State.walkStep State.walkVisit
    rw [if_neg fun h => stale (rolls.mp h)]

theorem State.giveBack_ex (s : State) (p : Producer) : (s.giveBack p).ex = s.ex.giveBack s.stamp p := rfl

theorem State.handAll_stamp (s : State) (p : Producer) (records : List Record) : (s.handAll p records).stamp = s.stamp := by
  rw [State.handAll_eq]
  rfl

/-- Settles O60: the visit's billing group and records, then the walk's end, the unit's end or neither. -/
theorem rollWalkVisits : Obligations.RollWalkVisits := by
  unfold Obligations.RollWalkVisits
  intro s tidy flies holds n u b stale count summary visited
  have records : s.walkRecords = summary := rfl
  have billing : ({ s.sub n with billing := s.walkBilling } : Subscriber) =
      if stale then { u with billing := { b with counters := ⟨0, 0, 0, 0, 0⟩, period := s.account.period } } else u := by
    unfold State.walkBilling
    show ({ s.sub n with billing := if stale then _ else _ } : Subscriber) = _
    cases stale <;> rfl
  obtain ⟨here, other, plans, period, walk, ex, frame⟩ := State.walkStep_visits tidy.canon
  have runs : exec .rollWalkVisit s = if 65536 ≤ s.walkStep.account.walk.next then .next s.walkStep.walkEnd
      else if s.walkStep.ex.writer.left .rollWalk ≤ 1 then .next (s.walkStep.endUnit .rollWalk) else .next s.walkStep :=
    if_pos ⟨flies, holds⟩
  rw [flies] at walk
  rw [walk] at runs
  rw [records] at ex
  rw [billing] at here
  generalize s.walkStep = w at *
  by_cases last : 65535 ≤ n
  · have stamp : w.stamp = s.stamp := by rw [frame]; rfl
    have handed : (w.hand .rollWalk (recordPeriodClosed ((w.account.period + 65535) % 65536) w.account.period
        w.account.walk.count)).ex = (s.handAll .rollWalk (summary ++ [[0x06, word ((s.account.period + 65535) % 65536),
          word s.account.period, word count]])).ex := by
      rw [State.handAll_append, period, walk]
      exact State.handAll_congr (t := w) ex (by rw [frame, State.handAll_eq]) .rollWalk [_]
    refine ⟨_, runs.trans (if_pos (Nat.succ_le_succ last)), here, other, plans, period,
      fun lt => absurd last (Nat.not_le.mpr lt), fun _ => ⟨rfl, ?_⟩,
      congrArg (fun v : State => ({ v with account := _, ex := _ } : State)) frame⟩
    rw [State.giveBack_ex, State.handAll_stamp, ← handed, ← stamp]
    rfl
  · have runs := runs.trans (if_neg fun h => last (Nat.le_of_succ_le_succ h))
    have less : n < 65535 := Nat.not_le.mp last
    by_cases spent : visited.writer.left .rollWalk ≤ 1
    · have account := State.endUnit_account w .rollWalk
      have ended := State.UnitEnded.of_handed (p := .rollWalk) ex
      have parts := State.endUnit_eq w .rollWalk
      have runs := runs.trans (if_pos (by rw [ex]; exact spent))
      generalize w.endUnit .rollWalk = v at *
      have sub (k : Nat) : v.sub k = w.sub k := by rw [State.sub, account, State.sub]
      refine ⟨v, runs, (sub n).trans here, fun k ne => (sub k).trans (other k ne), account ▸ plans, account ▸ period,
        fun _ => ⟨account ▸ walk, fun more => absurd spent (Nat.not_le.mpr more), fun _ => ended⟩,
        fun past => absurd past last, ?_⟩
      rw [account]
      refine parts.trans ?_
      conv_lhs => rw [frame]
    · exact ⟨w, runs.trans (if_neg (by rw [ex]; exact spent)), here, other, plans, period,
        fun _ => ⟨walk, fun _ => ex, fun few => absurd few spent⟩, fun past => absurd past last, frame⟩

end Sys2Proof.Machine
end

section
/-! What a frame mark does to each block, said once (R102, R115, R145 to R148, R179). -/

namespace Sys2Proof.Machine

/-! ## The return request (R102, R109, R179) -/

/-- What the return request leaves of the records it visits and of the others (R102, R109). -/
structure State.Returns (s t : State) (visited : List Nat) : Prop where
  canon : t.Canon
  other : ∀ i, i ∉ visited → t.msg i = s.msg i ∧ (i ∈ t.store.airStop ↔ i ∈ s.store.airStop)
  marked : ∀ i, i ∈ visited → ((s.msg i).ackedPending = true ∨ (s.msg i).cancelPending = true) →
    t.msg i = s.msg i ∧ i ∈ t.store.airStop
  freed : ∀ i, i ∈ visited → (s.msg i).ackedPending = false → (s.msg i).cancelPending = false →
    (i ∈ t.store.airStop ↔ i ∈ s.store.airStop) ∧
    t.msg i = { s.msg i with
      state := if (s.sub (s.msg i).subscriber).reach.unreachable then .held else .waiting, deadline := none } ∧
    ((t.msg i).state = .waiting → i ∈ t.store.lists.get (s.sub (s.msg i).subscriber).billing.slot)
  grows : ∀ (f : Fin 32) i, i ∈ s.store.lists.get f → i ∈ t.store.lists.get f
  frame : t = { s with store := { s.store with
    records := t.store.records, lists := t.store.lists, airStop := t.store.airStop } }

theorem State.Returns.refl {s : State} (c : s.Canon) : s.Returns s [] :=
  ⟨c, fun _ _ => ⟨rfl, Iff.rfl⟩, nofun, nofun, fun _ _ => id, rfl⟩

theorem MessageRecord.unmarked_of_clear {q : MessageRecord} (acked : q.ackedPending = false) (cancel : q.cancelPending = false) :
    q.unmarked = q := by
  cases q
  cases acked
  cases cancel
  rfl

/-- A record that moves with its own fields and no marker set is one the return request frees. -/
theorem State.Returns.of_moves {s t : State} {i : Nat} {q : MessageRecord} {state : MessageState} (canon : t.Canon)
    (moves : s.Moves t i q s.tracker.deadlines) (is : q = { s.msg i with state := state, deadline := none })
    (acked : (s.msg i).ackedPending = false) (cancel : (s.msg i).cancelPending = false)
    (way : state = if (s.sub (s.msg i).subscriber).reach.unreachable then .held else .waiting) : s.Returns t [i] := by
  obtain ⟨msg, lists, deadlines, frame⟩ := moves
  have grows : ∀ (f : Fin 32) j, j ∈ s.store.lists.get f → j ∈ t.store.lists.get f := by
    intro f j listed
    rw [lists f]
    split
    · exact mem_insertByKey.mpr (.inr listed)
    · exact listed
  have stops : t.store.airStop = s.store.airStop := (congrArg (·.store.airStop) frame :)
  have here : t.msg i = { s.msg i with state := state, deadline := none } := by
    rw [msg i, if_pos rfl, is]
    exact MessageRecord.unmarked_of_clear acked cancel
  refine ⟨canon, fun j absent => ⟨(msg j).trans (if_neg fun same => absent (List.mem_singleton.mpr same)), by rw [stops]⟩,
    fun j listed marked => ?_, fun j listed _ _ => ?_, grows, ?_⟩
  · rw [List.mem_singleton.mp listed, acked, cancel] at marked
    simp at marked
  · rw [List.mem_singleton.mp listed]
    refine ⟨by rw [stops], way ▸ here, fun waits => ?_⟩
    rw [here] at waits
    rw [lists _, if_pos ⟨by rw [is]; exact waits, by rw [is]⟩]
    exact mem_insertByKey.mpr (.inl rfl)
  · rw [frame, deadlines]

theorem State.returnOne_returns {s : State} (c : s.Canon) (i : Nat) : s.Returns (s.returnOne i) [i] := by
  unfold State.returnOne
  simp only
  split
  · next marked =>
    refine ⟨⟨c.subscribers, c.records⟩, fun j absent => ⟨rfl, ?_⟩, fun j listed _ => ?_, fun j listed acked cancel => ?_,
      fun _ _ => id, rfl⟩
    · exact mem_insertRising.trans (or_iff_right fun same => absent (List.mem_singleton.mpr same))
    · rw [List.mem_singleton.mp listed]
      exact ⟨rfl, mem_insertRising.mpr (.inl rfl)⟩
    · rw [List.mem_singleton.mp listed] at acked cancel
      rw [acked, cancel] at marked
      simp at marked
  · next free =>
    obtain ⟨acked, cancel⟩ := not_or.mp free
    have acked := Bool.eq_false_iff.mpr acked
    have cancel := Bool.eq_false_iff.mpr cancel
    split
    · next out => exact .of_moves (c.setMsg i _) (State.makeHeld_moves c i _) rfl acked cancel (if_pos out).symm
    · next reached =>
      exact .of_moves ⟨c.subscribers, Table.wf_set c.records i _⟩ (State.makeWaiting_moves c i _) rfl acked cancel
        (if_neg reached).symm

/-- One record visited, and then others. -/
theorem State.Returns.cons {s t u : State} {i : Nat} {rest : List Nat} (first : s.Returns t [i]) (after : t.Returns u rest)
    (fresh : i ∉ rest) : s.Returns u (i :: rest) := by
  have sub (k : Nat) : t.sub k = s.sub k := by rw [first.frame]; rfl
  have apart {j : Nat} (listed : j ∈ rest) : j ∉ [i] := fun same => fresh (List.mem_singleton.mp same ▸ listed)
  have later := after.other i fresh
  refine ⟨after.canon, fun j absent => ?_, fun j listed marked => ?_, fun j listed acked cancel => ?_,
    fun f j listed => after.grows f j (first.grows f j listed), ?_⟩
  · obtain ⟨not, gone⟩ := not_or.mp (mt List.mem_cons.mpr absent)
    have before := first.other j fun same => not (List.mem_singleton.mp same)
    have after := after.other j gone
    exact ⟨after.1.trans before.1, after.2.trans before.2⟩
  · rcases List.mem_cons.mp listed with rfl | listed
    · obtain ⟨msg, stop⟩ := first.marked j (List.mem_singleton_self j) marked
      exact ⟨later.1.trans msg, later.2.mpr stop⟩
    · have before := first.other j (apart listed)
      obtain ⟨msg, stop⟩ := after.marked j listed (before.1.symm ▸ marked)
      exact ⟨msg.trans before.1, stop⟩
  · rcases List.mem_cons.mp listed with rfl | listed
    · obtain ⟨stop, msg, enters⟩ := first.freed j (List.mem_singleton_self j) acked cancel
      refine ⟨later.2.trans stop, later.1.trans msg, fun waits => after.grows _ j (enters ?_)⟩
      rw [← later.1]
      exact waits
    · have before := first.other j (apart listed)
      have freed := after.freed j listed
      rw [before.1, sub] at freed
      obtain ⟨stop, msg, enters⟩ := freed acked cancel
      exact ⟨stop.trans before.2, msg, enters⟩
  · have moved := after.frame
    rw [first.frame] at moved
    exact moved

theorem State.foldl_returnOne {visited : List Nat} (once : visited.Nodup) {s : State} (c : s.Canon) :
    s.Returns (visited.foldl State.returnOne s) visited := by
  induction visited generalizing s with
  | nil => exact .refl c
  | cons i rest ih =>
    obtain ⟨fresh, once⟩ := List.nodup_cons.mp once
    have first := State.returnOne_returns c i
    exact first.cons (ih once first.canon) fresh

/-- Whether the return request at this mark visits a record (R102, R179). -/
def MessageRecord.returnsAt (r : MessageRecord) (m : Nat) : Bool :=
  decide (r.state = .placed ∧ (r.placedSerial = some m ∨ r.placedSerial = some (m + 1)))

theorem State.returnPlaced_returns {s : State} (c : s.Canon) (m : Nat) :
    s.Returns (s.returnPlaced m) (s.msgsWhere (·.returnsAt m)) := State.foldl_returnOne (s.nodup_msgsWhere c _) c

theorem State.mem_returned {s : State} (c : s.Canon) (m i : Nat) : i ∈ s.msgsWhere (·.returnsAt m) ↔
    (s.msg i).state = .placed ∧ ((s.msg i).placedSerial = some m ∨ (s.msg i).placedSerial = some (m + 1)) :=
  (State.mem_msgsWhere c (decide_eq_false fun never => nomatch never.1) i).trans (by rw [MessageRecord.returnsAt, decide_eq_true_eq])

end Sys2Proof.Machine
end

section
/-! Site status messages at a link controller (O53). -/

namespace Sys2Proof.Machine

/-! ## Which observations are events (R143) -/

/-- An observation that leaves a link's state is no trip and no recovery (R143). -/
theorem Link.tripped_false {c d : Link} (same : d.state = c.state) : Link.tripped c d = false := by
  unfold Link.tripped
  rw [same]
  cases c.state <;> rfl

theorem Link.tripped_of_trip {c d : Link} (serves : c.state = .standby ∨ c.state = .keyed)
    (out : d.state = .tripped ∨ d.state = .latched) : Link.tripped c d = true := by
  unfold Link.tripped
  rw [decide_eq_true serves, decide_eq_true out]
  rfl

theorem Link.tripped_of_recovery {c d : Link} (out : c.state = .tripped) (back : d.state = .standby) : Link.tripped c d = true := by
  unfold Link.tripped
  rw [out, back]
  rfl

/-! ## One observation (R138 to R142) -/

section
variable {c : Link} {at_ : Sighting}

/-- An observation taken is a matter of the link's state alone (R139, R140). -/
theorem Link.observe_blanked (kind : Observation) (blanks : 0 < c.blanking) :
    c.observe kind at_ = { c with blanking := c.blanking - 1, blankedCount := min 255 (c.blankedCount + 1) } := if_pos blanks

/-- A link that has taken an observation, before its state answers to it (R138). -/
def Link.noted (c : Link) (kind : Observation) : Link :=
  { c.countTaken kind with lastObservation := some kind, alert := decide (kind ≠ Observation.clear) }

theorem Link.noted_state (c : Link) (kind : Observation) : (c.noted kind).state = c.state := by cases kind <;> rfl

theorem Link.observe_clear (open_ : c.blanking = 0) : c.observe .clear at_ = (c.noted .clear).takeClear at_ :=
  if_neg (by rw [open_]; decide)

theorem Link.observe_fault {kind : Observation} (fault : kind ≠ .clear) (open_ : c.blanking = 0) :
    c.observe kind at_ = (c.noted kind).takeFault kind at_ := by
  refine (if_neg (by rw [open_]; decide)).trans ?_
  cases kind with
  | clear => exact absurd rfl fault
  | alarm => rfl
  | silent => rfl

/-- A link that is out of service for good, or by order, takes no part in runs (R140). -/
theorem Link.takeClear_resting (state : c.state = .latched ∨ c.state = .override) : c.takeClear at_ = c := by
  unfold Link.takeClear
  rcases state with state | state <;> rw [state]

theorem Link.takeFault_resting (kind : Observation) (state : c.state = .latched ∨ c.state = .override) :
    c.takeFault kind at_ = c := by
  unfold Link.takeFault
  rcases state with state | state <;> rw [state]

theorem Link.takeClear_service (state : c.state = .standby ∨ c.state = .keyed) : c.takeClear at_ = { c with faultRun := 0 } := by
  unfold Link.takeClear
  rcases state with state | state <;> rw [state]

theorem Link.takeFault_tripped (kind : Observation) (state : c.state = .tripped) :
    c.takeFault kind at_ = { c with clearRun := 0 } := by
  unfold Link.takeFault
  rw [state]

theorem Link.takeFault_service (kind : Observation) (state : c.state = .standby ∨ c.state = .keyed) :
    c.takeFault kind at_ =
      if c.settings.tripCount ≤ c.faultRun + 1 then c.tripAt ⟨at_.serial, at_.position, kind, at_.alarms⟩ at_.now
      else { c with faultRun := c.faultRun + 1 } := by
  unfold Link.takeFault
  rcases state with state | state <;> rw [state]

theorem Link.takeClear_tripped (state : c.state = .tripped) (few : c.clearRun < 255) : c.takeClear at_ =
    if c.settings.recoveryFrames ≠ 0 ∧ c.settings.recoveryFrames ≤ c.clearRun + 1 then c.recoverAt at_.now at_.position
    else { c with clearRun := c.clearRun + 1 } := by
  unfold Link.takeClear
  rw [state]
  simp only [raiseClearRun, if_pos few]

theorem Link.moveTo_away {state : LinkState} (away : state ≠ .keyed) :
    c.moveTo state = { c with state := state, cleanRun := 0 } := by
  unfold Link.moveTo
  rw [if_neg away]

/-- A trip of a link with no blanking left (R140). -/
theorem Link.tripAt_eq (open_ : c.blanking = 0) (capture : Capture) (created : Nat) :
    let latch := min 32 (c.latchCounter + 1)
    let latched := decide (c.settings.latchLimit ≠ 0 ∧ c.settings.latchLimit ≤ latch)
    c.tripAt capture created =
      { c with
        state := if latched then .latched else .tripped
        keyed := false
        capture := some capture
        latchCounter := latch
        faultRun := 0
        clearRun := 0
        cleanRun := 0
        trip := some (match c.trip with
          | none => ⟨capture, latched, latch, created, 0⟩
          | some r => { r with later := min 255 (r.later + 1), latched := r.latched || latched }) } := by
  intro latch latched
  have moved := Link.moveTo_away (c := c) (state := if latched then .latched else .tripped) (by cases latched <;> decide)
  have report : ∀ r : Option TripReport, tripReportAfter r capture latched latch created = (match r with
      | none => ⟨capture, latched, latch, created, 0⟩
      | some r => { r with later := min 255 (r.later + 1), latched := r.latched || latched }) := by
    intro r
    cases r <;> rfl
  rw [← report, open_]
  refine Eq.trans ?_ (congrArg (fun d : Link => ({ d with
    keyed := false, capture := some capture, latchCounter := latch, faultRun := 0, clearRun := 0, blanking := 0,
    trip := some (tripReportAfter c.trip capture latched latch created) } : Link)) moved)
  rfl

/-- A recovery (R142). -/
theorem Link.recoverAt_eq (serial position : Nat) : c.recoverAt serial position =
    { c with
      state := .standby
      skipCounter := 0
      cleanRun := 0
      clearRun := 0
      faultRun := 0
      recovery := some (match c.recovery with
        | none => ⟨serial, position, 0⟩
        | some r => { r with later := min 255 (r.later + 1) }) } := by
  have report : ∀ r : Option RecoveryReport, recoveryReportAfter r serial position = (match r with
      | none => ⟨serial, position, 0⟩
      | some r => { r with later := min 255 (r.later + 1) }) := by
    intro r
    cases r <;> rfl
  rw [← report]
  rfl

end

/-! ## Site status messages (R138) -/

/-- A link that a status message leaves so, with the LINK bit and the link unit's request where a report was created. -/
def State.LinkBecomes (s : State) (arrival : Instr) (l : Index8) (e : Link) (event : Bool) : Prop :=
  ∃ t, exec arrival s = .next t ∧
    t.link l = e ∧ (∀ k, k ≠ l → t.link k = s.link k) ∧
    t.ex.summary = { s.ex.summary with link := s.ex.summary.link || event } ∧
    (event = true → t.ex.writer.holds .linkUnit = true ∨ .linkUnit ∈ t.ex.writer.waiting) ∧
    t.ex.mem = s.ex.mem ∧ t.ex.queue = s.ex.queue ∧ t.ex.slots = s.ex.slots ∧
    t.ex.writer.pages = s.ex.writer.pages ∧ t = { s with links := t.links, ex := t.ex }

/-- A status message judged: the link written, the LINK bit raised, the link unit's request made (R138, R143). -/
def State.noteStatus (s : State) (l : Index8) (e : Link) (event : Bool) (choices : Nat) : State :=
  { s.setLink l e with
    ex := { s.ex with summary := { s.ex.summary with link := s.ex.summary.link || event }, choices := choices } }

theorem State.LinkBecomes.of_note {s : State} {arrival : Instr} {l : Index8} {e : Link} {event : Bool} {choices : Nat}
    (runs : exec arrival s = .next ((s.noteStatus l e event choices).ask .linkUnit))
    (reports : event = true → e.reporting = true) : s.LinkBecomes arrival l e event := by
  obtain ⟨⟨mem, summary, slots, queue⟩, pages, frame⟩ := (s.noteStatus l e event choices).ask_keeps .linkUnit
  have asks := @State.ask_asks (s.noteStatus l e event choices) .linkUnit
  have link (k : Index8) : (s.noteStatus l e event choices).link k = if k = l then e else s.link k := s.link_setLink l k e
  have same (k : Index8) : ((s.noteStatus l e event choices).ask .linkUnit).link k = (s.noteStatus l e event choices).link k := by
    rw [frame]
    rfl
  refine ⟨_, runs, (same l).trans ((link l).trans (if_pos rfl)), fun k ne => (same k).trans ((link k).trans (if_neg ne)),
    summary, fun now => asks ?_, mem, queue, slots, pages, ?_⟩
  · refine List.any_eq_true.mpr ⟨l, List.mem_finRange l, ?_⟩
    rw [link l, if_pos rfl]
    exact reports now
  · rw [frame]
    rfl

/-- Settles O53: the observation by the link's blanking, state and runs. -/
theorem statusMessageObserved : Obligations.StatusMessageObserved := by
  unfold Obligations.StatusMessageObserved
  intro s l alarms power position inside c arrival alarm
  refine ⟨fun discards => ?_, fun f framed on untaken => ?_⟩
  · show execLinkStatusMessage l alarms power position s = _
    unfold execLinkStatusMessage
    cases framed : s.frame with
    | none => rfl
    | some f =>
      refine if_neg fun judged => ?_
      rcases discards with none | off | taken
      · rw [framed] at none
        cases none
      · exact judged.1 off
      · exact Bool.false_ne_true (judged.2.symm.trans taken)
  intro d capture latch latched becomes
  let kind : Observation := if alarm then .alarm else .clear
  let past := (Config.clearRunPastLimit s.ex.choices).toNat
  let at_ : Sighting := ⟨f.serial, s.air.serial, position, alarms, past⟩
  have judged : ∃ choices, exec arrival s = .next ((s.noteStatus l (Link.observe { c with statusTaken := true } kind at_)
      (Link.tripped c (Link.observe { c with statusTaken := true } kind at_)) choices).ask .linkUnit) := by
    refine ⟨if c.state = .tripped ∧ c.clearRun = 255 then s.ex.choices + 1 else s.ex.choices, ?_⟩
    show execLinkStatusMessage l alarms power position s = _
    unfold execLinkStatusMessage
    rw [framed]
    refine (if_pos ⟨on, untaken⟩).trans ?_
    have min : min position Config.frameBlocks = position := Nat.min_eq_left inside
    have kinds : (if alarms ≠ 0 ∨ (c.keyed = true ∧ power = false) then Observation.alarm else .clear) = kind := by
      exact if_congr decide_eq_true_iff.symm rfl rfl
    rw [min, kinds]
    rfl
  obtain ⟨choices, judged⟩ := judged
  have observes {e : Link} {event : Bool} (is : Link.observe { c with statusTaken := true } kind at_ = e)
      (trips : Link.tripped c e = event) (reports : event = true → e.reporting = true) : becomes e event := by
    rw [is, trips] at judged
    exact State.LinkBecomes.of_note judged reports
  have still {e : Link} (is : Link.observe { c with statusTaken := true } kind at_ = e) (same : e.state = c.state) :
      becomes e false := observes is (Link.tripped_false same) nofun
  refine ⟨fun blanks => still (Link.observe_blanked kind blanks) rfl, fun open_ => ?_⟩
  have noted : Link.noted { c with statusTaken := true } kind = d := by
    have either (b : Bool) : Link.noted { c with statusTaken := true } (if b then .alarm else .clear) =
        { c with
          statusTaken := true
          lastObservation := some (if b then .alarm else .clear)
          alert := b
          clearCount := if b then c.clearCount else min 255 (c.clearCount + 1)
          alarmCount := if b then min 255 (c.alarmCount + 1) else c.alarmCount } := by cases b <;> rfl
    exact either alarm
  have cleared (clear : alarm = false) : Link.observe { c with statusTaken := true } kind at_ = d.takeClear at_ := by
    have is : kind = .clear := if_neg (by rw [clear]; decide)
    rw [is] at noted ⊢
    rw [← noted]
    exact Link.observe_clear open_
  have struck (is : alarm = true) : Link.observe { c with statusTaken := true } kind at_ = d.takeFault .alarm at_ := by
    have is : kind = .alarm := if_pos is
    rw [is] at noted ⊢
    rw [← noted]
    exact Link.observe_fault (by decide) open_
  refine ⟨fun rests => still ?_ rfl, fun serves => ⟨fun clear => ?_, fun is few => ?_, fun is many => ?_⟩, fun tripped =>
    ⟨fun is => ?_, fun clear few => ⟨fun more => ?_, fun some enough => ?_⟩⟩⟩
  · rcases Bool.eq_false_or_eq_true alarm with is | clear
    · exact (struck is).trans (Link.takeFault_resting (c := d) .alarm rests)
    · exact (cleared clear).trans (Link.takeClear_resting (c := d) rests)
  · exact still ((cleared clear).trans (Link.takeClear_service (c := d) serves)) rfl
  · exact still ((struck is).trans ((Link.takeFault_service (c := d) .alarm serves).trans (if_neg (Nat.not_le.mpr few)))) rfl
  · refine observes ((struck is).trans ((Link.takeFault_service (c := d) .alarm serves).trans ((if_pos many).trans
      (Link.tripAt_eq (c := d) open_ capture s.air.serial)))) (Link.tripped_of_trip serves ?_) fun _ => rfl
    show (if latched then LinkState.latched else .tripped) = .tripped ∨ (if latched then LinkState.latched else .tripped) = .latched
    cases latched
    · exact .inl rfl
    · exact .inr rfl
  · exact still ((struck is).trans (Link.takeFault_tripped (c := d) .alarm tripped)) rfl
  · refine still ((cleared clear).trans ((Link.takeClear_tripped (c := d) tripped few).trans (if_neg fun h => ?_))) rfl
    rcases more with never | short
    · exact h.1 never
    · exact Nat.not_le.mpr short h.2
  · exact observes ((cleared clear).trans ((Link.takeClear_tripped (c := d) tripped few).trans
      ((if_pos ⟨Nat.pos_iff_ne_zero.mp some, enough⟩).trans (Link.recoverAt_eq s.air.serial position))))
      (Link.tripped_of_recovery tripped rfl) fun _ => Bool.or_true _

end Sys2Proof.Machine
end

section
/-! Return messages at the delivery tracker (O57). -/

namespace Sys2Proof.Machine

/-! ## A subscriber heard (R160, R161, R165) -/

/-- The subscriber's miss count 0 (R160). -/
def State.unmissed (s : State) (n : Nat) : State := s.setReach n { (s.sub n).reach with missCount := 0 }

theorem State.unmissed_sub {s : State} (c : s.Canon) (n k : Nat) : (s.unmissed n).sub k =
    if k = n then { s.sub n with reach := { (s.sub n).reach with missCount := 0 } } else s.sub k :=
  State.sub_setSub c.subscribers n k _

/-- The first part of what a message heard does: miss count 0, and the release of an unreachable subscriber (R160). -/
def State.reopen (s : State) (n : Nat) (e : ReverseEntry) : State :=
  let t := s.unmissed n
  if (t.sub n).reach.unreachable then (t.releaseAll n).1.hand .tracker (recordReleased n (t.releaseAll n).2 e.arrival) else t

/-- What the first part leaves (R103, R165). -/
structure State.Reopens (s u : State) (n : Nat) (e : ReverseEntry) : Prop where
  canon : u.Canon
  sub : ∀ k, u.sub k =
    if k = n then { s.sub n with reach := { (s.sub n).reach with unreachable := false, missCount := 0 } } else s.sub k
  msg : ∀ i, u.msg i =
    if (s.sub n).reach.unreachable = true ∧ (s.msg i).subscriber = n ∧ (s.msg i).state = .held then (s.msg i).released
    else s.msg i
  lists : ∀ f : Fin 32, u.store.lists.get f =
    if (s.sub n).reach.unreachable = true ∧ f = (s.sub n).billing.slot then
      (s.msgsWhere fun r => decide (r.subscriber = n ∧ r.state = .held)).foldl
        (fun l i => insertByKey (fun j => (s.msg j).key) i l) (s.store.lists.get f)
    else s.store.lists.get f
  ex : u.ex = (s.handAll .tracker (if (s.sub n).reach.unreachable then
    [recordReleased n (s.msgsWhere fun r => decide (r.subscriber = n ∧ r.state = .held)).length e.arrival] else [])).ex
  frame : u = { s with
    account := { s.account with subscribers := u.account.subscribers }
    store := { s.store with records := u.store.records, lists := u.store.lists }
    ex := u.ex }

theorem State.reopen_reopens {s : State} (c : s.Canon) (n : Nat) (e : ReverseEntry) : s.Reopens (s.reopen n e) n e := by
  have canon : (s.unmissed n).Canon := c.setSub n _
  have sub := State.unmissed_sub c n
  have here := (sub n).trans (if_pos rfl)
  have frame : s.unmissed n = { s with account := { s.account with subscribers := (s.unmissed n).account.subscribers } } := rfl
  have reach : ((s.unmissed n).sub n).reach.unreachable = (s.sub n).reach.unreachable := by rw [here]
  unfold State.reopen
  simp only [reach]
  by_cases out : (s.sub n).reach.unreachable = true
  · rw [if_pos out]
    obtain ⟨subs, msgs, lists, moved⟩ := State.releaseAll_spec canon n
    have kept := (State.releaseAll_acts (s := s.unmissed n) (p := .tracker) n).canon canon
    have released : ((s.unmissed n).releaseAll n).2 =
      (s.msgsWhere fun r => decide (r.subscriber = n ∧ r.state = .held)).length := rfl
    rw [released]
    rw [here] at subs lists
    generalize s.unmissed n = t at *
    have msg (i : Nat) : t.msg i = s.msg i := by rw [frame]; rfl
    have where_ : (t.msgsWhere fun r => decide (r.subscriber = n ∧ r.state = .held)) =
        s.msgsWhere fun r => decide (r.subscriber = n ∧ r.state = .held) := by rw [frame]; rfl
    have listed (f : Fin 32) : t.store.lists.get f = s.store.lists.get f := by rw [frame]
    generalize (t.releaseAll n).1 = u at subs msgs lists moved kept
    refine ⟨⟨kept.subscribers, kept.records⟩, fun k => (subs k).trans ?_, fun i => (msgs i).trans ?_,
      fun f => (lists f).trans ?_, ?_, ?_⟩
    · rw [sub k]
      split <;> rfl
    · rw [msg]
      exact if_congr (and_iff_right out).symm rfl rfl
    · rw [where_, listed]
      simp only [msg]
      exact if_congr (and_iff_right out).symm rfl rfl
    · rw [if_pos out]
      have ex : u.ex = s.ex := by rw [moved, frame]
      have air : u.air = s.air := by rw [moved, frame]
      exact State.handAll_congr (t := u) ex air .tracker [_]
    · have parts : u = { s with
          account := { s.account with subscribers := u.account.subscribers }
          store := { s.store with records := u.store.records, lists := u.store.lists } } := by
        conv_lhs => rw [moved, frame]
      exact congrArg (fun v : State => ({ v with ex := (u.hand .tracker (recordReleased n _ e.arrival)).ex } : State)) parts
  · rw [if_neg out]
    have same : ({ (s.sub n).reach with missCount := 0 } : Reach) = { (s.sub n).reach with unreachable := false, missCount := 0 } := by
      rw [← Bool.eq_false_iff.mpr out]
    exact ⟨canon, fun k => by rw [sub k, same], fun i => (if_neg fun h => out h.1).symm, fun f => (if_neg fun h => out h.1).symm,
      by rw [if_neg out]; rfl, rfl⟩

/-- A message heard: the release, then the debounce with its MOVED record (R160, R161). -/
theorem State.heard_eq (s : State) (n : Nat) (e : ReverseEntry) : s.heard n e =
    let u := s.reopen n e
    let before := (u.sub n).reach
    let after := before.debounce u.engine.office.locationConfirm e.zone e.arrival
    let v := u.setReach n after
    if after.heardZone ≠ before.heardZone ∧ (v.sub n).billing.notifyMoves then
      v.hand .tracker (recordMoved n before.heardZone after.heardZone e.link e.arrival)
    else v := rfl

/-- The reach group that a message heard leaves (R160, R161). -/
theorem Reach.debounce_eq (r : Reach) (confirm : Nat) (z : Zone) (arrival : Nat) :
    let count := if r.candidateZone = some z then min 7 (r.candidateCount + 1) else 1
    let confirmed := decide (confirm ≤ count)
    r.debounce confirm z arrival = ⟨r.missCount, r.unreachable, if confirmed then some z else r.heardZone,
      if confirmed then arrival / 32 else r.heardCycle, some z, count⟩ := by
  intro count confirmed
  unfold Reach.debounce
  by_cases enough : confirm ≤ count
  · have yes : confirmed = true := decide_eq_true enough
    rw [yes]
    exact if_pos enough
  · have no : confirmed = false := decide_eq_false enough
    rw [no]
    exact if_neg enough

/-! ## The record an ACK names (R159) -/

/-- Whether an occupied record of a subscriber holds a tag. -/
def MessageRecord.holdsTag (r : MessageRecord) (n : Nat) (tag : Fin 8) : Bool :=
  r.occupied && decide (r.subscriber = n ∧ r.tag = some tag)

section
variable {s : State} {n : Nat} {tag : Fin 8}

theorem MessageRecord.holdsTag_iff {r : MessageRecord} :
    r.holdsTag n tag = true ↔ r.state ≠ .free ∧ r.subscriber = n ∧ r.tag = some tag := by
  unfold MessageRecord.holdsTag MessageRecord.occupied
  rw [Bool.and_eq_true, decide_eq_true_eq, decide_eq_true_eq]

theorem State.mem_holdsTag (c : s.Canon) (i : Nat) : i ∈ s.msgsWhere (·.holdsTag n tag) ↔
    (s.msg i).state ≠ .free ∧ (s.msg i).subscriber = n ∧ (s.msg i).tag = some tag :=
  (State.mem_msgsWhere c (by rfl) i).trans MessageRecord.holdsTag_iff

theorem State.findTag_none (c : s.Canon)
    (nobody : ∀ i, ¬ ((s.msg i).state ≠ .free ∧ (s.msg i).subscriber = n ∧ (s.msg i).tag = some tag)) :
    s.findTag n tag = none :=
  List.head?_eq_none_iff.mpr (List.eq_nil_iff_forall_not_mem.mpr fun i listed => nobody i ((State.mem_holdsTag c i).mp listed))

theorem State.findTag_some (c : s.Canon) {i : Nat}
    (here : (s.msg i).state ≠ .free ∧ (s.msg i).subscriber = n ∧ (s.msg i).tag = some tag)
    (alone : ∀ j, j ≠ i → ¬ ((s.msg j).state ≠ .free ∧ (s.msg j).subscriber = n ∧ (s.msg j).tag = some tag)) :
    s.findTag n tag = some i := by
  have listed := (State.mem_holdsTag c i).mpr here
  cases found : s.findTag n tag with
  | none =>
    have empty : s.msgsWhere (·.holdsTag n tag) = [] := List.head?_eq_none_iff.mp found
    rw [empty] at listed
    cases listed
  | some j =>
    by_contra other
    exact alone j (fun same => other (by rw [same])) ((State.mem_holdsTag c j).mp (List.mem_of_mem_head? found))

end

/-! ## Settled -/

/-- Settles O57: the merged order decides whether the item is taken; the subscriber's state, the message's kind and the
record that holds its tag decide what it does. -/
theorem returnItemProcessed : Obligations.ReturnItemProcessed := by
  unfold Obligations.ReturnItemProcessed
  refine ⟨fun s e rest tidy queued holds => ?_, fun s n e tidy => ?_⟩
  · intro n state taken unmatched holder ends
    have unfolded : exec .returnMessageItem s =
        if s.ex.writer.holds .tracker = true ∧ s.deadlineBefore e.arrival = false then
          .next ((taken.processReturn e).endUnit .tracker) else .next s := by
      show execReturnMessageItem s = _
      unfold execReturnMessageItem
      rw [queued]
    refine ⟨fun d ds deadlines due before => unfolded.trans (if_neg fun h => ?_), fun first => ?_⟩
    · have comes : s.deadlineBefore e.arrival = true := by
        unfold State.deadlineBefore
        rw [deadlines]
        exact (Bool.and_eq_true _ _).mpr ⟨decide_eq_true due, decide_eq_true before⟩
      exact Bool.false_ne_true (h.2.symm.trans comes)
    have waits : s.deadlineBefore e.arrival = false := by
      unfold State.deadlineBefore
      cases deadlines : s.tracker.deadlines with
      | nil => rfl
      | cons d ds =>
        refine Bool.and_eq_false_imp.mpr fun due => decide_eq_false ?_
        exact Nat.not_le.mpr (first d ds deadlines (of_decide_eq_true due))
    have runs {t : State} (is : taken.processReturn e = t) : ends t :=
      is ▸ unfolded.trans (if_pos ⟨holds, waits⟩)
    have vacant (is : state = .vacant) : taken.processReturn e =
        if e.isAck then taken.hand .tracker (recordUnmatchedAck e state) else taken := if_pos is
    have served (is : state ≠ .vacant) : taken.processReturn e =
        if e.isAck then (taken.matchAck n e).heard n e else taken.heard n e := if_neg is
    refine ⟨fun out register => runs ((vacant out).trans (if_neg (ne_true_of_eq_false register))),
      fun out ack => runs ((vacant out).trans (if_pos ack)),
      fun live register => runs ((served live).trans (if_neg (ne_true_of_eq_false register))), fun live ack => ?_⟩
    have acked {t : State} (is : taken.matchAck n e = t) : ends (t.heard n e) :=
      runs ((served live).trans ((if_pos ack).trans (by rw [is])))
    have canon : taken.Canon := ⟨tidy.canon.subscribers, tidy.canon.records⟩
    refine ⟨fun nobody => acked ?_, fun i here alone => ⟨fun flies => acked ?_, fun grounded aired => acked ?_⟩⟩
    · unfold State.matchAck
      rw [State.findTag_none canon nobody]
      rfl
    · unfold State.matchAck
      rw [State.findTag_some canon here alone]
      exact if_pos flies
    · unfold State.matchAck
      rw [State.findTag_some canon here alone]
      exact if_neg fun flies => flies.elim grounded aired
  · intro u v held count confirmed heardZone t
    obtain ⟨canon, sub, msg, lists, ex, frame⟩ := State.reopen_reopens tidy.canon n e
    have heard := s.heard_eq n e
    generalize s.reopen n e = w at canon sub msg lists ex frame heard
    have office : w.engine.office = s.engine.office := by rw [frame]
    have here : w.sub n = { u with reach := { v with unreachable := false, missCount := 0 } } := (sub n).trans (if_pos rfl)
    have debounced := Reach.debounce_eq { v with unreachable := false, missCount := 0 } s.engine.office.locationConfirm e.zone
      e.arrival
    simp only [here, office, debounced] at heard
    let reach : Reach := ⟨0, false, heardZone, if confirmed then e.arrival / 32 else v.heardCycle, some e.zone, count⟩
    have xsub (k : Nat) : (w.setReach n reach).sub k = if k = n then { u with reach := reach } else s.sub k := by
      refine (State.sub_setSub canon.subscribers n k _).trans ?_
      rw [here, sub k]
      split <;> rfl
    have xframe : w.setReach n reach = { w with account := { w.account with subscribers := (w.setReach n reach).account.subscribers } } := rfl
    have heard : t = if heardZone ≠ v.heardZone ∧ ((w.setReach n reach).sub n).billing.notifyMoves = true then
        (w.setReach n reach).hand .tracker (recordMoved n v.heardZone heardZone e.link e.arrival) else w.setReach n reach := heard
    have notify : ((w.setReach n reach).sub n).billing.notifyMoves = u.billing.notifyMoves := by rw [xsub, if_pos rfl]
    rw [notify] at heard
    generalize w.setReach n reach = x at xsub xframe heard
    have xmsg (i : Nat) : x.msg i = w.msg i := by rw [xframe]; rfl
    have xlists : x.store.lists = w.store.lists := by rw [xframe]
    have xex : x.ex = w.ex := by rw [xframe]
    have xair : x.air = s.air := by rw [xframe, frame]
    have moves : t.ex = (s.handAll .tracker ((if v.unreachable then [recordReleased n held.length e.arrival] else []) ++
        if heardZone ≠ v.heardZone ∧ u.billing.notifyMoves = true then
          [recordMoved n v.heardZone heardZone e.link e.arrival] else [])).ex ∧ t = { x with ex := t.ex } := by
      rw [State.handAll_append, heard]
      split
      · exact ⟨State.handAll_congr (t := x) (xex.trans ex) (xair.trans (by rw [State.handAll_eq])) .tracker [_], rfl⟩
      · exact ⟨xex.trans ex, rfl⟩
    obtain ⟨handed, parts⟩ := moves
    have tsub (k : Nat) : t.sub k = x.sub k := by rw [parts]; rfl
    have tmsg (i : Nat) : t.msg i = x.msg i := by rw [parts]; rfl
    have tlists : t.store.lists = x.store.lists := by rw [parts]
    refine ⟨(tsub n).trans ((xsub n).trans (if_pos rfl)), fun k ne => (tsub k).trans ((xsub k).trans (if_neg ne)),
      fun i => (tmsg i).trans ((xmsg i).trans (msg i)), fun f => ?_, handed, ?_⟩
    · rw [tlists, xlists]
      exact lists f
    · clear_value t
      rw [parts, xframe, frame]

end Sys2Proof.Machine
end

section
/-! The expiry sweep and the closes from an air stop (O59). -/

namespace Sys2Proof.Machine

/-! ## A frame mark at the sweep (R108) -/

section
variable (s : State)

theorem State.returnPlaced_sweep (m : Nat) : (s.returnPlaced m).store.sweep = s.store.sweep := by
  have one (t : State) (i : Nat) : (t.returnOne i).store.sweep = t.store.sweep := by
    unfold State.returnOne
    simp only
    split_ifs <;> rfl
  unfold State.returnPlaced
  generalize s.msgsWhere _ = visited
  induction visited generalizing s with
  | nil => rfl
  | cons i rest ih => exact (ih _).trans (one s i)

theorem State.startSweep_sweep (m : Nat) : (s.startSweep m).store.sweep =
    if m % 32 = 0 then s.store.sweep.start (m / 32) else s.store.sweep := by
  unfold State.startSweep
  split <;> rfl

theorem State.takeMark_sweep : s.takeMark.store.sweep =
    if s.air.serial % 32 = 0 then s.store.sweep.start (s.air.serial / 32) else s.store.sweep := by
  have marked : s.handReport.linksTakeMark.store = s.store := by simp
  unfold State.takeMark
  simp only
  split
  · unfold State.beginFrame
    rw [State.startSweep_sweep, State.buildDue_store, State.cutBuild_store]
    show (if _ then Sweep.start s.handReport.linksTakeMark.store.sweep _ else s.handReport.linksTakeMark.store.sweep) = _
    rw [marked]
  · unfold State.endStopping
    rw [State.startSweep_sweep]
    show (if _ then Sweep.start (State.returnPlaced _ _).emptyPages.store.sweep _ else
      (State.returnPlaced _ _).emptyPages.store.sweep) = _
    rw [State.emptyPages_store, State.returnPlaced_sweep, State.stopBuild_store, State.cutBuild_store, marked]

theorem State.markDue_true (first : s.air.firstNext = true) (frames : s.engine.state = .running ∨ s.engine.state = .stopping) :
    s.markDue = true := by
  unfold State.markDue
  rw [first, decide_eq_true frames]
  rfl

theorem State.nextSerial_below (below : s.air.serial + 1 < 2 ^ 32) : s.nextSerial = s.air.serial + 1 := if_pos below

end

/-- At a mark the boundary's serial is the mark's, and its sweep is the mark's (R1, R108). -/
theorem State.boundary_marked {s : State} (due : s.markDue = true) (below : s.air.serial + 1 < 2 ^ 32) :
    s.boundary.air = s.airAfter (s.air.serial + 1) ∧ s.boundary.store.sweep =
      if (s.air.serial + 1) % 32 = 0 then s.store.sweep.start ((s.air.serial + 1) / 32) else s.store.sweep := by
  have air := s.airSteps_air true
  rw [if_pos rfl, s.nextSerial_below below] at air
  rw [State.boundary_eq, State.reportSteps_air, State.reportSteps_store]
  unfold State.beforeReports
  rw [if_pos due, State.takeMark_air, State.takeMark_sweep, air, State.airSteps_store]
  exact ⟨rfl, rfl⟩

/-- A close leaves the sweep (R107). -/
theorem State.close_sweep (s : State) (p : Producer) (i : Nat) (o : CloseOutcome) : (s.close p i o).store.sweep = s.store.sweep := by
  rw [(s.close_quiet p i o).store]
  unfold State.freeRecord State.leaveCollections
  cases (s.msg i).state <;> rfl

theorem State.execSweepClose_eq {s : State} {g : BitVec 8} (waits : s.store.sweep.waiting = some g)
    (holds : s.ex.writer.holds .messageStore = true) {t : State}
    (is : (if (s.msg s.store.sweep.next).generation = g ∧ (s.msg s.store.sweep.next).expiredAt s.store.sweep.bound = true then
      s.close .messageStore s.store.sweep.next .expired else s) = t) :
    exec .sweepClose s = .next (State.endUnit { t with store.sweep := t.store.sweep.advance } .messageStore) := by
  show execSweepClose s = _
  unfold execSweepClose
  rw [waits, ← is]
  exact if_pos holds

/-- Settles O59: the mark for the start, the record read for a visit and a close, the markers for an air-stop close. -/
theorem sweepAndAirStopClose : Obligations.SweepAndAirStopClose := by
  unfold Obligations.SweepAndAirStopClose
  intro s w i r m expired onward swept
  have moves : w.advance = onward := by
    unfold Sweep.advance
    exact if_congr (show w.next + 1 < 16384 ↔ w.next < 16383 by omega) rfl rfl
  have expires : r.expiredAt w.bound = true ↔ expired := decide_eq_true_iff
  refine ⟨fun first frames below => ?_, fun flies idle none => ⟨fun now => ?_, fun not => ?_⟩,
    fun g waits holds => ⟨fun same now => ?_, fun not => ?_⟩, fun k rest stops holds => ?_⟩
  · have due := s.markDue_true first frames
    have serial := s.nextSerial_below below
    obtain ⟨air, sweep⟩ := State.boundary_marked due below
    have marks : exec .frameMark s = .next s.boundary := congrArg Host.Outcome.next (if_pos due)
    have starts : (s.markDue = true ∧ s.nextSerial % 32 = 0) ↔ m % 32 = 0 := by
      rw [serial]
      exact and_iff_right due
    refine ⟨fun zero => ?_, fun other => congrArg Host.Outcome.next (if_neg fun h => other (starts.mp h))⟩
    rw [if_pos zero] at sweep
    refine ⟨s.boundary, congrArg Host.Outcome.next (if_pos (starts.mpr zero)), marks, by rw [air]; rfl,
      fun rests => sweep.trans (if_neg (by rw [rests]; decide)), fun flies => sweep.trans (if_pos flies)⟩
  · have work : State.hasWork { s with store.sweep := { w with waiting := some r.generation } } .messageStore = true :=
      Bool.or_true _
    obtain ⟨⟨mem, summary, slots, queue⟩, -, frame⟩ :=
      State.ask_keeps { s with store.sweep := { w with waiting := some r.generation } } .messageStore
    have runs : exec .sweepVisit s = .next
        (State.ask { s with store.sweep := { w with waiting := some r.generation } } .messageStore) :=
      (if_pos ⟨flies, idle, none⟩).trans (if_pos (expires.mpr now))
    exact ⟨_, runs, State.ask_asks work, mem, summary, slots, queue, frame⟩
  · rw [← moves]
    exact (if_pos ⟨flies, idle, none⟩).trans (if_neg fun now => not (expires.mp now))
  · have runs := State.execSweepClose_eq waits holds (if_pos ⟨same, expires.mpr now⟩)
    rw [State.close_sweep, moves] at runs
    exact runs
  · have runs := State.execSweepClose_eq waits holds (if_neg fun h => not ⟨h.1, expires.mp h.2⟩)
    rw [moves] at runs
    exact runs
  · intro stopped
    have runs {o : CloseOutcome} (is : (if (s.msg k).ackedPending then CloseOutcome.delivered else .cancelled) = o) :
        stopped o := by
      show execAirStopClose s = _
      unfold execAirStopClose
      rw [stops, ← is]
      exact if_pos holds
    exact ⟨fun acked => runs (if_pos acked), fun free => runs (if_neg (ne_true_of_eq_false free))⟩

end Sys2Proof.Machine
end

section
/-! The builder's acts on a candidate: reading, checks and place step (O55). -/

namespace Sys2Proof.Machine

/-! ## Zone sets (R117, R147) -/

/-- The set of the zones that satisfy a test holds exactly those. -/
theorem zonesWhere_getLsbD (p : Zone → Bool) (z : Zone) : (zonesWhere p).getLsbD z.val = p z := by
  have all : ∀ a b c d : Bool,
      let bits : ZoneSet := (List.finRange 4).foldl
        (fun acc z => if (match z with | 0 => a | 1 => b | 2 => c | 3 => d) then acc ||| zoneBit z else acc) 0
      bits.getLsbD 0 = a ∧ bits.getLsbD 1 = b ∧ bits.getLsbD 2 = c ∧ bits.getLsbD 3 = d := by decide
  have same : p = fun z => match z with | 0 => p 0 | 1 => p 1 | 2 => p 2 | 3 => p 3 := by
    funext z
    match z with
    | 0 | 1 | 2 | 3 => rfl
  obtain ⟨zero, one, two, three⟩ := all (p 0) (p 1) (p 2) (p 3)
  unfold zonesWhere
  rw [same]
  match z with
  | 0 => exact zero
  | 1 => exact one
  | 2 => exact two
  | 3 => exact three

/-- Whether a link lights a zone for a frame some marks ahead (R117, R136). -/
theorem Link.lights_iff {c : Link} {z : Zone} {steps : Nat} : c.lights z steps = true ↔
    c.settings.zone = some z ∧ (c.state = .keyed ∨ c.state = .standby) ∧ c.keyOffPending = false ∧
      skipAhead c.settings.skip steps c.skipCounter = false := by
  unfold Link.lights
  simp only [Bool.and_eq_true, decide_eq_true_eq, Bool.not_eq_true', and_assoc]

/-- The zones predicted lit (R117). -/
theorem State.predictLit_iff {s : State} {serial last : Nat} {z : Zone} : (s.predictLit serial last).getLsbD z.val = true ↔
    s.air.monitor.state ≠ .lost ∧ ∃ l, (s.link l).settings.zone = some z ∧
      ((s.link l).state = .keyed ∨ (s.link l).state = .standby) ∧ (s.link l).keyOffPending = false ∧
      skipAhead (s.link l).settings.skip (serial - last) (s.link l).skipCounter = false := by
  unfold State.predictLit
  by_cases lost : s.air.monitor.state = .lost
  · rw [if_pos lost]
    have dark : BitVec.getLsbD (0#4) z.val = false := BitVec.getLsbD_zero
    exact iff_of_false (fun lit => Bool.false_ne_true (dark.symm.trans lit)) fun h => h.1 lost
  · rw [if_neg lost, zonesWhere_getLsbD, List.any_eq_true]
    refine Iff.trans ⟨fun ⟨l, _, lights⟩ => ⟨l, Link.lights_iff.mp lights⟩,
      fun ⟨l, lights⟩ => ⟨l, List.mem_finRange l, Link.lights_iff.mpr lights⟩⟩ (and_iff_right lost).symm

/-! ## The five checks (R119 to R122) -/

section
variable (s : State) (r : MessageRecord)

/-- The zones a record is aimed at before darkness, as R121 tables them. -/
def State.aimed : ZoneSet :=
  let u := s.sub r.subscriber
  let fresh : ZoneSet := match u.reach.heardZone with
    | some z => if s.air.serial / 32 ≤ u.reach.heardCycle + s.engine.office.freshnessLimit then 1#4 <<< z.val else 0
    | none => 0
  if (s.classOf r.subscriber).twoWay = false then u.billing.homeZones
  else if r.attempts = 0 then (if fresh = 0 then u.billing.homeZones else fresh)
  else if r.attempts = 1 then u.billing.homeZones ||| fresh
  else 0xF

theorem State.targetZones_eq : s.targetZones r = s.aimed r := by
  have bit : ∀ z : Zone, (1#4 <<< z.val : ZoneSet) ≠ 0 := by decide
  unfold State.targetZones State.aimed State.freshZone
  cases two : (s.classOf r.subscriber).twoWay with
  | false => rfl
  | true =>
    simp only [if_true, Bool.true_eq_false, if_false, Nat.add_eq_right, Nat.reduceEqDiff]
    cases heard : (s.sub r.subscriber).reach.heardZone with
    | none => simp
    | some z =>
      by_cases fresh : s.air.serial / 32 ≤ (s.sub r.subscriber).reach.heardCycle + s.engine.office.freshnessLimit
      · have known : s.cycle ≤ (s.sub r.subscriber).reach.heardCycle + s.engine.office.freshnessLimit := fresh
        simp only [if_pos known, if_pos fresh, if_neg (bit z)]
        rfl
      · have stale : ¬ s.cycle ≤ (s.sub r.subscriber).reach.heardCycle + s.engine.office.freshnessLimit := fresh
        simp only [if_neg stale, if_neg fresh, if_true]
        rfl

/-- The tag a record holds once placed (R102, R105). -/
def State.placedTag : Option (Fin 8) :=
  if (s.classOf r.subscriber).twoWay = true ∧ r.tag = none then lowestTag (s.sub r.subscriber).store.tags else r.tag

/-- Whether a record that needs a tag has one to take (R105, R120). -/
def State.Tagged : Prop := (s.classOf r.subscriber).twoWay = true → s.placedTag r ≠ none

theorem State.tagged_iff : s.Tagged r ↔
    ¬ ((s.classOf r.subscriber).twoWay = true ∧ r.tag = none ∧ lowestTag (s.sub r.subscriber).store.tags = none) := by
  unfold State.Tagged State.placedTag
  by_cases two : (s.classOf r.subscriber).twoWay = true
  · by_cases bare : r.tag = none
    · simp [two, bare]
    · simp [two, bare]
  · simp [two]

/-- Whether a page has room for a record in every target zone (R122). -/
def FramePage.HasRoom (page : FramePage) (targets : ZoneSet) : Prop := ∀ z : Zone, targets.getLsbD z.val = true →
  (page.get z).length < 24 ∧ sectionBlocks (page.get z) + (2 + r.blocks) ≤ 118

theorem FramePage.hasRoom_iff {page : FramePage} {targets : ZoneSet} : page.admits targets r.cost = true ↔
    FramePage.HasRoom r page targets := by
  rw [FramePage.admits_iff]
  exact forall_congr' fun z => imp_congr_right fun _ => decide_eq_true_iff

end

/-- The five checks on a candidate (R119 to R122). -/
def State.PassesChecks (s : State) (b : Build) (r : MessageRecord) : Prop :=
  b.serial / 32 < r.expiry ∧ r.eligible ≤ b.serial / 32 ∧ s.inFlight r.subscriber < 4 ∧ s.Tagged r ∧
    s.aimed r &&& b.lit ≠ 0 ∧ FramePage.HasRoom r (s.builder.pages.get (pageOf b.serial)) (s.aimed r &&& b.lit)

section
variable {s : State} {b : Build} {i : Nat}

theorem State.candidateTargets_some (passes : s.PassesChecks b (s.msg i)) :
    s.candidateTargets b i = some (s.aimed (s.msg i) &&& b.lit) := by
  obtain ⟨alive, eligible, few, tagged, lit, room⟩ := passes
  unfold State.candidateTargets
  simp only [s.targetZones_eq]
  exact (if_neg (Nat.not_le.mpr alive)).trans ((if_neg (Nat.not_lt.mpr eligible)).trans ((if_neg (Nat.not_le.mpr few)).trans
    ((if_neg ((s.tagged_iff _).mp tagged)).trans ((if_neg lit).trans (if_pos ((FramePage.hasRoom_iff _).mpr room))))))

theorem State.candidateTargets_none (fails : ¬ s.PassesChecks b (s.msg i)) : s.candidateTargets b i = none := by
  unfold State.candidateTargets
  simp only [s.targetZones_eq]
  split_ifs with dead early many untagged dark room
  · rfl
  · rfl
  · rfl
  · rfl
  · rfl
  · exact absurd ⟨Nat.not_le.mp dead, Nat.not_lt.mp early, Nat.not_le.mp many, (s.tagged_iff _).mpr untagged, dark,
      (FramePage.hasRoom_iff _).mp room⟩ fails
  · rfl

end

/-! ## The place step (R102, R123) -/

/-- What a place request is granted on (R123). -/
def State.Grants (s : State) (b : Build) (c : Candidate) (targets : ZoneSet) : Prop :=
  let r := s.msg c.record
  r.generation = c.generation ∧ r.state = .waiting ∧ (s.sub r.subscriber).billing.slot = Fin.ofNat 32 b.serial ∧
    s.Tagged r ∧ s.inFlight r.subscriber < 4 ∧ FramePage.HasRoom r (s.builder.pages.get (pageOf b.serial)) targets

section
variable {s : State} {b : Build} {c : Candidate} {targets : ZoneSet}

theorem State.hasPlace_iff {i : Nat} : s.hasPlace b.serial i targets = true ↔
    s.inFlight (s.msg i).subscriber < 4 ∧ FramePage.HasRoom (s.msg i) (s.builder.pages.get (pageOf b.serial)) targets := by
  unfold State.hasPlace
  rw [Bool.and_eq_true, FramePage.hasRoom_iff]
  exact and_congr_left' decide_eq_true_iff

theorem State.judgePlace_granted (ahead : s.air.serial < b.serial) (running : s.engine.state = .running)
    (grants : s.Grants b c targets) : s.judgePlace b.serial c targets = .accepted (s.placedTag (s.msg c.record)) := by
  obtain ⟨same, waits, slot, tagged, few, room⟩ := grants
  have place : ¬ s.hasPlace b.serial c.record targets = false := by
    rw [State.hasPlace_iff.mpr ⟨few, room⟩]
    decide
  unfold State.judgePlace State.placedTag
  refine (if_neg (Nat.not_le.mpr ahead)).trans ((if_neg (not_not.mpr running)).trans ((if_neg ?_).trans
    ((if_neg (not_not.mpr slot)).trans ((if_neg place).trans ?_))))
  · exact fun h => h.elim (fun ne => ne same) fun ne => ne waits
  · split
    · next bare =>
      have some : lowestTag (s.sub (s.msg c.record).subscriber).store.tags ≠ none := fun none =>
        (s.tagged_iff _).mp tagged ⟨bare.1, bare.2, none⟩
      cases lowest : lowestTag (s.sub (s.msg c.record).subscriber).store.tags with
      | none => exact absurd lowest some
      | some tag => rfl
    · rfl

theorem State.judgePlace_refused (ahead : s.air.serial < b.serial) (running : s.engine.state = .running)
    (refuses : ¬ s.Grants b c targets) : s.judgePlace b.serial c targets = .refused := by
  unfold State.judgePlace
  refine (if_neg (Nat.not_le.mpr ahead)).trans ((if_neg (not_not.mpr running)).trans ?_)
  split_ifs with stale moved full bare
  · rfl
  · rfl
  · rfl
  · obtain ⟨few, room⟩ := State.hasPlace_iff.mp (Bool.not_eq_false _ ▸ full)
    cases lowest : lowestTag (s.sub (s.msg c.record).subscriber).store.tags with
    | none => rfl
    | some tag =>
      refine absurd ⟨not_not.mp (not_or.mp stale).1, not_not.mp (not_or.mp stale).2, not_not.mp moved,
        (s.tagged_iff (s.msg c.record)).mpr fun h => ?_, few, room⟩ refuses
      rw [lowest] at h
      exact nomatch h.2.2
  · obtain ⟨few, room⟩ := State.hasPlace_iff.mp (Bool.not_eq_false _ ▸ full)
    exact absurd ⟨not_not.mp (not_or.mp stale).1, not_not.mp (not_or.mp stale).2, not_not.mp moved,
      (s.tagged_iff (s.msg c.record)).mpr fun h => bare ⟨h.1, h.2.1⟩, few, room⟩ refuses

end

/-- What an accepted placement leaves: the record PLACED, out of its list, its tag taken, its entry in each target zone's
section (R102, R105, R123). -/
structure State.Placed (s t : State) (serial i : Nat) (tag : Option (Fin 8)) (targets : ZoneSet) : Prop where
  record : t.msg i = { s.msg i with state := .placed, tag := tag, placedSerial := some serial, placedZones := targets }
  others : ∀ j, j ≠ i → t.msg j = s.msg j
  lists : ∀ f : Fin 32, t.store.lists.get f =
    if f = (s.sub (s.msg i).subscriber).billing.slot then (s.store.lists.get f).filter fun j => decide (j ≠ i)
    else s.store.lists.get f
  tags : t.sub (s.msg i).subscriber = { s.sub (s.msg i).subscriber with
    store := ⟨(s.sub (s.msg i).subscriber).store.openCount,
      (s.sub (s.msg i).subscriber).store.tags ||| tag.elim 0 tagBit⟩ }
  subscribers : ∀ k, k ≠ (s.msg i).subscriber → t.sub k = s.sub k
  pages : ∀ k z, (t.builder.pages.get k).get z =
    if k = pageOf serial ∧ targets.getLsbD z.val = true then
      (s.builder.pages.get k).get z ++
        [⟨i, (s.msg i).generation, MessageRecord.pageWords { s.msg i with tag := tag } s.engine.office.code⟩]
    else (s.builder.pages.get k).get z
  frame : t = { s with
    account := { s.account with subscribers := t.account.subscribers }
    store := { s.store with records := t.store.records, lists := t.store.lists }
    builder := { s.builder with pages := t.builder.pages } }

theorem placeEntry_get (page : FramePage) (targets : ZoneSet) (e : PageEntry) (z : Zone) :
    (placeEntry page targets e).get z = if targets.getLsbD z.val = true then page.get z ++ [e] else page.get z := by
  unfold placeEntry
  show (Vector.ofFn _)[z.val] = _
  rw [Vector.getElem_ofFn]

theorem State.place_placed {s : State} (canon : s.Canon) (serial i : Nat) (tag : Option (Fin 8)) (targets : ZoneSet) :
    s.Placed (s.place serial i tag targets) serial i tag targets where
  record := (State.msg_setMsg canon.records i i _).trans (if_pos rfl)
  others j other := (State.msg_setMsg canon.records i j _).trans (if_neg other)
  lists := s.delist_lists i
  tags := (State.sub_setSub canon.subscribers (s.msg i).subscriber _ _).trans (if_pos rfl)
  subscribers k other := (State.sub_setSub canon.subscribers (s.msg i).subscriber k _).trans (if_neg other)
  pages k z := by
    have page : (s.place serial i tag targets).builder.pages.get k = _ := framePages_set _ (pageOf serial) k _
    rw [page]
    by_cases own : k = pageOf serial
    · subst own
      rw [if_pos rfl, placeEntry_get]
      simp only [true_and]
      rfl
    · rw [if_neg own, if_neg fun h => own h.1]
      rfl
  frame := rfl

/-- Settles O55: the candidate read, its checks, its place step. -/
theorem candidatePlacedOrSkipped : Obligations.CandidatePlacedOrSkipped := by
  unfold Obligations.CandidatePlacedOrSkipped
  intro s b tidy hand answers builds stopped walksOn page room tagOf tagged
  refine ⟨fun idle => ?_, fun c chosen unsent => ?_, fun c targets chosen sent => ?_⟩
  · have runs : exec .buildCandidate s = .next (s.readCandidate b) := by
      show execBuildCandidate s = _
      unfold execBuildCandidate
      rw [hand]
      simp only [idle]
    refine ⟨fun off => runs.trans (congrArg Host.Outcome.next (if_pos off)), fun running none => ?_, fun i rest running some => ?_⟩
    · have ends : exec .buildCandidate s = .next (s.endBuild fun d => s.predictLit d s.air.serial) := by
        refine runs.trans (congrArg Host.Outcome.next ((if_neg (not_not.mpr running)).trans ?_))
        rw [none]
      refine ⟨fun free => ?_, fun d due => ⟨s.predictLit d s.air.serial, ?_, fun z => State.predictLit_iff⟩⟩
      · refine ends.trans ?_
        unfold State.endBuild
        rw [free]
      · refine ends.trans ?_
        unfold State.endBuild
        rw [due]
    · refine runs.trans (congrArg Host.Outcome.next ((if_neg (not_not.mpr running)).trans ?_))
      rw [some]
      rfl
  · have runs : exec .buildCandidate s = .next (s.checkCandidate b c) := by
      show execBuildCandidate s = _
      unfold execBuildCandidate
      rw [hand]
      simp only [chosen, unsent]
    intro r u fresh aimed targets passes
    constructor
    · intro fails
      refine runs.trans ?_
      unfold State.checkCandidate
      rw [State.candidateTargets_none fails]
      rfl
    · intro holds
      refine runs.trans ?_
      unfold State.checkCandidate
      rw [State.candidateTargets_some holds]
      rfl
  · have runs : exec .buildCandidate s = .next (s.placeCandidate b c targets) := by
      show execBuildCandidate s = _
      unfold execBuildCandidate
      rw [hand]
      simp only [chosen, sent]
    intro r u granted
    refine ⟨fun late => ?_, fun ahead off => ?_, fun ahead running refuses => ?_, fun ahead running grants => ?_⟩
    · have judged : s.judgePlace b.serial c targets = .late := if_pos late
      refine runs.trans ?_
      unfold State.placeCandidate
      rw [judged]
      rfl
    · have judged : s.judgePlace b.serial c targets = .ended := (if_neg (Nat.not_le.mpr ahead)).trans (if_pos off)
      refine runs.trans ?_
      unfold State.placeCandidate
      rw [judged]
      rfl
    · refine runs.trans ?_
      unfold State.placeCandidate
      rw [State.judgePlace_refused ahead running refuses]
      rfl
    · have taken : (s.placedTag r).elim 0 tagBit = match tagOf r with | some g => 1#8 <<< g.val | none => 0 := by
        show (s.placedTag r).elim 0 tagBit = match s.placedTag r with | some g => 1#8 <<< g.val | none => 0
        cases s.placedTag r <;> rfl
      have placed := State.place_placed (s := s.setBuild { b with candidate := none }) ⟨tidy.subscribers, tidy.records⟩ b.serial c.record
        (s.placedTag r) targets
      refine ⟨_, runs.trans ?_, placed.record, placed.others, placed.lists,
        placed.tags.trans (congrArg (fun tags : TagSet => ({ u with store := ⟨u.store.openCount, u.store.tags ||| tags⟩ } : Subscriber))
          taken), placed.subscribers, fun k z => ?_,
        placed.frame⟩
      · unfold State.placeCandidate
        rw [State.judgePlace_granted ahead running grants]
      · refine (placed.pages k z).trans ?_
        by_cases own : k = pageOf b.serial ∧ targets.getLsbD z.val = true
        · rw [if_pos own]
          obtain ⟨rfl, lit⟩ := own
          exact (if_pos ⟨rfl, lit⟩).symm
        · exact (if_neg own).trans (if_neg own).symm

end Sys2Proof.Machine
end

section
/-! A link controller at a frame mark, said once (O50 to O52). -/

namespace Sys2Proof.Machine

/-! ## Skip frames (R136) -/

/-- Whether the next KEYED mark is a skip frame of a link (R136). -/
def Link.Skips (c : Link) : Prop := ∃ n, c.settings.skip.length = some n ∧ c.skipCounter + 1 = n

section
variable (skip : Skip) (counter : Nat)

theorem skipStep_skips : (skipStep skip counter).2 = true ↔ ∃ n, skip.length = some n ∧ counter + 1 = n := by
  unfold skipStep
  cases skip.length with
  | none => exact iff_of_false Bool.false_ne_true fun ⟨n, never, _⟩ => nomatch never
  | some n =>
    by_cases last : counter + 1 = n
    · exact iff_of_true (congrArg Prod.snd (if_pos last)) ⟨n, rfl, last⟩
    · refine iff_of_false (fun h => ?_) fun ⟨k, same, other⟩ => last (other.trans (Option.some.inj same).symm)
      simp only [if_neg last] at h
      cases h

theorem skipStep_counter [Decidable (∃ n, skip.length = some n ∧ counter + 1 = n)] : (skipStep skip counter).1 =
    if skip = .none then counter else if ∃ n, skip.length = some n ∧ counter + 1 = n then 0 else counter + 1 := by
  have skips := skipStep_skips skip counter
  by_cases none : skip = .none
  · rw [if_pos none, none]
    rfl
  · rw [if_neg none]
    obtain ⟨n, length⟩ : ∃ n, skip.length = some n := by
      cases skip with
      | none => exact absurd rfl none
      | oneIn5 => exact ⟨5, rfl⟩
      | oneIn6 => exact ⟨6, rfl⟩
      | oneIn7 => exact ⟨7, rfl⟩
    by_cases last : counter + 1 = n
    · rw [if_pos ⟨n, length, last⟩]
      unfold skipStep
      rw [length]
      exact congrArg Prod.fst (if_pos last)
    · rw [if_neg fun h => last (h.choose_spec.2.trans (Option.some.inj (length.symm.trans h.choose_spec.1)).symm)]
      unfold skipStep
      rw [length]
      exact congrArg Prod.fst (if_neg last)

end

/-! ## The frame that ends (R135, R138) -/

/-- What the end of a frame leaves of a link, whatever it observes. -/
structure Link.Bears (c d : Link) : Prop where
  settings : d.settings = c.settings
  skipCounter : d.skipCounter = c.skipCounter
  carried : d.carried = c.carried
  pending : d.keyOffPending = c.keyOffPending
  divider : d.divider = c.divider
  dropped : d.dropped = c.dropped
  clearCount : d.clearCount = c.clearCount
  alarmCount : d.alarmCount = c.alarmCount
  recovery : d.recovery = c.recovery

theorem Link.Bears.refl (c : Link) : c.Bears c := ⟨rfl, rfl, rfl, rfl, rfl, rfl, rfl, rfl, rfl⟩

theorem Link.takeFault_bears (c : Link) (kind : Observation) (at_ : Sighting) : c.Bears (c.takeFault kind at_) := by
  have strike : c.Bears (if c.settings.tripCount ≤ c.faultRun + 1 then
      c.tripAt ⟨at_.serial, at_.position, kind, at_.alarms⟩ at_.now else { c with faultRun := c.faultRun + 1 }) := by
    split
    · exact ⟨rfl, rfl, rfl, rfl, rfl, rfl, rfl, rfl, rfl⟩
    · exact { Link.Bears.refl c with }
  cases state : c.state with
  | standby => exact Link.takeFault_service kind (.inl state) ▸ strike
  | keyed => exact Link.takeFault_service kind (.inr state) ▸ strike
  | tripped => exact Link.takeFault_tripped kind state ▸ { Link.Bears.refl c with }
  | latched => exact (Link.takeFault_resting (at_ := at_) kind (.inl state)).symm ▸ .refl c
  | override => exact (Link.takeFault_resting (at_ := at_) kind (.inr state)).symm ▸ .refl c
  | off =>
    unfold Link.takeFault
    rw [state]
    exact .refl c

theorem Link.observe_silent_bears (c : Link) (at_ : Sighting) : c.Bears (c.observe .silent at_) := by
  by_cases blanks : 0 < c.blanking
  · rw [Link.observe_blanked .silent blanks]
    exact { Link.Bears.refl c with }
  · rw [Link.observe_fault (kind := .silent) nofun (Nat.eq_zero_of_not_pos blanks)]
    have bears := (c.noted .silent).takeFault_bears .silent at_
    exact { bears with }

section
variable (c : Link) (v : MarkView)

theorem Link.endFrame_bears : Link.Bears { c with carried := c.keyed, keyed := false } (c.endFrame v) := by
  unfold Link.endFrame
  simp only
  split
  · split
    · exact Link.observe_silent_bears _ _
    · exact .refl _
  · exact .refl _

/-- No observation is made of a link that is OFF, whose frame had a status message, or at a mark that ends no frame
(R135). -/
theorem Link.endFrame_unobserved (none : v.ended = none ∨ c.state = .off ∨ c.statusTaken = true) :
    c.endFrame v = { c with carried := c.keyed, keyed := false } := by
  unfold Link.endFrame
  cases ended : v.ended with
  | none => rfl
  | some serial =>
    rcases none with never | off | taken
    · rw [ended] at never
      cases never
    · exact if_neg fun h => h.1 off
    · exact if_neg fun h => Bool.false_ne_true (h.2.symm.trans taken)

theorem Link.cleanFrame_skipCounter : (c.cleanFrame v).skipCounter = c.skipCounter := by
  unfold Link.cleanFrame
  split_ifs <;> rfl

theorem Link.changeOver_skipCounter : c.changeOver.skipCounter = c.skipCounter := by
  unfold Link.changeOver
  simp only
  split_ifs <;> rfl

theorem Link.changeOver_carried : c.changeOver.carried = c.carried := by
  unfold Link.changeOver
  simp only
  split_ifs <;> rfl

theorem Link.changeOver_settings : c.changeOver.settings = c.settings := by
  unfold Link.changeOver
  simp only
  split_ifs <;> rfl

theorem Link.changeOver_divider : c.changeOver.divider = c.divider := by
  unfold Link.changeOver
  simp only
  split_ifs <;> rfl

theorem Link.changeOver_dropped : c.changeOver.dropped = c.dropped := by
  unfold Link.changeOver
  simp only
  split_ifs <;> rfl

/-- A pending key-off takes the link to OVERRIDE (R133). -/
theorem Link.changeOver_pending (pending : c.keyOffPending = true) :
    c.changeOver.state = .override ∧ c.changeOver.keyOffPending = false := by
  have changed : c.changeOver = if c.toOverride.state = .standby then c.toOverride.moveTo .keyed else c.toOverride := by
    unfold Link.changeOver
    rw [if_pos pending]
  have away : c.toOverride.state ≠ .standby := show LinkState.override ≠ .standby by decide
  rw [changed, if_neg away]
  exact ⟨rfl, rfl⟩

/-! ## Steps 1 to 3 of a mark (R135) -/

/-- A link as keying is judged at a mark. -/
structure Link.Approaches (c e : Link) (v : MarkView) : Prop where
  settings : e.settings = c.settings
  skipCounter : e.skipCounter = c.skipCounter
  carried : e.carried = c.keyed
  divider : e.divider = c.divider
  dropped : e.dropped = c.dropped
  keyed : e.keyed = false
  pending : c.keyOffPending = true → e.state = .override ∧ e.keyOffPending = false
  off : c.state = .off → c.keyOffPending = false → e.state = .off
  serves : c.keyOffPending = false → e.state = if (c.endFrame v).state = .standby then .keyed else (c.endFrame v).state

theorem Link.beforeKeying_approaches : c.Approaches (c.beforeKeying v) v := by
  have bears := c.endFrame_bears v
  obtain ⟨kept, state, keyed, carried, blanking, pending, divider, same⟩ := (c.endFrame v).cleanFrame_spec v
  have serves (none : c.keyOffPending = false) : (c.beforeKeying v).state =
      if (c.endFrame v).state = .standby then .keyed else (c.endFrame v).state := by
    obtain ⟨-, changed, -⟩ := Link.changeOver_spec (pending.trans (bears.pending.trans none))
    rw [state] at changed
    exact changed
  refine
    { settings := (Link.changeOver_settings _).trans (kept.settings.trans bears.settings)
      skipCounter := (Link.changeOver_skipCounter _).trans ((Link.cleanFrame_skipCounter _ v).trans bears.skipCounter)
      carried := (Link.changeOver_carried _).trans (carried.trans bears.carried)
      divider := (Link.changeOver_divider _).trans (divider.trans bears.divider)
      dropped := (Link.changeOver_dropped _).trans (kept.dropped.trans bears.dropped)
      keyed := c.beforeKeying_keyed v
      pending := fun set => Link.changeOver_pending _ (pending.trans (bears.pending.trans set))
      off := fun off none => ?_
      serves := serves }
  rw [serves none, c.endFrame_unobserved v (.inr (.inl off))]
  show (if c.state = .standby then LinkState.keyed else c.state) = .off
  rw [off]
  rfl

end

/-! ## Keying and the divider (R135, R136, R137, R144) -/

/-- A link that has taken a mark, from the link as keying was judged. -/
structure Link.Marked (e d : Link) (v : MarkView) : Prop where
  settings : d.settings = e.settings
  carried : d.carried = e.carried
  state : d.state = e.state
  pending : d.keyOffPending = e.keyOffPending
  taken : d.statusTaken = false
  divider : d.divider = e.raiseDivider.divider
  keyed : v.running = true → (d.keyed = true ↔
    e.state = .keyed ∧ v.reference = true ∧ e.settings.zone.isSome = true ∧ ¬ e.Skips)
  blanking : v.running = true → d.keyed = true → e.carried = false → d.blanking = e.settings.blankingCount
  skipCounter : v.running = true → e.state = .keyed → d.skipCounter = (skipStep e.settings.skip e.skipCounter).1
  unkeyed : v.running = false → d.keyed = false

/-- The divider is a matter of state, cadence and divider alone (R144). -/
theorem Link.raiseDivider_congr {c e : Link} (state : e.state = c.state) (divider : e.divider = c.divider)
    (settings : e.settings = c.settings) : e.raiseDivider.divider = c.raiseDivider.divider := by
  unfold Link.raiseDivider Link.offers
  rw [state, divider, settings]
  split
  · exact divider
  · rfl

theorem Link.takeMark_marked (c : Link) (v : MarkView) : (c.beforeKeying v).Marked (c.takeMark v) v := by
  have off := c.beforeKeying_keyed v
  unfold Link.takeMark
  rw [Link.raiseDivider_eq]
  generalize c.beforeKeying v = e at *
  obtain ⟨kept, state, -, divider, -, same⟩ := e.judgeKeying_spec v
  have dividers := Link.raiseDivider_congr state divider kept.settings
  by_cases judged : v.running = true ∧ e.state = .keyed
  · have eq : e.judgeKeying v = _ := if_pos judged
    have skips := skipStep_skips e.settings.skip e.skipCounter
    have keyed : (e.judgeKeying v).keyed =
        (v.reference && !(skipStep e.settings.skip e.skipCounter).2 && e.settings.zone.isSome) := by rw [eq]
    exact
      { settings := kept.settings
        carried := by rw [eq]
        state := state
        pending := by rw [eq]
        taken := rfl
        divider := dividers
        keyed := fun _ => by
          show (e.judgeKeying v).keyed = true ↔ _
          rw [keyed, Bool.and_eq_true, Bool.and_eq_true, Bool.not_eq_true', ← Bool.not_eq_true, skips]
          exact ⟨fun h => ⟨judged.2, h.1.1, h.2, h.1.2⟩, fun h => ⟨⟨h.2.1, h.2.2.2⟩, h.2.2.1⟩⟩
        blanking := fun _ on before => by
          show (e.judgeKeying v).blanking = _
          have on : (e.judgeKeying v).keyed = true := on
          rw [keyed] at on
          rw [eq]
          exact if_pos ⟨on, before⟩
        skipCounter := fun _ _ => by
          show (e.judgeKeying v).skipCounter = _
          rw [eq]
        unkeyed := fun never => absurd judged.1 (by rw [never]; decide) }
  · have eq : e.judgeKeying v = e := if_neg judged
    have dark : (e.judgeKeying v).keyed = false := eq.symm ▸ off
    exact
      { settings := kept.settings
        carried := by rw [eq]
        state := state
        pending := by rw [eq]
        taken := rfl
        divider := dividers
        keyed := fun running => iff_of_false (fun on => Bool.false_ne_true (dark.symm.trans on)) fun h => judged ⟨running, h.1⟩
        blanking := fun _ on => absurd (dark.symm.trans on) Bool.false_ne_true
        skipCounter := fun running keyed => absurd ⟨running, keyed⟩ judged
        unkeyed := fun _ => dark }

theorem Link.takeMark_dropped (c : Link) (v : MarkView) : (c.takeMark v).dropped = c.dropped := by
  have kept := ((c.beforeKeying v).judgeKeying_spec v).1
  unfold Link.takeMark
  rw [Link.raiseDivider_eq]
  exact kept.dropped.trans (c.beforeKeying_approaches v).dropped

end Sys2Proof.Machine
end

section
/-! The frame mark as every block takes it, whatever the engine state (O50 to O52). -/

namespace Sys2Proof.Machine

/-! ## The zones the frame that ends was sent in (R147) -/

theorem State.successfulZones_iff (s : State) (z : Zone) : s.successfulZones.getLsbD z.val = true ↔
    ∃ l, (s.link l).keyed = true ∧ (s.link l).settings.zone = some z := by
  unfold State.successfulZones
  rw [zonesWhere_getLsbD, List.any_eq_true]
  constructor
  · intro ⟨l, _, carries⟩
    obtain ⟨keyed, zone⟩ := Bool.and_eq_true_iff.mp carries
    exact ⟨l, keyed, of_decide_eq_true zone⟩
  · intro ⟨l, keyed, zone⟩
    exact ⟨l, List.mem_finRange l, Bool.and_eq_true_iff.mpr ⟨keyed, decide_eq_true zone⟩⟩

/-- The airing report of the frame that ends, with the zones it was sent in (R147, R157). -/
theorem State.handReport_tracker (s : State) : s.handReport.tracker = { s.tracker with
    settle := s.tracker.settle ++ match s.frame with
      | some f => f.entries.map fun e => ⟨e.1, e.2, f.serial, s.successfulZones⟩
      | none => [] } := by
  unfold State.handReport
  cases s.frame with
  | none =>
    show s.tracker = { s.tracker with settle := s.tracker.settle ++ [] }
    rw [List.append_nil]
  | some f => rfl

/-! ## The mark, block by block (R4) -/

section
variable (s : State)

theorem State.linksTakeMark_link (l : Index8) : s.linksTakeMark.link l = (s.link l).takeMark s.markView := by
  simp [State.linksTakeMark, State.link]

theorem State.handReport_markView : s.handReport.markView = s.markView := by
  simp [State.markView]

theorem State.takeMark_link (l : Index8) : s.takeMark.link l = (s.link l).takeMark s.markView := by
  have taken : s.handReport.linksTakeMark.link l = (s.link l).takeMark s.markView := by
    rw [State.linksTakeMark_link, State.handReport_markView, State.link, State.handReport_links, ← State.link]
  unfold State.takeMark
  simp only
  split
  · rw [State.link, State.beginFrame_links, ← State.link, taken]
  · rw [State.link, State.endStopping_links, ← State.link, taken]

theorem State.takeMark_tracker : s.takeMark.tracker = s.handReport.tracker := by
  unfold State.takeMark
  simp only
  split
  · rw [State.beginFrame_tracker, State.linksTakeMark_tracker]
  · rw [State.endStopping_tracker, State.linksTakeMark_tracker]

/-- Whether a link trips at the mark (R140, R143). -/
def State.tripsAtMark : Bool := (List.finRange 8).any fun l => Link.tripped (s.link l) ((s.link l).endFrame s.markView)

theorem State.linksTakeMark_ex : s.linksTakeMark.ex =
    { s.ex with summary := { s.ex.summary with link := s.ex.summary.link || s.tripsAtMark } } := rfl

theorem State.beginFrame_ex (m : Nat) (lit : Nat → ZoneSet) :
    (s.beginFrame m lit).ex = { s.ex with choices := s.ex.choices + 1 } := by
  unfold State.beginFrame
  rw [State.startSweep_ex, State.buildDue_ex, State.cutBuild_ex]
  rfl

theorem State.endStopping_ex (m : Nat) : (s.endStopping m).ex =
    { s.ex with summary := { s.ex.summary with engine := true } } := by
  have returned : ((s.cutBuild m fun _ => 0).stopBuild.returnPlaced m).ex = s.ex := by
    rw [State.returnPlaced_ex, State.stopBuild_ex, State.cutBuild_ex]
  unfold State.endStopping
  rw [State.startSweep_ex]
  show (State.setEngineBit { (State.emptyPages (State.returnPlaced _ m)) with frame := none, engine.state := _ }).ex = _
  rw [← returned]
  rfl

theorem State.handReport_tripsAtMark : s.handReport.tripsAtMark = s.tripsAtMark := by
  unfold State.tripsAtMark
  rw [State.handReport_markView]
  simp only [State.link, State.handReport_links]

/-- The bits a mark sets: LINK where a link trips, and ENGINE where STOPPING ends (R96, R143, R179). -/
theorem State.takeMark_summary : s.takeMark.ex.summary =
    { s.ex.summary with
      link := s.ex.summary.link || s.tripsAtMark
      engine := if s.engine.state = .running then s.ex.summary.engine else true } := by
  have marked : s.handReport.linksTakeMark.ex.summary =
      { s.ex.summary with link := s.ex.summary.link || s.tripsAtMark } := by
    rw [State.linksTakeMark_ex, State.handReport_ex, State.handReport_tripsAtMark]
  unfold State.takeMark
  simp only
  split
  · rw [State.beginFrame_ex, marked]
  · rw [State.endStopping_ex, marked]

theorem State.takeMark_notices : s.takeMark.ex.notices = s.ex.notices := by
  have marked : s.handReport.linksTakeMark.ex.notices = s.ex.notices := by
    rw [State.linksTakeMark_ex, State.handReport_ex]
  unfold State.takeMark
  simp only
  split
  · rw [State.beginFrame_ex, marked]
  · rw [State.endStopping_ex, marked]

/-! ## The boundary that is a mark (R1, R4) -/

/-- What the controllers read at the next mark. -/
def State.nextView : MarkView :=
  ⟨decide (s.engine.state = .running), s.frame.map (·.serial), s.air.serial + 1,
    decide ((s.airAfter (s.air.serial + 1)).monitor.state = .locked ∨ (s.airAfter (s.air.serial + 1)).monitor.state = .holdover)⟩

end

/-- What a boundary that is a mark leaves of every block but the encoder, the builder and the message store. -/
structure State.Marked (s t : State) : Prop where
  air : t.air = s.airAfter (s.air.serial + 1)
  pending : t.pending = s.pending
  account : t.account = s.account
  arbiter : t.arbiter = s.arbiter
  offered : ∀ l, (s.link l).offers = true → Link.Offered ((s.link l).takeMark s.nextView) (t.link l)
  quiet : ∀ l, (s.link l).offers = false → t.link l = (s.link l).takeMark s.nextView
  tracker : t.tracker = s.handReport.tracker
  notices : .frameSerial ∈ t.ex.notices ∧ .officeClock ∈ t.ex.notices
  slots : t.ex.slots = s.ex.slots
  queue : t.ex.queue = s.ex.queue
  answered : t.ex.answered = s.ex.answered
  fence : t.ex.fence = s.ex.fence
  buffer : t.ex.buffer = s.ex.buffer
  enable : t.ex.enable = s.ex.enable
  bus : t.ex.bus = s.ex.bus
  read : t.ex.read = s.ex.read
  progress : t.ex.progress = s.ex.progress
  answers : t.ex.summary.answers = s.ex.summary.answers
  fenceBit : t.ex.summary.fence = s.ex.summary.fence
  linkBit : t.ex.summary.link = (s.ex.summary.link ||
    (List.finRange 8).any fun l => Link.tripped (s.link l) ((s.link l).endFrame s.nextView))
  referenceBit : t.ex.summary.reference = (s.ex.summary.reference || s.air.monitor.passes s.engine.office.holdoverLimit)
  engineBit : t.ex.summary.engine = if s.engine.state = .running then s.ex.summary.engine else true

/-- The state as the blocks find it at a mark (R1). -/
theorem State.airSteps_mark {s : State} (frames : s.engine.state = .running ∨ s.engine.state = .stopping)
    (below : s.air.serial + 1 < 2 ^ 32) :
    s.airSteps true = { s with air := s.airAfter (s.air.serial + 1), ex := (s.airSteps true).ex } := by
  have still : s.engine.state = .starting → s.air.monitor.state ≠ .locked := by
    intro starts
    rw [starts] at frames
    rcases frames with never | never <;> cases never
  have air := s.airSteps_air true
  rw [if_pos rfl, s.nextSerial_below below] at air
  have engine := (s.airSteps_summary true still).2
  have parts := s.airSteps_parts true
  rw [engine, air] at parts
  exact parts

theorem State.offering_iff (s : State) (l : Index8) : l ∈ s.offering ↔ (s.link l).offers = true := by
  unfold State.offering
  rw [List.mem_filter]
  exact and_iff_right (List.mem_finRange l)

theorem State.boundary_mark {s : State} (first : s.air.firstNext = true)
    (frames : s.engine.state = .running ∨ s.engine.state = .stopping) :
    s.boundary = (s.airSteps true).takeMark.reportSteps s.offering := by
  have due := s.markDue_true first frames
  rw [State.boundary_eq, State.beforeReports, if_pos due, if_pos due]

theorem State.boundary_spec {s : State} (first : s.air.firstNext = true)
    (frames : s.engine.state = .running ∨ s.engine.state = .stopping) (below : s.air.serial + 1 < 2 ^ 32) :
    s.Marked s.boundary := by
  have still : s.engine.state = .starting → s.air.monitor.state ≠ .locked := by
    intro starts
    rw [starts] at frames
    rcases frames with never | never <;> cases never
  have reports := (s.airSteps true).takeMark.reportSteps_reports s.offering_nodup
  have same := State.airSteps_mark frames below
  have bits := (s.airSteps_summary true still).1
  have notices := s.airSteps_notices true
  have signals := (s.airSteps_signals true).trans (s.airSteps true).takeMark_signals
  have links := (s.airSteps true).takeMark_link
  have tracker := (s.airSteps true).takeMark_tracker
  have summary := (s.airSteps true).takeMark_summary
  have kept := (s.airSteps true).takeMark_notices
  have air := (s.airSteps true).takeMark_air
  have pending := (s.airSteps true).takeMark_pending
  have account := (s.airSteps true).takeMark_account
  have arbiter := (s.airSteps true).takeMark_arbiter
  rw [← State.boundary_mark first frames] at reports
  generalize (s.airSteps true).takeMark = u at *
  generalize s.airSteps true = v at *
  have view : v.markView = s.nextView := by rw [same]; rfl
  have trips : v.tripsAtMark = (List.finRange 8).any fun l => Link.tripped (s.link l) ((s.link l).endFrame s.nextView) := by
    unfold State.tripsAtMark
    rw [view, same]
    rfl
  have found (l : Index8) : u.link l = (s.link l).takeMark s.nextView := by
    rw [links l, view, same]
    rfl
  have running : v.engine = s.engine := by rw [same]
  unfold Exchange.Signals at signals
  rw [bits, trips, running] at summary
  obtain ⟨rep, offered, other, frame⟩ := reports
  have moved (f : State → Prop) (h : f { u with links := s.boundary.links, ex := s.boundary.ex }) : f s.boundary := frame ▸ h
  exact
    { air := moved (·.air = _) (air.trans (by rw [same]))
      pending := moved (·.pending = _) (pending.trans (by rw [same]))
      account := moved (·.account = _) (account.trans (by rw [same]))
      arbiter := moved (·.arbiter = _) (arbiter.trans (by rw [same]))
      offered := fun l offers => found l ▸ offered l ((s.offering_iff l).mpr offers)
      quiet := fun l none => (other l fun listed => Bool.false_ne_true (none.symm.trans ((s.offering_iff l).mp listed))).trans (found l)
      tracker := moved (·.tracker = _) (tracker.trans (by rw [State.handReport_tracker, State.handReport_tracker, same]; rfl))
      notices := ⟨rep.notices _ (kept.symm ▸ notices.2 rfl), rep.notices _ (kept.symm ▸ notices.1)⟩
      slots := rep.slots.trans (congrArg Exchange.slots signals :)
      queue := rep.queue.trans (congrArg Exchange.queue signals :)
      answered := rep.answered.trans (congrArg Exchange.answered signals :)
      fence := rep.fence.trans (congrArg Exchange.fence signals :)
      buffer := rep.buffer.trans (congrArg Exchange.buffer signals :)
      enable := rep.enable.trans (congrArg Exchange.enable signals :)
      bus := rep.bus.trans (congrArg Exchange.bus signals :)
      read := rep.read.trans (congrArg Exchange.read signals :)
      progress := rep.progress.trans (congrArg Exchange.progress signals :)
      answers := rep.answers.trans (congrArg EventBits.answers summary :)
      fenceBit := rep.fenceBit.trans (congrArg EventBits.fence summary :)
      linkBit := rep.linkBit.trans (congrArg EventBits.link summary :)
      referenceBit := rep.referenceBit.trans (congrArg EventBits.reference summary :)
      engineBit := rep.engineBit.trans (congrArg EventBits.engine summary :) }

/-! ## A link after the boundary -/

/-- The two links differ in status counts and dropped count alone (R144). -/
def Link.Counted (c d : Link) : Prop := d = { c with
  clearCount := d.clearCount, alarmCount := d.alarmCount, silentCount := d.silentCount, blankedCount := d.blankedCount,
  dropped := d.dropped }

theorem Link.Offered.counted {c d : Link} (offered : c.Offered d) : c.Counted d := by
  rcases offered with rfl | rfl <;> rfl

theorem State.Marked.counted {s t : State} (marked : s.Marked t) (l : Index8) :
    Link.Counted ((s.link l).takeMark s.nextView) (t.link l) := by
  cases offers : (s.link l).offers with
  | true => exact (marked.offered l offers).counted
  | false =>
    rw [marked.quiet l offers]
    rfl

/-- What a mark decides of a link stands through the LINK STATUS offer. -/
theorem Link.Marked.counted {e d c : Link} {v : MarkView} (marked : e.Marked d v) (counted : d.Counted c) : e.Marked c v := by
  unfold Link.Counted at counted
  obtain ⟨settings, carried, state, pending, taken, divider, keyed, blanking, skipCounter, unkeyed⟩ := marked
  rw [counted]
  exact ⟨settings, carried, state, pending, taken, divider, keyed, blanking, skipCounter, unkeyed⟩

theorem State.Marked.link {s t : State} (marked : s.Marked t) (l : Index8) :
    Link.Marked ((s.link l).beforeKeying s.nextView) (t.link l) s.nextView :=
  ((s.link l).takeMark_marked s.nextView).counted (marked.counted l)

/-! ## The commands of a mark -/

section
variable {s : State} (first : s.air.firstNext = true)
  (frames : s.engine.state = .running ∨ s.engine.state = .stopping)
include first frames

theorem State.execFrameMark_mark : exec .frameMark s = .next s.boundary :=
  congrArg Host.Outcome.next (if_pos (s.markDue_true first frames))

end

end Sys2Proof.Machine
end

section
/-! The encoder and the builder at a mark begun with the engine RUNNING (O50, R115, R124, R125, R145, R146). -/

namespace Sys2Proof.Machine

/-! ## The report of a cut (R125) -/

/-- The LATE BUILD report of a cut (R125). -/
def State.cutReport (s : State) (b : Build) : LateReport :=
  match s.builder.late with
  | some r => { r with later := min 255 (r.later + 1) }
  | none =>
    let page := s.builder.pages.get (pageOf b.serial)
    ⟨b.serial, b.serial % 32, (s.unexamined b).length + if b.candidate = none then 0 else 1, (page.get 0).length,
      (page.get 1).length, (page.get 2).length, (page.get 3).length, 0⟩

section
variable (s : State)

theorem State.lateAfter_eq (b : Build) : s.lateAfter b = s.cutReport b := by
  have left : s.leftUnplaced b = (s.unexamined b).length + if b.candidate = none then 0 else 1 := by
    unfold State.leftUnplaced
    cases b.candidate <;> rfl
  unfold State.lateAfter State.cutReport
  rw [left]
  cases s.builder.late <;> rfl

theorem State.cutReport_congr {s t : State} (builder : t.builder = s.builder) {b : Build}
    (unexamined : t.unexamined b = s.unexamined b) : t.cutReport b = s.cutReport b := by
  unfold State.cutReport
  rw [builder, unexamined]

/-- A cut where no build of the mark or before is in hand (R124). -/
theorem State.cutBuild_none {m : Nat} (lit : Nat → ZoneSet) (early : ∀ b, s.builder.inHand = some b → m < b.serial) :
    s.cutBuild m lit = s := by
  unfold State.cutBuild
  cases inHand : s.builder.inHand with
  | none => rfl
  | some b => exact if_neg (Nat.not_le.mpr (early b inHand))

theorem State.cutBuild_cut {m : Nat} (lit : Nat → ZoneSet) {b : Build} (inHand : s.builder.inHand = some b) (late : b.serial ≤ m) :
    s.cutBuild m lit = State.endBuild { s with builder.late := some (s.cutReport b) } lit := by
  unfold State.cutBuild
  rw [inHand]
  exact (if_pos late).trans (by rw [s.lateAfter_eq])

/-- The pages with the page two serials on emptied (R115). -/
def State.pagesDue (m : Nat) : Vector FramePage 4 :=
  s.builder.pages.set (pageOf (m + 2)).val (Vector.replicate 4 []) (pageOf (m + 2)).isLt

/-- The build two serials on becomes due and starts, none being in hand (R115). -/
theorem State.buildDue_starts (m : Nat) (lit : Nat → ZoneSet) (bare : s.builder.inHand = none) : (s.buildDue m lit).builder =
    { s.builder with pages := s.pagesDue m, inHand := some ⟨m + 2, none, lit (m + 2), none⟩ } := by
  have emptied : (s.emptyPage (m + 2)).builder.inHand = none := bare
  unfold State.buildDue
  simp only [emptied]
  rfl

/-- The build two serials on becomes due and is held behind the build in hand (R115). -/
theorem State.buildDue_held (m : Nat) (lit : Nat → ZoneSet) {b : Build} (inHand : s.builder.inHand = some b) :
    (s.buildDue m lit).builder = { s.builder with pages := s.pagesDue m, due := some (m + 2) } := by
  have emptied : (s.emptyPage (m + 2)).builder.inHand = some b := inHand
  unfold State.buildDue
  simp only [emptied]
  rw [inHand]
  rfl

theorem State.pagesDue_get (m : Nat) (k : Fin 4) (z : Zone) :
    ((s.pagesDue m).get k).get z = if k = pageOf (m + 2) then [] else (s.builder.pages.get k).get z := by
  unfold State.pagesDue
  rw [framePages_set]
  split
  · exact Vector.getElem_replicate _
  · rfl

theorem State.buildDue_pages (m : Nat) (lit : Nat → ZoneSet) : (s.buildDue m lit).builder.pages = s.pagesDue m := by
  cases inHand : s.builder.inHand with
  | none => rw [s.buildDue_starts m lit inHand]
  | some b => rw [s.buildDue_held m lit inHand]

end

/-- What a mark leaves of the builder, the engine RUNNING (R115, R124, R125). -/
structure State.Builds (s : State) (x : Builder) (m : Nat) (lit : Nat → ZoneSet) : Prop where
  pages : ∀ k z, (x.pages.get k).get z = if k = pageOf (m + 2) then [] else (s.builder.pages.get k).get z
  idle : s.builder.inHand = none → x.due = s.builder.due ∧ x.late = s.builder.late ∧
    x.inHand = some ⟨m + 2, none, lit (m + 2), none⟩
  early : ∀ b, s.builder.inHand = some b → m < b.serial →
    x.inHand = some b ∧ x.due = some (m + 2) ∧ x.late = s.builder.late
  cut : ∀ b, s.builder.inHand = some b → b.serial ≤ m → x.late = some (s.cutReport b) ∧
    (∀ d, s.builder.due = some d → x.due = some (m + 2) ∧ x.inHand = some ⟨d, none, lit d, none⟩) ∧
    (s.builder.due = none → x.due = none ∧ x.inHand = some ⟨m + 2, none, lit (m + 2), none⟩)

theorem State.buildDue_builds (s : State) (m : Nat) (lit : Nat → ZoneSet) :
    s.Builds ((s.cutBuild m lit).buildDue m lit).builder m lit := by
  refine ⟨fun k z => ?_, fun bare => ?_, fun b inHand early => ?_, fun b inHand late => ?_⟩
  · rw [State.buildDue_pages, State.pagesDue_get, State.cutBuild_pages]
  · have same : s.cutBuild m lit = s := s.cutBuild_none lit fun b inHand => nomatch bare.symm.trans inHand
    have starts := s.buildDue_starts m lit bare
    rw [same]
    exact ⟨(congrArg Builder.due starts :), (congrArg Builder.late starts :), (congrArg Builder.inHand starts :)⟩
  · rw [s.cutBuild_none lit fun c other => Option.some.inj (inHand.symm.trans other) ▸ early, s.buildDue_held m lit inHand]
    exact ⟨inHand, rfl, rfl⟩
  · rw [s.cutBuild_cut lit inHand late]
    unfold State.endBuild
    cases due : s.builder.due with
    | none =>
      simp only
      rw [State.buildDue_starts
        { s with builder := { s.builder with late := some (s.cutReport b), inHand := none } } m lit rfl]
      exact ⟨rfl, nofun, fun _ => ⟨due, rfl⟩⟩
    | some d =>
      simp only
      rw [State.buildDue_held
        { s with builder := { s.builder with late := some (s.cutReport b), inHand := some ⟨d, none, lit d, none⟩, due := none } }
        m lit rfl]
      exact ⟨rfl, fun e same => ⟨rfl, Option.some.inj same ▸ rfl⟩, nofun⟩

/-! ## The mark with the engine RUNNING (R4, R145) -/

section
variable (s : State) (m : Nat) (lit : Nat → ZoneSet)

theorem State.startSweep_store : (s.startSweep m).store = { s.store with sweep := (s.startSweep m).store.sweep } := by
  unfold State.startSweep
  split <;> rfl

theorem State.beginFrame_store : (s.beginFrame m lit).store =
    { (s.airing m).store with sweep := (s.beginFrame m lit).store.sweep } := by
  have store : ∀ t : State, t.store = (s.airing m).store →
      (((t.cutBuild m lit).buildDue m lit).startSweep m).store =
        { (s.airing m).store with sweep := (((t.cutBuild m lit).buildDue m lit).startSweep m).store.sweep } := by
    intro t same
    have swept := ((t.cutBuild m lit).buildDue m lit).startSweep_store m
    rw [State.buildDue_store, State.cutBuild_store, same] at swept
    exact swept
  exact store _ rfl

theorem State.beginFrame_forms : (s.beginFrame m lit).frame = some (s.formFrame m) := by
  unfold State.beginFrame
  rw [State.startSweep_frame, State.buildDue_frame, State.cutBuild_frame]

/-- No record's key changes as it goes on air. -/
theorem State.airing_unexamined (canon : s.Canon) (b : Build) : (s.airing m).unexamined b = s.unexamined b := by
  have key (i : Nat) : ((s.airing m).msg i).key = (s.msg i).key := by
    rw [State.airing_msg canon]
    split <;> rfl
  unfold State.unexamined
  simp only [key]
  rfl

theorem State.beginFrame_builds (canon : s.Canon) : s.Builds (s.beginFrame m lit).builder m lit := by
  have aired : ∀ t : State, t.builder = s.builder → (∀ b, t.unexamined b = s.unexamined b) →
      s.Builds (((t.cutBuild m lit).buildDue m lit).startSweep m).builder m lit := by
    intro t builder unexamined
    rw [State.startSweep_builder]
    obtain ⟨pages, idle, early, cut⟩ := t.buildDue_builds m lit
    rw [builder] at pages idle early cut
    refine ⟨pages, idle, early, fun b inHand late => ?_⟩
    rw [← State.cutReport_congr builder (unexamined b)]
    exact cut b inHand late
  exact aired _ rfl fun b => s.airing_unexamined m canon b

end

/-- The prediction taken at a mark: of the links before or after they take it (R117). -/
def State.markLit (u : State) (d : Nat) : ZoneSet :=
  if Config.predictFirst u.ex.choices then u.predictLit d (u.air.serial - 1)
  else u.handReport.linksTakeMark.predictLit d u.air.serial

theorem State.takeMark_running {u : State} (running : u.engine.state = .running) :
    u.takeMark = u.handReport.linksTakeMark.beginFrame u.air.serial u.markLit := if_pos running

/-- What a mark leaves of the encoder, the builder and the message store, the engine RUNNING. -/
structure State.Begun (s t : State) : Prop where
  engine : t.engine = s.engine
  frame : t.frame = some (s.formFrame (s.air.serial + 1))
  msg : ∀ i, t.msg i =
    if (s.msg i).state = .placed ∧ (s.msg i).placedSerial = some (s.air.serial + 1) ∧ i ∉ s.store.airStop then
      { s.msg i with state := .onAir }
    else s.msg i
  store : t.store.lists = s.store.lists ∧ t.store.freeCount = s.store.freeCount ∧ t.store.airStop = s.store.airStop
  builder : ∃ lit, s.Builds t.builder (s.air.serial + 1) lit ∧
    ((∀ d z, (lit d).getLsbD z.val = true ↔ t.air.monitor.state ≠ .lost ∧
        ∃ l, (s.link l).lights z (d - s.air.serial) = true) ∨
      (∀ d z, (lit d).getLsbD z.val = true ↔ t.air.monitor.state ≠ .lost ∧
        ∃ l, (t.link l).lights z (d - (s.air.serial + 1)) = true))

theorem State.predictLit_lights {s : State} {serial last : Nat} {z : Zone} : (s.predictLit serial last).getLsbD z.val = true ↔
    s.air.monitor.state ≠ .lost ∧ ∃ l, (s.link l).lights z (serial - last) = true :=
  State.predictLit_iff.trans (and_congr_right' (exists_congr fun _ => Link.lights_iff.symm))

/-- A LINK STATUS offer changes nothing that a prediction reads (R117, R144). -/
theorem Link.Offered.lights {c d : Link} (offered : c.Offered d) (z : Zone) (steps : Nat) : d.lights z steps = c.lights z steps := by
  rcases offered with rfl | rfl <;> rfl

theorem State.Marked.lights {s t : State} (marked : s.Marked t) (l : Index8) (z : Zone) (steps : Nat) :
    (t.link l).lights z steps = ((s.link l).takeMark s.nextView).lights z steps := by
  cases offers : (s.link l).offers with
  | true => exact (marked.offered l offers).lights z steps
  | false => rw [marked.quiet l offers]

theorem State.boundary_begins {s : State} (canon : s.Canon) (first : s.air.firstNext = true) (running : s.engine.state = .running)
    (below : s.air.serial + 1 < 2 ^ 32) : s.Begun s.boundary := by
  have marked := State.boundary_spec first (.inl running) below
  have same := State.airSteps_mark (.inl running) below
  rw [State.boundary_mark first (.inl running)] at marked ⊢
  have runs : (s.airSteps true).engine.state = .running := by rw [same]; exact running
  have view : (s.airSteps true).markView = s.nextView := by rw [same]; rfl
  have serial : (s.airSteps true).air.serial = s.air.serial + 1 := by rw [same]; rfl
  have after (l : Index8) : (s.airSteps true).handReport.linksTakeMark.link l = (s.link l).takeMark s.nextView := by
    rw [State.linksTakeMark_link, State.handReport_markView, view, State.link, State.handReport_links, same]
    rfl
  have store : (s.airSteps true).handReport.linksTakeMark.store = s.store := by
    rw [State.linksTakeMark_store, State.handReport_store, same]
  have builder : (s.airSteps true).handReport.linksTakeMark.builder = s.builder := by
    rw [State.linksTakeMark_builder, State.handReport_builder, same]
  have engine : (s.airSteps true).handReport.linksTakeMark.engine = s.engine := by
    rw [State.linksTakeMark_engine, State.handReport_engine, same]
  have account : (s.airSteps true).handReport.linksTakeMark.account = s.account := by
    rw [State.linksTakeMark_account, State.handReport_account, same]
  have monitor : (s.airSteps true).handReport.linksTakeMark.air = (s.airSteps true).air := by
    rw [State.linksTakeMark_air, State.handReport_air]
  have air : ((s.airSteps true).takeMark.reportSteps s.offering).air = (s.airSteps true).air := by
    rw [State.reportSteps_air, State.takeMark_air]
  have before (l : Index8) : (s.airSteps true).link l = s.link l := by rw [same]; rfl
  have lit : ((∀ d z, ((s.airSteps true).markLit d).getLsbD z.val = true ↔
        ((s.airSteps true).takeMark.reportSteps s.offering).air.monitor.state ≠ .lost ∧
          ∃ l, (s.link l).lights z (d - s.air.serial) = true) ∨
      (∀ d z, ((s.airSteps true).markLit d).getLsbD z.val = true ↔
        ((s.airSteps true).takeMark.reportSteps s.offering).air.monitor.state ≠ .lost ∧
          ∃ l, (((s.airSteps true).takeMark.reportSteps s.offering).link l).lights z (d - (s.air.serial + 1)) = true)) := by
    by_cases choice : Config.predictFirst (s.airSteps true).ex.choices
    · refine .inl fun d z => ?_
      rw [show (s.airSteps true).markLit d = _ from if_pos choice, State.predictLit_lights, air, serial]
      simp only [before]
      rfl
    · refine .inr fun d z => ?_
      rw [show (s.airSteps true).markLit d = _ from if_neg choice, State.predictLit_lights, air, serial, monitor]
      simp only [after, marked.lights]
  rw [State.takeMark_running runs, serial] at lit ⊢
  generalize (s.airSteps true).markLit = predict at lit ⊢
  generalize (s.airSteps true).handReport.linksTakeMark = u at store builder engine account lit ⊢
  have canonical : u.Canon := ⟨account.symm ▸ canon.subscribers, store.symm ▸ canon.records⟩
  have msgs (i : Nat) : u.msg i = s.msg i := by
    unfold State.msg
    rw [store]
  have unexamined (b : Build) : u.unexamined b = s.unexamined b := by
    unfold State.unexamined State.msg
    rw [store]
  have built := u.beginFrame_builds (s.air.serial + 1) predict canonical
  have stored := u.beginFrame_store (s.air.serial + 1) predict
  refine ⟨?_, ?_, fun i => ?_, ?_, predict, ?_, lit⟩
  · rw [State.reportSteps_engine, State.beginFrame_engine, engine]
  · rw [State.reportSteps_frame, State.beginFrame_forms]
    unfold State.formFrame
    rw [builder, engine]
  · show State.msg _ i = _
    unfold State.msg
    rw [State.reportSteps_store, stored]
    show (u.airing (s.air.serial + 1)).msg i = _
    rw [State.airing_msg canonical, msgs, store]
    rfl
  · rw [State.reportSteps_store, stored]
    show u.store.lists = _ ∧ u.store.freeCount = _ ∧ u.store.airStop = _
    rw [store]
    exact ⟨rfl, rfl, rfl⟩
  · rw [State.reportSteps_builder]
    obtain ⟨pages, idle, early, cut⟩ := built
    rw [builder] at pages idle early cut
    refine ⟨pages, idle, early, fun b inHand late => ?_⟩
    rw [← State.cutReport_congr builder (unexamined b)]
    exact cut b inHand late

end Sys2Proof.Machine
end

section
/-! The air format (O50): codewords, zone frames and the words of a page (R12 to R18, R189). -/

namespace Sys2Proof.Machine

/-! ## Codewords (R12, R17) -/

/-- A codeword's upper 24 bits are its data (R12). -/
theorem codeword_data (d : BlockData) : (codeword d).extractLsb' 8 24 = d := by
  unfold codeword
  apply BitVec.eq_of_getLsbD_eq
  intro i lt
  rw [BitVec.getLsbD_extractLsb', BitVec.getLsbD_append, decide_eq_true lt, if_neg (by omega)]
  simp

/-! ## Text blocks (R15) -/

/-- The characters of the numeric symbols, in order (R15). -/
def numericAlphabet : List Byte :=
  [0x30, 0x31, 0x32, 0x33, 0x34, 0x35, 0x36, 0x37, 0x38, 0x39, 0x20, 0x2D, 0x28, 0x29, 0x2A, 0x23]

theorem numericSymbol_of_alphabet {v : Nat} {c : Byte} (listed : numericAlphabet[v]? = some c) :
    numericSymbol c = BitVec.ofNat 4 v := by
  have table : ∀ i : Fin 16, numericSymbol (numericAlphabet.getD i.val 0) = BitVec.ofNat 4 i.val := by decide
  obtain ⟨lt, rfl⟩ := List.getElem?_eq_some_iff.mp listed
  have entry := table ⟨v, lt⟩
  rw [List.getD_eq_getElem _ _ lt] at entry
  exact entry

theorem getD_drop {α : Type} (t : List α) (a j : Nat) (d : α) : (t.drop a).getD j d = t.getD (a + j) d := by
  rw [List.getD_eq_getElem?_getD, List.getD_eq_getElem?_getD, List.getElem?_drop]

section
variable (r : MessageRecord) (office : Fin 64)

/-- The words of a page past the address and the descriptor are its text blocks (R14). -/
theorem MessageRecord.pageWords_text (k : Nat) : (r.pageWords office)[k + 2]? = (textData r.kind r.text)[k]? := rfl

theorem MessageRecord.pageWords_numeric (numeric : r.kind = .numeric) {k : Nat} (lt : k < (r.text.length + 5) / 6) :
    (r.pageWords office)[k + 2]? = some (numericBlock (r.text.drop (6 * k))) := by
  rw [MessageRecord.pageWords_text, numeric]
  unfold textData textBlocks
  rw [List.getElem?_map, List.getElem?_range lt]
  rfl

theorem MessageRecord.pageWords_alpha (alpha : r.kind = .alpha) {k : Nat} (lt : k < (r.text.length + 2) / 3) :
    (r.pageWords office)[k + 2]? = some (alphaBlock (r.text.drop (3 * k))) := by
  rw [MessageRecord.pageWords_text, alpha]
  unfold textData textBlocks
  rw [List.getElem?_map, List.getElem?_range lt]
  rfl

/-- The symbols of a numeric page, padded with symbol 10 (R15). -/
theorem MessageRecord.pageWords_symbols (numeric : r.kind = .numeric) {k j : Nat} (block : k < (r.text.length + 5) / 6)
    (place : j < 6) : ∃ w, (r.pageWords office)[k + 2]? = some w ∧
      (∀ c v, r.text[6 * k + j]? = some c → numericAlphabet[v]? = some c → w.extractLsb' (20 - 4 * j) 4 = BitVec.ofNat 4 v) ∧
      (r.text.length ≤ 6 * k + j → w.extractLsb' (20 - 4 * j) 4 = 10) := by
  refine ⟨_, r.pageWords_numeric office numeric block, fun c v char listed => ?_, fun past => ?_⟩
  · rw [numericBlock_symbol _ place, getD_drop, List.getD_eq_getElem?_getD, char]
    exact numericSymbol_of_alphabet listed
  · rw [numericBlock_symbol _ place, getD_drop, List.getD_eq_getElem?_getD, List.getElem?_eq_none past]
    decide

theorem MessageRecord.pageWords_codes (alpha : r.kind = .alpha) {k j : Nat} (block : k < (r.text.length + 2) / 3)
    (place : j < 3) : ∃ w, (r.pageWords office)[k + 2]? = some w ∧ w.extractLsb' (16 - 8 * j) 8 = r.text.getD (3 * k + j) 0 :=
  ⟨_, r.pageWords_alpha office alpha block, (alphaBlock_code _ place).trans (getD_drop _ _ _ _)⟩

theorem MessageRecord.pageWords_count : (r.pageWords office).length =
    2 + (match r.kind with | .tone => 0 | .numeric => (r.text.length + 5) / 6 | .alpha => (r.text.length + 2) / 3) :=
  (r.pageWords_length office).trans (congrArg (2 + ·) (by
    unfold MessageRecord.blocks textBlocks
    cases r.kind <;> rfl))

theorem MessageRecord.pageWords_address : (r.pageWords office)[0]? = some (BitVec.ofNat 6 office.val ++ BitVec.ofNat 16 r.subscriber ++
    (match r.kind with | .tone => 0#2 | .numeric => 1#2 | .alpha => 2#2)) := by
  unfold MessageRecord.pageWords addressBlock
  cases r.kind <;> rfl

theorem MessageRecord.pageWords_descriptor : (r.pageWords office)[1]? = some
    (BitVec.ofNat 3 (match r.tag with | some g => g.val | none => 0) ++ BitVec.ofBool r.urgent ++
      BitVec.ofNat 8 r.text.length ++ BitVec.ofNat 4 (r.attempts + 1) ++ r.generation) := by
  unfold MessageRecord.pageWords descriptorBlock
  cases r.tag <;> rfl

end

end Sys2Proof.Machine
end

section
/-! The frame mark with the engine RUNNING (O50). -/

namespace Sys2Proof.Machine

/-- A build that starts with its prediction, of the links before or after the mark (R115, R117). -/
theorem State.Begun.starts {s t : State} {lit : Nat → ZoneSet}
    (predicted : (∀ d z, (lit d).getLsbD z.val = true ↔ t.air.monitor.state ≠ .lost ∧
        ∃ l, (s.link l).lights z (d - s.air.serial) = true) ∨
      (∀ d z, (lit d).getLsbD z.val = true ↔ t.air.monitor.state ≠ .lost ∧
        ∃ l, (t.link l).lights z (d - (s.air.serial + 1)) = true)) (serial : Nat) :
    (∀ z : Zone, (lit serial).getLsbD z.val = true ↔ t.air.monitor.state ≠ .lost ∧ ∃ l,
        (s.link l).settings.zone = some z ∧ ((s.link l).state = .keyed ∨ (s.link l).state = .standby) ∧
        (s.link l).keyOffPending = false ∧
        skipAhead (s.link l).settings.skip (serial - s.air.serial) (s.link l).skipCounter = false) ∨
      (∀ z : Zone, (lit serial).getLsbD z.val = true ↔ t.air.monitor.state ≠ .lost ∧ ∃ l,
        (t.link l).settings.zone = some z ∧ ((t.link l).state = .keyed ∨ (t.link l).state = .standby) ∧
        (t.link l).keyOffPending = false ∧
        skipAhead (t.link l).settings.skip (serial - (s.air.serial + 1)) (t.link l).skipCounter = false) :=
  predicted.imp
    (fun before z => (before serial z).trans (and_congr_right' (exists_congr fun _ => Link.lights_iff)))
    (fun after z => (after serial z).trans (and_congr_right' (exists_congr fun _ => Link.lights_iff)))

/-- Settles O50: the mark as each block takes it, and the air format. -/
theorem frameMarkBeginsFrame : Obligations.FrameMarkBeginsFrame := by
  unfold Obligations.FrameMarkBeginsFrame
  refine ⟨fun s tidy first running below => ?_, fun office serial zone sec fits => zoneFrame_spec office serial zone fits,
    fun r i lt => whiteningStep_bit r lt, fun d => ⟨codeword_data d, codeword_divides d⟩, entryList_spec,
    fun r office => ⟨r.pageWords_count office, r.pageWords_address office, r.pageWords_descriptor office,
      fun numeric k j block place => r.pageWords_symbols office numeric block place,
      fun alpha k j block place => r.pageWords_codes office alpha block place⟩⟩
  intro m page carried a limit lost second day raised left cutReport
  have marked := State.boundary_spec first (.inl running) below
  obtain ⟨engine, frame, msg, ⟨lists, free, stops⟩, lit, ⟨pages, idle, early, cut⟩, predicted⟩ :=
    State.boundary_begins tidy.canon first running below
  have links := marked.link
  have runs : s.nextView.running = true := decide_eq_true running
  have starts := State.Begun.starts predicted
  refine ⟨s.boundary, State.execFrameMark_mark first (.inl running), rfl, fun passes => congrArg Host.Outcome.next (if_pos passes),
    fun stays => congrArg Host.Outcome.next (if_neg (Bool.not_eq_true _ ▸ stays)), marked.air.trans ?_, marked.referenceBit,
    marked.notices.1, marked.notices.2, engine, marked.account, marked.arbiter, marked.pending, frame, msg, lists, free, stops,
    ⟨s.successfulZones, s.successfulZones_iff, marked.tracker.trans (s.handReport_tracker.trans ?_)⟩, pages, fun bare => ?_,
    fun b inHand ahead => ?_, fun b inHand late => ?_, fun l => ?_, marked.slots, marked.queue, marked.answered, marked.fence,
    marked.buffer, marked.enable, marked.bus, marked.read, marked.progress, ?_, marked.answers, marked.fenceBit⟩
  · unfold State.airAfter
    rw [first]
    rfl
  · cases s.frame <;> rfl
  · obtain ⟨due, late, inHand⟩ := idle bare
    exact ⟨due, late, _, inHand, rfl, rfl, rfl, starts (m + 2)⟩
  · exact early b inHand ahead
  · obtain ⟨report, held, free⟩ := cut b inHand late
    refine ⟨report.trans ?_, fun d due => ?_, fun bare => ?_⟩
    · unfold State.cutReport
      cases reports : s.builder.late with
      | none => simp only [cutReport, reports]; rfl
      | some r => simp only [cutReport, reports]
    · exact ⟨(held d due).1, _, (held d due).2, rfl, rfl, rfl, starts d⟩
    · exact ⟨(free bare).1, _, (free bare).2, rfl, rfl, rfl, starts (m + 2)⟩
  · have judged := links l
    have before := (s.link l).beforeKeying_approaches s.nextView
    intro c d skip
    have skips : ((s.link l).beforeKeying s.nextView).Skips ↔ skip := by
      unfold Link.Skips
      rw [before.settings, before.skipCounter]
      exact Iff.rfl
    refine ⟨judged.settings.trans before.settings, judged.taken, judged.carried.trans before.carried, ?_, fun on fresh => ?_,
      fun keyed => ?_, fun off none => ?_, fun pending => ?_, fun none unseen => ?_⟩
    · rw [judged.keyed runs, ← judged.state, before.settings, skips, marked.air]
      exact and_congr_right' (and_congr_left' decide_eq_true_iff)
    · rw [judged.blanking runs on (before.carried.trans fresh), before.settings]
    · rw [judged.skipCounter runs (judged.state.symm.trans keyed), before.settings, before.skipCounter]
      exact skipStep_counter _ _
    · exact judged.state.trans (before.off off none)
    · exact ⟨judged.state.trans (before.pending pending).1, judged.pending.trans (before.pending pending).2⟩
    · have ended : (c.endFrame s.nextView).state = c.state := by
        have ends (bare : s.frame = Option.none) : s.nextView.ended = Option.none := by
          show Option.map _ s.frame = _
          rw [bare]
          rfl
        rw [c.endFrame_unobserved s.nextView (unseen.imp ends .inr)]
      have state := judged.state.trans (before.serves none)
      rw [ended] at state
      refine ⟨fun serves => ?_, fun away => state.trans (if_neg away)⟩
      rcases serves with standby | keyed
      · exact state.trans (if_pos standby)
      · rw [keyed] at state
        exact state
  · exact marked.engineBit.trans (if_pos running)

end Sys2Proof.Machine
end

section
/-! The frame mark that ends STOPPING (O51). -/

namespace Sys2Proof.Machine

section
variable (s : State) (m : Nat)

/-- The state as the return request finds it: a build of the mark cut, any other build ended (R102, R124, R126). -/
def State.stopsBuilding : State := (s.cutBuild m fun _ => 0).stopBuild

theorem State.stopsBuilding_store : (s.stopsBuilding m).store = s.store :=
  (State.stopBuild_store _).trans (State.cutBuild_store s m _)

theorem State.stopsBuilding_account : (s.stopsBuilding m).account = s.account :=
  (State.stopBuild_account _).trans (State.cutBuild_account s m _)

theorem State.endStopping_engine : (s.endStopping m).engine = { s.engine with state := .setup } := by
  simp [State.endStopping]

theorem State.endStopping_frame : (s.endStopping m).frame = none := by
  simp [State.endStopping]

theorem State.endStopping_builder : (s.endStopping m).builder =
    { (s.cutBuild m fun _ => 0).builder with
      inHand := none, due := none, pages := Vector.replicate 4 (Vector.replicate 4 []) } := by
  unfold State.endStopping
  rw [State.startSweep_builder, State.setEngineBit_builder]
  show (State.emptyPages (State.returnPlaced (State.stopBuild _) m)).builder = _
  unfold State.emptyPages
  rw [State.returnPlaced_builder]
  rfl

theorem State.endStopping_store : (s.endStopping m).store =
    { ((s.stopsBuilding m).returnPlaced m).store with sweep := (s.endStopping m).store.sweep } :=
  State.startSweep_store _ m

/-- The report of a build cut at a mark; another build leaves the report as it is (R125, R126). -/
theorem State.cutBuild_late (lit : Nat → ZoneSet) :
    ((∀ b, s.builder.inHand = some b → m < b.serial) → (s.cutBuild m lit).builder.late = s.builder.late) ∧
    (∀ b, s.builder.inHand = some b → b.serial ≤ m → (s.cutBuild m lit).builder.late = some (s.cutReport b)) := by
  refine ⟨fun early => by rw [s.cutBuild_none lit early], fun b inHand late => ?_⟩
  rw [s.cutBuild_cut lit inHand late]
  unfold State.endBuild
  cases due : s.builder.due with
  | none => simp only
  | some d => simp only

end

theorem State.takeMark_stopping {u : State} (stopping : u.engine.state = .stopping) :
    u.takeMark = u.handReport.linksTakeMark.endStopping u.air.serial :=
  if_neg (by rw [stopping]; decide)

/-- What the mark that ends STOPPING leaves of the encoder, the builder, the engine and the message store. -/
structure State.Stopped (s t : State) : Prop where
  engine : t.engine = { s.engine with state := .setup }
  frame : t.frame = none
  inHand : t.builder.inHand = none
  due : t.builder.due = none
  pages : ∀ k z, (t.builder.pages.get k).get z = []
  early : (∀ b, s.builder.inHand = some b → s.air.serial + 1 < b.serial) → t.builder.late = s.builder.late
  cut : ∀ b, s.builder.inHand = some b → b.serial ≤ s.air.serial + 1 → t.builder.late = some (s.cutReport b)
  returns : ∃ u v : State, u.store = s.store ∧ u.account = s.account ∧
    u.Returns v (u.msgsWhere (·.returnsAt (s.air.serial + 1))) ∧ t.store = { v.store with sweep := t.store.sweep }

theorem State.boundary_stops {s : State} (canon : s.Canon) (first : s.air.firstNext = true) (stopping : s.engine.state = .stopping)
    (below : s.air.serial + 1 < 2 ^ 32) : s.Stopped s.boundary := by
  have same := State.airSteps_mark (.inr stopping) below
  have stops : (s.airSteps true).engine.state = .stopping := by rw [same]; exact stopping
  have serial : (s.airSteps true).air.serial = s.air.serial + 1 := by rw [same]; rfl
  have store : (s.airSteps true).handReport.linksTakeMark.store = s.store := by
    rw [State.linksTakeMark_store, State.handReport_store, same]
  have builder : (s.airSteps true).handReport.linksTakeMark.builder = s.builder := by
    rw [State.linksTakeMark_builder, State.handReport_builder, same]
  have engine : (s.airSteps true).handReport.linksTakeMark.engine = s.engine := by
    rw [State.linksTakeMark_engine, State.handReport_engine, same]
  have account : (s.airSteps true).handReport.linksTakeMark.account = s.account := by
    rw [State.linksTakeMark_account, State.handReport_account, same]
  rw [State.boundary_mark first (.inr stopping), State.takeMark_stopping stops, serial]
  generalize (s.airSteps true).handReport.linksTakeMark = u at store builder engine account ⊢
  have unexamined (b : Build) : u.unexamined b = s.unexamined b := by
    unfold State.unexamined State.msg
    rw [store]
  have built := u.endStopping_builder (s.air.serial + 1)
  obtain ⟨early, cut⟩ := u.cutBuild_late (s.air.serial + 1) fun _ => 0
  have stored := u.endStopping_store (s.air.serial + 1)
  have canonical : (u.stopsBuilding (s.air.serial + 1)).Canon :=
    ⟨by rw [State.stopsBuilding_account, account]; exact canon.subscribers,
      by rw [State.stopsBuilding_store, store]; exact canon.records⟩
  have returns := State.returnPlaced_returns canonical (s.air.serial + 1)
  refine ⟨?_, ?_, ?_, ?_, fun k z => ?_, fun ahead => ?_, fun b inHand late => ?_,
    u.stopsBuilding (s.air.serial + 1), _, ?_, ?_, returns, ?_⟩
  · rw [State.reportSteps_engine, State.endStopping_engine, engine]
  · rw [State.reportSteps_frame, State.endStopping_frame]
  · rw [State.reportSteps_builder, built]
  · rw [State.reportSteps_builder, built]
  · rw [State.reportSteps_builder, built]
    show ((Vector.replicate 4 (Vector.replicate 4 []) : Vector FramePage 4)[k.val])[z.val] = []
    rw [Vector.getElem_replicate, Vector.getElem_replicate]
  · rw [State.reportSteps_builder, built]
    rw [builder] at early
    exact early ahead
  · rw [State.reportSteps_builder, built, ← State.cutReport_congr builder (unexamined b)]
    rw [builder] at cut
    exact cut b inHand late
  · rw [State.stopsBuilding_store, store]
  · rw [State.stopsBuilding_account, account]
  · rw [State.reportSteps_store]
    exact stored

/-- Settles O51: the mark that ends STOPPING. -/
theorem markEndsStopping : Obligations.MarkEndsStopping := by
  unfold Obligations.MarkEndsStopping
  intro s tidy first stopping below m placed a limit lost second day raised carried
  have marked := State.boundary_spec first (.inr stopping) below
  obtain ⟨engine, frame, inHand, due, pages, early, cut, u, v, store, account, returns, stored⟩ :=
    State.boundary_stops tidy.canon first stopping below
  have rests : s.nextView.running = false := decide_eq_false (by rw [stopping]; decide)
  have found (i : Nat) : u.msg i = s.msg i := by
    unfold State.msg
    rw [store]
  have subs (n : Nat) : u.sub n = s.sub n := by
    unfold State.sub
    rw [account]
  have canon : u.Canon := ⟨account.symm ▸ tidy.canon.subscribers, store.symm ▸ tidy.canon.records⟩
  have visits (i : Nat) : i ∈ u.msgsWhere (·.returnsAt m) ↔ placed i := by
    rw [State.mem_returned canon, found]
  have left (i : Nat) : s.boundary.msg i = v.msg i := by
    unfold State.msg
    rw [stored]
  have held : s.boundary.store.airStop = v.store.airStop ∧ s.boundary.store.lists = v.store.lists := by
    rw [stored]
    exact ⟨rfl, rfl⟩
  have free : s.boundary.store.freeCount = s.store.freeCount := by
    rw [stored, ← store]
    exact (congrArg (·.store.freeCount) returns.frame :)
  refine ⟨s.boundary, State.execFrameMark_mark first (.inr stopping), rfl, fun passes => congrArg Host.Outcome.next (if_pos passes),
    fun stays => congrArg Host.Outcome.next (if_neg (Bool.not_eq_true _ ▸ stays)), marked.air.trans ?_, marked.referenceBit,
    engine, marked.engineBit.trans (if_neg (by rw [stopping]; decide)), frame,
    fun l => ⟨(marked.link l).unkeyed rests, (marked.link l).carried.trans ((s.link l).beforeKeying_approaches s.nextView).carried⟩,
    inHand, due, pages, fun i other => ?_, fun i listed marker => ?_, fun i listed acked cancel => ?_,
    ⟨s.successfulZones, s.successfulZones_iff, marked.tracker.trans (s.handReport_tracker.trans ?_)⟩, early, fun b inHand late => ?_,
    marked.account, free, marked.pending, marked.slots, marked.queue, marked.answered, marked.fence⟩
  · unfold State.airAfter
    rw [first]
    rfl
  · have kept := returns.other i (mt (visits i).mp other)
    rw [left, held.1, ← found, ← store]
    exact kept
  · have kept := returns.marked i ((visits i).mpr listed) (by rw [found]; exact marker)
    rw [left, held.1, ← found]
    exact kept
  · have freed := returns.freed i ((visits i).mpr listed) (by rw [found]; exact acked) (by rw [found]; exact cancel)
    rw [found, subs, store] at freed
    rw [left, held.1, held.2]
    exact freed
  · cases s.frame <;> rfl
  · refine (cut b inHand late).trans ?_
    unfold State.cutReport
    cases reports : s.builder.late with
    | none => rfl
    | some r => rfl

end Sys2Proof.Machine
end

section
/-! What falls at a link's marks: skip frames, clean runs, LINK STATUS offers and SILENT observations (O52). -/

namespace Sys2Proof.Machine

/-! ## Clean runs and dividers (R135, R144) -/

section
variable {c : Link} {v : MarkView}

/-- A link KEYED in a frame with a status message, before keying is judged: its clean run alone is stepped (R135). -/
theorem Link.beforeKeying_quiet (none : c.keyOffPending = false) (taken : c.statusTaken = true) (keyed : c.state = .keyed) :
    c.beforeKeying v = Link.cleanFrame { c with carried := c.keyed, keyed := false } v := by
  obtain ⟨-, state, -, -, -, pending, -⟩ := Link.cleanFrame_spec { c with carried := c.keyed, keyed := false } v
  unfold Link.beforeKeying
  rw [c.endFrame_unobserved v (.inr (.inr taken))]
  obtain ⟨-, -, -, -, -, -, -, same⟩ := Link.changeOver_spec (pending.trans none)
  exact same (by rw [state]; show c.state ≠ _; rw [keyed]; decide)

theorem Link.takeMark_runs : (c.takeMark v).cleanRun = (c.beforeKeying v).cleanRun ∧
    (c.takeMark v).latchCounter = (c.beforeKeying v).latchCounter := by
  have latch := ((c.beforeKeying v).judgeKeying_spec v).2.2.1
  have run : ((c.beforeKeying v).judgeKeying v).cleanRun = (c.beforeKeying v).cleanRun := by
    unfold Link.judgeKeying
    split <;> rfl
  unfold Link.takeMark
  rw [Link.raiseDivider_eq]
  exact ⟨run, latch⟩

/-- The clean run that reaches 30 clears the latch counter (R135). -/
theorem Link.takeMark_thirtieth (none : c.keyOffPending = false) (taken : c.statusTaken = true) (keyed : c.state = .keyed)
    (frame : v.ended.isSome = true) (last : c.cleanRun = 29) :
    (c.takeMark v).cleanRun = 0 ∧ (c.takeMark v).latchCounter = 0 := by
  have clean : Link.cleanFrame { c with carried := c.keyed, keyed := false } v =
      { c with carried := c.keyed, keyed := false, cleanRun := 0, latchCounter := 0 } :=
    (if_pos ⟨frame, keyed⟩).trans (if_pos (show c.cleanRun + 1 = 30 by rw [last]))
  obtain ⟨run, latch⟩ := Link.takeMark_runs (c := c) (v := v)
  rw [run, latch, Link.beforeKeying_quiet none taken keyed, clean]
  exact ⟨rfl, rfl⟩

/-- No fault takes a link to OFF. -/
theorem Link.takeFault_on (kind : Observation) (at_ : Sighting) (on : c.state ≠ .off) : (c.takeFault kind at_).state ≠ .off := by
  have strike : (if c.settings.tripCount ≤ c.faultRun + 1 then
      c.tripAt ⟨at_.serial, at_.position, kind, at_.alarms⟩ at_.now else { c with faultRun := c.faultRun + 1 }).state ≠ .off := by
    split
    · show (if decide _ then LinkState.latched else .tripped) ≠ .off
      split <;> decide
    · exact on
  cases state : c.state with
  | standby => exact Link.takeFault_service kind (.inl state) ▸ strike
  | keyed => exact Link.takeFault_service kind (.inr state) ▸ strike
  | tripped => rw [Link.takeFault_tripped kind state]; exact on
  | latched => rw [Link.takeFault_resting kind (.inl state)]; exact on
  | override => rw [Link.takeFault_resting kind (.inr state)]; exact on
  | off => exact absurd state on

theorem Link.observe_silent_on {c : Link} {at_ : Sighting} (on : c.state ≠ .off) : (c.observe .silent at_).state ≠ .off := by
  by_cases blanks : 0 < c.blanking
  · rw [Link.observe_blanked .silent blanks]
    exact on
  · rw [Link.observe_fault (kind := .silent) nofun (Nat.eq_zero_of_not_pos blanks)]
    exact Link.takeFault_on .silent _ (by rw [Link.noted_state]; exact on)

theorem Link.endFrame_on (on : c.state ≠ .off) : (c.endFrame v).state ≠ .off := by
  by_cases seen : v.ended = none ∨ c.state = .off ∨ c.statusTaken = true
  · rw [c.endFrame_unobserved v seen]
    exact on
  · obtain ⟨ends, -, untaken⟩ := by simpa only [not_or] using seen
    obtain ⟨serial, ended⟩ := Option.ne_none_iff_exists'.mp ends
    rw [Link.endFrame_silent ended on (Bool.not_eq_true _ ▸ untaken)]
    exact Link.observe_silent_on on

/-- A link that is not OFF is not OFF as keying is judged (R135). -/
theorem Link.beforeKeying_on (on : c.state ≠ .off) : (c.beforeKeying v).state ≠ .off := by
  have before := c.beforeKeying_approaches v
  cases pending : c.keyOffPending with
  | true =>
    rw [(before.pending pending).1]
    decide
  | false =>
    rw [before.serves pending]
    split
    · decide
    · exact Link.endFrame_on on

/-- The divider returns to 0 where it reaches the cadence, and rises by one elsewhere (R144). -/
theorem Link.beforeKeying_divider (on : c.state ≠ .off) : (c.beforeKeying v).raiseDivider.divider =
    if c.settings.cadence ≤ c.divider + 1 then 0 else c.divider + 1 := by
  have before := c.beforeKeying_approaches v
  have still := Link.beforeKeying_on (v := v) on
  have offers : (c.beforeKeying v).offers = decide (c.settings.cadence ≤ c.divider + 1) := by
    unfold Link.offers
    rw [before.settings, before.divider]
    exact decide_eq_decide.mpr (and_iff_right still)
  unfold Link.raiseDivider
  rw [if_neg still]
  show (if (c.beforeKeying v).offers then 0 else (c.beforeKeying v).divider + 1) = _
  rw [offers, before.divider]
  simp only [decide_eq_true_eq]

/-- A link KEYED in a frame with a status message is KEYED as keying is judged (R135). -/
theorem Link.beforeKeying_keeps (none : c.keyOffPending = false) (taken : c.statusTaken = true) (keyed : c.state = .keyed) :
    (c.beforeKeying v).state = .keyed := by
  obtain ⟨-, state, -⟩ := Link.cleanFrame_spec { c with carried := c.keyed, keyed := false } v
  rw [Link.beforeKeying_quiet none taken keyed, state]
  exact keyed

/-! ## The SILENT observation (R138 to R140) -/

/-- A fault leaves what was noted of the observation. -/
theorem Link.takeFault_notes (c : Link) (kind : Observation) (at_ : Sighting) :
    (c.takeFault kind at_).silentCount = c.silentCount ∧ (c.takeFault kind at_).blankedCount = c.blankedCount ∧
      (c.takeFault kind at_).lastObservation = c.lastObservation ∧ (c.takeFault kind at_).alert = c.alert := by
  unfold Link.takeFault
  simp only
  split
  · split <;> exact ⟨rfl, rfl, rfl, rfl⟩
  · split <;> exact ⟨rfl, rfl, rfl, rfl⟩
  all_goals exact ⟨rfl, rfl, rfl, rfl⟩

/-- Whether a link serves its zone (R135). -/
def Link.InService (c : Link) : Prop := c.state = .standby ∨ c.state = .keyed

theorem Link.InService.served {c : Link} (service : c.InService) :
    (if c.state = .standby then LinkState.keyed else c.state) = .keyed := by
  rcases service with standby | keyed
  · exact if_pos standby
  · rw [keyed]
    rfl

theorem Link.not_inService {c : Link} (rests : ¬ c.InService) :
    (if c.state = .standby then LinkState.keyed else c.state) = c.state := if_neg fun standby => rests (.inl standby)

end

/-- A link as its frame ends, before the SILENT observation (R135). -/
def Link.frameOver (c : Link) : Link := { c with carried := c.keyed, keyed := false }

/-- What a mark with no key-off pending leaves of the end of its frame (R135). -/
theorem Link.takeMark_observed {c : Link} {v : MarkView} (none : c.keyOffPending = false) :  (c.endFrame v).Kept (c.takeMark v) ∧
    (c.takeMark v).state = (if (c.endFrame v).state = .standby then .keyed else (c.endFrame v).state) ∧
    ((c.takeMark v).keyed = false ∨ c.keyed = true → (c.takeMark v).blanking = (c.endFrame v).blanking) ∧
    ((c.endFrame v).state ≠ .standby → (c.endFrame v).state ≠ .keyed →
      c.takeMark v = { (c.endFrame v).raiseDivider with statusTaken := false }) := by
  have bears := c.endFrame_bears v
  obtain ⟨kept, state, blanking, same⟩ := Link.takeMark_spec (c := c) (v := v) (bears.pending.trans none)
  refine ⟨kept, state, fun h => blanking (h.imp id fun keyed => bears.carried.trans keyed), same⟩

section
variable {c : Link} {v : MarkView} {serial : Nat} (ended : v.ended = some serial) (on : c.state ≠ .off)
  (untaken : c.statusTaken = false) (none : c.keyOffPending = false)
include ended on untaken

theorem Link.endFrame_blanked (blanks : 0 < c.blanking) : c.endFrame v =
    { c.frameOver with blanking := c.blanking - 1, blankedCount := min 255 (c.blankedCount + 1) } :=
  (Link.endFrame_silent ended on untaken).trans (Link.observe_blanked .silent (c := c.frameOver) blanks)

theorem Link.endFrame_fault (open_ : c.blanking = 0) : c.endFrame v =
    (c.frameOver.noted .silent).takeFault .silent ⟨serial, v.mark, 120, 0, 0⟩ :=
  (Link.endFrame_silent ended on untaken).trans (Link.observe_fault (kind := .silent) (c := c.frameOver) nofun open_)

include none

/-- A SILENT observation blanked (R139). -/
theorem Link.takeMark_blanked (blanks : 0 < c.blanking) :
    let d := c.takeMark v
    d.blankedCount = min 255 (c.blankedCount + 1) ∧ d.silentCount = c.silentCount ∧
      d.lastObservation = c.lastObservation ∧ d.alert = c.alert ∧ d.faultRun = c.faultRun ∧ d.clearRun = c.clearRun ∧
      d.capture = c.capture ∧ d.trip = c.trip ∧ (c.InService → d.state = .keyed) ∧ (¬ c.InService → d.state = c.state) ∧
      (d.keyed = false ∨ c.keyed = true → d.blanking = c.blanking - 1) := by
  obtain ⟨kept, state, blanking, -⟩ := Link.takeMark_observed (v := v) none
  rw [Link.endFrame_blanked ended on untaken blanks] at kept state blanking
  exact ⟨kept.blankedCount, kept.silentCount, kept.lastObservation, kept.alert, kept.faultRun, kept.clearRun, kept.capture,
    kept.trip, fun service => state.trans service.served, fun rests => state.trans (Link.not_inService rests), blanking⟩

section
variable (open_ : c.blanking = 0)
include open_

/-- A SILENT observation taken is counted and shown (R138, R140). -/
theorem Link.takeMark_noted :
    let d := c.takeMark v
    d.silentCount = min 255 (c.silentCount + 1) ∧ d.blankedCount = c.blankedCount ∧ d.lastObservation = some .silent ∧
      d.alert = true := by
  obtain ⟨kept, -⟩ := Link.takeMark_observed (v := v) none
  obtain ⟨silent, blanked, last, alert⟩ :=
    (c.frameOver.noted .silent).takeFault_notes .silent ⟨serial, v.mark, 120, 0, 0⟩
  rw [← Link.endFrame_fault ended on untaken open_] at silent blanked last alert
  exact ⟨kept.silentCount.trans silent, kept.blankedCount.trans blanked, kept.lastObservation.trans last, kept.alert.trans alert⟩

/-- The fault run raised by a SILENT observation (R140). -/
theorem Link.takeMark_strikes (service : c.InService) (few : c.faultRun + 1 < c.settings.tripCount) :
    let d := c.takeMark v
    d.state = .keyed ∧ d.faultRun = c.faultRun + 1 ∧ d.capture = c.capture ∧ d.trip = c.trip := by
  obtain ⟨kept, state, -⟩ := Link.takeMark_observed (v := v) none
  have below : ¬ (c.frameOver.noted .silent).settings.tripCount ≤ (c.frameOver.noted .silent).faultRun + 1 := Nat.not_le.mpr few
  rw [Link.endFrame_fault ended on untaken open_, Link.takeFault_service (c := c.frameOver.noted .silent) .silent service,
    if_neg below] at kept state
  exact ⟨state.trans service.served, kept.faultRun, kept.capture, kept.trip⟩

/-- The trip of a SILENT observation (R140, R143). -/
theorem Link.takeMark_trips (service : c.InService) (many : c.settings.tripCount ≤ c.faultRun + 1) :
    let d := c.takeMark v
    let capture : Capture := ⟨serial, 120, .silent, 0⟩
    let latch := min 32 (c.latchCounter + 1)
    let latched := decide (c.settings.latchLimit ≠ 0 ∧ c.settings.latchLimit ≤ latch)
    Link.tripped c (c.endFrame v) = true ∧
    d.state = (if latched then .latched else .tripped) ∧ d.keyed = false ∧ d.capture = some capture ∧
      d.latchCounter = latch ∧ d.faultRun = 0 ∧ d.clearRun = 0 ∧ d.cleanRun = 0 ∧ d.blanking = 0 ∧
      d.trip = some (match c.trip with
        | .none => ⟨capture, latched, latch, v.mark, 0⟩
        | some r => { r with later := min 255 (r.later + 1), latched := r.latched || latched }) := by
  intro d capture latch latched
  obtain ⟨-, -, -, same⟩ := Link.takeMark_observed (v := v) none
  have trips := (Link.endFrame_fault ended on untaken open_).trans ((Link.takeFault_service (c := c.frameOver.noted .silent) .silent service).trans
    (if_pos (show (c.frameOver.noted .silent).settings.tripCount ≤ _ from many)))
  rw [Link.tripAt_eq (c := c.frameOver.noted .silent) open_] at trips
  have state : (c.endFrame v).state = if latched then .latched else .tripped := (congrArg Link.state trips :)
  have out : (c.endFrame v).state = .tripped ∨ (c.endFrame v).state = .latched := by
    rw [state]
    split
    · exact .inr rfl
    · exact .inl rfl
  have is : d = { (c.endFrame v).raiseDivider with statusTaken := false } := by
    refine same ?_ ?_
    · rcases out with out | out <;> rw [out] <;> decide
    · rcases out with out | out <;> rw [out] <;> decide
  rw [Link.raiseDivider_eq] at is
  refine ⟨Link.tripped_of_trip service out, (congrArg Link.state is :).trans state, ?_⟩
  rw [is]
  exact ⟨(congrArg Link.keyed trips :), (congrArg Link.capture trips :), (congrArg Link.latchCounter trips :),
    (congrArg Link.faultRun trips :), (congrArg Link.clearRun trips :), (congrArg Link.cleanRun trips :),
    (congrArg Link.blanking trips :).trans open_, (congrArg Link.trip trips :)⟩

/-- A SILENT observation of a link out of service (R140, R142). -/
theorem Link.takeMark_tripped (out : c.state = .tripped) :
    let d := c.takeMark v
    d.state = .tripped ∧ d.clearRun = 0 ∧ d.capture = c.capture ∧ d.trip = c.trip := by
  obtain ⟨kept, state, -⟩ := Link.takeMark_observed (v := v) none
  rw [Link.endFrame_fault ended on untaken open_, Link.takeFault_tripped (c := c.frameOver.noted .silent) .silent out] at kept state
  refine ⟨state.trans ?_, kept.clearRun, kept.capture, kept.trip⟩
  show (if c.state = .standby then LinkState.keyed else c.state) = _
  rw [out]
  rfl

theorem Link.takeMark_resting (rests : c.state = .latched ∨ c.state = .override) :
    let d := c.takeMark v
    d.state = c.state ∧ d.faultRun = c.faultRun ∧ d.clearRun = c.clearRun ∧ d.capture = c.capture ∧ d.trip = c.trip := by
  obtain ⟨kept, state, -⟩ := Link.takeMark_observed (v := v) none
  rw [Link.endFrame_fault ended on untaken open_, Link.takeFault_resting (c := c.frameOver.noted .silent) .silent rests] at kept state
  refine ⟨state.trans ?_, kept.faultRun, kept.clearRun, kept.capture, kept.trip⟩
  show (if c.state = .standby then LinkState.keyed else c.state) = _
  rcases rests with rests | rests <;> rw [rests] <;> rfl

end

end

/-! ## The commands (R4) -/

section
variable {s : State} (l : Index8) (first : s.air.firstNext = true) (running : s.engine.state = .running)
  (below : s.air.serial + 1 < 2 ^ 32)
include first running below

theorem State.mark_view : (s.airSteps s.markDue).markView = s.nextView := by
  rw [s.markDue_true first (.inl running), State.airSteps_mark (.inl running) below]
  rfl

theorem State.skipDue_iff : s.skipDue l = true ↔
    ((s.link l).beforeKeying s.nextView).state = .keyed ∧ (s.link l).Skips := by
  have before := (s.link l).beforeKeying_approaches s.nextView
  unfold State.skipDue State.linkAtKeying Link.Skips
  rw [State.mark_view first running below, s.markDue_true first (.inl running), decide_eq_true running, before.settings,
    before.skipCounter, Bool.and_eq_true, skipStep_skips, Bool.and_eq_true]
  exact and_congr_left' ((and_iff_right rfl).trans decide_eq_true_iff)

theorem State.cleanRunDue_iff : s.cleanRunDue l = true ↔ s.frame.isSome = true ∧
    ((s.link l).endFrame s.nextView).state = .keyed ∧ ((s.link l).endFrame s.nextView).cleanRun + 1 = 30 := by
  unfold State.cleanRunDue
  rw [State.mark_view first running below, s.markDue_true first (.inl running), Bool.and_eq_true, Bool.and_eq_true,
    Bool.true_and, decide_eq_true_iff, decide_eq_true_iff, and_assoc]

end

theorem Link.offers_iff {c : Link} (on : c.state ≠ .off) : c.offers = true ↔ c.settings.cadence ≤ c.divider + 1 := by
  unfold Link.offers
  rw [decide_eq_true_iff]
  exact and_iff_right on

end Sys2Proof.Machine
end

section
/-! The commands that name what falls at a link's mark (O52). -/

namespace Sys2Proof.Machine

/-- A skip length reached: the counters at which a skip frame falls (R136). -/
theorem Link.skips_iff {c : Link} : c.Skips ↔ (c.settings.skip = .oneIn5 ∧ c.skipCounter = 4) ∨
    (c.settings.skip = .oneIn6 ∧ c.skipCounter = 5) ∨ (c.settings.skip = .oneIn7 ∧ c.skipCounter = 6) := by
  unfold Link.Skips
  cases c.settings.skip <;> simp [Skip.length]

theorem skipStep_skipped {skip : Skip} {counter : Nat} (skips : ∃ n, skip.length = some n ∧ counter + 1 = n) :
    (skipStep skip counter).1 = 0 := by
  obtain ⟨n, length, last⟩ := skips
  unfold skipStep
  rw [length]
  exact congrArg Prod.fst (if_pos last)

section
variable {s t : State} {l : Index8}

/-- A quiet link at its skip frame (R136). -/
theorem State.Marked.skipped (marked : s.Marked t) (running : s.nextView.running = true)
    (keyed : ((s.link l).beforeKeying s.nextView).state = .keyed) (skips : (s.link l).Skips) :
    (t.link l).state = .keyed ∧ (t.link l).keyed = false ∧ (t.link l).skipCounter = 0 := by
  have judged := marked.link l
  have before := (s.link l).beforeKeying_approaches s.nextView
  have still : ((s.link l).beforeKeying s.nextView).Skips := by
    unfold Link.Skips
    rw [before.settings, before.skipCounter]
    exact skips
  refine ⟨judged.state.trans keyed, Bool.eq_false_iff.mpr fun on => ((judged.keyed running).mp on).2.2.2 still, ?_⟩
  exact (judged.skipCounter running keyed).trans (skipStep_skipped still)

/-- A link's LINK STATUS offered at a mark (R144). -/
theorem State.Marked.offers (marked : s.Marked t) (on : (s.link l).state ≠ .off)
    (full : (s.link l).settings.cadence ≤ (s.link l).divider + 1) :
    (t.link l).divider = 0 ∧
      (((t.link l).clearCount = 0 ∧ (t.link l).alarmCount = 0 ∧ (t.link l).silentCount = 0 ∧ (t.link l).blankedCount = 0 ∧
          (t.link l).dropped = 0) ∨
        (t.link l).dropped = min 255 ((s.link l).dropped + 1)) := by
  refine ⟨((marked.link l).divider.trans (Link.beforeKeying_divider on)).trans (if_pos full), ?_⟩
  rcases marked.offered l ((Link.offers_iff on).mpr full) with kept | lost
  · rw [kept]
    exact .inl ⟨rfl, rfl, rfl, rfl, rfl⟩
  · rw [lost]
    exact .inr (congrArg (fun n => min 255 (n + 1)) (Link.takeMark_dropped _ _))

end

/-- Settles O52: each command at its mark, and the SILENT observation. -/
theorem markEventsOfLinks : Obligations.MarkEventsOfLinks := by
  unfold Obligations.MarkEventsOfLinks
  intro s l c quiet mark counts
  have view (is : mark) : s.nextView.running = true := decide_eq_true is.2.1
  have whole (is : mark) : s.Marked s.boundary := State.boundary_spec is.1 (.inl is.2.1) is.2.2
  have marks (is : mark) : exec .frameMark s = .next s.boundary := State.execFrameMark_mark is.1 (.inl is.2.1)
  have serial (is : mark) : s.boundary.air.serial = s.air.serial + 1 := (congrArg Air.serial (whole is).air :)
  have due (is : mark) : s.markDue = true := s.markDue_true is.1 (.inl is.2.1)
  refine ⟨fun second => ?_, fun is calm skips => ⟨fun last => ?_, fun early => ?_⟩, fun is calm frame => ?_,
    fun is on => ⟨fun full => ?_, fun short => ?_⟩, fun is f frame on untaken none short => ?_⟩
  · have no := State.markDue_false (.inl second)
    refine ⟨congrArg Host.Outcome.next (if_neg ?_), congrArg Host.Outcome.next (if_neg ?_),
      congrArg Host.Outcome.next (if_neg ?_)⟩
    · unfold State.skipDue
      rw [no]
      exact Bool.false_ne_true
    · unfold State.cleanRunDue
      rw [no]
      exact Bool.false_ne_true
    · rw [no]
      exact fun h => Bool.false_ne_true h.1
  · have keyed := Link.beforeKeying_keeps (v := s.nextView) calm.1 calm.2.1 calm.2.2
    have skipped := Link.skips_iff.mpr last
    exact ⟨s.boundary, congrArg Host.Outcome.next (if_pos ((State.skipDue_iff l is.1 is.2.1 is.2.2).mpr ⟨keyed, skipped⟩)),
      marks is, serial is, (whole is).skipped (view is) keyed skipped⟩
  · refine congrArg Host.Outcome.next (if_neg fun falls => ?_)
    have last := Link.skips_iff.mp ((State.skipDue_iff l is.1 is.2.1 is.2.2).mp falls).2
    have counter : (s.link l).skipCounter < 4 := early
    omega
  · have unseen := (s.link l).endFrame_unobserved s.nextView (.inr (.inr calm.2.1))
    have falls := State.cleanRunDue_iff l is.1 is.2.1 is.2.2
    rw [unseen] at falls
    have ends : s.nextView.ended.isSome = true := (Option.isSome_map ..).trans frame
    refine ⟨fun last => ⟨s.boundary, congrArg Host.Outcome.next (if_pos (falls.mpr ⟨frame, calm.2.2, ?_⟩)), marks is, serial is, ?_⟩,
      fun few => congrArg Host.Outcome.next (if_neg fun h => ?_)⟩
    · show (s.link l).cleanRun + 1 = 30
      exact congrArg (· + 1) last
    · have counted := (whole is).counted l
      unfold Link.Counted at counted
      rw [counted]
      exact Link.takeMark_thirtieth calm.1 calm.2.1 calm.2.2 ends last
    · have last : (s.link l).cleanRun + 1 = 30 := (falls.mp h).2.2
      have few : (s.link l).cleanRun < 29 := few
      omega
  · obtain ⟨divider, done⟩ := (whole is).offers on full
    refine ⟨s.boundary, congrArg Host.Outcome.next (if_pos ⟨due is, (Link.offers_iff on).mpr full⟩), marks is, serial is, divider,
      done.imp (fun zero => ?_) id⟩
    obtain ⟨clear, alarm, silent, blanked, dropped⟩ := zero
    refine ⟨?_, dropped⟩
    show ((s.boundary.link l).clearCount, _, _, _) = _
    rw [clear, alarm, silent, blanked]
  · exact congrArg Host.Outcome.next (if_neg fun h => Nat.not_le.mpr short ((Link.offers_iff on).mp h.2))
  · have ended : s.nextView.ended = some f.serial := (congrArg (Option.map Frame.serial) frame :)
    have unoffered : (s.link l).offers = false := Bool.eq_false_iff.mpr fun h => Nat.not_le.mpr short ((Link.offers_iff on).mp h)
    have after := (whole is).quiet l unoffered
    have bears := (s.link l).endFrame_bears s.nextView
    have kept := (Link.takeMark_observed (v := s.nextView) none).1
    have divider := ((whole is).link l).divider.trans ((Link.beforeKeying_divider on).trans (if_neg (Nat.not_le.mpr short)))
    have bit := (whole is).linkBit
    refine ⟨s.boundary, marks is, ?_⟩
    intro d capture latch latched inService
    have is : d = (s.link l).takeMark s.nextView := after
    refine ⟨?_, ?_, ?_, divider, ?_, fun blanks => ?_, fun free => ?_⟩
    · rw [is]; exact kept.clearCount.trans bears.clearCount
    · rw [is]; exact kept.alarmCount.trans bears.alarmCount
    · rw [is]; exact kept.dropped.trans bears.dropped
    · rw [is]; exact kept.recovery.trans bears.recovery
    · rw [is]
      exact Link.takeMark_blanked ended on untaken none blanks
    · obtain ⟨silent, blanked, last, alert⟩ := Link.takeMark_noted ended on untaken none free
      rw [is]
      refine ⟨silent, blanked, last, alert, fun service few => Link.takeMark_strikes ended on untaken none free service few,
        fun service many => ?_, fun out => Link.takeMark_tripped ended on untaken none free out,
        fun rests => Link.takeMark_resting ended on untaken none free rests⟩
      obtain ⟨trips, state, keyed, capture, latch, fault, clear, clean, blanking, trip⟩ :=
        Link.takeMark_trips ended on untaken none free service many
      refine ⟨state, keyed, capture, latch, fault, clear, clean, blanking, trip, bit.trans ?_⟩
      rw [List.any_eq_true.mpr ⟨l, List.mem_finRange l, trips⟩, Bool.or_true]

end Sys2Proof.Machine
end
